-- ==== Sys2Proof/Word.lean ====
section
/-! DEFINITION. The words of SDMMC-CODEC: a byte on the wire, a 32-bit argument, sector number or register, and a
512-byte block (spec/00_scope.md R11, R12). Bit 0 is the least significant bit of every value; all values are unsigned. -/

namespace Sys2Proof

/-- One byte: what one exchange carries each way (R11, R40). -/
abbrev Byte := BitVec 8

/-- A 32-bit unsigned value: command argument, protocol address, sector number, R3 or R7 register (R11). -/
abbrev Word := BitVec 32

/-- The payload of one data block, byte 0 first on the wire (R11, R37, R55). -/
abbrev Block := Vector Byte 512

end Sys2Proof
end

