-- ==== Sys2Proof/Machine/Flags.lean ====
section
/-! DEFINITION. The flags of SDMMC-CODEC: the bits of R1 (spec/10_state.md R33, spec/30_encoding.md R75), the
idle bit of a composed R2 (R76), the CCS bit of the OCR (R81), the echo field of an R7 (R78), and the classes of a
data-response byte (R84, R156). There are no arithmetic flags (R33). -/

namespace Sys2Proof.Machine

/-- R130: a byte is a valid R1 exactly when bit 7 is clear. -/
def r1Valid (b : Byte) : Bool := !b.getLsbD 7

/-- R131, illegal(r): the illegal-command bit, bit 2. -/
def r1IllegalCommand (r : Byte) : Bool := r.getLsbD 2

/-- R131, idle(r): the idle-state bit, bit 0. -/
def r1Idle (r : Byte) : Bool := r.getLsbD 0

/-- R131, ready(r): a test of the whole byte, not of bit 0 alone. -/
def r1Ready (r : Byte) : Bool := r == 0x00

/-- R110: CMD55's R1 lets the application command go on exactly when it is ready (0x00) or idle (0x01). -/
def r1IdleOrReady (r : Byte) : Bool := r == 0x00 || r == 0x01

/-- R76, R184: the idle-state bit of a composed 16-bit R2 is bit 8. -/
def r2Idle (v : BitVec 16) : Bool := v.getLsbD 8

/-- R81: CCS is bit 30 of the OCR. -/
def ocrCcs (ocr : Word) : Bool := ocr.getLsbD 30

/-- R78: the echoed check pattern, bits 7:0 of an R7's register. -/
def r7Echo (reg : Word) : Byte := reg.extractLsb' 0 8

/-- R78, R174: the echo the initialization sequence requires. -/
def r7EchoOk (reg : Word) : Bool := r7Echo reg == 0xAA

/-- R82: the data start token. -/
def isStartToken (b : Byte) : Bool := b == 0xFE

/-- R85: a received 0x00 means busy; any other value ends the busy poll. -/
def isBusyByte (b : Byte) : Bool := b == 0x00

/-- What a data-response byte says (R84). -/
inductive DataResponse where
  | accepted
  | crcError
  | writeError
  | badFormat
  deriving DecidableEq, Repr

/-- R156, DECODE_DRESP: the format bit (bit 4) is tested first, then the nibble. Bits 7:5 are not examined. A nibble that
is none of the three is a format error too (decision D24). -/
def classifyDresp (d : Byte) : DataResponse :=
  if d.getLsbD 4 then .badFormat
  else if d.extractLsb' 0 4 = 0b0101 then .accepted
  else if d.extractLsb' 0 4 = 0b1011 then .crcError
  else if d.extractLsb' 0 4 = 0b1101 then .writeError
  else .badFormat

end Sys2Proof.Machine
end

