-- ==== Sys2Proof/Machine/Datapath.lean ====
section
/-! DEFINITION. The datapath registers of SDMMC-CODEC (spec/10_state.md R30), live inside one host operation only (R20). -/

namespace Sys2Proof.Machine

/-- R30: the working registers. Between host operations their value is unspecified (R20, U10). -/
structure Datapath where
  /-- IDX: command index of the frame being built. -/
  idx : BitVec 6
  /-- ARG: command argument of the frame being built. -/
  arg : Word
  /-- FRAME: the command frame, byte 0 first on the wire (R31). -/
  frame : Vector Byte 6
  /-- CRC7: the shift register (R32). -/
  crc7 : BitVec 7
  /-- R1: the last accepted R1 byte (R33). -/
  r1 : Byte
  /-- R2B: the second byte of an R2 (R34). -/
  r2b : Byte
  /-- REG32: the register of an R3 or R7 (R35). -/
  reg32 : Word
  /-- DRESP: the data-response byte of a write (R36). -/
  dresp : Byte
  /-- BUF: the staging buffer (R37, R53). -/
  buf : Block
  /-- CRC16: the two CRC bytes received after a read payload; never examined (R30, R150). -/
  crc16 : BitVec 16
  /-- ADDR: protocol address of the current block (R38). -/
  addr : Word
  /-- SECT: current sector number of a run (R38). -/
  sect : Word
  /-- REMAIN: sectors still to transfer (R38). -/
  remain : Word
  /-- POLL: poll attempt counter, 1 for the first attempt (R39). -/
  poll : Nat
  /-- ITER: loop iteration counter, 1 for the first attempt (R39). -/
  iter : Nat
  /-- The local variable off of READ_RUN and WRITE_RUN (R160, R161): the offset of the current sector in the host buffer. -/
  off : Nat
  deriving DecidableEq, Repr, Inhabited

end Sys2Proof.Machine
end

