-- ==== Sys2Proof/Config.lean ====
section
/-! DEFINITION. What is fixed for one block and what is left open: the parameters of spec/00_scope.md R10, and the free
values. The parameters R10 fixes (FILL, TOKEN_START, BLOCK_LEN, CRC_LEN, N_SPI_FILL, T_INIT_DELAY_MS, CRC16_FILL) are
constants of Machine/Operands.lean. -/

namespace Sys2Proof

/-- R40: the outcome of one byte exchange, chosen by the environment under no law: a received byte, or failure. -/
inductive Reply where
  | ok (b : Byte)
  | fail
  deriving DecidableEq, Repr, Inhabited

/-- The parameters of R10 that the spec leaves OPEN. They are constant for the life of the block; State carries them so
that every statement holds for all of their values (log entry 2). -/
structure Config where
  /-- N_R1: poll attempts for one R1 byte. -/
  nR1 : Nat
  /-- N_TOKEN: poll attempts for the data start token. -/
  nToken : Nat
  /-- N_BUSY: poll attempts of the write-busy poll; none is the value "unbounded". -/
  nBusy : Option Nat
  /-- N_INIT_V2: iterations of the ACMD41 (HCS set) loop. -/
  nInitV2 : Nat
  /-- N_INIT_LEGACY: iterations of the ACMD41 (HCS clear) loop. -/
  nInitLegacy : Nat
  /-- N_INIT_MMC: iterations of the CMD1 loop. -/
  nInitMmc : Nat
  /-- T_BYTE: timeout operand handed to the transport; no rule reads it. -/
  tByte : Nat
  deriving DecidableEq, Repr

/-- R10: the ranges of the parameters, each at least 1, N_BUSY at least 1 or unbounded. -/
def Config.wf (c : Config) : Bool :=
  decide (1 ≤ c.nR1) && decide (1 ≤ c.nToken) && (c.nBusy.all fun n => decide (1 ≤ n)) && decide (1 ≤ c.nInitV2) &&
    decide (1 ≤ c.nInitLegacy) && decide (1 ≤ c.nInitMmc)

/-- R10: the parameter values the spec's test vectors use. T_BYTE has none: DESIGN CHOICE, log entry 3. -/
def Config.vectors : Config :=
  { nR1 := 10, nToken := 32, nBusy := some 16, nInitV2 := 1000, nInitLegacy := 1000, nInitMmc := 1000, tByte := 0 }

/-- Free value: the outcome of an exchange that the state's script of card answers does not give (R40, U8; log entry 1). -/
opaque Config.cardReply : Nat → Reply

/-- Free value: the datapath registers after a host operation (R20, U10; log entry 5). -/
opaque Config.freeDatapath : Nat → Machine.Datapath

end Sys2Proof
end

