-- ==== Sys2Proof/Machine/Frame.lean ====
section
/-! DEFINITION. The pure part of the command codec: CRC7 and the six bytes of a command frame
(spec/40_command_codec.md R100 to R104, spec/30_encoding.md R71, R74). -/

namespace Sys2Proof.Machine

/-- R100, CRC7_BIT: one step of the CRC7 shift register, polynomial 0x09. -/
def crc7Bit (c : BitVec 7) (b : Bool) : BitVec 7 :=
  let shifted := c <<< 1
  if c.getLsbD 6 ^^ b then shifted ^^^ 0x09 else shifted

/-- The bits of a byte, most significant first: the order R101 feeds them in. -/
def bitsMsbFirst (b : Byte) : List Bool :=
  [7, 6, 5, 4, 3, 2, 1, 0].map fun k => b.getLsbD k

/-- R101: eight steps of the register, for one byte of the run. -/
def crc7Byte (c : BitVec 7) (b : Byte) : BitVec 7 := (bitsMsbFirst b).foldl crc7Bit c

/-- R101, CRC7_RUN: CRC7 over a byte run of any length, start value 0, no reflection, no final xor. -/
def crc7Run (bytes : List Byte) : BitVec 7 := bytes.foldl crc7Byte 0

/-- R102: the CRC in bits 7:1 and the stop bit 1 in bit 0. -/
def crcSlot (c : BitVec 7) : Byte := c ++ (1 : BitVec 1)

/-- R102, CRC_BYTE. -/
def crcByte (bytes : List Byte) : Byte := crcSlot (crc7Run bytes)

/-- R71: byte 0 of a frame, the start marker 0b01 over the command index: 0x40 | index. -/
def frameByte0 (idx : BitVec 6) : Byte := 0x40 ||| idx.setWidth 8

/-- R54: a 32-bit value as four bytes, most significant first. -/
def wordBytes (w : Word) : List Byte :=
  [w.extractLsb' 24 8, w.extractLsb' 16 8, w.extractLsb' 8 8, w.extractLsb' 0 8]

/-- R104: the five bytes the CRC is computed over, FRAME[0..4]. -/
def frameHead (idx : BitVec 6) (arg : Word) : List Byte := frameByte0 idx :: wordBytes arg

/-- R104: the CRC7 of a frame. -/
def frameCrc (idx : BitVec 6) (arg : Word) : BitVec 7 := crc7Run (frameHead idx arg)

/-- R104, BUILD_COMMAND's result: the six bytes of FRAME. -/
def buildFrame (idx : BitVec 6) (arg : Word) : Vector Byte 6 :=
  #v[frameByte0 idx, arg.extractLsb' 24 8, arg.extractLsb' 16 8, arg.extractLsb' 8 8, arg.extractLsb' 0 8,
    crcByte (frameHead idx arg)]

end Sys2Proof.Machine
end

