-- ==== Sys2Proof/Syntax.lean ====
section
/-! DEFINITION. The instructions of SDMMC-CODEC, one constructor per row of spec/opcode_table.json: the card commands the
block encodes onto the wire, the formats it receives or sends byte by byte, and the eight host operations
(spec/30_encoding.md R70, R87, R88). -/

namespace Sys2Proof

/-- Which way a data token or a data block goes: R70 gives F-TOK and F-BLK the direction "both". The direction is no bit
of the encoding; it is known from the place in the procedure. -/
inductive Dir where
  | fromCard
  | toCard
  deriving DecidableEq, Repr

/-- The formats of R70. A byte sequence is decoded in the format that is due: the length and the meaning of what arrives
are never read from the wire (R94). -/
inductive Format where
  | fCmd
  | fR1
  | fR2
  | fR3
  | fR7
  | fTok (d : Dir)
  | fBlk (d : Dir)
  | fDresp
  | fBusy
  | fFill
  | fHost
  deriving DecidableEq, Repr

/-- One constructor per row of spec/opcode_table.json, in the table's order. -/
inductive Instr where
  /-- CMD0, GO_IDLE_STATE (R111). -/
  | cmd0
  /-- CMD1, SEND_OP_COND (R112). -/
  | cmd1
  /-- CMD8, SEND_IF_COND (R113). -/
  | cmd8
  /-- CMD13, SEND_STATUS (R114). -/
  | cmd13
  /-- CMD55, APP_CMD (R117). -/
  | cmd55
  /-- CMD58, READ_OCR (R118). -/
  | cmd58
  /-- ACMD41 with HCS set (R119). -/
  | acmd41Hcs
  /-- ACMD41 with HCS clear (R119). -/
  | acmd41
  /-- CMD17, READ_SINGLE_BLOCK, with its protocol address and the frame's CRC field (R115). -/
  | cmd17 (addr : Word) (crc : BitVec 7)
  /-- CMD24, WRITE_BLOCK, with its protocol address and the frame's CRC field (R116). -/
  | cmd24 (addr : Word) (crc : BitVec 7)
  /-- The generic frame of BUILD_COMMAND (R104). -/
  | frame (idx : BitVec 6) (arg : Word) (crc : BitVec 7)
  /-- A valid R1: bit 7 clear (R130). -/
  | r1 (b : Byte)
  /-- A byte with bit 7 set while an R1 is polled for: no response (R130). -/
  | notR1 (b : Byte)
  /-- R2 in full length: an R1 without illegal-command, then one status byte (R134). -/
  | r2 (r : Byte) (status : Byte)
  /-- R3 in full length: an R1 without illegal-command, then the 32-bit OCR (R132). -/
  | r3 (r : Byte) (ocr : Word)
  /-- R7 in full length: an R1 without illegal-command, then the 32-bit echo register (R133). -/
  | r7 (r : Byte) (reg : Word)
  /-- An R1 with illegal-command where an R2, R3 or R7 was due: the response is this one byte (R132). -/
  | r1Illegal (b : Byte)
  /-- The data start token 0xFE (R148, R154). -/
  | dataStart (d : Dir)
  /-- A data block: token, 512 payload bytes, 2 CRC bytes (R83, R146, R152). -/
  | dataBlock (d : Dir) (payload : Block) (crc : BitVec 16)
  /-- Data response: accepted (R156). -/
  | drespAccepted (b : Byte)
  /-- Data response: CRC error (R156). -/
  | drespCrcError (b : Byte)
  /-- Data response: write error (R156). -/
  | drespWriteError (b : Byte)
  /-- Data response of no valid format (R156): bit 4 set, or a nibble that is none of the three. -/
  | drespBadFormat (b : Byte)
  /-- The busy byte 0x00 (R158). -/
  | busy
  /-- The filler byte 0xFF sent by the block (R106). -/
  | fill
  /-- INITIALIZE (R201). -/
  | initializeCard
  /-- GET_TYPE (R202). -/
  | getType
  /-- WAKE_UP (R203). -/
  | wakeUp
  /-- READ_SECTOR (R205). The host buffer is the state's, see Machine/State.lean. -/
  | readSector (sector : Word)
  /-- WRITE_SECTOR (R206). -/
  | writeSector (sector : Word)
  /-- READ_SECTORS (R207). -/
  | readSectors (sector count timeout : Word)
  /-- WRITE_SECTORS (R208). -/
  | writeSectors (sector count timeout : Word)
  /-- GET_STATUS (R209). -/
  | getStatus
  deriving DecidableEq, Repr

/-- The format an instruction's bytes are laid out in (R70, R87, R88). R1.ILLEGAL stands where an R2, R3 or R7 was due;
its row cites R132, so it is laid out where an R3 is due. -/
def Instr.format : Instr → Format
  | .cmd0 | .cmd1 | .cmd8 | .cmd13 | .cmd55 | .cmd58 | .acmd41Hcs | .acmd41 => .fCmd
  | .cmd17 _ _ | .cmd24 _ _ | .frame _ _ _ => .fCmd
  | .r1 _ | .notR1 _ => .fR1
  | .r2 _ _ => .fR2
  | .r3 _ _ | .r1Illegal _ => .fR3
  | .r7 _ _ => .fR7
  | .dataStart d => .fTok d
  | .dataBlock d _ _ => .fBlk d
  | .drespAccepted _ | .drespCrcError _ | .drespWriteError _ | .drespBadFormat _ => .fDresp
  | .busy => .fBusy
  | .fill => .fFill
  | .initializeCard | .getType | .wakeUp | .readSector _ | .writeSector _ => .fHost
  | .readSectors _ _ _ | .writeSectors _ _ _ | .getStatus => .fHost

end Sys2Proof
end

