-- ==== Sys2Proof/WellFormed.lean ====
section
/-! DEFINITION. Which terms of Instr are instructions of the table: the fixed bits of each row's pattern
(spec/opcode_table.json), the CRC7 of a frame (spec/30_encoding.md R71, R74), and the CRC bytes of a block that the block
sends (R83). -/

namespace Sys2Proof

open Sys2Proof.Machine

/-- The frames that have a row of their own: the fixed commands of R87 by index and argument, and every CMD17 and CMD24. A
generic FRAME term stands for none of these. -/
def hasOwnRow (idx : BitVec 6) (arg : Word) : Bool :=
  idx == 17 || idx == 24 || (idx == 0 && arg == 0) || (idx == 1 && arg == 0) || (idx == 8 && arg == 0x1AA) ||
    (idx == 13 && arg == 0) || (idx == 55 && arg == 0) || (idx == 58 && arg == 0) ||
    (idx == 41 && (arg == 0x40000000 || arg == 0))

/-- The first byte of an R2, R3 or R7 in full length: valid, and illegal-command clear (mask 0x84 of the rows). -/
def fullLengthR1 (r : Byte) : Bool := r1Valid r && !r1IllegalCommand r

/-- A well-formed instruction: its fields have the values its row's pattern fixes. -/
def WellFormed : Instr → Bool
  | .cmd0 | .cmd1 | .cmd8 | .cmd13 | .cmd55 | .cmd58 | .acmd41Hcs | .acmd41 => true
  | .cmd17 addr crc => crc == frameCrc 17 addr
  | .cmd24 addr crc => crc == frameCrc 24 addr
  | .frame idx arg crc => crc == frameCrc idx arg && !hasOwnRow idx arg
  | .r1 b => r1Valid b
  | .notR1 b => !r1Valid b
  | .r2 r _ => fullLengthR1 r
  | .r3 r _ => fullLengthR1 r
  | .r7 r _ => fullLengthR1 r
  | .r1Illegal b => r1Valid b && r1IllegalCommand b
  | .dataStart _ => true
  | .dataBlock .fromCard _ _ => true
  | .dataBlock .toCard _ crc => crc == 0xFFFF
  | .drespAccepted b => classifyDresp b == .accepted
  | .drespCrcError b => classifyDresp b == .crcError
  | .drespWriteError b => classifyDresp b == .writeError
  | .drespBadFormat b => classifyDresp b == .badFormat
  | .busy | .fill => true
  | .initializeCard | .getType | .wakeUp | .readSector _ | .writeSector _ => true
  | .readSectors _ _ _ | .writeSectors _ _ _ | .getStatus => true

end Sys2Proof
end

