-- ==== Sys2Proof/Decode.lean ====
section
/-! DEFINITION. Decoding, total on any bytes in any format, rejecting by name (spec/30_encoding.md R70 to R94), and the
encoder, written from the same tables. A byte sequence is decoded IN THE FORMAT THAT IS DUE (R94): the same byte is an R1,
a busy byte or a host operation code according to where it stands. -/

namespace Sys2Proof

open Sys2Proof.Machine

/-- Why a byte sequence is no instruction of the format it is read in. -/
inductive DecodeError where
  /-- The format's length is fixed and the sequence ends before it. -/
  | tooShort
  /-- F-CMD: bits 47:46 are not 0b01 (R71). -/
  | badStartMarker
  /-- F-CMD: bit 0 is not 1 (R71). -/
  | badStopBit
  /-- F-TOK, F-BLK: the first byte is not 0xFE (R82). -/
  | notStartToken
  /-- F-BUSY: the byte is not 0x00; it ends the busy poll and has no row (R85). -/
  | notBusyByte
  /-- F-FILL: the byte is not 0xFF (R86). -/
  | notFiller
  /-- F-HOST: the byte that carries the 3-bit operation code is above 7 (R88). -/
  | badOperationCode
  deriving DecidableEq, Repr

/-- What decoding answers: an instruction and the bytes after it, or the reason there is none. -/
abbrev Decoded := Except DecodeError (Instr × List Byte)

/-- R54: four bytes in order of arrival as a 32-bit value, the first one most significant. -/
def beWord (b0 b1 b2 b3 : Byte) : Word := b0 ++ b1 ++ b2 ++ b3

/-- The rows of spec/opcode_table.json whose 48 bits are all fixed: index, argument, CRC7, instruction (R87). -/
def fixedFrames : List (BitVec 6 × Word × BitVec 7 × Instr) :=
  [(0, 0x00000000, 0x4A, .cmd0), (1, 0x00000000, 0x7C, .cmd1), (8, 0x000001AA, 0x43, .cmd8),
    (13, 0x00000000, 0x06, .cmd13), (55, 0x00000000, 0x32, .cmd55), (58, 0x00000000, 0x7E, .cmd58),
    (41, 0x40000000, 0x3B, .acmd41Hcs), (41, 0x00000000, 0x72, .acmd41)]

/-- The row a frame's fields belong to: a fixed row if all 48 bits agree, CMD17 and CMD24 by their index, else FRAME. -/
def frameRow (idx : BitVec 6) (arg : Word) (crc : BitVec 7) : Instr :=
  match fixedFrames.find? (fun r => r.1 == idx && r.2.1 == arg && r.2.2.1 == crc) with
  | some r => r.2.2.2
  | none => if idx = 17 then .cmd17 arg crc else if idx = 24 then .cmd24 arg crc else .frame idx arg crc

/-- R71: the six bytes of a command frame. -/
def decodeFrame (b0 b1 b2 b3 b4 b5 : Byte) : Except DecodeError Instr :=
  if b0.extractLsb' 6 2 ≠ 0b01 then .error .badStartMarker
  else if b5.getLsbD 0 = false then .error .badStopBit
  else .ok (frameRow (b0.extractLsb' 0 6) (beWord b1 b2 b3 b4) (b5.extractLsb' 1 7))

/-- R75, R90: the byte that arrives where an R1 is polled for. -/
def decodeR1 (b : Byte) : Instr := if r1Valid b then .r1 b else .notR1 b

/-- R76 to R78, R94: where an R2, R3 or R7 is due, a byte with bit 7 set is no response and an R1 with illegal-command
cuts the response to one byte; otherwise the rest of the format follows. -/
def decodeLong (full : Byte → List Byte → Decoded) (b : Byte) (rest : List Byte) : Decoded :=
  if !r1Valid b then .ok (.notR1 b, rest)
  else if r1IllegalCommand b then .ok (.r1Illegal b, rest)
  else full b rest

/-- R76: the second byte of an R2. -/
def decodeR2Rest (r : Byte) : List Byte → Decoded
  | s :: rest => .ok (.r2 r s, rest)
  | [] => .error .tooShort

/-- R77: the four register bytes of an R3. -/
def decodeR3Rest (r : Byte) : List Byte → Decoded
  | b0 :: b1 :: b2 :: b3 :: rest => .ok (.r3 r (beWord b0 b1 b2 b3), rest)
  | _ => .error .tooShort

/-- R78: the four register bytes of an R7. -/
def decodeR7Rest (r : Byte) : List Byte → Decoded
  | b0 :: b1 :: b2 :: b3 :: rest => .ok (.r7 r (beWord b0 b1 b2 b3), rest)
  | _ => .error .tooShort

/-- R84, R156: a data-response byte; every byte belongs to one of the four classes. -/
def decodeDresp (b : Byte) : Instr :=
  match classifyDresp b with
  | .accepted => .drespAccepted b
  | .crcError => .drespCrcError b
  | .writeError => .drespWriteError b
  | .badFormat => .drespBadFormat b

/-- The first 512 bytes as a block, and the rest. -/
def takeBlock (bytes : List Byte) : Option (Block × List Byte) :=
  if h : 512 ≤ bytes.length then some (⟨(bytes.take 512).toArray, by simp [h]⟩, bytes.drop 512) else none

/-- R83: the payload and the two CRC bytes of a data block, after its start token. -/
def decodeBlockRest (d : Dir) (bytes : List Byte) : Decoded :=
  match takeBlock bytes with
  | some (payload, c0 :: c1 :: rest) => .ok (.dataBlock d payload (c0 ++ c1), rest)
  | _ => .error .tooShort

/-- The operands of a host operation on the host port, each 32 bits, most significant byte first (log entry 9). -/
def decodeOneWord (f : Word → Instr) : List Byte → Decoded
  | b0 :: b1 :: b2 :: b3 :: rest => .ok (f (beWord b0 b1 b2 b3), rest)
  | _ => .error .tooShort

/-- Three operand words: sector, count, timeout (R207, R208; log entry 9). -/
def decodeThreeWords (f : Word → Word → Word → Instr) : List Byte → Decoded
  | a0 :: a1 :: a2 :: a3 :: b0 :: b1 :: b2 :: b3 :: c0 :: c1 :: c2 :: c3 :: rest =>
    .ok (f (beWord a0 a1 a2 a3) (beWord b0 b1 b2 b3) (beWord c0 c1 c2 c3), rest)
  | _ => .error .tooShort

/-- R88: the operation code is the low three bits of the request's first byte; the upper five are 0 (log entry 9). -/
def decodeHost (code : Byte) (rest : List Byte) : Decoded :=
  match code.toNat with
  | 0 => .ok (.initializeCard, rest)
  | 1 => .ok (.getType, rest)
  | 2 => .ok (.wakeUp, rest)
  | 3 => decodeOneWord .readSector rest
  | 4 => decodeOneWord .writeSector rest
  | 5 => decodeThreeWords .readSectors rest
  | 6 => decodeThreeWords .writeSectors rest
  | 7 => .ok (.getStatus, rest)
  | _ => .error .badOperationCode

/-- The decoder: the instruction at the front of a byte sequence read in format f, and the bytes after it. -/
def decode (f : Format) (bytes : List Byte) : Decoded :=
  match f, bytes with
  | .fCmd, b0 :: b1 :: b2 :: b3 :: b4 :: b5 :: rest => (decodeFrame b0 b1 b2 b3 b4 b5).map fun i => (i, rest)
  | .fCmd, _ => .error .tooShort
  | .fR1, b :: rest => .ok (decodeR1 b, rest)
  | .fR2, b :: rest => decodeLong decodeR2Rest b rest
  | .fR3, b :: rest => decodeLong decodeR3Rest b rest
  | .fR7, b :: rest => decodeLong decodeR7Rest b rest
  | .fTok d, b :: rest => if isStartToken b then .ok (.dataStart d, rest) else .error .notStartToken
  | .fBlk d, b :: rest => if isStartToken b then decodeBlockRest d rest else .error .notStartToken
  | .fDresp, b :: rest => .ok (decodeDresp b, rest)
  | .fBusy, b :: rest => if isBusyByte b then .ok (.busy, rest) else .error .notBusyByte
  | .fFill, b :: rest => if b = 0xFF then .ok (.fill, rest) else .error .notFiller
  | .fHost, b :: rest => decodeHost b rest
  | _, [] => .error .tooShort

/-! ## The encoder -/

/-- R71: a frame's bytes from its fields: 0x40 | index, the argument most significant byte first, the CRC field and the
stop bit. -/
def encodeFrame (idx : BitVec 6) (arg : Word) (crc : BitVec 7) : List Byte :=
  ((0b01 : BitVec 2) ++ idx) :: wordBytes arg ++ [crc ++ (0b1 : BitVec 1)]

/-- The bytes of an instruction in its format, first byte first in time. -/
def encode : Instr → List Byte
  | .cmd0 => [0x40, 0x00, 0x00, 0x00, 0x00, 0x95]
  | .cmd1 => [0x41, 0x00, 0x00, 0x00, 0x00, 0xF9]
  | .cmd8 => [0x48, 0x00, 0x00, 0x01, 0xAA, 0x87]
  | .cmd13 => [0x4D, 0x00, 0x00, 0x00, 0x00, 0x0D]
  | .cmd55 => [0x77, 0x00, 0x00, 0x00, 0x00, 0x65]
  | .cmd58 => [0x7A, 0x00, 0x00, 0x00, 0x00, 0xFD]
  | .acmd41Hcs => [0x69, 0x40, 0x00, 0x00, 0x00, 0x77]
  | .acmd41 => [0x69, 0x00, 0x00, 0x00, 0x00, 0xE5]
  | .cmd17 addr crc => encodeFrame 17 addr crc
  | .cmd24 addr crc => encodeFrame 24 addr crc
  | .frame idx arg crc => encodeFrame idx arg crc
  | .r1 b => [b]
  | .notR1 b => [b]
  | .r2 r status => [r, status]
  | .r3 r ocr => r :: wordBytes ocr
  | .r7 r reg => r :: wordBytes reg
  | .r1Illegal b => [b]
  | .dataStart _ => [0xFE]
  | .dataBlock _ payload crc => 0xFE :: payload.toList ++ [crc.extractLsb' 8 8, crc.extractLsb' 0 8]
  | .drespAccepted b => [b]
  | .drespCrcError b => [b]
  | .drespWriteError b => [b]
  | .drespBadFormat b => [b]
  | .busy => [0x00]
  | .fill => [0xFF]
  | .initializeCard => [0x00]
  | .getType => [0x01]
  | .wakeUp => [0x02]
  | .readSector sector => 0x03 :: wordBytes sector
  | .writeSector sector => 0x04 :: wordBytes sector
  | .readSectors sector count timeout => 0x05 :: (wordBytes sector ++ wordBytes count ++ wordBytes timeout)
  | .writeSectors sector count timeout => 0x06 :: (wordBytes sector ++ wordBytes count ++ wordBytes timeout)
  | .getStatus => [0x07]

/-! ## Words as spec/opcode_table.json numbers them -/

/-- The bytes of a table word: the table's bit nbits - 1 is the most significant bit of the first byte in time, as its
frames are numbered (R71: "frame bit 47 the most significant bit of byte 0"; log entry 11). -/
def tableBytes (nbits w : Nat) : List Byte :=
  (List.range (nbits / 8)).reverse.map fun i => BitVec.ofNat 8 (w >>> (8 * i))

/-- Which format a single byte of the table is read in when nothing says what is due: the row with the most fixed bits
wins, and among the codes below 8 the host operation, which is what the block waits for after reset (DESIGN CHOICE, log entry
12). The token 0xFE, which R70 and R82 give both directions, is then read as from the card (DESIGN CHOICE, log entries 12, 18). -/
def byteFormat (b : Byte) : Format :=
  if b.toNat < 8 then .fHost
  else if isStartToken b then .fTok .fromCard
  else if b = 0xFF then .fFill
  else if classifyDresp b ≠ .badFormat then .fDresp
  else if r1Valid b && r1IllegalCommand b then .fR3
  else if b.getLsbD 4 then .fDresp
  else .fR1

/-- Which format a table word is read in, by its length (DESIGN CHOICE, log entry 12). R3 and R7 have one pattern; a word whose
low byte is the check pattern 0xAA is read as an R7. A data block, which R70 gives both directions, is read as from the card
(log entry 18). -/
def tableFormat (nbits w : Nat) : Option Format :=
  match nbits with
  | 8 => some (byteFormat (BitVec.ofNat 8 w))
  | 16 => some .fR2
  | 40 => some (if w % 256 = 0xAA then .fR7 else .fR3)
  | 48 => some .fCmd
  | 4120 => some (.fBlk .fromCard)
  | _ => none

/-- The bytes of a table word with the operand bytes after it, all zero: enough for the longest host operation. -/
def tableInput (nbits w : Nat) : List Byte := tableBytes nbits w ++ List.replicate 12 0

/-- The instruction the decoder reads from a table word, with its format and the number of bytes it takes. -/
def decodeTable (nbits w : Nat) : Option (Format × Instr × Nat) :=
  match tableFormat nbits w with
  | none => none
  | some f =>
    match decode f (tableInput nbits w) with
    | .ok (i, rest) => some (f, i, (tableInput nbits w).length - rest.length)
    | .error _ => none

/-- The instruction the decoder reads from an instruction whose bits are w, as the table numbers them. -/
def decodeTableWord (nbits w : Nat) : Option Instr := (decodeTable nbits w).map fun r => r.2.1

end Sys2Proof
end

