-- ==== Sys2Proof/Machine/State.lean ====
section
/-! DEFINITION. The state of SDMMC-CODEC as plain data: every state element of spec/10_state.md, the event trace of
spec/20_memory.md R60, the host data buffer, the inputs of the ports, and the state after reset (R48, R261). -/

namespace Sys2Proof.Machine

/-- R21: CTYPE, the session's card type. Codes 5 to 7 are never produced, so they are no value here (log entry 26). -/
inductive CardType where
  | unknown
  | mmcV3
  | sdV1
  | sdV2Byte
  | sdV2Block
  deriving DecidableEq, Repr

/-- R22: SPEED, the transport speed the block last requested. -/
inductive Speed where
  | slow
  | fast
  deriving DecidableEq, Repr

/-- R24: STATE, the session state register. Codes 8 to 15 are never produced (log entry 26). -/
inductive Fsm where
  | unidentified
  | spiReset
  | idleConfirmed
  | voltageCheckedV2
  | voltageCheckedLegacy
  | legacyMmc
  | typeResolved
  | failed
  deriving DecidableEq, Repr

/-- R232: the error kinds, in the order of their codes; none is code 0. -/
inductive ErrKind where
  | none
  | ioError
  | timeout
  | illegalCommand
  | statusNotZero
  | dataCrcError
  | dataWriteError
  | answerFormat
  | voltageMismatch
  | appCmdRejected
  | addressOverflow
  | notReady
  deriving DecidableEq, Repr

/-- R60: the port events. -/
inductive Event where
  | xchg (m : Byte) (o : Reply)
  | setSpeed (s : Speed)
  | csAssert
  | csDeassert
  | lockAcquire
  | lockRelease
  | delayMs (n : Nat)
  deriving DecidableEq, Repr

/-- R89: the wake codes, in the order of their numbers. -/
inductive WakeCode where
  | ready
  | notReady
  | error
  deriving DecidableEq, Repr

/-- R89: the I/O codes, in the order of their numbers. -/
inductive IoCode where
  | ok
  | error
  | notRdy
  deriving DecidableEq, Repr

/-- R89: the status codes, in the order of their numbers. -/
inductive StatusCode where
  | ready
  | notInitialized
  | noMedium
  deriving DecidableEq, Repr

/-- What the last instruction returned (R45, R88, R89): a host operation's result code, or the value of an internal
procedure that was run by itself (log entry 13). -/
inductive Result where
  /-- Nothing has been returned yet. -/
  | none
  /-- INITIALIZE, GET_TYPE. -/
  | cardType (t : CardType)
  /-- WAKE_UP. -/
  | wake (c : WakeCode)
  /-- READ_SECTOR, WRITE_SECTOR, READ_SECTORS, WRITE_SECTORS. -/
  | io (c : IoCode)
  /-- GET_STATUS. -/
  | status (c : StatusCode)
  /-- A procedure that returns an R1. -/
  | r1 (b : Byte)
  /-- A procedure that returns a composed R2. -/
  | r2 (v : BitVec 16)
  /-- A procedure that returns an R1 and REG32. -/
  | reg (r : Byte) (v : Word)
  /-- BUILD_COMMAND. -/
  | frame (f : Vector Byte 6)
  /-- A procedure that returns nothing, ended. -/
  | done
  /-- A single poll attempt that did not end its wait. -/
  | polling
  /-- An operation or procedure still in progress: the unbounded write-busy poll (R158). -/
  | pending
  /-- A procedure run by itself that ended with fail k (R231). -/
  | failed (k : ErrKind)
  deriving DecidableEq, Repr

/-- What goes on in the unbounded write-busy poll (R158, N_BUSY = unbounded): a WRITE_BLOCK by itself, or one inside the
WRITE_RUN of a host operation. -/
inductive Hold where
  | block
  | run
  deriving DecidableEq, Repr

/-- A byte sequence and the format it is to be read in (R94). -/
structure Request where
  format : Format
  bytes : List Byte
  deriving DecidableEq, Repr

/-- R52: the host data buffer, a list of offset and byte in the canonical form of Memory.wf (Machine/Ops.lean). -/
abbrev Memory := List Host.Cell

/-- Why the block has no step. -/
inductive Fault where
  /-- Raised by every host operation but GET_TYPE when LOCK_ACQUIRE is not granted: the block is held and has no step
  (R43, U9, U20). Safe: no claim about a next state can be proved there (log entry 7). -/
  | lockHeld
  deriving DecidableEq, Repr

/-- Why a request is refused. -/
inductive Refusal where
  /-- Raised by exec for an instruction that has no meaning yet. Safe. No instruction is so refused in this model. -/
  | notModelled (mnemonic : String)
  /-- Raised by step when the bytes of a request at the host port are no host operation, or those on the bench no instruction
  of their format (U19). Safe: no step is taken. -/
  | badRequest (e : DecodeError)
  /-- Raised by step when bytes are left over behind the instruction (U19). Safe: no step is taken. -/
  | trailingBytes
  deriving DecidableEq, Repr

/-- The whole state. Session state and status registers first (R20 to R27), then the datapath, the trace, the host data
buffer, and what stands at the ports. -/
structure State where
  /-- The parameters of R10; no step changes them (log entry 2). -/
  cfg : Config
  /-- CTYPE (R21). -/
  ctype : CardType
  /-- SPEED (R22). -/
  speed : Speed
  /-- LOCK (R23): true while the block holds the session's exclusivity. -/
  lock : Bool
  /-- CS (R25): true while chip-select is asserted by the block. -/
  cs : Bool
  /-- STATE (R24). -/
  fsm : Fsm
  /-- ERR (R26). -/
  err : ErrKind
  /-- WARN_IDLE_R1 (R27). -/
  warnIdleR1 : Bool
  /-- The datapath registers (R30). -/
  dp : Datapath
  /-- The event trace (R15, R60), newest event first; State.trace gives it in order (log entry 24). -/
  log : List Event
  /-- The values STATE took, newest first: the model's own record, which no rule reads (log entry 24). -/
  visits : List Fsm
  /-- The host data buffer of the current operation (R50, R52). -/
  buffer : Memory
  /-- The environment's outcomes of the next exchanges, the next one first (R40; log entry 1). -/
  card : List Reply
  /-- How many free values have been drawn: the model's own counter (log entry 6). -/
  draws : Nat
  /-- The lock owner's grant: whether LOCK_ACQUIRE is granted (R43; log entry 7). -/
  grant : Bool
  /-- The requests at the host port, the next one first: bytes in the format F-HOST, so that the host reaches the block by
  the operations of R200 only (R3, R45; log entry 9). -/
  port : List (List Byte)
  /-- A row of the table that no host can ask for, set up to run by itself as the next step: the model's own field and no
  port of the block. No step fills it (log entry 13). -/
  bench : Option Request
  /-- An unbounded write-busy poll in progress (R158; log entry 21). -/
  hold : Option Hold
  /-- What the last instruction returned (R45; log entry 23). -/
  result : Result
  deriving DecidableEq, Repr

/-- R60: the event trace, in the order the block issued the events. -/
def State.trace (s : State) : List Event := s.log.reverse

/-- The values STATE took, in order. -/
def State.fsmTrail (s : State) : List Fsm := s.visits.reverse

/-- The datapath registers after reset. The spec gives none (R48: "unspecified; never read before written"): all zero,
DESIGN CHOICE, log entry 4. -/
def Datapath.reset : Datapath :=
  { idx := 0, arg := 0, frame := Vector.replicate 6 0, crc7 := 0, r1 := 0, r2b := 0, reg32 := 0, dresp := 0,
    buf := Vector.replicate 512 0, crc16 := 0, addr := 0, sect := 0, remain := 0, poll := 0, iter := 0, off := 0 }

/-- R48, R261: the state after reset. The parameters are those of the spec's vectors (log entry 2), the lock is grantable
(R264, log entry 7), the port and the bench are empty and nothing has been returned. -/
def State.reset : State :=
  { cfg := Config.vectors, ctype := .unknown, speed := .slow, lock := false, cs := false, fsm := .unidentified,
    err := .none, warnIdleR1 := false, dp := Datapath.reset, log := [], visits := [], buffer := [], card := [],
    draws := 0, grant := true, port := [], bench := none, hold := none, result := .none }

end Sys2Proof.Machine
end

