-- ==== Sys2Proof/Machine/Operands.lean ====
section
/-! DEFINITION. The operands: the parameters that R10 fixes, the protocol address of a sector (spec/44_host_operations.md
R204), the arguments of the card commands (spec/30_encoding.md R87), the response kinds (R107), and the numeric codes of
every enumeration (R21, R22, R24, R88, R89, R232). -/

namespace Sys2Proof.Machine

/-! ## Fixed parameters (R10) -/

/-- FILL: the byte driven while reading, and the filler byte. -/
def fillByte : Byte := 0xFF

/-- TOKEN_START: the data start token. -/
def tokenStart : Byte := 0xFE

/-- BLOCK_LEN: payload bytes per data block. -/
def blockLen : Nat := 512

/-- N_SPI_FILL: filler bytes before CMD0 with chip-select deasserted. -/
def nSpiFill : Nat := 10

/-- T_INIT_DELAY_MS: delay between loop iterations. -/
def initDelayMs : Nat := 1

/-- CRC16_FILL: the CRC bytes sent after a write payload (CRC_LEN = 2). -/
def crc16Fill : List Byte := [0xFF, 0xFF]

/-! ## Command operands -/

/-- R79: the argument of CMD8. -/
def cmd8Arg : Word := 0x000001AA

/-- R80, R119: the argument of ACMD41, hcs << 30. -/
def acmd41Arg (hcs : Bool) : Word := if hcs then 0x40000000 else 0x00000000

/-- R107: the response kinds. -/
inductive RespKind where
  | r1
  | r2
  | r3
  | r7
  deriving DecidableEq, Repr

/-- R107: each card command has one response kind, fixed by its index. -/
def respKind (idx : BitVec 6) : Option RespKind :=
  if idx = 0 ∨ idx = 1 ∨ idx = 17 ∨ idx = 24 ∨ idx = 55 ∨ idx = 41 then some .r1
  else if idx = 13 then some .r2
  else if idx = 58 then some .r3
  else if idx = 8 then some .r7
  else none

/-- R108: what the wait of each response kind returns. -/
abbrev RespKind.Value : RespKind → Type
  | .r1 => Byte
  | .r2 => BitVec 16
  | .r3 => Byte × Word
  | .r7 => Byte × Word

/-! ## Addresses (R51, R204) -/

/-- The first sector whose byte address does not fit 32 bits, 2^23 (R204). -/
def firstBadSector : Word := 0x00800000

/-- R204, ARG_ADDRESS: sector number to protocol address. -/
def argAddress (t : CardType) (sector : Word) : Except ErrKind Word :=
  if t = .sdV2Block then .ok sector
  else if firstBadSector ≤ sector then .error .addressOverflow
  else .ok (sector <<< 9)

/-! ## Codes (decision D25) -/

/-- R21: CTYPE in 3 bits. -/
def CardType.code : CardType → BitVec 3
  | .unknown => 0
  | .mmcV3 => 1
  | .sdV1 => 2
  | .sdV2Byte => 3
  | .sdV2Block => 4

/-- R22: SPEED in one bit. -/
def Speed.code : Speed → BitVec 1
  | .slow => 0
  | .fast => 1

/-- R24: STATE in 4 bits. -/
def Fsm.code : Fsm → BitVec 4
  | .unidentified => 0
  | .spiReset => 1
  | .idleConfirmed => 2
  | .voltageCheckedV2 => 3
  | .voltageCheckedLegacy => 4
  | .legacyMmc => 5
  | .typeResolved => 6
  | .failed => 7

/-- R232: ERR in 4 bits. -/
def ErrKind.code : ErrKind → BitVec 4
  | .none => 0
  | .ioError => 1
  | .timeout => 2
  | .illegalCommand => 3
  | .statusNotZero => 4
  | .dataCrcError => 5
  | .dataWriteError => 6
  | .answerFormat => 7
  | .voltageMismatch => 8
  | .appCmdRejected => 9
  | .addressOverflow => 10
  | .notReady => 11

/-- R236: the kinds that D0's coarser taxonomy calls ProtocolError, codes 4 to 10. -/
def ErrKind.isProtocolError (k : ErrKind) : Bool := decide (4 ≤ k.code.toNat) && decide (k.code.toNat ≤ 10)

/-- R89. -/
def WakeCode.code : WakeCode → Nat
  | .ready => 0
  | .notReady => 1
  | .error => 2

/-- R89. -/
def IoCode.code : IoCode → Nat
  | .ok => 0
  | .error => 1
  | .notRdy => 2

/-- R89. -/
def StatusCode.code : StatusCode → Nat
  | .ready => 0
  | .notInitialized => 1
  | .noMedium => 2

/-- R21: a card type is byte-addressed, block-addressed (false), or, if Unknown, neither. -/
def CardType.byteAddressed : CardType → Option Bool
  | .unknown => none
  | .mmcV3 | .sdV1 | .sdV2Byte => some true
  | .sdV2Block => some false

end Sys2Proof.Machine
end

