-- ==== Sys2Proof/Machine/Ops.lean ====
section
/-! DEFINITION. The shared operations: the host data buffer, updates of the state, procedures that may fail, the port
primitives, poll loops, the one exit of a transaction, and the envelope of a host operation. Taking an exception is here:
fail (R231), txnExit (R109, R239) and Turn.finish (R212, R239). -/

namespace Sys2Proof.Machine

/-! ## The host data buffer (R50, R52) -/

/-- What an unlisted offset reads as: DESIGN CHOICE 0, log entry 22. -/
def Memory.default : Byte := 0

/-- One byte of the buffer. -/
def Memory.read : Memory → Nat → Byte
  | [], _ => Memory.default
  | (k, v) :: m, a => bif Nat.beq k a then v else Memory.read m a

/-- The entries that a run of bytes from an offset on needs: none for a byte equal to the default. -/
def Memory.cells : Nat → List Byte → Memory
  | _, [] => []
  | off, b :: bs => if b = Memory.default then Memory.cells (off + 1) bs else (off, b) :: Memory.cells (off + 1) bs

/-- R52, MemWrite(off, n, v): the bytes of v from off on, v[0] at off; what lies below and above stays. The canonical form
is kept: offsets rising, no entry equal to the default. -/
def Memory.writeBytes (m : Memory) (off : Nat) (v : List Byte) : Memory :=
  m.filter (fun c => Nat.blt c.1 off) ++ (Memory.cells off v ++ m.filter (fun c => Nat.ble (off + v.length) c.1))

/-- Offsets strictly rising from lo on, no entry equal to the default. -/
def Memory.wfFrom : Nat → Memory → Bool
  | _, [] => true
  | lo, (k, v) :: m => decide (lo ≤ k) && v != Memory.default && Memory.wfFrom (k + 1) m

/-- The canonical form, so that equal buffers are equal data. -/
def Memory.wf (m : Memory) : Bool := Memory.wfFrom 0 m

/-- R52, MemRead(off, n): bytes off to off + n - 1 in ascending order. -/
def Memory.readBytes (m : Memory) (off n : Nat) : List Byte := (List.range n).map fun i => m.read (off + i)

/-- R52, MemRead(off, 512), as a block. -/
def Memory.readBlock (m : Memory) (off : Nat) : Block := ⟨(m.readBytes off 512).toArray, by simp [Memory.readBytes]⟩

/-! ## Updates of the state -/

/-- R15: append one event to the trace. -/
def State.record (s : State) (e : Event) : State := { s with log := e :: s.log }

def State.setCtype (s : State) (t : CardType) : State := { s with ctype := t }

def State.setSpeed (s : State) (v : Speed) : State := { s with speed := v }

def State.setLock (s : State) (b : Bool) : State := { s with lock := b }

def State.setCs (s : State) (b : Bool) : State := { s with cs := b }

/-- R24: STATE <- f, also kept in the record of visited values (log entry 24). -/
def State.enter (s : State) (f : Fsm) : State := { s with fsm := f, visits := f :: s.visits }

def State.setErr (s : State) (k : ErrKind) : State := { s with err := k }

def State.setWarn (s : State) (b : Bool) : State := { s with warnIdleR1 := b }

/-- Write datapath registers. -/
def State.mapDp (s : State) (f : Datapath → Datapath) : State := { s with dp := f s.dp }

def State.setBuffer (s : State) (m : Memory) : State := { s with buffer := m }

def State.setPort (s : State) (p : List (List Byte)) : State := { s with port := p }

def State.setBench (s : State) (q : Option Request) : State := { s with bench := q }

def State.setHold (s : State) (h : Option Hold) : State := { s with hold := h }

def State.setResult (s : State) (r : Result) : State := { s with result := r }

/-- The datapath registers become unspecified (R20, U10): free values, log entry 5. -/
def State.forget (s : State) : State := { s with dp := Config.freeDatapath s.draws, draws := s.draws + 1 }

/-- The outcome of the next exchange: the environment's script, and past its end a free value (R40, U8; log entry 1). -/
def State.nextReply (s : State) : Reply :=
  match s.card with
  | r :: _ => r
  | [] => Config.cardReply s.draws

/-- That outcome has been used. -/
def State.takeReply (s : State) : State :=
  match s.card with
  | _ :: rest => { s with card := rest }
  | [] => { s with draws := s.draws + 1 }

/-- The card's next bytes are these (log entry 14). -/
def State.arrive (s : State) (bytes : List Byte) : State := { s with card := bytes.map Reply.ok ++ s.card }

/-! ## Procedures (R14, R231) -/

/-- How a procedure ends: with a value, or with fail k. Either way the state is what it has become by then (R240). -/
inductive Res (α : Type) where
  | ok (v : α) (s : State)
  | err (k : ErrKind) (s : State)
  deriving DecidableEq, Repr

/-- The state a procedure ends in. -/
def Res.state {α : Type} : Res α → State
  | .ok _ s => s
  | .err _ s => s

/-- A procedure of the block. -/
abbrev Proc (α : Type) := State → Res α

/-- Return a value. -/
def ret {α : Type} (v : α) : Proc α := fun s => .ok v s

/-- R231: fail k, the block's only exception. It ends the procedure and every caller up to the nearest try, and carries
nothing but the kind. -/
def fail {α : Type} (k : ErrKind) : Proc α := fun s => .err k s

/-- A procedure call whose fail propagates to the caller (R14). -/
def Proc.bind {α β : Type} (p : Proc α) (f : α → Proc β) : Proc β := fun s =>
  match p s with
  | .ok v t => f v t
  | .err k t => .err k t

/-- One procedure after another. -/
def Proc.andThen {α β : Type} (p : Proc α) (q : Proc β) : Proc β := p.bind fun _ => q

/-- An assignment. -/
def update (f : State → State) : Proc Unit := fun s => .ok () (f s)

/-- An assignment to datapath registers. -/
def setReg (f : Datapath → Datapath) : Proc Unit := update fun s => s.mapDp f

/-- A procedure that reads a parameter of R10. -/
def withCfg {α : Type} (f : Config → Proc α) : Proc α := fun s => f s.cfg s

/-! ## Port primitives (R40 to R44) -/

/-- R40, XCHG(m): one full-duplex byte exchange. A Fail makes the block fail IoError (R233). -/
def xchg (m : Byte) : Proc Byte := fun s =>
  match s.nextReply with
  | .ok b => .ok b (s.takeReply.record (.xchg m (.ok b)))
  | .fail => .err .ioError (s.takeReply.record (.xchg m .fail))

/-- R14, TX(m): an exchange with the received byte discarded. -/
def tx (m : Byte) : Proc Unit := (xchg m).bind fun _ => ret ()

/-- R14, RX(): an exchange that drives FILL. -/
def rx : Proc Byte := xchg fillByte

/-- A run of bytes sent one after another. -/
def txList : List Byte → Proc Unit
  | [] => ret ()
  | b :: bs => (tx b).andThen (txList bs)

/-- R106, FILLER(n). -/
def filler (n : Nat) : Proc Unit := txList (List.replicate n fillByte)

/-- R41, SET_SPEED(s). -/
def State.requestSpeed (s : State) (v : Speed) : State := (s.setSpeed v).record (.setSpeed v)

/-- R42, CS_ASSERT(). -/
def State.csAssert (s : State) : State := (s.setCs true).record .csAssert

/-- R42, CS_DEASSERT(). -/
def State.csDeassert (s : State) : State := (s.setCs false).record .csDeassert

/-- R43: LOCK_ACQUIRE is granted when the lock owner grants it and no operation of the block holds it (R45, U20). -/
def State.lockFree (s : State) : Bool := s.grant && !s.lock

/-- R43, LOCK_ACQUIRE(), granted. -/
def State.lockAcquire (s : State) : State := (s.setLock true).record .lockAcquire

/-- R43, LOCK_RELEASE(). -/
def State.lockRelease (s : State) : State := (s.setLock false).record .lockRelease

/-- R44, DELAY_MS(n): an event and nothing else. -/
def delayMs (n : Nat) : Proc Unit := update fun s => s.record (.delayMs n)

/-! ## Poll loops (R39) -/

/-- One attempt of a counted wait: POLL counts it, one byte is read with FILL driven; an accepted byte ends the wait, and
the attempt that uses up the budget fails Timeout (R130, R148, R158). With no budget the wait goes on (R158, unbounded). -/
def pollOnce (budget : Option Nat) (accept : Byte → Bool) : Proc (Option Byte) :=
  (setReg fun d => { d with poll := d.poll + 1 }).andThen <|
    rx.bind fun b => fun s =>
      if accept b then .ok (some b) s
      else if budget.any fun n => decide (n ≤ s.dp.poll) then .err .timeout s
      else .ok none s

/-- The attempts of a wait of the given budget, of which at most as many are left as the second argument says. -/
def pollLoop (budget : Nat) (accept : Byte → Bool) : Nat → Proc Byte
  | 0 => fail .timeout
  | left + 1 => (pollOnce (some budget) accept).bind fun o =>
    match o with
    | some b => ret b
    | none => pollLoop budget accept left

/-- A whole wait: for POLL in 1..budget (log entry 25). -/
def poll (budget : Nat) (accept : Byte → Bool) : Proc Byte :=
  (setReg fun d => { d with poll := 0 }).andThen (pollLoop budget accept budget)

/-! ## The one way out of a transaction (R109, R239) -/

/-- R109, TXN_EXIT: the trailing filler byte with chip-select still asserted, except after a transport failure, then
CS_DEASSERT on every path; the first error wins (R238 e). -/
def txnExit {α : Type} : Res α → Res α
  | .err .ioError s => .err .ioError s.csDeassert
  | .err k s => .err k (filler 1 s).state.csDeassert
  | .ok v s =>
    match filler 1 s with
    | .ok _ t => .ok v t.csDeassert
    | .err k t => .err k t.csDeassert

/-! ## Host operations: the lock envelope (R212) and the error exit (R239) -/

/-- How the body of a host operation leaves the block: done with a result, or held in the unbounded write-busy poll. No
fail leaves a host operation (R200), so there is no third case. -/
inductive Turn where
  | done (r : Result) (s : State)
  | held (s : State)
  deriving DecidableEq, Repr

/-- R212, R239: the end of a host operation. LOCK_RELEASE is the last event on every path, the result goes to the host,
and the datapath registers become unspecified (R20). A held operation keeps the lock (R158). -/
def Turn.finish : Turn → State
  | .done r s => ((s.lockRelease.forget).setHold none).setResult r
  | .held s => (s.setHold (some .run)).setResult .pending

/-- R212: the start of a host operation: LOCK_ACQUIRE, then ERR <- None. -/
def State.begin (s : State) : State := s.lockAcquire.setErr .none

/-- R212: every host operation but GET_TYPE. While the lock is not granted the block has no step (R43). -/
def hostOp (body : State → Turn) (s : State) : Host.Outcome State Fault Refusal :=
  if s.lockFree then .next (body s.begin).finish else .fault .lockHeld

/-- R211, the type check: with CTYPE = Unknown nothing but ERR <- NotReady and the refusing result. -/
def typeChecked (refusing : Result) (body : State → Turn) (s : State) : Turn :=
  if s.ctype = .unknown then .done refusing (s.setErr .notReady) else body s

/-! ## Procedures run by themselves (log entry 13) -/

/-- The state after an internal procedure that was run as an instruction of its own: its value, or the kind it failed
with, is the result. ERR is written by host operations only (R26). -/
def Res.conclude {α : Type} (shown : α → Result) : Res α → State
  | .ok v s => s.setResult (shown v)
  | .err k s => s.setResult (.failed k)

/-- Run an internal procedure as an instruction of its own. -/
def runAlone {α : Type} (p : Proc α) (shown : α → Result) (s : State) : Host.Outcome State Fault Refusal :=
  .next ((p s).conclude shown)

end Sys2Proof.Machine
end

