-- ==== Sys2Proof/Machine/ResponseReader.lean ====
section
/-! DEFINITION. Unit RR, the response reader (spec/41_response_reader.md R130 to R135), and the meanings of the response
rows of the table. All of it runs with chip-select as it finds it. -/

namespace Sys2Proof.Machine

/-- R130: the accepted byte goes to R1. -/
def acceptR1 (b : Byte) : Proc Unit := setReg fun d => { d with r1 := b }

/-- R130, WAIT_R1. -/
def waitR1 : Proc Byte := withCfg fun c =>
  (poll c.nR1 r1Valid).bind fun b => (acceptR1 b).andThen (ret b)

/-- R130: one attempt of WAIT_R1 (log entry 15). -/
def r1Attempt : Proc (Option Byte) := withCfg fun c =>
  (pollOnce (some c.nR1) r1Valid).bind fun o =>
    match o with
    | some b => (acceptR1 b).andThen (ret (some b))
    | none => ret none

/-- R132 to R134: the R1 of a longer response; with illegal-command set no further byte is read. -/
def waitLongR1 : Proc Byte :=
  waitR1.bind fun r => if r1IllegalCommand r then fail .illegalCommand else ret r

/-- R134, WAIT_R2. -/
def waitR2 : Proc (BitVec 16) :=
  waitLongR1.bind fun r => rx.bind fun b =>
    (setReg fun d => { d with r2b := b }).andThen (ret (r ++ b))

/-- R132, R133: the four register bytes, taken as they come, most significant first. -/
def readReg32 : Proc Word :=
  rx.bind fun b0 => rx.bind fun b1 => rx.bind fun b2 => rx.bind fun b3 =>
    (setReg fun d => { d with reg32 := beWord b0 b1 b2 b3 }).andThen (ret (beWord b0 b1 b2 b3))

/-- R132, WAIT_R3. -/
def waitR3 : Proc (Byte × Word) :=
  waitLongR1.bind fun r => readReg32.bind fun v => ret (r, v)

/-- R133, WAIT_R7: the same procedure as WAIT_R3. -/
def waitR7 : Proc (Byte × Word) := waitR3

/-- R108: the wait of a response kind. -/
def waitFor : (k : RespKind) → Proc k.Value
  | .r1 => waitR1
  | .r2 => waitR2
  | .r3 => waitR3
  | .r7 => waitR7

/-! ## Meanings: the received format arrives where it is due (log entries 13, 14, 15) -/

/-- What one attempt of WAIT_R1 returns. -/
def showAttempt : Option Byte → Result
  | some b => .r1 b
  | none => .polling

/-- Row R1: an attempt of WAIT_R1 that receives b. -/
def execR1 (b : Byte) (s : State) : Host.Outcome State Fault Refusal := runAlone r1Attempt showAttempt (s.arrive [b])

/-- Row NOT_R1: an attempt of WAIT_R1 that receives b. -/
def execNotR1 (b : Byte) (s : State) : Host.Outcome State Fault Refusal :=
  runAlone r1Attempt showAttempt (s.arrive [b])

/-- Row R2: WAIT_R2 receives these two bytes. -/
def execR2 (r status : Byte) (s : State) : Host.Outcome State Fault Refusal :=
  runAlone waitR2 .r2 (s.arrive [r, status])

/-- Row R3: WAIT_R3 receives these five bytes. -/
def execR3 (r : Byte) (ocr : Word) (s : State) : Host.Outcome State Fault Refusal :=
  runAlone waitR3 (fun p => .reg p.1 p.2) (s.arrive (r :: wordBytes ocr))

/-- Row R7: WAIT_R7 receives these five bytes. -/
def execR7 (r : Byte) (reg : Word) (s : State) : Host.Outcome State Fault Refusal :=
  runAlone waitR7 (fun p => .reg p.1 p.2) (s.arrive (r :: wordBytes reg))

/-- Row R1.ILLEGAL: WAIT_R3 receives this R1 (WAIT_R2 and WAIT_R7 do the same with it). -/
def execR1Illegal (b : Byte) (s : State) : Host.Outcome State Fault Refusal :=
  runAlone waitR3 (fun p => .reg p.1 p.2) (s.arrive [b])

end Sys2Proof.Machine
end

