-- ==== Sys2Proof/Machine/CommandCodec.lean ====
section
/-! DEFINITION. Unit CC, the command codec, and the transaction around a card command
(spec/40_command_codec.md R104 to R119), with the meanings of the command rows that have no data phase. -/

namespace Sys2Proof.Machine

/-- R104, BUILD_COMMAND: writes IDX, ARG, FRAME, and leaves the CRC in CRC7 (R101). No port is touched. -/
def buildCommand (idx : BitVec 6) (arg : Word) : Proc (Vector Byte 6) :=
  (setReg fun d =>
    { d with idx := idx, arg := arg, crc7 := crc7Run (frameHead idx arg), frame := buildFrame idx arg }).andThen
  (ret (buildFrame idx arg))

/-- R105, SEND_FRAME: six exchanges, byte 0 first. -/
def sendFrame (idx : BitVec 6) (arg : Word) : Proc Unit :=
  (buildCommand idx arg).bind fun f => txList f.toList

/-- R108, COMMAND: one chip-select window with the frame, the response and the trailing filler. -/
def command (idx : BitVec 6) (arg : Word) (kind : RespKind) : Proc kind.Value := fun s =>
  txnExit ((sendFrame idx arg).andThen (waitFor kind) s.csAssert)

/-- R110, SEND_ACMD: CMD55, whose R1 must be idle or ready, then the command body. -/
def sendAcmd (n : BitVec 6) (arg : Word) : Proc Byte :=
  (command 55 0 .r1).bind fun a => if r1IdleOrReady a then command n arg .r1 else fail .appCmdRejected

/-! ## Meanings -/

/-- R111. -/
def execCmd0 (s : State) : Host.Outcome State Fault Refusal := runAlone (command 0 0 .r1) .r1 s

/-- R112. -/
def execCmd1 (s : State) : Host.Outcome State Fault Refusal := runAlone (command 1 0 .r1) .r1 s

/-- R113. -/
def execCmd8 (s : State) : Host.Outcome State Fault Refusal :=
  runAlone (command 8 cmd8Arg .r7) (fun p => .reg p.1 p.2) s

/-- R114. -/
def execCmd13 (s : State) : Host.Outcome State Fault Refusal := runAlone (command 13 0 .r2) .r2 s

/-- R117. -/
def execCmd55 (s : State) : Host.Outcome State Fault Refusal := runAlone (command 55 0 .r1) .r1 s

/-- R118. -/
def execCmd58 (s : State) : Host.Outcome State Fault Refusal :=
  runAlone (command 58 0 .r3) (fun p => .reg p.1 p.2) s

/-- R119 with hcs = 1: SEND_ACMD(41, 0x40000000), so just after a CMD55 transaction (R273; log entry 19). -/
def execAcmd41Hcs (s : State) : Host.Outcome State Fault Refusal := runAlone (sendAcmd 41 (acmd41Arg true)) .r1 s

/-- R119 with hcs = 0: SEND_ACMD(41, 0) (log entry 19). -/
def execAcmd41 (s : State) : Host.Outcome State Fault Refusal := runAlone (sendAcmd 41 (acmd41Arg false)) .r1 s

/-- Row FRAME: BUILD_COMMAND (R104). The CRC field is the builder's to compute (log entry 16). -/
def execFrame (idx : BitVec 6) (arg : Word) (_crc : BitVec 7) (s : State) : Host.Outcome State Fault Refusal :=
  runAlone (buildCommand idx arg) .frame s

/-- Row FILL: FILLER(1) (R106). -/
def execFill (s : State) : Host.Outcome State Fault Refusal := runAlone (filler 1) (fun _ => .done) s

end Sys2Proof.Machine
end

