-- ==== Sys2Proof/Machine/BlockTransfer.lean ====
section
/-! DEFINITION. Unit BTE, the block-transfer engine (spec/42_block_transfer.md R145 to R163), with the meanings of CMD17,
CMD24 and the data rows. -/

namespace Sys2Proof.Machine

/-! ## Read path -/

/-- R148: one attempt of WAIT_TOKEN (log entry 15). -/
def tokenAttempt : Proc (Option Byte) := withCfg fun c => pollOnce (some c.nToken) isStartToken

/-- R148, WAIT_TOKEN. -/
def waitToken : Proc Unit := withCfg fun c => (poll c.nToken isStartToken).bind fun _ => ret ()

/-- n exchanges that drive FILL: the bytes received, in order, up to the first failure, and how it ends. -/
def rxMany : Nat → State → List Byte × Res Unit
  | 0, s => ([], .ok () s)
  | n + 1, s =>
    match rx s with
    | .err k t => ([], .err k t)
    | .ok b t =>
      match rxMany n t with
      | (bs, r) => (b :: bs, r)

/-- The block with its first bytes replaced: byte i of the list at index i, for every i below 512. -/
def overwrite (buf : Block) (bytes : List Byte) : Block :=
  ⟨((bytes ++ buf.toList.drop bytes.length).take 512).toArray, by simp; omega⟩

/-- R149: exactly 512 exchanges; the byte received in the i-th is BUF[i]. On a failure the bytes before it have been stored
(R146: BUF may be partly overwritten). -/
def recvPayload : Proc Unit := fun s =>
  match rxMany blockLen s with
  | (bytes, .ok _ t) => .ok () (t.mapDp fun d => { d with buf := overwrite d.buf bytes })
  | (bytes, .err k t) => .err k (t.mapDp fun d => { d with buf := overwrite d.buf bytes })

/-- R150: the two CRC bytes, high byte first (R56), consumed and never checked. -/
def recvCrc : Proc Unit :=
  rx.bind fun hi => (setReg fun d => { d with crc16 := hi ++ d.crc16.extractLsb' 0 8 }).andThen <|
    rx.bind fun lo => setReg fun d => { d with crc16 := d.crc16.extractLsb' 8 8 ++ lo }

/-- R83, R148 to R150: a data block from the card into BUF. -/
def recvData : Proc Unit := waitToken.andThen (recvPayload.andThen recvCrc)

/-- R147: the R1 of CMD17 and CMD24 must be exactly 0x00. -/
def waitZeroR1 : Proc Unit := waitR1.bind fun s => if r1Ready s then ret () else fail .statusNotZero

/-- R146, READ_BLOCK. -/
def readBlock (addr : Word) : Proc Unit := fun s =>
  txnExit ((sendFrame 17 addr).andThen (waitZeroR1.andThen recvData) s.csAssert)

/-! ## Write path -/

/-- R154: the payload bytes BUF[0] to BUF[511]. -/
def sendPayload : Proc Unit := fun s => txList s.dp.buf.toList s

/-- R83, R154, R155: a data block from BUF to the card: token, payload, the constant CRC bytes. -/
def sendData : Proc Unit := (tx tokenStart).andThen (sendPayload.andThen (txList crc16Fill))

/-- R156, DECODE_DRESP, with the byte it accepted. -/
def decodeDrespByte (d : Byte) : Proc Byte :=
  match classifyDresp d with
  | .accepted => ret d
  | .crcError => fail .dataCrcError
  | .writeError => fail .dataWriteError
  | .badFormat => fail .answerFormat

/-- R156: exactly one exchange, whatever arrives is the data response. -/
def recvDresp : Proc Byte := rx.bind fun d => (setReg fun p => { p with dresp := d }).andThen (decodeDrespByte d)

/-- R158: one attempt of WAIT_NOT_BUSY. -/
def busyAttempt : Proc (Option Byte) := withCfg fun c => pollOnce c.nBusy fun b => !isBusyByte b

/-- R158, WAIT_NOT_BUSY: true when the card has left busy. With N_BUSY unbounded one attempt is made here and false says
that the poll goes on, one attempt a step (log entry 21). -/
def waitNotBusy : Proc Bool := withCfg fun c =>
  match c.nBusy with
  | some n => (poll n fun b => !isBusyByte b).bind fun _ => ret true
  | none => (setReg fun d => { d with poll := 0 }).andThen (busyAttempt.bind fun o => ret o.isSome)

/-- R152: the end of WRITE_BLOCK; while the busy poll goes on the window stays open (R158). -/
def writeExit : Res Bool → Res Bool
  | .ok false s => .ok false s
  | r => txnExit r

/-- R152, WRITE_BLOCK: true when the transaction is over, false while the unbounded busy poll goes on. -/
def writeBlock (addr : Word) : Proc Bool := fun s =>
  writeExit ((sendFrame 24 addr).andThen (waitZeroR1.andThen ((filler 1).andThen (sendData.andThen
    (recvDresp.bind fun _ => waitNotBusy)))) s.csAssert)

/-- R158, unbounded: one more attempt of the busy poll of a WRITE_BLOCK, and its end. -/
def writeResume : Proc Bool := fun s => writeExit ((busyAttempt.bind fun o => ret o.isSome) s)

/-! ## Several sectors -/

/-- R160, R161: ADDR <- ARG_ADDRESS(SECT), which may fail before any event of the sector. -/
def setAddress : Proc Word := fun s =>
  match argAddress s.ctype s.dp.sect with
  | .ok a => (setReg fun d => { d with addr := a }).andThen (ret a) s
  | .error k => .err k s

/-- R160, R161: after a sector, REMAIN, off and SECT; the sector number may not wrap. -/
def advance : Proc Unit :=
  (setReg fun d => { d with remain := d.remain - 1, off := d.off + blockLen }).andThen fun s =>
    if s.dp.remain = 0 then .ok () s
    else if s.dp.sect = 0xFFFFFFFF then .err .addressOverflow s
    else .ok () (s.mapDp fun d => { d with sect := d.sect + 1 })

/-- R160: MemWrite(off, 512, BUF). -/
def storeBuf : Proc Unit := update fun s => s.setBuffer (s.buffer.writeBytes s.dp.off s.dp.buf.toList)

/-- R161: BUF <- MemRead(off, 512). -/
def loadBuf : Proc Unit := update fun s => s.mapDp fun d => { d with buf := s.buffer.readBlock d.off }

/-- R160, R161: the start of a run. -/
def startRun (sector count : Word) (off0 : Nat) : Proc Unit :=
  setReg fun d => { d with sect := sector, remain := count, off := off0 }

/-- R160: the loop of READ_RUN, with the number of sectors to do. -/
def readLoop : Nat → Proc Unit
  | 0 => ret ()
  | n + 1 => setAddress.bind fun a => (readBlock a).andThen (storeBuf.andThen (advance.andThen (readLoop n)))

/-- R160, READ_RUN. -/
def readRun (sector count : Word) (off0 : Nat) : Proc Unit :=
  (startRun sector count off0).andThen (readLoop count.toNat)

/-- R161: the loop of WRITE_RUN; false while the unbounded busy poll of a sector goes on. -/
def writeLoop : Nat → Proc Bool
  | 0 => ret true
  | n + 1 => setAddress.bind fun a => loadBuf.andThen <| (writeBlock a).bind fun ended =>
    if ended then advance.andThen (writeLoop n) else ret false

/-- R161, WRITE_RUN. -/
def writeRun (sector count : Word) (off0 : Nat) : Proc Bool :=
  (startRun sector count off0).andThen (writeLoop count.toNat)

/-- R161, after an attempt of an unbounded busy poll: the rest of the run. -/
def writeRunResume : Proc Bool := writeResume.bind fun ended =>
  if ended then advance.andThen fun s => writeLoop s.dp.remain.toNat s else ret false

/-! ## Meanings -/

/-- R115: CMD17 is the first step of READ_BLOCK, which keeps its window open over the data phase (log entry 20). The CRC
field is the frame builder's to compute (log entry 16). -/
def execCmd17 (addr : Word) (_crc : BitVec 7) (s : State) : Host.Outcome State Fault Refusal :=
  runAlone (readBlock addr) (fun _ => .done) s

/-- What is left of a WRITE_BLOCK run by itself: done, failed, or held in the unbounded busy poll. -/
def concludeBlock : Res Bool → State
  | .ok true s => (s.setHold none).setResult .done
  | .ok false s => (s.setHold (some .block)).setResult .pending
  | .err k s => (s.setHold none).setResult (.failed k)

/-- R116: CMD24 is the first step of WRITE_BLOCK, which writes BUF (log entry 20). The CRC field is the frame builder's to
compute (log entry 16). -/
def execCmd24 (addr : Word) (_crc : BitVec 7) (s : State) : Host.Outcome State Fault Refusal :=
  .next (concludeBlock (writeBlock addr s))

/-- Row DATA_START: looked for on reads, an attempt of WAIT_TOKEN that receives it (R148); sent on writes (R154). -/
def execDataStart (d : Dir) (s : State) : Host.Outcome State Fault Refusal :=
  match d with
  | .fromCard => runAlone tokenAttempt (fun o => if o.isSome then .done else .polling) (s.arrive [0xFE])
  | .toCard => runAlone (tx tokenStart) (fun _ => .done) s

/-- Row DATA_BLOCK: received, WAIT_TOKEN, payload and CRC take these bytes (R148 to R150); sent, the payload goes to BUF
and out with its token and the constant CRC bytes (R154, R155; log entry 18). -/
def execDataBlock (d : Dir) (payload : Block) (crc : BitVec 16) (s : State) : Host.Outcome State Fault Refusal :=
  match d with
  | .fromCard => runAlone recvData (fun _ => .done)
      (s.arrive (0xFE :: payload.toList ++ [crc.extractLsb' 8 8, crc.extractLsb' 0 8]))
  | .toCard => runAlone ((setReg fun p => { p with buf := payload }).andThen sendData) (fun _ => .done) s

/-- Row DRESP.ACCEPTED: the data-response read receives b (R156). -/
def execDrespAccepted (b : Byte) (s : State) : Host.Outcome State Fault Refusal :=
  runAlone recvDresp (fun _ => .done) (s.arrive [b])

/-- Row DRESP.CRC_ERROR: the data-response read receives b (R156). -/
def execDrespCrcError (b : Byte) (s : State) : Host.Outcome State Fault Refusal :=
  runAlone recvDresp (fun _ => .done) (s.arrive [b])

/-- Row DRESP.WRITE_ERROR: the data-response read receives b (R156). -/
def execDrespWriteError (b : Byte) (s : State) : Host.Outcome State Fault Refusal :=
  runAlone recvDresp (fun _ => .done) (s.arrive [b])

/-- Row DRESP.BAD_FORMAT: the data-response read receives b (R156; log entry 17). -/
def execDrespBadFormat (b : Byte) (s : State) : Host.Outcome State Fault Refusal :=
  runAlone recvDresp (fun _ => .done) (s.arrive [b])

/-- Row BUSY: an attempt of WAIT_NOT_BUSY that receives 0x00 (R158; log entry 15). -/
def execBusy (s : State) : Host.Outcome State Fault Refusal :=
  runAlone busyAttempt (fun o => if o.isSome then .done else .polling) (s.arrive [0x00])

end Sys2Proof.Machine
end

