-- ==== Sys2Proof/Machine/CardSession.lean ====
section
/-! DEFINITION. Unit CSM, the card session machine (spec/43_card_session.md R170 to R186): the type-detection FSM, the
wake-up and the status query. -/

namespace Sys2Proof.Machine

/-- R180: what a polling loop repeats. -/
inductive LoopCommand where
  | acmdHcs
  | acmd
  | cmd1
  deriving DecidableEq, Repr

/-- R180: what one attempt of a polling loop comes to. -/
inductive Attempt where
  | status (r : Byte)
  | rejected (a : Byte)
  | noAnswer
  deriving DecidableEq, Repr

/-- R180: how a polling loop ends. -/
inductive LoopEnd where
  | ready
  | exhausted
  | illegal
  deriving DecidableEq, Repr

/-- R180: the command of an attempt. -/
def loopCommand : LoopCommand → Proc Byte
  | .acmdHcs => sendAcmd 41 (acmd41Arg true)
  | .acmd => sendAcmd 41 (acmd41Arg false)
  | .cmd1 => command 1 0 .r1

/-- R180, ATTEMPT: a Timeout or a rejected CMD55 is an outcome; IoError, the only other kind, propagates. -/
def attempt (w : LoopCommand) : Proc Attempt := fun s =>
  match loopCommand w s with
  | .ok r t => .ok (.status r) t
  | .err .appCmdRejected t => .ok (.rejected t.dp.r1) t
  | .err .timeout t => .ok .noAnswer t
  | .err k t => .err k t

/-- R180: whether an attempt ends the loop. Ready is tested first, then bit 2 (R238 d). -/
def loopVerdict (stopOnIllegal : Bool) : Attempt → Option LoopEnd
  | .status r =>
    if r1Ready r then some .ready else if r1IllegalCommand r && stopOnIllegal then some .illegal else none
  | .rejected a => if r1IllegalCommand a && stopOnIllegal then some .illegal else none
  | .noAnswer => none

/-- R180: the iterations n - left + 1 to n of a loop of budget n. R181: the delay stands between two attempts. -/
def retryFrom (w : LoopCommand) (n : Nat) (stopOnIllegal : Bool) : Nat → Proc LoopEnd
  | 0 => ret .exhausted
  | left + 1 => (setReg fun d => { d with iter := n - left }).andThen <| (attempt w).bind fun x =>
    match loopVerdict stopOnIllegal x with
    | some e => ret e
    | none => if left = 0 then ret .exhausted
      else (delayMs initDelayMs).andThen (retryFrom w n stopOnIllegal left)

/-- R180, POLL_LOOP. -/
def retryLoop (w : LoopCommand) (n : Nat) (stopOnIllegal : Bool) : Proc LoopEnd := retryFrom w n stopOnIllegal n

/-! ## The initialization sequence -/

/-- R175, V2_PATH. -/
def v2Path : Proc CardType := withCfg fun c =>
  (retryLoop .acmdHcs c.nInitV2 false).bind fun p =>
    match p with
    | .ready => (command 58 0 .r3).bind fun v => ret (if ocrCcs v.2 then CardType.sdV2Block else CardType.sdV2Byte)
    | .exhausted => fail .timeout
    | .illegal => fail .timeout

/-- R177, R178: the CMD1 loop of the legacy path, with a budget of its own. -/
def mmcPath : Proc CardType := withCfg fun c =>
  (retryLoop .cmd1 c.nInitMmc false).bind fun q =>
    match q with
    | .ready => ret .mmcV3
    | .exhausted => fail .timeout
    | .illegal => fail .timeout

/-- R177, LEGACY_PATH. -/
def legacyPath : Proc CardType := withCfg fun c =>
  (retryLoop .acmd c.nInitLegacy true).bind fun p =>
    match p with
    | .ready => ret .sdV1
    | .exhausted => fail .timeout
    | .illegal => (update fun s => s.enter .legacyMmc).andThen mmcPath

/-- R174: CMD8 chooses the path; only IllegalCommand selects the legacy path. -/
def voltageCheck : Proc CardType := fun s =>
  match command 8 cmd8Arg .r7 s with
  | .err .illegalCommand t => legacyPath (t.enter .voltageCheckedLegacy)
  | .err k t => .err k t
  | .ok v t => if r7EchoOk v.2 then v2Path (t.enter .voltageCheckedV2) else .err .voltageMismatch t

/-- R173: CMD0's R1 outside 0x00, 0x01 is a soft warning. -/
def noteIdleR1 (a : Byte) : Proc Unit := update fun s => if r1IdleOrReady a then s else s.setWarn true

/-- R171, INIT_BODY. -/
def initBody : Proc CardType :=
  (filler nSpiFill).andThen <| (update fun s => s.enter .spiReset).andThen <|
    (command 0 0 .r1).bind fun a => (noteIdleR1 a).andThen <|
      (update fun s => s.enter .idleConfirmed).andThen voltageCheck

/-- R171: what INIT_SEQUENCE does before its body. -/
def State.initStart (s : State) : State :=
  (((s.setCtype .unknown).enter .unidentified).setWarn false).requestSpeed .slow

/-- R171, INIT_SEQUENCE. The try around the body ends here: nothing fails out of it (R182). -/
def initSequence (s : State) : State :=
  match initBody s.initStart with
  | .ok t u => ((u.setCtype t).enter .typeResolved).requestSpeed .fast
  | .err k u => (u.enter .failed).setErr k

/-! ## Wake-up -/

/-- R183: the loop that wakes a card of a type. SDv1 is woken with the CMD1 loop (conflict C5). The caller has checked that
the type is not Unknown (R203). -/
def wakeLoop : CardType → Proc LoopEnd
  | .unknown => fail .notReady
  | .mmcV3 | .sdV1 => withCfg fun c => retryLoop .cmd1 c.nInitMmc false
  | .sdV2Byte | .sdV2Block => withCfg fun c => retryLoop .acmdHcs c.nInitV2 false

/-- R183, WAKE_SEQUENCE, with the wake code as the operation's result. The loop never ends illegal here and fails with
IoError only (log entry 29). -/
def wakeSequence (s : State) : Turn :=
  match wakeLoop s.ctype s with
  | .ok .ready t => .done (.wake .ready) t
  | .ok .exhausted t => .done (.wake .notReady) (t.setErr .timeout)
  | .ok .illegal t => .done (.wake .notReady) (t.setErr .timeout)
  | .err k t => .done (.wake .error) (t.setErr k)

/-! ## Status query -/

/-- R184, CLASSIFY. -/
def classifyStatus (v : BitVec 16) : StatusCode := if r2Idle v then .notInitialized else .ready

/-- R184: the one retry of CMD13 after a good re-initialization. -/
def statusRetry (s : State) : Turn :=
  match command 13 0 .r2 s with
  | .ok v t => .done (.status (classifyStatus v)) t
  | .err k t => .done (.status .noMedium) (t.setErr k)

/-- R184: after a response failure and the whole INIT_SEQUENCE that follows it. -/
def statusAfterInit (s : State) : Turn :=
  if s.ctype = .unknown then .done (.status .noMedium) s else statusRetry s

/-- R184, STATUS_QUERY. -/
def statusQuery (s : State) : Turn :=
  match command 13 0 .r2 s with
  | .ok v t => .done (.status (classifyStatus v)) t
  | .err .ioError t => .done (.status .noMedium) (t.setErr .ioError)
  | .err _ t => statusAfterInit (initSequence t)

end Sys2Proof.Machine
end

