-- ==== Sys2Proof/Machine/HostOperations.lean ====
section
/-! DEFINITION. Unit HIF, the host interface: the eight host operations (spec/44_host_operations.md R200 to R212). -/

namespace Sys2Proof.Machine

/-- R201: the result of INITIALIZE is CTYPE as the sequence left it. -/
def typeTurn (s : State) : Turn := .done (.cardType s.ctype) s

/-- R201, INITIALIZE. -/
def execInitialize (s : State) : Host.Outcome State Fault Refusal := hostOp (fun t => typeTurn (initSequence t)) s

/-- R202, GET_TYPE: the type last resolved; no lock, no event, no state written but the returned result. -/
def execGetType (s : State) : Host.Outcome State Fault Refusal := .next (s.setResult (.cardType s.ctype))

/-- R203, WAKE_UP. -/
def execWakeUp (s : State) : Host.Outcome State Fault Refusal := hostOp (typeChecked (.wake .error) wakeSequence) s

/-- R205, R207: how a read run becomes an I/O code. -/
def readTurn : Res Unit → Turn
  | .ok _ s => .done (.io .ok) s
  | .err k s => .done (.io .error) (s.setErr k)

/-- R206, R208: how a write run becomes an I/O code; false, the unbounded busy poll goes on. -/
def writeTurn : Res Bool → Turn
  | .ok true s => .done (.io .ok) s
  | .ok false s => .held s
  | .err k s => .done (.io .error) (s.setErr k)

/-- R205, READ_SECTOR. -/
def execReadSector (sector : Word) (s : State) : Host.Outcome State Fault Refusal :=
  hostOp (typeChecked (.io .notRdy) fun t => readTurn (readRun sector 1 0 t)) s

/-- R206, WRITE_SECTOR. -/
def execWriteSector (sector : Word) (s : State) : Host.Outcome State Fault Refusal :=
  hostOp (typeChecked (.io .notRdy) fun t => writeTurn (writeRun sector 1 0 t)) s

/-- R207, READ_SECTORS: the timeout operand is accepted and has no effect on anything (decision D21). -/
def execReadSectors (sector count _timeout : Word) (s : State) : Host.Outcome State Fault Refusal :=
  hostOp (typeChecked (.io .notRdy) fun t => readTurn (readRun sector count 0 t)) s

/-- R208, WRITE_SECTORS: the timeout operand is accepted and has no effect on anything (decision D21). -/
def execWriteSectors (sector count _timeout : Word) (s : State) : Host.Outcome State Fault Refusal :=
  hostOp (typeChecked (.io .notRdy) fun t => writeTurn (writeRun sector count 0 t)) s

/-- R209, GET_STATUS. -/
def execGetStatus (s : State) : Host.Outcome State Fault Refusal := hostOp statusQuery s

/-- R158, N_BUSY unbounded: one more attempt of the write-busy poll that is in progress, and what follows it. -/
def resumeHeld (h : Hold) (s : State) : State :=
  match h with
  | .block => concludeBlock (writeResume s)
  | .run => (writeTurn (writeRunResume s)).finish

end Sys2Proof.Machine
end

