-- ==== Sys2Proof/Machine/Dispatch.lean ====
section
/-! DEFINITION. One arm per instruction, each one call of its meaning. -/

namespace Sys2Proof.Machine

def exec (i : Instr) (s : State) : Host.Outcome State Fault Refusal :=
  match i with
  -- card commands
  | .cmd0 => Sys2Proof.Machine.execCmd0 s
  | .cmd1 => Sys2Proof.Machine.execCmd1 s
  | .cmd8 => Sys2Proof.Machine.execCmd8 s
  | .cmd13 => Sys2Proof.Machine.execCmd13 s
  | .cmd55 => Sys2Proof.Machine.execCmd55 s
  | .cmd58 => Sys2Proof.Machine.execCmd58 s
  | .acmd41Hcs => Sys2Proof.Machine.execAcmd41Hcs s
  | .acmd41 => Sys2Proof.Machine.execAcmd41 s
  | .cmd17 addr crc => Sys2Proof.Machine.execCmd17 addr crc s
  | .cmd24 addr crc => Sys2Proof.Machine.execCmd24 addr crc s
  | .frame idx arg crc => Sys2Proof.Machine.execFrame idx arg crc s
  -- received and sent formats
  | .r1 b => Sys2Proof.Machine.execR1 b s
  | .notR1 b => Sys2Proof.Machine.execNotR1 b s
  | .r2 r status => Sys2Proof.Machine.execR2 r status s
  | .r3 r ocr => Sys2Proof.Machine.execR3 r ocr s
  | .r7 r reg => Sys2Proof.Machine.execR7 r reg s
  | .r1Illegal b => Sys2Proof.Machine.execR1Illegal b s
  | .dataStart d => Sys2Proof.Machine.execDataStart d s
  | .dataBlock d payload crc => Sys2Proof.Machine.execDataBlock d payload crc s
  | .drespAccepted b => Sys2Proof.Machine.execDrespAccepted b s
  | .drespCrcError b => Sys2Proof.Machine.execDrespCrcError b s
  | .drespWriteError b => Sys2Proof.Machine.execDrespWriteError b s
  | .drespBadFormat b => Sys2Proof.Machine.execDrespBadFormat b s
  | .busy => Sys2Proof.Machine.execBusy s
  | .fill => Sys2Proof.Machine.execFill s
  -- host operations
  | .initializeCard => Sys2Proof.Machine.execInitialize s
  | .getType => Sys2Proof.Machine.execGetType s
  | .wakeUp => Sys2Proof.Machine.execWakeUp s
  | .readSector sector => Sys2Proof.Machine.execReadSector sector s
  | .writeSector sector => Sys2Proof.Machine.execWriteSector sector s
  | .readSectors sector count timeout => Sys2Proof.Machine.execReadSectors sector count timeout s
  | .writeSectors sector count timeout => Sys2Proof.Machine.execWriteSectors sector count timeout s
  | .getStatus => Sys2Proof.Machine.execGetStatus s

end Sys2Proof.Machine
end

