-- ==== Sys2Proof/Machine/Fetch.lean ====
section
/-! DEFINITION. Where the next instruction comes from. The block fetches none from a memory (R65). The host asks for one of
its eight operations (spec/00_scope.md R3, spec/10_state.md R45; log entries 9, 10); a row of the table that no host can ask
for is run by itself from the model's bench (log entry 13). -/

namespace Sys2Proof.Machine

/-- The instruction of a request: its bytes are read in its format and must be used up. -/
def decodeRequest (q : Request) : Except Refusal Instr :=
  match decode q.format q.bytes with
  | .ok (i, []) => .ok i
  | .ok (_, _ :: _) => .error .trailingBytes
  | .error e => .error (.badRequest e)

/-- R3, R45, R200: what the host asks for is read as a host operation and as nothing else. -/
def hostRequest (bytes : List Byte) : Request := { format := .fHost, bytes := bytes }

/-- A request that carries an instruction. -/
def Request.ofInstr (i : Instr) : Request := { format := i.format, bytes := encode i }

/-- A request with the bytes of a table word, cut to the bytes its instruction takes; a word that is no instruction of the
table is left as it is, to be read as a host operation (log entries 11, 12). -/
def Request.ofTableWord (nbits w : Nat) : Request :=
  match decodeTable nbits w with
  | some (f, _, n) => { format := f, bytes := (tableInput nbits w).take n }
  | none => { format := (tableFormat nbits w).getD .fHost, bytes := tableBytes nbits w }

/-- Put a request where the next step takes it: a host operation first at the host port, anything else on the bench. -/
def State.offer (s : State) (q : Request) : State :=
  if q.format = .fHost then { s with port := q.bytes :: s.port, bench := none } else { s with bench := some q }

/-- Run the instruction of a request, if it carries one. -/
def runRequest (q : Request) (s : State) : Host.Outcome State Fault Refusal :=
  match decodeRequest q with
  | .ok i => exec i s
  | .error r => .refused r

end Sys2Proof.Machine
end

