-- ==== Sys2Proof/Machine/Step.lean ====
section
/-! DEFINITION. One step of the machine (log entries 8, 9, 10, 13, 21). -/

namespace Sys2Proof.Machine

/-- One step. An operation in progress goes on first (R45, R158); then a row set up on the bench, where only withFetchWord
puts one, is run by itself (log entry 13); otherwise the next host operation at the port is taken and run to completion (R3,
R200); with no request the block is idle and waits (R261). -/
def step (s : State) : Host.Outcome State Fault Refusal :=
  match s.hold with
  | some h => .next (resumeHeld h s)
  | none =>
    match s.bench with
    | some q => runRequest q (s.setBench none)
    | none =>
      match s.port with
      | [] => .next s
      | bytes :: rest => runRequest (hostRequest bytes) (s.setPort rest)

/-- The state with one instruction, given by its table word, as what the next step takes. An operation in progress would go
on first, so there is none. -/
def State.withFetchWord (s : State) (nbits w : Nat) : State :=
  (s.setHold none).offer (Request.ofTableWord nbits w)

end Sys2Proof.Machine
end

