-- ==== Sys2Proof/Safety.lean ====
section
/-! DEFINITION. What counts as a safe run of SDMMC-CODEC, in the terms the claims use: the session invariants of
spec/10_state.md R28, chip-select windows (spec/20_memory.md R64), the transitions of the session state
(spec/43_card_session.md R185), the exit of a transaction (spec/40_command_codec.md R109), scripts of what a card answers and
of how it cuts a transfer short, and the states that transactions and host operations leave. -/

namespace Sys2Proof.Machine

/-- R23, R25, R28: LOCK and CS are 0 when no operation is in progress. During the unbounded write-busy poll (R158) CS is
asserted, and LOCK is held if the poll belongs to a host operation. -/
def State.portsInv (s : State) : Bool :=
  s.lock == (s.hold == some .run) && s.cs == s.hold.isSome

/-- R28: CTYPE is resolved exactly when STATE = TypeResolved, a resolved type runs at the fast rate, and STATE rests in
three of its values only. -/
def State.sessionInv (s : State) : Bool :=
  ((s.ctype != .unknown) == (s.fsm == .typeResolved)) && (s.ctype == .unknown || s.speed == .fast) &&
    (s.fsm == .unidentified || s.fsm == .typeResolved || s.fsm == .failed)

/-- The invariant of the machine between steps: R28, and the canonical form of the host buffer. -/
def State.inv (s : State) : Bool := s.portsInv && s.sessionInv && s.buffer.wf

/-- R42, R64, R172, R181, R212: how one event moves the chip-select line, if it may occur. Windows do not nest; outside a
window only filler bytes are exchanged; the lock, the speed and the delay ports are used outside windows. -/
def windowStep : Bool → Event → Option Bool
  | false, .csAssert => some true
  | true, .csDeassert => some false
  | false, .xchg m _ => if m = fillByte then some false else none
  | true, .xchg _ _ => some true
  | false, .setSpeed _ => some false
  | false, .delayMs _ => some false
  | false, .lockAcquire => some false
  | false, .lockRelease => some false
  | _, _ => none

/-- The chip-select line after a run of events, if all of them may occur. -/
def windowRun : Bool → List Event → Option Bool
  | cs, [] => some cs
  | cs, e :: es =>
    match windowStep cs e with
    | some cs' => windowRun cs' es
    | none => none

/-- R185: the transitions of STATE. -/
def fsmNext : Fsm → Fsm → Bool
  | _, .unidentified => true
  | .unidentified, .spiReset => true
  | .unidentified, .failed => true
  | .spiReset, .idleConfirmed => true
  | .spiReset, .failed => true
  | .idleConfirmed, .voltageCheckedLegacy => true
  | .idleConfirmed, .voltageCheckedV2 => true
  | .idleConfirmed, .failed => true
  | .voltageCheckedV2, .typeResolved => true
  | .voltageCheckedV2, .failed => true
  | .voltageCheckedLegacy, .typeResolved => true
  | .voltageCheckedLegacy, .legacyMmc => true
  | .voltageCheckedLegacy, .failed => true
  | .legacyMmc, .typeResolved => true
  | .legacyMmc, .failed => true
  | _, _ => false

/-- Every step of a sequence of STATE values is a transition of R185. -/
def fsmPath : Fsm → List Fsm → Bool
  | _, [] => true
  | f, g :: rest => fsmNext f g && fsmPath g rest

/-! ## Transactions: the window, and the one way out of it -/

/-- What goes on inside the window of a command (R108): the frame and the response. -/
def commandBody (idx : BitVec 6) (arg : Word) (kind : RespKind) : Proc kind.Value :=
  (sendFrame idx arg).andThen (waitFor kind)

/-- What goes on inside the window of a READ_BLOCK (R146). -/
def readBody (addr : Word) : Proc Unit := (sendFrame 17 addr).andThen (waitZeroR1.andThen recvData)

/-- What goes on inside the window of a WRITE_BLOCK (R152); false, its unbounded busy poll goes on. -/
def writeBody (addr : Word) : Proc Bool := (sendFrame 24 addr).andThen (waitZeroR1.andThen ((filler 1).andThen
  (sendData.andThen (recvDresp.bind fun _ => waitNotBusy))))

/-- An exchange that did not fail. -/
def Event.exchanged : Event → Bool
  | .xchg _ (.ok _) => true
  | _ => false

/-- R108, R233, R240: what is inside the window that opened after the events of before, when its procedure has ended so:
the window is still open, and its events are exchanges, none of them failed but the last one of a procedure that ended with
IoError, which is there. -/
def WindowOf {α : Type} (before : List Event) (body : Res α) : Prop :=
  body.state.cs = true ∧ ∃ new, new.all Event.exchanged = true ∧
    match body with
    | .err .ioError u => ∃ m, u.log = .xchg m .fail :: (new ++ .csAssert :: before)
    | .err _ u => u.log = new ++ .csAssert :: before
    | .ok _ u => u.log = new ++ .csAssert :: before

/-- The state after one exchange that drives 0xFF and the deassert: what an exit adds to the state u that the procedure of
the window leaves. -/
def State.closed (u : State) : State :=
  { u.takeReply with log := .csDeassert :: .xchg 0xFF u.nextReply :: u.log, cs := false }

/-- R109, R238 (e), R239: how a transaction ends, from how the procedure of its window ended. After a transport failure
there is no filler, only the deassert. After any other failure there is one filler, whatever its exchange comes to, and the
failure's own kind stays. After a success there is one filler, and a filler that fails makes the transaction fail with
IoError. -/
def ExitsFrom {α : Type} : Res α → Res α → Prop
  | .err .ioError u, r => r = .err .ioError { u with log := .csDeassert :: u.log, cs := false }
  | .err k u, r => r = .err k u.closed
  | .ok v u, r => (∀ b, u.nextReply = .ok b → r = .ok v u.closed) ∧ (u.nextReply = .fail → r = .err .ioError u.closed)

/-! ## CRC7 as arithmetic of polynomials (R100) -/

/-- The bits of the CRC7 register, most significant first. -/
def registerBits (c : BitVec 7) : List Bool := [6, 5, 4, 3, 2, 1, 0].map fun k => c.getLsbD k

/-- A run of bits, the first one of the highest degree, as a polynomial over the field with two elements. -/
noncomputable def crcPolynomial (bits : List Bool) : Polynomial (ZMod 2) :=
  bits.foldl (fun p b => p * Polynomial.X + (if b then 1 else 0)) 0

/-! ## What a card answers -/

/-- Exchanges that all succeed: the bytes sent and the bytes received, position by position. -/
def exchanges (sent got : List Byte) : List Event := List.zipWith (fun m b => Event.xchg m (.ok b)) sent got

/-- n bytes of value FILL, as the block drives them while it reads. -/
def fills (n : Nat) : List Byte := List.replicate n fillByte

/-- Bytes as the outcomes of exchanges. -/
def replies (bytes : List Byte) : List Reply := bytes.map Reply.ok

/-- What a card returns in a transaction that gets an R1: six bytes during the frame, the bytes with bit 7 set before the
R1, the R1, what is read after it, and one byte during the trailing filler (R108). -/
structure Answer where
  during : Vector Byte 6
  wait : List Byte
  r1 : Byte
  more : List Byte
  filler : Byte
  deriving DecidableEq, Repr

/-- The bytes of an answer in order of arrival. -/
def Answer.bytes (a : Answer) : List Byte := a.during.toList ++ (a.wait ++ (a.r1 :: (a.more ++ [a.filler])))

/-- The R1 comes within the budget: the bytes before it are no R1s, and fewer than N_R1 (R130). -/
def Answer.ok (a : Answer) (c : Config) : Bool :=
  a.wait.all (fun b => !r1Valid b) && (decide (a.wait.length < c.nR1) && r1Valid a.r1)

/-- The events of the one window of a transaction that sends this frame and gets this answer (R108). -/
def Answer.events (a : Answer) (frame : List Byte) : List Event :=
  .csAssert :: (exchanges (frame ++ fills (a.wait.length + 1 + a.more.length + 1)) a.bytes ++ [.csDeassert])

/-- What a card returns in a transaction that gets no R1 (R130): six bytes during the frame, the bytes of the polls, and one
during the trailing filler. -/
structure Silence where
  during : Vector Byte 6
  wait : List Byte
  filler : Byte
  deriving DecidableEq, Repr

/-- The bytes in order of arrival. -/
def Silence.bytes (a : Silence) : List Byte := a.during.toList ++ (a.wait ++ [a.filler])

/-- N_R1 polls, and none of them gets an R1 (R130). -/
def Silence.ok (a : Silence) (c : Config) : Bool :=
  a.wait.all (fun b => !r1Valid b) && decide (a.wait.length = c.nR1)

/-- The events of such a transaction. -/
def Silence.events (a : Silence) (frame : List Byte) : List Event :=
  .csAssert :: (exchanges (frame ++ fills (a.wait.length + 1)) a.bytes ++ [.csDeassert])

/-- What a card returns while it serves one block (R146): six bytes during the frame, the bytes before the R1, the R1 0x00,
the bytes before the token, the token, the payload, two CRC bytes, and one during the trailing filler. -/
structure ReadAnswer where
  during : Vector Byte 6
  wait : List Byte
  gap : List Byte
  payload : Block
  crcHi : Byte
  crcLo : Byte
  filler : Byte
  deriving DecidableEq, Repr

/-- The bytes in order of arrival. -/
def ReadAnswer.bytes (a : ReadAnswer) : List Byte :=
  a.during.toList ++ (a.wait ++ (0x00 :: (a.gap ++ (0xFE :: (a.payload.toList ++ [a.crcHi, a.crcLo, a.filler])))))

/-- The R1 and the token come within their budgets (R130, R148). -/
def ReadAnswer.ok (a : ReadAnswer) (c : Config) : Bool :=
  a.wait.all (fun b => !r1Valid b) && (decide (a.wait.length < c.nR1) &&
    (a.gap.all (fun b => !isStartToken b) && decide (a.gap.length < c.nToken)))

/-- The bytes the block drives meanwhile (R146): 6 + p + q + 512 + 2 + 1. -/
def ReadAnswer.sent (a : ReadAnswer) (addr : Word) : List Byte :=
  (buildFrame 17 addr).toList ++ fills ((a.wait.length + 1) + (a.gap.length + 1) + 512 + 2 + 1)

/-- The events of a READ_BLOCK that gets this answer (R146), in one window. -/
def ReadAnswer.events (a : ReadAnswer) (addr : Word) : List Event :=
  .csAssert :: (exchanges (a.sent addr) a.bytes ++ [.csDeassert])

/-- What a card returns while it is sent one block (R152): six bytes during the frame, the bytes before the R1, the R1 0x00,
one byte during the filler and one during the token, 512 during the payload, two during the CRC bytes, the data response, the
bytes of the busy poll, and one during the final filler. -/
structure WriteAnswer where
  during : Vector Byte 6
  wait : List Byte
  filler1 : Byte
  token : Byte
  payload : Vector Byte 512
  crcHi : Byte
  crcLo : Byte
  dresp : Byte
  busy : List Byte
  filler2 : Byte
  deriving DecidableEq, Repr

/-- The bytes up to the end of the busy poll, in order of arrival. -/
def WriteAnswer.bytesToBusy (a : WriteAnswer) : List Byte :=
  a.during.toList ++ (a.wait ++ (0x00 :: a.filler1 :: a.token :: (a.payload.toList ++ (a.crcHi :: a.crcLo :: a.dresp ::
    a.busy))))

/-- All the bytes in order of arrival. -/
def WriteAnswer.bytes (a : WriteAnswer) : List Byte := a.bytesToBusy ++ [a.filler2]

/-- The R1 comes within the budget (R130). -/
def WriteAnswer.ok (a : WriteAnswer) (c : Config) : Bool :=
  a.wait.all (fun b => !r1Valid b) && decide (a.wait.length < c.nR1)

/-- The busy poll ends within a budget of n attempts: fewer than n bytes 0x00, then another byte (R158). -/
def WriteAnswer.leavesBusy (a : WriteAnswer) (n : Nat) : Bool :=
  a.busy.dropLast.all isBusyByte && (a.busy.getLast?.any (fun b => !isBusyByte b) && decide (a.busy.length ≤ n))

/-- The card accepts the block and leaves busy within the budget (R156, R158); with no bound, in the first poll: a longer
busy poll then goes on in further steps. -/
def WriteAnswer.taken (a : WriteAnswer) (c : Config) : Bool :=
  a.ok c && (classifyDresp a.dresp == .accepted && a.leavesBusy (c.nBusy.getD 1))

/-- The bytes the block drives up to the end of the busy poll (R152 to R158). -/
def WriteAnswer.sentToBusy (a : WriteAnswer) (addr : Word) (payload : List Byte) : List Byte :=
  (buildFrame 24 addr).toList ++ (fills (a.wait.length + 1) ++ (fillByte :: 0xFE :: (payload ++ (0xFF :: 0xFF ::
    fills (1 + a.busy.length)))))

/-- All the bytes it drives (R152). -/
def WriteAnswer.sent (a : WriteAnswer) (addr : Word) (payload : List Byte) : List Byte :=
  a.sentToBusy addr payload ++ [fillByte]

/-- The events of a WRITE_BLOCK of this payload that gets this answer (R152). -/
def WriteAnswer.events (a : WriteAnswer) (addr : Word) (payload : List Byte) : List Event :=
  .csAssert :: (exchanges (a.sent addr payload) a.bytes ++ [.csDeassert])

/-- The events of a transaction whose exchange number j (from 0) fails in transport, when sent are the bytes it would drive
and got those it would receive: no exchange after that one, no filler, and the deassert (R109, R233, R240). -/
def lostEvents (sent got : List Byte) (j : Nat) : List Event :=
  .csAssert :: (exchanges sent (got.take j) ++ [.xchg (sent.getD j fillByte) .fail, .csDeassert])

/-- What the card and the transport come to then. -/
def lostReplies (got : List Byte) (j : Nat) : List Reply := replies (got.take j) ++ [.fail]

/-! ## The states that transactions leave -/

/-- R104: the registers BUILD_COMMAND writes. -/
def Datapath.framed (d : Datapath) (idx : BitVec 6) (arg : Word) : Datapath :=
  { d with idx := idx, arg := arg, crc7 := crc7Run (frameHead idx arg), frame := buildFrame idx arg }

/-- The state after a transaction that got an R1: the window's events, R1, POLL, and what else the response writes. -/
def State.answered (s : State) (idx : BitVec 6) (arg : Word) (a : Answer) (rest : List Reply)
    (regs : Datapath → Datapath) : State :=
  { s with
    card := rest
    log := (a.events (buildFrame idx arg).toList).reverse ++ s.log
    cs := false
    dp := regs { s.dp.framed idx arg with r1 := a.r1, poll := a.wait.length + 1 } }

/-- The state after a transaction that got no R1: R1 is unchanged. -/
def State.unanswered (s : State) (idx : BitVec 6) (arg : Word) (a : Silence) (rest : List Reply) : State :=
  { s with
    card := rest
    log := (a.events (buildFrame idx arg).toList).reverse ++ s.log
    cs := false
    dp := { s.dp.framed idx arg with poll := s.cfg.nR1 } }

/-- The state after a READ_BLOCK that was served (R146). -/
def State.blockRead (s : State) (addr : Word) (a : ReadAnswer) (rest : List Reply) : State :=
  { s with
    card := rest
    log := (a.events addr).reverse ++ s.log
    cs := false
    dp := { s.dp.framed 17 addr with
      r1 := 0x00, poll := a.gap.length + 1, buf := a.payload, crc16 := a.crcHi ++ a.crcLo } }

/-- The state after a WRITE_BLOCK that ran to its final filler (R152). -/
def State.blockSent (s : State) (addr : Word) (a : WriteAnswer) (rest : List Reply) (polls : Nat) : State :=
  { s with
    card := rest
    log := (a.events addr s.dp.buf.toList).reverse ++ s.log
    cs := false
    dp := { s.dp.framed 24 addr with r1 := 0x00, dresp := a.dresp, poll := polls } }

/-! ## The states that host operations leave -/

/-- The state after a host operation that met no error (R212): these events between the lock's, ERR = None, and the
datapath registers unspecified (R20). -/
def State.served (s : State) (events : List Event) (rest : List Reply) (r : Result) : State :=
  { s with
    card := rest
    log := .lockRelease :: (events.reverse ++ .lockAcquire :: s.log)
    lock := false
    cs := false
    err := .none
    dp := Config.freeDatapath s.draws
    draws := s.draws + 1
    hold := none
    result := r }

/-- R51: the protocol address of a sector that has one. -/
def protocolAddress (t : CardType) (sector : Word) : Word := if t = .sdV2Block then sector else sector <<< 9

/-- R51, R204: how many sector numbers have a protocol address. -/
def sectorLimit (t : CardType) : Nat := if t = .sdV2Block then 2 ^ 32 else 2 ^ 23

/-- The events of a READ_RUN whose sectors get these answers (R160). -/
def readEvents (t : CardType) (sector : Word) : List ReadAnswer → List Event
  | [] => []
  | a :: rest => a.events (protocolAddress t sector) ++ readEvents t (sector + 1) rest

/-- The host buffer after a READ_RUN from offset off on (R160). -/
def putBlocks (m : Memory) (off : Nat) : List ReadAnswer → Memory
  | [] => m
  | a :: rest => putBlocks (m.writeBytes off a.payload.toList) (off + 512) rest

/-- The events of a WRITE_RUN whose sectors get these answers (R161): the payloads are the host buffer's from off on. -/
def writeEvents (t : CardType) (m : Memory) (sector : Word) (off : Nat) : List WriteAnswer → List Event
  | [] => []
  | a :: rest => a.events (protocolAddress t sector) (m.readBytes off 512) ++ writeEvents t m (sector + 1) (off + 512) rest

/-- An R1 answer within the budget, with nothing read after it. -/
def Answer.plain (a : Answer) (c : Config) : Bool := a.ok c && a.more == []

/-! ## How a card command fails (R108, R130 to R134, R233) -/

/-- R132 to R134: how many bytes a wait reads after its R1. -/
def RespKind.after : RespKind → Nat
  | .r1 => 0
  | .r2 => 1
  | .r3 | .r7 => 4

/-- An answer of its kind's whole length, without illegal-command where that would cut it short. -/
def Answer.full (a : Answer) (c : Config) (k : RespKind) : Bool :=
  a.ok c && (a.more.length == k.after && (k == .r1 || !a.r1.getLsbD 2))

/-- The bytes the block drives in a transaction that sends this frame and gets this answer (R108). -/
def Answer.sent (a : Answer) (frame : List Byte) : List Byte := frame ++ fills (a.wait.length + 1 + a.more.length + 1)

/-- How a command transaction fails. -/
inductive CommandCut where
  /-- No R1 within N_R1 polls. -/
  | silent (x : Silence)
  /-- An R1 with illegal-command, where a longer response is due. -/
  | illegal (a : Answer)
  /-- A command that would be answered, but exchange number j of its transaction fails in transport. -/
  | lost (a : Answer) (j : Nat)
  deriving DecidableEq, Repr

/-- It is what its constructor says, for a command of this response kind. -/
def CommandCut.ok (c : Config) (k : RespKind) : CommandCut → Bool
  | .silent x => x.ok c
  | .illegal a => k != .r1 && (a.plain c && a.r1.getLsbD 2)
  | .lost a j => a.full c k && decide (j < a.bytes.length)

/-- The outcomes of its exchanges. -/
def CommandCut.outcomes : CommandCut → List Reply
  | .silent x => replies x.bytes
  | .illegal a => replies a.bytes
  | .lost a j => lostReplies a.bytes j

/-- The events of its transaction. -/
def CommandCut.events (frame : List Byte) : CommandCut → List Event
  | .silent x => x.events frame
  | .illegal a => a.events frame
  | .lost a j => lostEvents (a.sent frame) a.bytes j

/-- The kind it fails with. -/
def CommandCut.kind : CommandCut → ErrKind
  | .silent _ => .timeout
  | .illegal _ => .illegalCommand
  | .lost _ _ => .ioError

/-- The frames that the card session sends (R111, R113, R114, R118), as the bytes of the table. -/
def resetFrame : List Byte := [0x40, 0x00, 0x00, 0x00, 0x00, 0x95]

def voltageFrame : List Byte := [0x48, 0x00, 0x00, 0x01, 0xAA, 0x87]

def ocrFrame : List Byte := [0x7A, 0x00, 0x00, 0x00, 0x00, 0xFD]

def statusFrame : List Byte := [0x4D, 0x00, 0x00, 0x00, 0x00, 0x0D]

/-! ## How the transfer of a sector is cut short (R147, R148, R156, R158, R160, R161) -/

/-- R156: the error kind of a data response that is not an acceptance. -/
def drespKind : DataResponse → ErrKind
  | .accepted => .none
  | .crcError => .dataCrcError
  | .writeError => .dataWriteError
  | .badFormat => .answerFormat

/-- How a READ_BLOCK fails. -/
inductive ReadCut where
  /-- No R1 within N_R1 polls. -/
  | silent (x : Silence)
  /-- A valid R1 that is not 0x00. -/
  | status (a : Answer)
  /-- The R1 0x00, and then N_TOKEN bytes, which stand in the answer's more, none of them the token. -/
  | noToken (a : Answer)
  /-- A block that would be served, but its exchange number j fails in transport. -/
  | lost (a : ReadAnswer) (j : Nat)
  deriving DecidableEq, Repr

/-- It is what its constructor says. -/
def ReadCut.ok (c : Config) : ReadCut → Bool
  | .silent x => x.ok c
  | .status a => a.plain c && a.r1 != 0x00
  | .noToken a => a.ok c && (a.r1 == 0x00 && (a.more.all (fun b => !isStartToken b) && a.more.length == c.nToken))
  | .lost a j => a.ok c && decide (j < a.bytes.length)

/-- The outcomes of its exchanges. -/
def ReadCut.outcomes : ReadCut → List Reply
  | .silent x => replies x.bytes
  | .status a => replies a.bytes
  | .noToken a => replies a.bytes
  | .lost a j => lostReplies a.bytes j

/-- The events of its transaction. -/
def ReadCut.events (addr : Word) : ReadCut → List Event
  | .silent x => x.events (buildFrame 17 addr).toList
  | .status a => a.events (buildFrame 17 addr).toList
  | .noToken a => a.events (buildFrame 17 addr).toList
  | .lost a j => lostEvents (a.sent addr) a.bytes j

/-- The kind it fails with. -/
def ReadCut.kind : ReadCut → ErrKind
  | .silent _ => .timeout
  | .status _ => .statusNotZero
  | .noToken _ => .timeout
  | .lost _ _ => .ioError

/-- How a WRITE_BLOCK fails. -/
inductive WriteCut where
  /-- No R1 within N_R1 polls. -/
  | silent (x : Silence)
  /-- A valid R1 that is not 0x00. -/
  | status (a : Answer)
  /-- A data response that is not an acceptance; there is no busy poll (R159). -/
  | rejected (a : WriteAnswer)
  /-- An accepted block, and then N_BUSY bytes 0x00. -/
  | busy (a : WriteAnswer)
  /-- A block that would be taken, but its exchange number j fails in transport. -/
  | lost (a : WriteAnswer) (j : Nat)
  deriving DecidableEq, Repr

/-- It is what its constructor says. -/
def WriteCut.ok (c : Config) : WriteCut → Bool
  | .silent x => x.ok c
  | .status a => a.plain c && a.r1 != 0x00
  | .rejected a => a.ok c && (classifyDresp a.dresp != .accepted && a.busy == [])
  | .busy a => a.ok c && (classifyDresp a.dresp == .accepted && (a.busy.all isBusyByte && c.nBusy == some a.busy.length))
  | .lost a j => a.taken c && decide (j < a.bytes.length)

/-- The outcomes of its exchanges. -/
def WriteCut.outcomes : WriteCut → List Reply
  | .silent x => replies x.bytes
  | .status a => replies a.bytes
  | .rejected a => replies a.bytes
  | .busy a => replies a.bytes
  | .lost a j => lostReplies a.bytes j

/-- The events of its transaction, of this payload. -/
def WriteCut.events (addr : Word) (payload : List Byte) : WriteCut → List Event
  | .silent x => x.events (buildFrame 24 addr).toList
  | .status a => a.events (buildFrame 24 addr).toList
  | .rejected a => a.events addr payload
  | .busy a => a.events addr payload
  | .lost a j => lostEvents (a.sent addr payload) a.bytes j

/-- The kind it fails with. -/
def WriteCut.kind : WriteCut → ErrKind
  | .silent _ => .timeout
  | .status _ => .statusNotZero
  | .rejected a => drespKind (classifyDresp a.dresp)
  | .busy _ => .timeout
  | .lost _ _ => .ioError

/-! ## A write run that was held (R158, R161; log entry 21) -/

/-- The end of an unbounded busy poll: the byte that is not 0x00, the final filler and the deassert. -/
def pollEnd (b f : Byte) : List Event := [.xchg 0xFF (.ok b), .xchg 0xFF (.ok f), .csDeassert]

/-- The sector number that comes after the sector that was held and these ones. -/
def State.laterSector (s : State) (answers : List WriteAnswer) : Word := s.dp.sect + BitVec.ofNat 32 (answers.length + 1)

/-- Its offset in the host buffer. -/
def State.laterOffset (s : State) (answers : List WriteAnswer) : Nat := s.dp.off + 512 * (answers.length + 1)

/-- The events of the sectors after the one that was held, when they get these answers. -/
def State.laterEvents (s : State) (answers : List WriteAnswer) : List Event :=
  writeEvents s.ctype s.buffer (s.dp.sect + 1) (s.dp.off + 512) answers

/-- The state after a held host operation that has come to its end: these events, the release of the lock, ERR and the result,
and the datapath registers unspecified (R20). -/
def State.resumed (s : State) (events : List Event) (rest : List Reply) (k : ErrKind) (r : Result) : State :=
  { s with
    card := rest
    log := .lockRelease :: (events.reverse ++ s.log)
    lock := false
    cs := false
    err := k
    dp := Config.freeDatapath s.draws
    draws := s.draws + 1
    hold := none
    result := r }

/-! ## What a card does in a polling loop (R180) -/

/-- What a card returns in one attempt of a polling loop. -/
inductive CardTry where
  /-- CMD1: an R1. -/
  | status (a : Answer)
  /-- CMD1: no R1. -/
  | quiet (x : Silence)
  /-- ACMD41: CMD55 and the body both get an R1. -/
  | body (app a : Answer)
  /-- ACMD41: CMD55's R1 is neither idle nor ready. -/
  | rejected (app : Answer)
  /-- ACMD41: no R1 for CMD55. -/
  | noApp (x : Silence)
  /-- ACMD41: no R1 for the body. -/
  | noBody (app : Answer) (x : Silence)
  deriving DecidableEq, Repr

/-- R110: an R1 answer to CMD55 that lets the body go. -/
def Answer.appOk (a : Answer) (c : Config) : Bool := a.plain c && r1IdleOrReady a.r1

/-- The attempt fits the loop's command, and its waits end as it says. -/
def CardTry.ok (c : Config) (w : LoopCommand) : CardTry → Bool
  | .status a => w == .cmd1 && a.plain c
  | .quiet x => w == .cmd1 && x.ok c
  | .body app a => w != .cmd1 && (app.appOk c && a.plain c)
  | .rejected app => w != .cmd1 && (app.plain c && !r1IdleOrReady app.r1)
  | .noApp x => w != .cmd1 && x.ok c
  | .noBody app x => w != .cmd1 && (app.appOk c && x.ok c)

/-- The bytes of an attempt in order of arrival. -/
def CardTry.bytes : CardTry → List Byte
  | .status a => a.bytes
  | .quiet x => x.bytes
  | .body app a => app.bytes ++ a.bytes
  | .rejected app => app.bytes
  | .noApp x => x.bytes
  | .noBody app x => app.bytes ++ x.bytes

/-- R112, R117, R119: the frame of the command body that a loop sends, and of CMD55. -/
def loopFrame : LoopCommand → List Byte
  | .acmdHcs => [0x69, 0x40, 0x00, 0x00, 0x00, 0x77]
  | .acmd => [0x69, 0x00, 0x00, 0x00, 0x00, 0xE5]
  | .cmd1 => [0x41, 0x00, 0x00, 0x00, 0x00, 0xF9]

/-- R117: the frame of CMD55. -/
def appFrame : List Byte := [0x77, 0x00, 0x00, 0x00, 0x00, 0x65]

/-- The events of an attempt: one or two windows (R180). -/
def CardTry.events (w : LoopCommand) : CardTry → List Event
  | .status a => a.events (loopFrame w)
  | .quiet x => x.events (loopFrame w)
  | .body app a => app.events appFrame ++ a.events (loopFrame w)
  | .rejected app => app.events appFrame
  | .noApp x => x.events appFrame
  | .noBody app x => app.events appFrame ++ x.events (loopFrame w)

/-- The final R1 of an attempt that has one (R180's table). -/
def CardTry.lastR1 : CardTry → Option Byte
  | .status a => some a.r1
  | .quiet _ => none
  | .body _ a => some a.r1
  | .rejected app => some app.r1
  | .noApp _ => none
  | .noBody _ _ => none

/-- R180: the attempt ends the loop Ready: the final R1 of the command itself is 0x00. -/
def CardTry.ready : CardTry → Bool
  | .status a => a.r1 == 0x00
  | .body _ a => a.r1 == 0x00
  | .quiet _ | .rejected _ | .noApp _ | .noBody _ _ => false

/-- R180, D33: bit 2 of the final R1 is set, be it CMD55's or the body's. -/
def CardTry.illegal (t : CardTry) : Bool := t.lastR1.any r1IllegalCommand

/-- The bytes of several attempts. -/
def triesBytes (ts : List CardTry) : List Byte := ts.flatMap CardTry.bytes

/-- R181: the events of several attempts, with a delay between any two. -/
def triesEvents (w : LoopCommand) : List CardTry → List Event
  | [] => []
  | [t] => t.events w
  | t :: u :: rest => t.events w ++ .delayMs 1 :: triesEvents w (u :: rest)

/-- An attempt that does not end its loop: it is not Ready and, where the loop stops on illegal-command, not Illegal (R180). -/
def CardTry.goesOn (t : CardTry) (c : Config) (w : LoopCommand) (stop : Bool) : Bool :=
  t.ok c w && !t.ready && !(stop && t.illegal)

/-! ## How a polling loop fails (R175, R177, R180, R181) -/

/-- An attempt in which exchange number j of a transaction that would be answered fails in transport. -/
inductive TryCut where
  /-- The transaction of CMD1. -/
  | status (a : Answer) (j : Nat)
  /-- The transaction of CMD55; no body is sent. -/
  | appCommand (a : Answer) (j : Nat)
  /-- The transaction of the body, after an answered CMD55. -/
  | body (app a : Answer) (j : Nat)
  deriving DecidableEq, Repr

/-- It fits the loop's command. -/
def TryCut.ok (c : Config) (w : LoopCommand) : TryCut → Bool
  | .status a j => w == .cmd1 && (a.plain c && decide (j < a.bytes.length))
  | .appCommand a j => w != .cmd1 && (a.plain c && decide (j < a.bytes.length))
  | .body app a j => w != .cmd1 && (app.appOk c && (a.plain c && decide (j < a.bytes.length)))

/-- The outcomes of its exchanges. -/
def TryCut.outcomes : TryCut → List Reply
  | .status a j => lostReplies a.bytes j
  | .appCommand a j => lostReplies a.bytes j
  | .body app a j => replies app.bytes ++ lostReplies a.bytes j

/-- Its events. -/
def TryCut.events (w : LoopCommand) : TryCut → List Event
  | .status a j => lostEvents (a.sent (loopFrame w)) a.bytes j
  | .appCommand a j => lostEvents (a.sent appFrame) a.bytes j
  | .body app a j => app.events appFrame ++ lostEvents (a.sent (loopFrame w)) a.bytes j

/-- How a polling loop ends without a card that is ready. -/
inductive LoopCut where
  /-- These attempts use up its budget. -/
  | exhausted (tries : List CardTry)
  /-- After these attempts one more fails in transport: there is no further attempt and no further delay. -/
  | lost (tries : List CardTry) (last : TryCut)
  deriving DecidableEq, Repr

/-- It is what its constructor says, for a loop of budget n; that stop is set, the loop also ends at illegal-command. -/
def LoopCut.ok (c : Config) (w : LoopCommand) (n : Nat) (stop : Bool) : LoopCut → Bool
  | .exhausted tries => tries.all (fun t => t.goesOn c w stop) && (tries != [] && tries.length == n)
  | .lost tries last => tries.all (fun t => t.goesOn c w stop) && (last.ok c w && decide (tries.length < n))

/-- The outcomes of its exchanges. -/
def LoopCut.outcomes : LoopCut → List Reply
  | .exhausted tries => replies (triesBytes tries)
  | .lost tries last => replies (triesBytes tries) ++ last.outcomes

/-- Its events: one delay between any two attempts (R181). -/
def LoopCut.events (w : LoopCommand) : LoopCut → List Event
  | .exhausted tries => triesEvents w tries
  | .lost tries last => tries.flatMap (fun t => t.events w ++ [.delayMs 1]) ++ last.events w

/-- The kind that the initialization sequence fails with then. -/
def LoopCut.kind : LoopCut → ErrKind
  | .exhausted _ => .timeout
  | .lost _ _ => .ioError

/-! ## A card that an initialization sequence resolves (R171 to R179) -/

/-- What a card does in an INIT_SEQUENCE that resolves a type: ten bytes during the fillers, the answers to CMD0 and CMD8, the
attempts of the polling loops, each with the one that ends it, and on the v2 path the answer to CMD58. -/
inductive CardInit where
  | v2 (pre : Vector Byte 10) (a0 a8 : Answer) (echo : Word) (tries : List CardTry) (last : CardTry) (a58 : Answer)
      (ocr : Word)
  | sdV1 (pre : Vector Byte 10) (a0 a8 : Answer) (tries : List CardTry) (last : CardTry)
  | mmc (pre : Vector Byte 10) (a0 a8 : Answer) (tries : List CardTry) (stop : CardTry) (tries1 : List CardTry)
      (last1 : CardTry)
  deriving DecidableEq, Repr

/-- It resolves the type of its constructor (R174 to R179). -/
def CardInit.ok (c : Config) : CardInit → Bool
  | .v2 _ a0 a8 echo tries last a58 ocr => a0.plain c && (a8.ok c && !a8.r1.getLsbD 2 && a8.more == wordBytes echo &&
      echo.extractLsb' 0 8 == 0xAA) && ((tries.all fun t => t.ok c .acmdHcs && !t.ready) && last.ok c .acmdHcs &&
      last.ready && decide (tries.length < c.nInitV2)) && (a58.ok c && !a58.r1.getLsbD 2 && a58.more == wordBytes ocr)
  | .sdV1 _ a0 a8 tries last => a0.plain c && (a8.plain c && a8.r1.getLsbD 2) &&
      ((tries.all fun t => t.ok c .acmd && !t.ready && !t.illegal) && last.ok c .acmd && last.ready &&
      decide (tries.length < c.nInitLegacy))
  | .mmc _ a0 a8 tries stop tries1 last1 => a0.plain c && (a8.plain c && a8.r1.getLsbD 2) &&
      ((tries.all fun t => t.ok c .acmd && !t.ready && !t.illegal) && stop.ok c .acmd && !stop.ready && stop.illegal &&
      decide (tries.length < c.nInitLegacy)) && ((tries1.all fun t => t.ok c .cmd1 && !t.ready) && last1.ok c .cmd1 &&
      last1.ready && decide (tries1.length < c.nInitMmc))

/-- The bytes in order of arrival. -/
def CardInit.bytes : CardInit → List Byte
  | .v2 pre a0 a8 _ tries last a58 _ => pre.toList ++ a0.bytes ++ a8.bytes ++ triesBytes (tries ++ [last]) ++ a58.bytes
  | .sdV1 pre a0 a8 tries last => pre.toList ++ a0.bytes ++ a8.bytes ++ triesBytes (tries ++ [last])
  | .mmc pre a0 a8 tries stop tries1 last1 =>
    pre.toList ++ a0.bytes ++ a8.bytes ++ triesBytes (tries ++ [stop]) ++ triesBytes (tries1 ++ [last1])

/-- The events up to the answer to CMD8. -/
def initHead (pre : Vector Byte 10) (a0 a8 : Answer) : List Event :=
  [.setSpeed .slow] ++ exchanges (fills 10) pre.toList ++ a0.events resetFrame ++ a8.events voltageFrame

/-- The events of the sequence up to the resolution, after which the fast rate is asked for (R179). -/
def CardInit.events : CardInit → List Event
  | .v2 pre a0 a8 _ tries last a58 _ => initHead pre a0 a8 ++ triesEvents .acmdHcs (tries ++ [last]) ++
      a58.events ocrFrame
  | .sdV1 pre a0 a8 tries last => initHead pre a0 a8 ++ triesEvents .acmd (tries ++ [last])
  | .mmc pre a0 a8 tries stop tries1 last1 =>
    initHead pre a0 a8 ++ triesEvents .acmd (tries ++ [stop]) ++ triesEvents .cmd1 (tries1 ++ [last1])

/-- The type it resolves (R176, R177). -/
def CardInit.type : CardInit → CardType
  | .v2 _ _ _ _ _ _ _ ocr => if ocr.getLsbD 30 then .sdV2Block else .sdV2Byte
  | .sdV1 _ _ _ _ _ => .sdV1
  | .mmc _ _ _ _ _ _ _ => .mmcV3

/-- R173: whether CMD0's R1 is neither 0x00 nor 0x01. -/
def CardInit.warn : CardInit → Bool
  | .v2 _ a0 _ _ _ _ _ _ | .sdV1 _ a0 _ _ _ | .mmc _ a0 _ _ _ _ _ => !r1IdleOrReady a0.r1

/-- The values STATE takes, newest first (R185). -/
def CardInit.visits : CardInit → List Fsm
  | .v2 _ _ _ _ _ _ _ _ => [.typeResolved, .voltageCheckedV2, .idleConfirmed, .spiReset, .unidentified]
  | .sdV1 _ _ _ _ _ => [.typeResolved, .voltageCheckedLegacy, .idleConfirmed, .spiReset, .unidentified]
  | .mmc _ _ _ _ _ _ _ => [.typeResolved, .legacyMmc, .voltageCheckedLegacy, .idleConfirmed, .spiReset, .unidentified]

/-! ## An initialization sequence that fails (R171 to R182) -/

/-- R174: CMD8's whole response with this register. -/
def Answer.echoes (a8 : Answer) (c : Config) (echo : Word) : Bool :=
  a8.ok c && !a8.r1.getLsbD 2 && a8.more == wordBytes echo

/-- R174: CMD8's R1 has illegal-command. -/
def Answer.preV2 (a8 : Answer) (c : Config) : Bool := a8.plain c && a8.r1.getLsbD 2

/-- Where and how an INIT_SEQUENCE fails: ten bytes during the fillers, the answers and the attempts up to the failure, and
the failure. -/
inductive InitCut where
  /-- A filler fails in transport, after these bytes. -/
  | filler (pre : List Byte)
  /-- CMD0 fails. -/
  | cmd0 (pre : Vector Byte 10) (x : CommandCut)
  /-- CMD8 fails, other than with IllegalCommand. -/
  | cmd8 (pre : Vector Byte 10) (a0 : Answer) (x : CommandCut)
  /-- The low byte of CMD8's register is not 0xAA. -/
  | mismatch (pre : Vector Byte 10) (a0 a8 : Answer) (echo : Word)
  /-- The ACMD41 loop of the v2 path. -/
  | v2Loop (pre : Vector Byte 10) (a0 a8 : Answer) (echo : Word) (x : LoopCut)
  /-- CMD58 fails. -/
  | cmd58 (pre : Vector Byte 10) (a0 a8 : Answer) (echo : Word) (tries : List CardTry) (last : CardTry) (x : CommandCut)
  /-- The ACMD41 loop of the legacy path. -/
  | legacyLoop (pre : Vector Byte 10) (a0 a8 : Answer) (x : LoopCut)
  /-- The CMD1 loop, after an ACMD41 attempt that shows illegal-command. -/
  | mmcLoop (pre : Vector Byte 10) (a0 a8 : Answer) (tries : List CardTry) (stop : CardTry) (x : LoopCut)
  deriving DecidableEq, Repr

/-- It is what its constructor says. -/
def InitCut.ok (c : Config) : InitCut → Bool
  | .filler pre => decide (pre.length < 10)
  | .cmd0 _ x => x.ok c .r1
  | .cmd8 _ a0 x => a0.plain c && (x.ok c .r7 && x.kind != .illegalCommand)
  | .mismatch _ a0 a8 echo => a0.plain c && (a8.echoes c echo && echo.extractLsb' 0 8 != 0xAA)
  | .v2Loop _ a0 a8 echo x => a0.plain c && (a8.echoes c echo && (echo.extractLsb' 0 8 == 0xAA &&
      x.ok c .acmdHcs c.nInitV2 false))
  | .cmd58 _ a0 a8 echo tries last x => a0.plain c && (a8.echoes c echo && (echo.extractLsb' 0 8 == 0xAA &&
      (tries.all (fun t => t.goesOn c .acmdHcs false) && (last.ok c .acmdHcs && (last.ready &&
      (decide (tries.length < c.nInitV2) && x.ok c .r3))))))
  | .legacyLoop _ a0 a8 x => a0.plain c && (a8.preV2 c && x.ok c .acmd c.nInitLegacy true)
  | .mmcLoop _ a0 a8 tries stop x => a0.plain c && (a8.preV2 c && (tries.all (fun t => t.goesOn c .acmd true) &&
      (stop.ok c .acmd && (!stop.ready && (stop.illegal && (decide (tries.length < c.nInitLegacy) &&
      x.ok c .cmd1 c.nInitMmc false))))))

/-- The outcomes of its exchanges. -/
def InitCut.outcomes : InitCut → List Reply
  | .filler pre => replies pre ++ [.fail]
  | .cmd0 pre x => replies pre.toList ++ x.outcomes
  | .cmd8 pre a0 x => replies (pre.toList ++ a0.bytes) ++ x.outcomes
  | .mismatch pre a0 a8 _ => replies (pre.toList ++ a0.bytes ++ a8.bytes)
  | .v2Loop pre a0 a8 _ x => replies (pre.toList ++ a0.bytes ++ a8.bytes) ++ x.outcomes
  | .cmd58 pre a0 a8 _ tries last x =>
    replies (pre.toList ++ a0.bytes ++ a8.bytes ++ triesBytes (tries ++ [last])) ++ x.outcomes
  | .legacyLoop pre a0 a8 x => replies (pre.toList ++ a0.bytes ++ a8.bytes) ++ x.outcomes
  | .mmcLoop pre a0 a8 tries stop x =>
    replies (pre.toList ++ a0.bytes ++ a8.bytes ++ triesBytes (tries ++ [stop])) ++ x.outcomes

/-- Its events: there is none after the failure, and no second speed request (R179, R182). -/
def InitCut.events : InitCut → List Event
  | .filler pre => [.setSpeed .slow] ++ exchanges (fills pre.length) pre ++ [.xchg 0xFF .fail]
  | .cmd0 pre x => [.setSpeed .slow] ++ exchanges (fills 10) pre.toList ++ x.events resetFrame
  | .cmd8 pre a0 x =>
    [.setSpeed .slow] ++ exchanges (fills 10) pre.toList ++ a0.events resetFrame ++ x.events voltageFrame
  | .mismatch pre a0 a8 _ => initHead pre a0 a8
  | .v2Loop pre a0 a8 _ x => initHead pre a0 a8 ++ x.events .acmdHcs
  | .cmd58 pre a0 a8 _ tries last x => initHead pre a0 a8 ++ triesEvents .acmdHcs (tries ++ [last]) ++ x.events ocrFrame
  | .legacyLoop pre a0 a8 x => initHead pre a0 a8 ++ x.events .acmd
  | .mmcLoop pre a0 a8 tries stop x => initHead pre a0 a8 ++ triesEvents .acmd (tries ++ [stop]) ++ x.events .cmd1

/-- The kind it fails with (R182). -/
def InitCut.kind : InitCut → ErrKind
  | .filler _ => .ioError
  | .cmd0 _ x | .cmd8 _ _ x | .cmd58 _ _ _ _ _ _ x => x.kind
  | .mismatch _ _ _ _ => .voltageMismatch
  | .v2Loop _ _ _ _ x | .legacyLoop _ _ _ x | .mmcLoop _ _ _ _ _ x => x.kind

/-- R173: whether CMD0's R1 has come and is neither 0x00 nor 0x01. -/
def InitCut.warn : InitCut → Bool
  | .filler _ | .cmd0 _ _ => false
  | .cmd8 _ a0 _ | .mismatch _ a0 _ _ | .v2Loop _ a0 _ _ _ | .cmd58 _ a0 _ _ _ _ _ | .legacyLoop _ a0 _ _
  | .mmcLoop _ a0 _ _ _ _ => !r1IdleOrReady a0.r1

/-- The values STATE takes, newest first (R185). -/
def InitCut.visits : InitCut → List Fsm
  | .filler _ => [.failed, .unidentified]
  | .cmd0 _ _ => [.failed, .spiReset, .unidentified]
  | .cmd8 _ _ _ | .mismatch _ _ _ _ => [.failed, .idleConfirmed, .spiReset, .unidentified]
  | .v2Loop _ _ _ _ _ | .cmd58 _ _ _ _ _ _ _ =>
    [.failed, .voltageCheckedV2, .idleConfirmed, .spiReset, .unidentified]
  | .legacyLoop _ _ _ _ => [.failed, .voltageCheckedLegacy, .idleConfirmed, .spiReset, .unidentified]
  | .mmcLoop _ _ _ _ _ _ => [.failed, .legacyMmc, .voltageCheckedLegacy, .idleConfirmed, .spiReset, .unidentified]

/-- Whether it fails before any chip-select window (R172). -/
def InitCut.windowless : InitCut → Bool
  | .filler _ => true
  | .cmd0 _ _ | .cmd8 _ _ _ | .mismatch _ _ _ _ | .v2Loop _ _ _ _ _ | .cmd58 _ _ _ _ _ _ _ | .legacyLoop _ _ _ _
  | .mmcLoop _ _ _ _ _ _ => false

/-- A run that reaches only next states. -/
def stepsTo : Nat → State → Option State
  | 0, s => some s
  | n + 1, s =>
    match step s with
    | .next t => stepsTo n t
    | _ => none

end Sys2Proof.Machine
end

