-- ==== Sys2Proof/Certificates/Slice0/Obligations.lean ====
section
/-! DEFINITION. The statements about SDMMC-CODEC, one per definition. That a card command or a received format runs by
itself as an instruction (log entry 13), that a received format's bytes come next from the card (log entry 14), and that
the card's outcomes stand in a list of the state (log entry 1) are the model's choices; what the instruction then does is the
spec's. -/

open Sys2Proof Sys2Proof.Machine

/-! ## Encodings -/

/-- R70 to R88: no bit of an encoding is dropped. Every well-formed instruction, whatever bytes follow it, is read back from
its encoding in its own format, with every operand, and nothing of what follows is taken. -/
def Obligations.DecodeOfEncodeIsIdentity : Prop :=
  ∀ (i : Instr) (rest : List Byte), WellFormed i = true → decode i.format (encode i ++ rest) = .ok (i, rest)

/-- R71 to R90: a word has one meaning. Whatever the decoder reads from a byte sequence in any format, the encoder gives back
exactly the bytes it took. -/
def Obligations.EncodeOfDecodeIsIdentity : Prop :=
  ∀ (f : Format) (bytes : List Byte) (i : Instr) (rest : List Byte),
    decode f bytes = .ok (i, rest) → encode i ++ rest = bytes

/-- 95_test_vectors.md section 2.2 and 30_encoding.md R71 to R84: words of the formats F-CMD, F-R1, F-R3, F-R7 and F-DRESP,
written out from the spec, are read as the instructions they stand for. The last word, a READ_SECTOR request, has the spec's
operation code 3 (R88) in the layout of the host port that the model chose (DESIGN CHOICE, log entry 9): the spec gives none. -/
def Obligations.SpecWordsDecode : Prop :=
  decode .fCmd [0x40, 0x00, 0x00, 0x00, 0x00, 0x95] = .ok (.cmd0, []) ∧
  decode .fCmd [0x69, 0x40, 0x00, 0x00, 0x00, 0x77] = .ok (.acmd41Hcs, []) ∧
  decode .fCmd [0x51, 0x00, 0x00, 0x02, 0x00, 0x79] = .ok (.cmd17 0x200 0x3C, []) ∧
  decode .fCmd [0x58, 0x12, 0x34, 0x56, 0x78, 0x67] = .ok (.cmd24 0x12345678 0x33, []) ∧
  decode .fCmd [0x7F, 0xFF, 0xFF, 0xFF, 0xFF, 0x19] = .ok (.frame 63 0xFFFFFFFF 0x0C, []) ∧
  decode .fR1 [0x7F] = .ok (.r1 0x7F, []) ∧
  decode .fR1 [0x80] = .ok (.notR1 0x80, []) ∧
  decode .fR3 [0x00, 0xC0, 0xFF, 0x80, 0x00] = .ok (.r3 0x00 0xC0FF8000, []) ∧
  decode .fR7 [0x05, 0x00] = .ok (.r1Illegal 0x05, [0x00]) ∧
  decode .fDresp [0x0B] = .ok (.drespCrcError 0x0B, []) ∧
  decode .fHost [0x03, 0x00, 0x00, 0x00, 0x05] = .ok (.readSector 5, [])

/-! ## The command codec -/

/-- R100 to R102 ("generator g(x)=x^7+x^3+1", most significant bit first, start value 0, no final xor): the CRC7 of a byte run,
read as a polynomial over the field with two elements, is the remainder of the run's polynomial times x^7 on division by g. -/
def Obligations.CrcIsRemainderByGenerator : Prop :=
  ∀ bytes : List Byte, ∃ q : Polynomial (ZMod 2),
    crcPolynomial (bytes.flatMap bitsMsbFirst) * Polynomial.X ^ 7 =
      q * (Polynomial.X ^ 7 + Polynomial.X ^ 3 + 1) + crcPolynomial (registerBits (crc7Run bytes))

/-- R103: the frame builder computes the two fixed CRC bytes: 0x95 ends the frame of CMD0 with argument 0, 0x87 that of CMD8 with
argument 0x1AA. -/
def Obligations.FixedCrcBytesAgree : Prop :=
  (buildFrame 0 0).toList = [0x40, 0x00, 0x00, 0x00, 0x00, 0x95] ∧
  (buildFrame 8 0x1AA).toList = [0x48, 0x00, 0x00, 0x01, 0xAA, 0x87]

/-- R104, R72, R74: BUILD_COMMAND, for every index and argument. It completes, writes IDX, ARG, FRAME and CRC7 and nothing else
(the result register is the model's, log entry 23); byte 0 is 0x40 + index, bytes 1 to 4 are the argument big-endian, byte 5 is
twice the CRC7 of those five plus the stop bit. And it is injective. The CRC operand of the row has no effect (log entry 16). -/
def Obligations.FrameRowBuildsFrame : Prop :=
  (∀ (idx : BitVec 6) (arg : Word) (crc : BitVec 7) (s : State),
    exec (.frame idx arg crc) s = .next { s with
      dp := { s.dp with idx := idx, arg := arg, crc7 := crc7Run (frameHead idx arg), frame := buildFrame idx arg }
      result := .frame (buildFrame idx arg) } ∧
    (buildFrame idx arg)[0].toNat = 0x40 + idx.toNat ∧
    (buildFrame idx arg)[1].toNat * 2 ^ 24 + (buildFrame idx arg)[2].toNat * 2 ^ 16 + (buildFrame idx arg)[3].toNat * 2 ^ 8 +
      (buildFrame idx arg)[4].toNat = arg.toNat ∧
    (buildFrame idx arg)[5].toNat = 2 * (crc7Run ((buildFrame idx arg).toList.take 5)).toNat + 1) ∧
  ∀ (idx idx' : BitVec 6) (arg arg' : Word), buildFrame idx arg = buildFrame idx' arg' → idx = idx' ∧ arg = arg'

/-! ## The response reader -/

/-- R130, WAIT_R1, whole: the first byte with bit 7 clear is accepted verbatim after exactly as many exchanges as its position;
N_R1 bytes with bit 7 set end in Timeout after exactly N_R1 exchanges, with R1 unchanged; a failing exchange ends the wait with
IoError at once. Nothing but the card's bytes, the trace, POLL and R1 changes. -/
def Obligations.WaitR1Contract : Prop :=
  ∀ (s : State) (wait : List Byte) (rest : List Reply), wait.all (fun b => !r1Valid b) = true →
    (∀ b : Byte, b.getLsbD 7 = false → wait.length < s.cfg.nR1 → s.card = replies (wait ++ [b]) ++ rest →
      waitR1 s = .ok b { s with
        card := rest
        log := (exchanges (fills (wait.length + 1)) (wait ++ [b])).reverse ++ s.log
        dp := { s.dp with poll := wait.length + 1, r1 := b } }) ∧
    (wait.length = s.cfg.nR1 → s.card = replies wait ++ rest →
      waitR1 s = .err .timeout { s with
        card := rest
        log := (exchanges (fills wait.length) wait).reverse ++ s.log
        dp := { s.dp with poll := wait.length } }) ∧
    (wait.length < s.cfg.nR1 → s.card = replies wait ++ .fail :: rest →
      waitR1 s = .err .ioError { s with
        card := rest
        log := .xchg 0xFF .fail :: ((exchanges (fills wait.length) wait).reverse ++ s.log)
        dp := { s.dp with poll := wait.length + 1 } })

/-- R130, R90: the rows R1 and NOT_R1, one attempt of WAIT_R1 each (log entry 15). A byte with bit 7 clear is accepted whatever
its other bits are; a byte with bit 7 set is not accepted, and the attempt that uses up N_R1 fails Timeout with R1 unchanged. -/
def Obligations.R1RowsPollOnce : Prop :=
  ∀ (s : State) (b : Byte),
    (b.getLsbD 7 = false → exec (.r1 b) s = .next { s with
      log := .xchg 0xFF (.ok b) :: s.log
      dp := { s.dp with poll := s.dp.poll + 1, r1 := b }
      result := .r1 b }) ∧
    (b.getLsbD 7 = true → exec (.notR1 b) s = .next { s with
      log := .xchg 0xFF (.ok b) :: s.log
      dp := { s.dp with poll := s.dp.poll + 1 }
      result := if s.dp.poll + 1 < s.cfg.nR1 then .polling else .failed .timeout })

/-- R132, R133, R134, R54, R56: the rows R2, R3 and R7 in full length. R2 composes with the R1 in bits 15:8; the register bytes
are taken as they come, most significant first, into REG32; the R1's bits other than 7 and 2 do not matter. -/
def Obligations.LongResponseRowsRead : Prop :=
  ∀ (s : State) (r : Byte), 1 ≤ s.cfg.nR1 → r.getLsbD 7 = false → r.getLsbD 2 = false →
    (∀ status : Byte, exec (.r2 r status) s = .next { s with
      log := .xchg 0xFF (.ok status) :: .xchg 0xFF (.ok r) :: s.log
      dp := { s.dp with poll := 1, r1 := r, r2b := status }
      result := .r2 (BitVec.ofNat 16 (r.toNat * 256 + status.toNat)) }) ∧
    (∀ v : Word, exec (.r3 r v) s = .next { s with
      log := (exchanges (fills 5) (r :: wordBytes v)).reverse ++ s.log
      dp := { s.dp with poll := 1, r1 := r, reg32 := v }
      result := .reg r v }) ∧
    (∀ v : Word, exec (.r7 r v) s = .next { s with
      log := (exchanges (fills 5) (r :: wordBytes v)).reverse ++ s.log
      dp := { s.dp with poll := 1, r1 := r, reg32 := v }
      result := .reg r v })

/-- R132 to R134, R235: an R1 with illegal-command cuts an R2, R3 or R7 short, whatever bytes follow on the wire: the wait fails
IllegalCommand, no byte after the R1 is read, and R2B and REG32 are unchanged. The row R1.ILLEGAL is that wait with the R1 at
the first poll. -/
def Obligations.IllegalCommandCutsResponse : Prop :=
  ∀ (s : State) (wait : List Byte) (r : Byte) (rest : List Reply), r.getLsbD 7 = false → r.getLsbD 2 = true →
    (wait.all (fun b => !r1Valid b) = true → wait.length < s.cfg.nR1 → s.card = replies (wait ++ [r]) ++ rest →
      ∃ t, t = { s with
          card := rest
          log := (exchanges (fills (wait.length + 1)) (wait ++ [r])).reverse ++ s.log
          dp := { s.dp with poll := wait.length + 1, r1 := r } } ∧
        waitR2 s = .err .illegalCommand t ∧ waitR3 s = .err .illegalCommand t ∧ waitR7 s = .err .illegalCommand t) ∧
    (1 ≤ s.cfg.nR1 → exec (.r1Illegal r) s = .next { s with
      log := .xchg 0xFF (.ok r) :: s.log
      dp := { s.dp with poll := 1, r1 := r }
      result := .failed .illegalCommand })

/-! ## Card commands -/

/-- R108, R109, R111, R112, R117: CMD0, CMD1 and CMD55 that get an R1 within N_R1 polls: one window with the frame, the polls
that drive 0xFF, and the trailing filler; the R1 is the result. State.answered says what changes: nothing but the card's bytes,
the trace, CS, and the datapath registers IDX, ARG, FRAME, CRC7, R1 and POLL. -/
def Obligations.PlainCommandsReturnR1 : Prop :=
  ∀ (s : State) (a : Answer) (rest : List Reply), a.ok s.cfg = true → a.more = [] → s.card = replies a.bytes ++ rest →
    exec .cmd0 s = .next ((s.answered 0 0 a rest id).setResult (.r1 a.r1)) ∧
    exec .cmd1 s = .next ((s.answered 1 0 a rest id).setResult (.r1 a.r1)) ∧
    exec .cmd55 s = .next ((s.answered 55 0 a rest id).setResult (.r1 a.r1))

/-- R108, R113, R114, R118: CMD8, CMD58 and CMD13 that get their whole response. -/
def Obligations.LongCommandsReturnRegister : Prop :=
  ∀ (s : State) (a : Answer) (rest : List Reply), a.ok s.cfg = true → a.r1.getLsbD 2 = false →
    s.card = replies a.bytes ++ rest →
    (∀ v : Word, a.more = wordBytes v →
      exec .cmd8 s = .next ((s.answered 8 0x1AA a rest fun d => { d with reg32 := v }).setResult (.reg a.r1 v)) ∧
      exec .cmd58 s = .next ((s.answered 58 0 a rest fun d => { d with reg32 := v }).setResult (.reg a.r1 v))) ∧
    (∀ b : Byte, a.more = [b] →
      exec .cmd13 s = .next ((s.answered 13 0 a rest fun d => { d with r2b := b }).setResult (.r2 (a.r1 ++ b))))

/-- R110, R119, R93: ACMD41 is CMD55 and, when its R1 is 0x00 or 0x01, the body in a window of its own, with HCS set or clear;
the body's R1 is the result. -/
def Obligations.Acmd41SendsAppCommandThenBody : Prop :=
  ∀ (s : State) (app a : Answer) (rest : List Reply), app.ok s.cfg = true → app.more = [] →
    app.r1 = 0x00 ∨ app.r1 = 0x01 → a.ok s.cfg = true → a.more = [] →
    s.card = replies (app.bytes ++ a.bytes) ++ rest →
    exec .acmd41Hcs s = .next (((s.answered 55 0 app (replies a.bytes ++ rest) id).answered 41 0x40000000 a rest id).setResult
      (.r1 a.r1)) ∧
    exec .acmd41 s = .next (((s.answered 55 0 app (replies a.bytes ++ rest) id).answered 41 0 a rest id).setResult
      (.r1 a.r1))

/-- R110: when CMD55's R1 is neither 0x00 nor 0x01 the body is not sent, the call fails AppCmdRejected, and R1 holds CMD55's
answer. -/
def Obligations.Acmd41BodyNotSentWhenRejected : Prop :=
  ∀ (s : State) (app : Answer) (rest : List Reply), app.ok s.cfg = true → app.more = [] →
    app.r1 ≠ 0x00 → app.r1 ≠ 0x01 → s.card = replies app.bytes ++ rest →
    exec .acmd41Hcs s = .next ((s.answered 55 0 app rest id).setResult (.failed .appCmdRejected)) ∧
    exec .acmd41 s = .next ((s.answered 55 0 app rest id).setResult (.failed .appCmdRejected))

/-- R113, R114, R118, R235: CMD8, CMD13 and CMD58 whose R1 has illegal-command: the window holds the frame, the polls up to the
R1 and the trailing filler only. -/
def Obligations.LongCommandsFailIllegal : Prop :=
  ∀ (s : State) (a : Answer) (rest : List Reply), a.ok s.cfg = true → a.more = [] → a.r1.getLsbD 2 = true →
    s.card = replies a.bytes ++ rest →
    exec .cmd8 s = .next ((s.answered 8 0x1AA a rest id).setResult (.failed .illegalCommand)) ∧
    exec .cmd13 s = .next ((s.answered 13 0 a rest id).setResult (.failed .illegalCommand)) ∧
    exec .cmd58 s = .next ((s.answered 58 0 a rest id).setResult (.failed .illegalCommand))

/-- R108, R109, R130, R234: every card command that gets no R1 in N_R1 polls fails Timeout after 6 + N_R1 + 1 exchanges; CMD17
and CMD24 have no data phase then, and ACMD41 sends no body. -/
def Obligations.CommandsTimeOutWithoutR1 : Prop :=
  ∀ (s : State) (x : Silence) (rest : List Reply), x.ok s.cfg = true → s.card = replies x.bytes ++ rest →
    exec .cmd0 s = .next ((s.unanswered 0 0 x rest).setResult (.failed .timeout)) ∧
    exec .cmd1 s = .next ((s.unanswered 1 0 x rest).setResult (.failed .timeout)) ∧
    exec .cmd8 s = .next ((s.unanswered 8 0x1AA x rest).setResult (.failed .timeout)) ∧
    exec .cmd13 s = .next ((s.unanswered 13 0 x rest).setResult (.failed .timeout)) ∧
    exec .cmd55 s = .next ((s.unanswered 55 0 x rest).setResult (.failed .timeout)) ∧
    exec .cmd58 s = .next ((s.unanswered 58 0 x rest).setResult (.failed .timeout)) ∧
    exec .acmd41Hcs s = .next ((s.unanswered 55 0 x rest).setResult (.failed .timeout)) ∧
    exec .acmd41 s = .next ((s.unanswered 55 0 x rest).setResult (.failed .timeout)) ∧
    (∀ addr crc, exec (.cmd17 addr crc) s = .next ((s.unanswered 17 addr x rest).setResult (.failed .timeout))) ∧
    (∀ addr crc, exec (.cmd24 addr crc) s =
      .next (((s.unanswered 24 addr x rest).setHold none).setResult (.failed .timeout)))

/-- R109, R239, R238 (e), R240: every command transaction, block read and block write, in every state and whatever the card does,
is one window (WindowOf) and one exit from it (ExitsFrom): with u the state its procedure leaves, a transport failure is followed
by the deassert only; any other failure by one filler and the deassert with its own kind kept, whatever the filler's exchange
comes to; a success by the same, but IoError if the filler fails. A write whose unbounded busy poll goes on has not ended: its
window stays open, and it ends the same way after a later attempt (that the attempts are steps is the model's choice, log entry
21). -/
def Obligations.TransactionsExitOneWay : Prop :=
  ∀ (s : State),
    (∀ (idx : BitVec 6) (arg : Word) (k : RespKind), WindowOf s.log (commandBody idx arg k s.csAssert) ∧
      ExitsFrom (commandBody idx arg k s.csAssert) (command idx arg k s)) ∧
    (∀ addr : Word, WindowOf s.log (readBody addr s.csAssert) ∧ ExitsFrom (readBody addr s.csAssert) (readBlock addr s)) ∧
    (∀ addr : Word, WindowOf s.log (writeBody addr s.csAssert) ∧
      ((∃ u, s.cfg.nBusy = none ∧ writeBody addr s.csAssert = .ok false u ∧ writeBlock addr s = .ok false u) ∨
        (∀ u, writeBody addr s.csAssert ≠ .ok false u) ∧ ExitsFrom (writeBody addr s.csAssert) (writeBlock addr s))) ∧
    ((∃ o u, busyAttempt s = .ok o u ∧
      (o = none ∧ writeResume s = .ok false u ∨ o.isSome = true ∧ ExitsFrom (.ok true u) (writeResume s))) ∨
      ∃ k u, busyAttempt s = .err k u ∧ ExitsFrom (.err k u) (writeResume s))

/-- R105, R233, R240: a transport failure at byte j of the frame, for each j from 0 to 5: the j bytes before it have been sent,
none after it is, no filler follows, chip-select is deasserted, and the error is IoError. -/
def Obligations.FrameStopsAtTransportFailure : Prop :=
  ∀ (s : State) (idx : BitVec 6) (arg : Word) (k : RespKind) (got : List Byte) (rest : List Reply) (h : got.length < 6),
    s.card = replies got ++ .fail :: rest →
    command idx arg k s = .err .ioError { s with
      card := rest
      log := .csDeassert :: .xchg (buildFrame idx arg)[got.length] .fail ::
        ((exchanges (buildFrame idx arg).toList got).reverse ++ .csAssert :: s.log)
      cs := false
      dp := s.dp.framed idx arg }

/-! ## Block transfer -/

/-- R146, R148 to R151, R115, R83: CMD17 that is served: 6 + p + q + 512 + 2 + 1 exchanges in one window; BUF holds the payload
in order of arrival, CRC16 the two CRC bytes, which are not examined. State.blockRead says what changes; the CRC operand of the
row has no effect (log entry 16). -/
def Obligations.Cmd17ReadsBlock : Prop :=
  ∀ (s : State) (addr : Word) (crc : BitVec 7) (a : ReadAnswer) (rest : List Reply), a.ok s.cfg = true →
    s.card = replies a.bytes ++ rest →
    exec (.cmd17 addr crc) s = .next ((s.blockRead addr a rest).setResult .done)

/-- R152 to R156, R158, R159, R116: CMD24 whose block is accepted and whose busy poll ends within N_BUSY (with N_BUSY unbounded,
at the first poll): the bytes driven are frame, polls, filler, token, BUF in order, two CRC bytes 0xFF, one data-response read,
the busy polls, and the final filler. State.blockSent says what changes. -/
def Obligations.Cmd24WritesBlock : Prop :=
  ∀ (s : State) (addr : Word) (crc : BitVec 7) (a : WriteAnswer) (rest : List Reply), a.taken s.cfg = true →
    s.card = replies a.bytes ++ rest →
    exec (.cmd24 addr crc) s = .next (((s.blockSent addr a rest a.busy.length).setHold none).setResult .done)

/-- R147: any valid R1 but 0x00 to CMD17 or CMD24, idle (0x01) and illegal-command (0x04) included, fails StatusNotZero with no
data phase: the window holds the frame, the polls up to the R1 and the filler. -/
def Obligations.BlockCommandsNeedZeroR1 : Prop :=
  ∀ (s : State) (addr : Word) (crc : BitVec 7) (a : Answer) (rest : List Reply), a.ok s.cfg = true → a.more = [] →
    a.r1 ≠ 0x00 → s.card = replies a.bytes ++ rest →
    exec (.cmd17 addr crc) s = .next ((s.answered 17 addr a rest id).setResult (.failed .statusNotZero)) ∧
    exec (.cmd24 addr crc) s = .next (((s.answered 24 addr a rest id).setHold none).setResult (.failed .statusNotZero))

/-- R148, WAIT_TOKEN, whole: any byte but 0xFE costs one attempt; the first 0xFE ends the wait; N_TOKEN other bytes end it with
Timeout; a failing exchange ends it with IoError at once. -/
def Obligations.WaitTokenContract : Prop :=
  ∀ (s : State) (gap : List Byte) (rest : List Reply), gap.all (fun b => b != 0xFE) = true →
    (gap.length < s.cfg.nToken → s.card = replies (gap ++ [0xFE]) ++ rest →
      waitToken s = .ok () { s with
        card := rest
        log := (exchanges (fills (gap.length + 1)) (gap ++ [0xFE])).reverse ++ s.log
        dp := { s.dp with poll := gap.length + 1 } }) ∧
    (gap.length = s.cfg.nToken → s.card = replies gap ++ rest →
      waitToken s = .err .timeout { s with
        card := rest
        log := (exchanges (fills gap.length) gap).reverse ++ s.log
        dp := { s.dp with poll := gap.length } }) ∧
    (gap.length < s.cfg.nToken → s.card = replies gap ++ .fail :: rest →
      waitToken s = .err .ioError { s with
        card := rest
        log := .xchg 0xFF .fail :: ((exchanges (fills gap.length) gap).reverse ++ s.log)
        dp := { s.dp with poll := gap.length + 1 } })

/-- R156, R84: the four data-response rows, for every byte of each: exactly one exchange, DRESP holds the byte; bit 4 is tested
first, then the nibble; bits 7:5 do not matter. Accepted goes on; the three other classes fail with three distinct kinds. -/
def Obligations.DataResponseRowsDecode : Prop :=
  ∀ (s : State) (b : Byte),
    (b.toNat / 16 % 2 = 0 → b.toNat % 16 = 0b0101 → exec (.drespAccepted b) s = .next { s with
      log := .xchg 0xFF (.ok b) :: s.log, dp := { s.dp with dresp := b }, result := .done }) ∧
    (b.toNat / 16 % 2 = 0 → b.toNat % 16 = 0b1011 → exec (.drespCrcError b) s = .next { s with
      log := .xchg 0xFF (.ok b) :: s.log, dp := { s.dp with dresp := b }, result := .failed .dataCrcError }) ∧
    (b.toNat / 16 % 2 = 0 → b.toNat % 16 = 0b1101 → exec (.drespWriteError b) s = .next { s with
      log := .xchg 0xFF (.ok b) :: s.log, dp := { s.dp with dresp := b }, result := .failed .dataWriteError }) ∧
    (b.toNat / 16 % 2 = 1 ∨ b.toNat % 16 ≠ 0b0101 ∧ b.toNat % 16 ≠ 0b1011 ∧ b.toNat % 16 ≠ 0b1101 →
      exec (.drespBadFormat b) s = .next { s with
        log := .xchg 0xFF (.ok b) :: s.log, dp := { s.dp with dresp := b }, result := .failed .answerFormat })

/-- R156, R159, D24: CMD24 whose block is not accepted: the kind of its class, no busy poll, one filler, deassert. -/
def Obligations.Cmd24RejectedSkipsBusyPoll : Prop :=
  ∀ (s : State) (addr : Word) (crc : BitVec 7) (a : WriteAnswer) (rest : List Reply), a.ok s.cfg = true → a.busy = [] →
    s.card = replies a.bytes ++ rest →
    (classifyDresp a.dresp = .crcError → exec (.cmd24 addr crc) s =
      .next (((s.blockSent addr a rest (a.wait.length + 1)).setHold none).setResult (.failed .dataCrcError))) ∧
    (classifyDresp a.dresp = .writeError → exec (.cmd24 addr crc) s =
      .next (((s.blockSent addr a rest (a.wait.length + 1)).setHold none).setResult (.failed .dataWriteError))) ∧
    (classifyDresp a.dresp = .badFormat → exec (.cmd24 addr crc) s =
      .next (((s.blockSent addr a rest (a.wait.length + 1)).setHold none).setResult (.failed .answerFormat)))

/-- R158, R277: the bounded write-busy poll fails Timeout after exactly N_BUSY bytes 0x00; the filler and the deassert
follow. -/
def Obligations.Cmd24BusyPollTimesOut : Prop :=
  ∀ (s : State) (addr : Word) (crc : BitVec 7) (a : WriteAnswer) (rest : List Reply) (n : Nat), s.cfg.nBusy = some n →
    a.ok s.cfg = true → classifyDresp a.dresp = .accepted → a.busy = List.replicate n 0x00 →
    s.card = replies a.bytes ++ rest →
    exec (.cmd24 addr crc) s = .next (((s.blockSent addr a rest n).setHold none).setResult (.failed .timeout))

/-- R82, R83, R148 to R150, R154, R155, D23: the rows DATA_START and DATA_BLOCK in both directions. Received, the token ends an
attempt of the token wait, and a block fills BUF and CRC16; sent, the token is driven, and a block goes out of BUF with the
constant CRC bytes 0xFF, 0xFF whatever its CRC operand says, the received bytes being discarded. The model's choices (DESIGN
CHOICE), not the spec's: that DATA_START from the card is one attempt of the wait (log entry 15); that the direction is part of
the instruction, that a block to be sent first goes into BUF, and that its CRC operand has no effect (log entry 18). -/
def Obligations.DataRowsMoveBlocks : Prop :=
  (∀ s : State, exec (.dataStart .fromCard) s = .next { s with
    log := .xchg 0xFF (.ok 0xFE) :: s.log, dp := { s.dp with poll := s.dp.poll + 1 }, result := .done }) ∧
  (∀ (s : State) (b : Byte) (rest : List Reply), s.card = .ok b :: rest →
    exec (.dataStart .toCard) s = .next { s with card := rest, log := .xchg 0xFE (.ok b) :: s.log, result := .done }) ∧
  (∀ (s : State) (payload : Block) (crc : BitVec 16), 1 ≤ s.cfg.nToken →
    exec (.dataBlock .fromCard payload crc) s = .next { s with
      log := (exchanges (fills 515) (0xFE :: payload.toList ++ [crc.extractLsb' 8 8, crc.extractLsb' 0 8])).reverse ++ s.log
      dp := { s.dp with poll := 1, buf := payload, crc16 := crc }
      result := .done }) ∧
  ∀ (s : State) (payload : Block) (crc : BitVec 16) (got : List Byte) (rest : List Reply), got.length = 515 →
    s.card = replies got ++ rest →
    exec (.dataBlock .toCard payload crc) s = .next { s with
      card := rest
      log := (exchanges (0xFE :: payload.toList ++ [0xFF, 0xFF]) got).reverse ++ s.log
      dp := { s.dp with buf := payload }
      result := .done }

/-- R85, R158, R86, R106: the rows BUSY and FILL. 0x00 costs one attempt of the busy poll, and the attempt that uses up a bounded
N_BUSY fails Timeout; a filler byte drives 0xFF and its received byte is discarded. That the row BUSY is one attempt of
WAIT_NOT_BUSY, counted on the POLL that it finds, is the model's choice (DESIGN CHOICE, log entry 15). -/
def Obligations.BusyAndFillRows : Prop :=
  (∀ s : State, exec .busy s = .next { s with
    log := .xchg 0xFF (.ok 0x00) :: s.log
    dp := { s.dp with poll := s.dp.poll + 1 }
    result := if s.cfg.nBusy.any (fun n => decide (n ≤ s.dp.poll + 1)) then .failed .timeout else .polling }) ∧
  ∀ (s : State) (b : Byte) (rest : List Reply), s.card = .ok b :: rest →
    exec .fill s = .next { s with card := rest, log := .xchg 0xFF (.ok b) :: s.log, result := .done }

/-- R158, R18, R278, U3: with N_BUSY unbounded and a card that stays busy the operation hangs. A single-sector write whose card
accepts the block and answers 0x00 to the first poll is held; k more steps over k more bytes 0x00 leave it held, with the lock
held and chip-select asserted, whatever stands at the host port. That a hang is a run of steps, one poll each, is the model's
choice (log entry 21). -/
def Obligations.UnboundedBusyPollHangs : Prop :=
  (∀ (s : State) (sector : Word) (a : WriteAnswer) (rest : List Reply), s.cfg.nBusy = none → s.lockFree = true →
    s.ctype ≠ .unknown → sector.toNat < sectorLimit s.ctype → a.ok s.cfg = true →
    classifyDresp a.dresp = .accepted → a.busy = [0x00] → s.card = replies a.bytesToBusy ++ rest →
    ∃ t, exec (.writeSector sector) s = .next t ∧ t.hold = some .run ∧ t.lock = true ∧ t.cs = true ∧ t.result = .pending ∧
      t.cfg = s.cfg ∧ t.card = rest ∧ t.port = s.port ∧ t.buffer = s.buffer) ∧
  ∀ (s : State) (h : Hold) (k : Nat) (rest : List Reply), s.cfg.nBusy = none → s.hold = some h → s.result = .pending →
    s.card = replies (List.replicate k 0x00) ++ rest →
    stepsTo k s = some { s with
      card := rest
      log := List.replicate k (.xchg 0xFF (.ok 0x00)) ++ s.log
      dp := { s.dp with poll := s.dp.poll + k } }

/-- R158, R159, R161, R204, R212, N_BUSY unbounded: a byte other than 0x00 ends the poll of a held write: the final filler and the
deassert follow, and a host operation on its last sector returns OK and releases the lock. With sectors left it goes on with
the next sector number, at its protocol address, and the next 512 bytes of the host buffer: to the end, when the card takes
them all; into a further hold, at a sector that gets 0x00 at its first poll; to the failure of a sector that is cut short; or to
AddressOverflow, before any event of a sector without a protocol address. A transport failure of the poll, or of the final filler,
ends it with IoError and the deassert (R109, R233). That all this is in one step is the model's choice (DESIGN CHOICE, log entry
21). -/
def Obligations.HeldWriteEndsWhenReady : Prop :=
  (∀ (s : State) (b f : Byte) (more rest : List Reply), s.cfg.nBusy = none → b ≠ 0x00 → s.card = .ok b :: .ok f :: more →
    (s.hold = some .block → step s = .next { s with
      card := more
      log := (pollEnd b f).reverse ++ s.log
      cs := false
      dp := { s.dp with poll := s.dp.poll + 1 }
      hold := none
      result := .done }) ∧
    (s.hold = some .run → s.dp.remain = 1 → step s = .next (s.resumed (pollEnd b f) more s.err (.io .ok))) ∧
    ∀ answers : List WriteAnswer, s.hold = some .run → (∀ a ∈ answers, a.taken s.cfg = true) →
      (answers ≠ [] → s.dp.remain.toNat = answers.length + 1 → s.dp.sect.toNat + answers.length < sectorLimit s.ctype →
        more = replies (answers.flatMap WriteAnswer.bytes) ++ rest →
        step s = .next (s.resumed (pollEnd b f ++ s.laterEvents answers) rest s.err (.io .ok))) ∧
      (∀ a : WriteAnswer, answers.length + 1 < s.dp.remain.toNat →
        s.dp.sect.toNat + (answers.length + 1) < sectorLimit s.ctype → a.ok s.cfg = true →
        classifyDresp a.dresp = .accepted → a.busy = [0x00] →
        more = replies (answers.flatMap WriteAnswer.bytes) ++ (replies a.bytesToBusy ++ rest) →
        ∃ d : Datapath, d.sect = s.laterSector answers ∧ d.off = s.laterOffset answers ∧
          d.remain.toNat + (answers.length + 1) = s.dp.remain.toNat ∧ step s = .next { s with
            card := rest
            log := (pollEnd b f ++ s.laterEvents answers ++ .csAssert :: exchanges (a.sentToBusy (protocolAddress s.ctype
              (s.laterSector answers)) (s.buffer.readBytes (s.laterOffset answers) 512)) a.bytesToBusy).reverse ++ s.log
            cs := true
            dp := d
            result := .pending }) ∧
      (∀ x : WriteCut, answers.length + 1 < s.dp.remain.toNat →
        s.dp.sect.toNat + (answers.length + 1) < sectorLimit s.ctype → x.ok s.cfg = true →
        more = replies (answers.flatMap WriteAnswer.bytes) ++ (x.outcomes ++ rest) →
        step s = .next (s.resumed (pollEnd b f ++ s.laterEvents answers ++ x.events (protocolAddress s.ctype
          (s.laterSector answers)) (s.buffer.readBytes (s.laterOffset answers) 512)) rest x.kind (.io .error))) ∧
      (answers.length + 1 < s.dp.remain.toNat → s.dp.sect.toNat + (answers.length + 1) = sectorLimit s.ctype →
        more = replies (answers.flatMap WriteAnswer.bytes) ++ rest →
        step s = .next (s.resumed (pollEnd b f ++ s.laterEvents answers) rest .addressOverflow (.io .error)))) ∧
  ∀ (s : State) (ev : List Event) (more : List Reply), s.cfg.nBusy = none →
    s.card = .fail :: more ∧ ev = [.xchg 0xFF .fail, .csDeassert] ∨
      (∃ b, b ≠ 0x00 ∧ s.card = .ok b :: .fail :: more ∧ ev = [.xchg 0xFF (.ok b), .xchg 0xFF .fail, .csDeassert]) →
    (s.hold = some .run → step s = .next (s.resumed ev more .ioError (.io .error))) ∧
    (s.hold = some .block → step s = .next { s with
      card := more
      log := ev.reverse ++ s.log
      cs := false
      dp := { s.dp with poll := s.dp.poll + 1 }
      hold := none
      result := .failed .ioError })

/-- R150, R162, U29: the two CRC bytes of a served block can make no difference: two reads of the same sector whose cards differ
in these bytes only end with the same result in states that differ in the trace only: the same bytes are left of the card's
outcomes, so as many were consumed. -/
def Obligations.ReadIgnoresCrcBytes : Prop :=
  ∀ (s : State) (sector : Word) (a : ReadAnswer) (hi lo : Byte) (rest : List Reply), s.lockFree = true →
    s.ctype ≠ .unknown → sector.toNat < sectorLimit s.ctype → a.ok s.cfg = true →
    ∃ t u, exec (.readSector sector) { s with card := replies a.bytes ++ rest } = .next t ∧
      exec (.readSector sector) { s with card := replies ({ a with crcHi := hi, crcLo := lo } : ReadAnswer).bytes ++ rest } =
        .next u ∧
      t.card = rest ∧ { t with log := [] } = { u with log := [] }

/-! ## Addresses and host operations -/

/-- R204, R51, R73, D20: ARG_ADDRESS. A block-addressed card takes the sector number; every other type takes sector * 512, exact
below 2^23, and refuses from there on. -/
def Obligations.ArgAddressRule : Prop :=
  ∀ sector : Word, argAddress .sdV2Block sector = .ok sector ∧
    ∀ t : CardType, t ≠ .sdV2Block →
      (sector.toNat < 0x00800000 → ∃ a, argAddress t sector = .ok a ∧ a.toNat = sector.toNat * 512) ∧
      (0x00800000 ≤ sector.toNat → argAddress t sector = .error .addressOverflow)

/-- R202, R59: GET_TYPE returns CTYPE and does nothing else: no lock, no event, not even ERR. -/
def Obligations.GetTypeReadsOnly : Prop :=
  ∀ s : State, exec .getType s = .next { s with result := .cardType s.ctype }

/-- R211, R203, R205 to R208, D18: with no resolved type the sector operations and WAKE_UP do nothing but take and release the
lock: ERR is NotReady, the result NOTRDY or Error, and this also with a count of 0. -/
def Obligations.TypeCheckRefuses : Prop :=
  ∀ (s : State) (sector count timeout : Word), s.lockFree = true → s.ctype = .unknown →
    ∃ t : Result → State, (∀ r : Result, t r = { s with
        log := .lockRelease :: .lockAcquire :: s.log, lock := false, err := .notReady, dp := Config.freeDatapath s.draws,
        draws := s.draws + 1, hold := none, result := r }) ∧
      exec (.readSector sector) s = .next (t (.io .notRdy)) ∧
      exec (.writeSector sector) s = .next (t (.io .notRdy)) ∧
      exec (.readSectors sector count timeout) s = .next (t (.io .notRdy)) ∧
      exec (.writeSectors sector count timeout) s = .next (t (.io .notRdy)) ∧
      exec .wakeUp s = .next (t (.wake .error))

/-- R43, R63, U9, U20: while the lock is not granted, or is held by an operation of the block, the block has no step for any host
operation but GET_TYPE. -/
def Obligations.NoStepWithoutLock : Prop :=
  ∀ (s : State) (i : Instr), s.grant = false ∨ s.lock = true → i.format = .fHost → i ≠ .getType →
    exec i s = .fault .lockHeld

/-- R205, R207, R160, R52, R53, R55, R58, R212: a read run whose sectors are all served: one lock pair around one window per
sector, at the protocol addresses of consecutive sectors; the host buffer gets payload byte j of sector i at offset 512 * i + j,
the result is OK, ERR is None. READ_SECTOR is the run of one sector. State.served says what changes: CTYPE, SPEED, STATE,
WARN_IDLE_R1 and the parameters do not. -/
def Obligations.ReadRunStoresSectors : Prop :=
  ∀ (s : State) (sector timeout : Word) (answers : List ReadAnswer) (rest : List Reply), s.lockFree = true →
    s.ctype ≠ .unknown → answers ≠ [] → sector.toNat + answers.length ≤ sectorLimit s.ctype → answers.length < 2 ^ 32 →
    (∀ a ∈ answers, a.ok s.cfg = true) → s.card = replies (answers.flatMap ReadAnswer.bytes) ++ rest →
    ∃ t, t = { s.served (readEvents s.ctype sector answers) rest (.io .ok) with buffer := putBlocks s.buffer 0 answers } ∧
      exec (.readSectors sector (BitVec.ofNat 32 answers.length) timeout) s = .next t ∧
      (answers.length = 1 → exec (.readSector sector) s = .next t) ∧
      (∀ (i : Nat) (a : ReadAnswer), answers[i]? = some a → ∀ j (h : j < 512), t.buffer.read (512 * i + j) = a.payload[j]) ∧
      ∀ off, 512 * answers.length ≤ off → t.buffer.read off = s.buffer.read off

/-- R206, R208, R161, R53, R55, R212: a write run whose sectors are all taken: the payload driven for sector i is the host
buffer's bytes 512 * i to 512 * i + 511 in order; the host buffer is only read. WRITE_SECTOR is the run of one sector. -/
def Obligations.WriteRunSendsSectors : Prop :=
  ∀ (s : State) (sector timeout : Word) (answers : List WriteAnswer) (rest : List Reply), s.lockFree = true →
    s.ctype ≠ .unknown → answers ≠ [] → sector.toNat + answers.length ≤ sectorLimit s.ctype → answers.length < 2 ^ 32 →
    (∀ a ∈ answers, a.taken s.cfg = true) → s.card = replies (answers.flatMap WriteAnswer.bytes) ++ rest →
    ∃ t, t = s.served (writeEvents s.ctype s.buffer sector 0 answers) rest (.io .ok) ∧
      exec (.writeSectors sector (BitVec.ofNat 32 answers.length) timeout) s = .next t ∧
      (answers.length = 1 → exec (.writeSector sector) s = .next t)

/-- R207, R208, D21, U17: a count of 0 is OK with no transfer, whatever the sector and the timeout. -/
def Obligations.CountZeroTransfersNothing : Prop :=
  ∀ (s : State) (sector timeout : Word), s.lockFree = true → s.ctype ≠ .unknown →
    exec (.readSectors sector 0 timeout) s = .next { s.served [] s.card (.io .ok) with cs := s.cs } ∧
    exec (.writeSectors sector 0 timeout) s = .next { s.served [] s.card (.io .ok) with cs := s.cs }

/-- R160, R161, R204, R238 (f), D20, D21: a run that reaches a sector without a protocol address ends there with
AddressOverflow, before any event for that sector: a byte-addressed sector from 2^23 on, or a sector number past 2^32 - 1. The
sectors before it are done. With no sector before it, which is so for every first sector past the last address, all four
operations, READ_SECTORS and WRITE_SECTORS with any count but 0, do nothing but that. -/
def Obligations.RunStopsWhereAddressesEnd : Prop :=
  ∀ (s : State) (sector count timeout : Word) (rest : List Reply), s.lockFree = true → s.ctype ≠ .unknown →
    (∀ answers : List ReadAnswer, answers.length < count.toNat → sector.toNat + answers.length = sectorLimit s.ctype →
      (∀ a ∈ answers, a.ok s.cfg = true) → s.card = replies (answers.flatMap ReadAnswer.bytes) ++ rest →
      exec (.readSectors sector count timeout) s = .next { s.served (readEvents s.ctype sector answers) rest (.io .error) with
        cs := s.cs && answers.isEmpty, err := .addressOverflow, buffer := putBlocks s.buffer 0 answers }) ∧
    (∀ answers : List WriteAnswer, answers.length < count.toNat → sector.toNat + answers.length = sectorLimit s.ctype →
      (∀ a ∈ answers, a.taken s.cfg = true) → s.card = replies (answers.flatMap WriteAnswer.bytes) ++ rest →
      exec (.writeSectors sector count timeout) s =
        .next { s.served (writeEvents s.ctype s.buffer sector 0 answers) rest (.io .error) with
          cs := s.cs && answers.isEmpty, err := .addressOverflow }) ∧
    (sectorLimit s.ctype ≤ sector.toNat →
      ∃ t, t = { s.served [] s.card (.io .error) with cs := s.cs, err := .addressOverflow } ∧
        exec (.readSector sector) s = .next t ∧ exec (.writeSector sector) s = .next t ∧
        (count ≠ 0 → exec (.readSectors sector count timeout) s = .next t ∧
          exec (.writeSectors sector count timeout) s = .next t))

/-- R160, R58, R207, R233 to R235, R240: a read run whose card serves some sectors and then cuts one short, by no R1, an R1 that
is not 0x00, no token, or a transport failure at any exchange of a block that would be served: the run aborts with that kind,
the served sectors are in the host buffer, the failing one and those after it are untouched, and the failing sector's events
are the last: no later sector is asked for. READ_SECTOR is the run of one sector. -/
def Obligations.ReadRunAbortsAtFirstFailure : Prop :=
  ∀ (s : State) (sector count timeout : Word) (answers : List ReadAnswer) (x : ReadCut) (rest : List Reply),
    s.lockFree = true → s.ctype ≠ .unknown → answers.length < count.toNat →
    sector.toNat + answers.length < sectorLimit s.ctype → (∀ a ∈ answers, a.ok s.cfg = true) → x.ok s.cfg = true →
    s.card = replies (answers.flatMap ReadAnswer.bytes) ++ (x.outcomes ++ rest) →
    ∃ t, t = { s.served (readEvents s.ctype sector answers ++
          x.events (protocolAddress s.ctype (sector + BitVec.ofNat 32 answers.length))) rest (.io .error) with
        err := x.kind, buffer := putBlocks s.buffer 0 answers } ∧
      exec (.readSectors sector count timeout) s = .next t ∧
      (answers = [] → exec (.readSector sector) s = .next t) ∧
      ∀ off, 512 * answers.length ≤ off → t.buffer.read off = s.buffer.read off

/-- R161, R58, R208, R233 to R237, R240: a write run whose card takes some sectors and then cuts one short, by no R1, an R1 that
is not 0x00, a data response that is no acceptance, a busy poll that uses up N_BUSY, or a transport failure at any exchange of
a block that would be taken: the run aborts with that kind, the failing sector's events are the last, so no later sector is
asked for, and the host buffer is only read. WRITE_SECTOR is the run of one sector. -/
def Obligations.WriteRunAbortsAtFirstFailure : Prop :=
  ∀ (s : State) (sector count timeout : Word) (answers : List WriteAnswer) (x : WriteCut) (rest : List Reply),
    s.lockFree = true → s.ctype ≠ .unknown → answers.length < count.toNat →
    sector.toNat + answers.length < sectorLimit s.ctype → (∀ a ∈ answers, a.taken s.cfg = true) → x.ok s.cfg = true →
    s.card = replies (answers.flatMap WriteAnswer.bytes) ++ (x.outcomes ++ rest) →
    ∃ t, t = { s.served (writeEvents s.ctype s.buffer sector 0 answers ++
          x.events (protocolAddress s.ctype (sector + BitVec.ofNat 32 answers.length))
            (s.buffer.readBytes (512 * answers.length) 512)) rest (.io .error) with
        err := x.kind } ∧
      exec (.writeSectors sector count timeout) s = .next t ∧
      (answers = [] → exec (.writeSector sector) s = .next t)

/-- R58, R205, R240, D22: a single-sector read is all or nothing toward the host, in every state and whatever the card does: with
any result but OK the host buffer is as it was; with OK the offsets from 512 on are. The write operations never change it. -/
def Obligations.FailedReadLeavesHostBuffer : Prop :=
  ∀ (s t : State) (sector : Word),
    (exec (.readSector sector) s = .next t →
      (t.result ≠ .io .ok → t.buffer = s.buffer) ∧ ∀ off, 512 ≤ off → t.buffer.read off = s.buffer.read off) ∧
    (exec (.writeSector sector) s = .next t → t.buffer = s.buffer) ∧
    ∀ count timeout : Word, exec (.writeSectors sector count timeout) s = .next t → t.buffer = s.buffer

/-! ## The card session -/

/-- R171 to R176, R179, R185, R186 (b), R201: INITIALIZE of a v2 card, from every state. Ten fillers outside any window; CMD0; CMD8
with the right echo; ACMD41 with HCS set up to the attempt that is ready, with one delay between attempts; CMD58; the fast rate.
The type follows OCR bit 30, and WARN_IDLE_R1 says whether CMD0's R1 was neither 0x00 nor 0x01 (R27, R173). -/
def Obligations.InitializeResolvesV2Card : Prop :=
  ∀ (s : State) (pre : List Byte) (a0 a8 a58 : Answer) (echo ocr : Word) (tries : List CardTry) (last : CardTry)
    (rest : List Reply) (type : CardType), s.lockFree = true →
    pre.length = 10 → a0.plain s.cfg = true → a8.ok s.cfg = true → a8.r1.getLsbD 2 = false → a8.more = wordBytes echo →
    echo.extractLsb' 0 8 = 0xAA →
    (∀ t ∈ tries, t.ok s.cfg .acmdHcs = true ∧ t.ready = false) → last.ok s.cfg .acmdHcs = true → last.ready = true →
    tries.length < s.cfg.nInitV2 → a58.ok s.cfg = true → a58.r1.getLsbD 2 = false → a58.more = wordBytes ocr →
    type = (if ocr.getLsbD 30 then .sdV2Block else .sdV2Byte) →
    s.card = replies (pre ++ a0.bytes ++ a8.bytes ++ triesBytes (tries ++ [last]) ++ a58.bytes) ++ rest →
    exec .initializeCard s = .next { s.served ([.setSpeed .slow] ++ exchanges (fills 10) pre ++
        a0.events [0x40, 0x00, 0x00, 0x00, 0x00, 0x95] ++ a8.events [0x48, 0x00, 0x00, 0x01, 0xAA, 0x87] ++
        triesEvents .acmdHcs (tries ++ [last]) ++ a58.events [0x7A, 0x00, 0x00, 0x00, 0x00, 0xFD] ++ [.setSpeed .fast])
        rest (.cardType type) with
      ctype := type, speed := .fast, fsm := .typeResolved, warnIdleR1 := !r1IdleOrReady a0.r1
      visits := [.typeResolved, .voltageCheckedV2, .idleConfirmed, .spiReset, .unidentified] ++ s.visits }

/-- R174, R177, R179, R185: INITIALIZE of an SD v1 card: CMD8's R1 has illegal-command, and the ACMD41 loop with HCS clear ends
ready before any illegal-command. -/
def Obligations.InitializeResolvesSdV1Card : Prop :=
  ∀ (s : State) (pre : List Byte) (a0 a8 : Answer) (tries : List CardTry) (last : CardTry) (rest : List Reply),
    s.lockFree = true → pre.length = 10 → a0.plain s.cfg = true → a8.plain s.cfg = true → a8.r1.getLsbD 2 = true →
    (∀ t ∈ tries, t.ok s.cfg .acmd = true ∧ t.ready = false ∧ t.illegal = false) → last.ok s.cfg .acmd = true →
    last.ready = true → tries.length < s.cfg.nInitLegacy →
    s.card = replies (pre ++ a0.bytes ++ a8.bytes ++ triesBytes (tries ++ [last])) ++ rest →
    exec .initializeCard s = .next { s.served ([.setSpeed .slow] ++ exchanges (fills 10) pre ++
        a0.events [0x40, 0x00, 0x00, 0x00, 0x00, 0x95] ++ a8.events [0x48, 0x00, 0x00, 0x01, 0xAA, 0x87] ++
        triesEvents .acmd (tries ++ [last]) ++ [.setSpeed .fast]) rest (.cardType .sdV1) with
      ctype := .sdV1, speed := .fast, fsm := .typeResolved, warnIdleR1 := !r1IdleOrReady a0.r1
      visits := [.typeResolved, .voltageCheckedLegacy, .idleConfirmed, .spiReset, .unidentified] ++ s.visits }

/-- R177, R178, R180, R185, D33: INITIALIZE of an MMC card: an ACMD41 attempt shows illegal-command, on CMD55 or on the body, and
the CMD1 loop, with a budget of its own and no delay before it, ends ready. -/
def Obligations.InitializeResolvesMmcCard : Prop :=
  ∀ (s : State) (pre : List Byte) (a0 a8 : Answer) (tries tries1 : List CardTry) (stop last1 : CardTry) (rest : List Reply),
    s.lockFree = true → pre.length = 10 → a0.plain s.cfg = true → a8.plain s.cfg = true → a8.r1.getLsbD 2 = true →
    (∀ t ∈ tries, t.ok s.cfg .acmd = true ∧ t.ready = false ∧ t.illegal = false) → stop.ok s.cfg .acmd = true →
    stop.ready = false → stop.illegal = true → tries.length < s.cfg.nInitLegacy →
    (∀ t ∈ tries1, t.ok s.cfg .cmd1 = true ∧ t.ready = false) → last1.ok s.cfg .cmd1 = true → last1.ready = true →
    tries1.length < s.cfg.nInitMmc →
    s.card = replies (pre ++ a0.bytes ++ a8.bytes ++ triesBytes (tries ++ [stop]) ++ triesBytes (tries1 ++ [last1])) ++ rest →
    exec .initializeCard s = .next { s.served ([.setSpeed .slow] ++ exchanges (fills 10) pre ++
        a0.events [0x40, 0x00, 0x00, 0x00, 0x00, 0x95] ++ a8.events [0x48, 0x00, 0x00, 0x01, 0xAA, 0x87] ++
        triesEvents .acmd (tries ++ [stop]) ++ triesEvents .cmd1 (tries1 ++ [last1]) ++ [.setSpeed .fast]) rest
        (.cardType .mmcV3) with
      ctype := .mmcV3, speed := .fast, fsm := .typeResolved, warnIdleR1 := !r1IdleOrReady a0.r1
      visits := [.typeResolved, .legacyMmc, .voltageCheckedLegacy, .idleConfirmed, .spiReset, .unidentified] ++ s.visits }

/-- R171 to R178, R180 to R182, R185, R233, D10, D15: INITIALIZE that ends before it resolves a type, wherever it does (InitCut):
at a filler, with no chip-select event; at CMD0, CMD8 or CMD58, with no R1, with a transport failure at any exchange of a
transaction that would be answered, or, at CMD58, with illegal-command; at the echo; or in one of the three loops, by exactly as
many attempts as its budget, with one delay less, or by a transport failure at any exchange of an attempt that would be answered,
after which there is no further attempt.
CTYPE is Unknown whatever it was, STATE is Failed, the rate stays slow, ERR holds the kind, and nothing follows the failure. -/
def Obligations.InitializeFailsEarly : Prop :=
  ∀ (s : State) (x : InitCut) (rest : List Reply), s.lockFree = true → x.ok s.cfg = true → s.card = x.outcomes ++ rest →
    exec .initializeCard s = .next { s.served x.events rest (.cardType .unknown) with
      cs := s.cs && x.windowless, ctype := .unknown, speed := .slow, fsm := .failed, err := x.kind, warnIdleR1 := x.warn
      visits := x.visits ++ s.visits }

/-- R186 (a): when CMD8 reports illegal-command, INITIALIZE never reaches the v2 path and only ever ends in SDv1, MMCv3 or
failure, whatever the card does before and after: the values STATE takes hold VoltageCheckedV2 only if they do not hold
VoltageCheckedLegacy, and a card whose CMD8 answer has the bit is on the legacy path. -/
def Obligations.IllegalCmd8NeverReachesV2Path : Prop :=
  ∀ (s : State) (pre : List Byte) (a0 a8 : Answer) (rest : List Reply), s.lockFree = true → pre.length = 10 →
    a0.plain s.cfg = true → a8.plain s.cfg = true → a8.r1.getLsbD 2 = true →
    s.card = replies (pre ++ a0.bytes ++ a8.bytes) ++ rest →
    ∃ t new, exec .initializeCard s = .next t ∧ t.visits = new ++ s.visits ∧ .voltageCheckedLegacy ∈ new ∧
      .voltageCheckedV2 ∉ new ∧ (t.ctype = .sdV1 ∨ t.ctype = .mmcV3 ∨ t.ctype = .unknown)

/-- R185, R24: in every state and whatever the card does, the values STATE takes in one step follow the transition table. -/
def Obligations.SessionStateFollowsTable : Prop :=
  ∀ s t : State, step s = .next t → ∃ new, t.visits = new ++ s.visits ∧ fsmPath s.fsm new.reverse = true ∧
    t.fsm = (new ++ [s.fsm]).head (by simp)

/-- R210, R243, R26, R200, R237: how every host operation ends, in every state in which it gets the lock, and whatever the card
does: the result, and the error kinds that go with it. Only a write can be left unfinished by its step, and only with N_BUSY
unbounded: it is then held in its busy poll, with nothing returned yet (R158; log entry 21, DESIGN CHOICE). -/
def Obligations.ResultsAndErrorKinds : Prop :=
  ∀ s : State, s.lockFree = true →
    (∃ t, exec .initializeCard s = .next t ∧ t.result = .cardType t.ctype ∧ (t.err = .none ↔ t.ctype ≠ .unknown) ∧
      t.err ∈ [.none, .ioError, .timeout, .illegalCommand, .voltageMismatch] ∧
      (t.ctype = .unknown → t.fsm = .failed ∧ t.speed = .slow) ∧
      (t.ctype ≠ .unknown → t.fsm = .typeResolved ∧ t.speed = .fast)) ∧
    (∃ t, exec .wakeUp s = .next t ∧ (t.result = .wake .ready ∧ t.err = .none ∨
      t.result = .wake .notReady ∧ t.err = .timeout ∨ t.result = .wake .error ∧ t.err = .ioError ∨
      s.ctype = .unknown ∧ t.result = .wake .error ∧ t.err = .notReady)) ∧
    (∃ t, exec .getStatus s = .next t ∧
      ((t.result = .status .ready ∨ t.result = .status .notInitialized) ∧ t.err = .none ∨
        t.result = .status .noMedium ∧ t.err ∈ [.ioError, .timeout, .illegalCommand, .voltageMismatch])) ∧
    (∀ sector count timeout : Word, ∀ i ∈ [Instr.readSector sector, .readSectors sector count timeout],
      ∃ t, exec i s = .next t ∧ (t.result = .io .ok ∧ t.err = .none ∨
        s.ctype = .unknown ∧ t.result = .io .notRdy ∧ t.err = .notReady ∨
        t.result = .io .error ∧ t.err ∈ [.ioError, .timeout, .statusNotZero, .addressOverflow])) ∧
    ∀ sector count timeout : Word, ∀ i ∈ [Instr.writeSector sector, .writeSectors sector count timeout],
      ∃ t, exec i s = .next t ∧ (t.result = .io .ok ∧ t.err = .none ∨
        s.ctype = .unknown ∧ t.result = .io .notRdy ∧ t.err = .notReady ∨
        t.result = .io .error ∧ t.err ∈ [.ioError, .timeout, .statusNotZero, .dataCrcError, .dataWriteError, .answerFormat,
          .addressOverflow] ∨
        s.cfg.nBusy = none ∧ t.hold = some .run ∧ t.result = .pending ∧ t.lock = true ∧ t.cs = true)

/-- R183, R203, R180, R181, R233, D16, conflict C5: WAKE_UP of a resolved type: the CMD1 loop for MMCv3 and SDv1, the ACMD41 loop
with HCS set for the v2 types; no CMD0, CMD8, CMD58, no filler outside a window, no speed request. Ready at the attempt that is
ready; with the budget used up NotReady and ERR Timeout, after one delay less than attempts; a transport failure at any
exchange of an attempt that would be answered ends the loop at once, Error and ERR IoError. None changes CTYPE, STATE or
SPEED. -/
def Obligations.WakeUpRunsLoopOfType : Prop :=
  ∀ (s : State) (w : LoopCommand) (n : Nat) (tries : List CardTry) (rest : List Reply), s.lockFree = true →
    (s.ctype = .mmcV3 ∨ s.ctype = .sdV1) ∧ w = .cmd1 ∧ n = s.cfg.nInitMmc ∨
      (s.ctype = .sdV2Byte ∨ s.ctype = .sdV2Block) ∧ w = .acmdHcs ∧ n = s.cfg.nInitV2 →
    (∀ t ∈ tries, t.ok s.cfg w = true ∧ t.ready = false) →
    (∀ last : CardTry, last.ok s.cfg w = true → last.ready = true → tries.length < n →
      s.card = replies (triesBytes (tries ++ [last])) ++ rest →
      exec .wakeUp s = .next (s.served (triesEvents w (tries ++ [last])) rest (.wake .ready))) ∧
    (tries.length = n → 1 ≤ n → s.card = replies (triesBytes tries) ++ rest →
      exec .wakeUp s = .next { s.served (triesEvents w tries) rest (.wake .notReady) with err := .timeout }) ∧
    (∀ last : TryCut, last.ok s.cfg w = true → tries.length < n →
      s.card = replies (triesBytes tries) ++ (last.outcomes ++ rest) →
      exec .wakeUp s = .next { s.served (tries.flatMap (fun t => t.events w ++ [.delayMs 1]) ++ last.events w) rest
        (.wake .error) with err := .ioError })

/-- R184, R209, R76: GET_STATUS whose first CMD13 is answered: bit 8 of the composed R2, the idle bit of its R1, decides, and the
second status byte does not matter; CTYPE is not looked at and nothing of the session changes. -/
def Obligations.GetStatusClassifiesAnswer : Prop :=
  ∀ (s : State) (a : Answer) (b : Byte) (rest : List Reply), s.lockFree = true → a.ok s.cfg = true →
    a.r1.getLsbD 2 = false → a.more = [b] → s.card = replies a.bytes ++ rest →
    exec .getStatus s = .next (s.served (a.events [0x4D, 0x00, 0x00, 0x00, 0x00, 0x0D]) rest
      (.status (if a.r1.getLsbD 0 then .notInitialized else .ready)))

/-- R184, R182, R233, R241, D17: GET_STATUS that gets no status. A first CMD13 that gets no R1 or illegal-command runs the whole
initialization, and when that fails, wherever it does (InitCut), the answer is NoMedium with the initialization's kind, and an
earlier type is gone. A transport failure at any exchange of a first CMD13 that would be answered is NoMedium with IoError at
once, with no initialization. -/
def Obligations.GetStatusWithoutAnswer : Prop :=
  ∀ (s : State) (miss : CommandCut) (rest : List Reply), s.lockFree = true → miss.ok s.cfg .r2 = true →
    (miss.kind ≠ .ioError → ∀ x : InitCut, x.ok s.cfg = true → s.card = miss.outcomes ++ (x.outcomes ++ rest) →
      exec .getStatus s = .next { s.served (miss.events statusFrame ++ x.events) rest (.status .noMedium) with
        ctype := .unknown, speed := .slow, fsm := .failed, err := x.kind, warnIdleR1 := x.warn
        visits := x.visits ++ s.visits }) ∧
    (miss.kind = .ioError → s.card = miss.outcomes ++ rest →
      exec .getStatus s = .next { s.served (miss.events statusFrame) rest (.status .noMedium) with err := .ioError })

/-- R184, R171, R233, D17: GET_STATUS whose first CMD13 gets no R1 or illegal-command, and whose re-initialization then resolves
a type, sends CMD13 once more and no further time. Answered, the answer is classified by the idle bit of its R1 and ERR is None;
no R1, illegal-command, or a transport failure at any exchange of an answer is NoMedium with that kind. The new type stays in
every case. -/
def Obligations.GetStatusRetriesOnce : Prop :=
  ∀ (s : State) (miss : CommandCut) (x : CardInit) (rest : List Reply) (done : List Event → Result → State),
    s.lockFree = true → miss.ok s.cfg .r2 = true → miss.kind ≠ .ioError → x.ok s.cfg = true →
    (∀ (ev : List Event) (r : Result), done ev r =
      { s.served (miss.events statusFrame ++ x.events ++ [.setSpeed .fast] ++ ev) rest r with
        ctype := x.type, speed := .fast, fsm := .typeResolved, warnIdleR1 := x.warn, visits := x.visits ++ s.visits }) →
    (∀ (a : Answer) (b : Byte), a.ok s.cfg = true → a.r1.getLsbD 2 = false → a.more = [b] →
      s.card = miss.outcomes ++ (replies (x.bytes ++ a.bytes) ++ rest) →
      exec .getStatus s = .next (done (a.events statusFrame)
        (.status (if a.r1.getLsbD 0 then .notInitialized else .ready)))) ∧
    (∀ again : CommandCut, again.ok s.cfg .r2 = true →
      s.card = miss.outcomes ++ (replies x.bytes ++ (again.outcomes ++ rest)) →
      exec .getStatus s = .next { done (again.events statusFrame) (.status .noMedium) with err := again.kind })

/-- R21, R22, R24, R27, D19: only the initialization sequence writes CTYPE, SPEED, STATE and WARN_IDLE_R1: every instruction but
INITIALIZE and GET_STATUS leaves them as they were; and ERR is written by host operations only, GET_TYPE excepted (R26). -/
def Obligations.OnlyInitializationChangesSession : Prop :=
  ∀ (i : Instr) (s t : State), exec i s = .next t →
    (i ≠ .initializeCard → i ≠ .getStatus →
      t.ctype = s.ctype ∧ t.speed = s.speed ∧ t.fsm = s.fsm ∧ t.warnIdleR1 = s.warnIdleR1 ∧ t.visits = s.visits) ∧
    (i.format ≠ .fHost ∨ i = .getType → t.err = s.err ∧ t.lock = s.lock ∧ t.buffer = s.buffer)

/-- R212, R62, R64, R271, R42: every host operation but GET_TYPE, in every state in which it gets the lock and, for the two write
operations only, the write-busy poll is bounded, and whatever the card does, transport failures included: its events begin with
LockAcquire and end with LockRelease, and between them chip-select windows open and close in turn, with nothing but filler
bytes outside them. -/
def Obligations.LockEnvelopeAndWindows : Prop :=
  ∀ (i : Instr) (s : State), i.format = .fHost → i ≠ .getType → s.lockFree = true →
    (s.cfg.nBusy ≠ none ∨
      (∀ sector, i ≠ .writeSector sector) ∧ ∀ sector count timeout, i ≠ .writeSectors sector count timeout) →
    s.cs = false →
    ∃ t mid, exec i s = .next t ∧ t.log = .lockRelease :: mid ++ .lockAcquire :: s.log ∧
      windowRun false mid.reverse = some false ∧ .lockAcquire ∉ mid ∧ .lockRelease ∉ mid ∧
      t.lock = false ∧ t.cs = false ∧ t.hold = none

/-! ## The machine -/

/-- R28, R25, R23: the session invariants hold after every step from a state in which they hold, whatever the card does: LOCK and
CS are 0 between operations, CTYPE is resolved exactly when STATE = TypeResolved, a resolved type runs at the fast rate, STATE
rests in Unidentified, TypeResolved or Failed. The host buffer's canonical form is kept too (log entry 22); and while an
unbounded busy poll goes on, CS is 1 and LOCK is 1 if it belongs to a host operation (log entry 21). -/
def Obligations.EveryStepKeepsInvariant : Prop :=
  ∀ s t : State, s.inv = true → step s = .next t → t.inv = true

/-- R28, R48: the invariant holds after reset. -/
def Obligations.ResetMeetsInvariant : Prop := State.reset.inv = true

/-- R48, R261: the values the spec gives for reset. (The datapath registers, unspecified there, are the model's choice, log entry
4.) -/
def Obligations.ResetValues : Prop :=
  State.reset.ctype = .unknown ∧ State.reset.fsm = .unidentified ∧ State.reset.speed = .slow ∧ State.reset.lock = false ∧
    State.reset.cs = false ∧ State.reset.err = .none ∧ State.reset.warnIdleR1 = false ∧ State.reset.trace = [] ∧
    State.reset.ctype.code = 0 ∧ State.reset.fsm.code = 0 ∧ State.reset.speed.code = 0 ∧ State.reset.err.code = 0

/-- R3, R45, R200, U19: a step of an idle block takes the next request at the host port: when its bytes are, in the format of host
operations and in no other, exactly one instruction i, then i is a host operation and the step is exec of i with the request
gone; when they are none, or more than one, the request is refused. The rest is the model's: the layout of the port (DESIGN
CHOICE, log entry 9); that with no request the step changes nothing (DEDUCED from R261, log entry 8); that an operation in
progress goes on first, as resumeHeld (DESIGN CHOICE, log entry 21); and the bench, from which a row that no host can ask for is
run by itself (DESIGN CHOICE, log entry 13) and which no step fills (StepOnlyAppendsToTrace). -/
def Obligations.StepRunsDecodedInstruction : Prop :=
  ∀ s : State,
    (s.hold = none → s.bench = none → ∀ (bytes : List Byte) (rest : List (List Byte)), s.port = bytes :: rest →
      (∀ i, decode .fHost bytes = .ok (i, []) → i.format = .fHost ∧ step s = exec i { s with port := rest }) ∧
      (∀ e, decode .fHost bytes = .error e → step s = .refused (.badRequest e)) ∧
      (∀ i b bs, decode .fHost bytes = .ok (i, b :: bs) → step s = .refused .trailingBytes)) ∧
    (s.hold = none → s.bench = none → s.port = [] → step s = .next s) ∧
    (s.hold = none → ∀ q : Request, s.bench = some q →
      (∀ i, decode q.format q.bytes = .ok (i, []) → step s = exec i { s with bench := none }) ∧
      (∀ e, decode q.format q.bytes = .error e → step s = .refused (.badRequest e)) ∧
      (∀ i b bs, decode q.format q.bytes = .ok (i, b :: bs) → step s = .refused .trailingBytes)) ∧
    (∀ h, s.hold = some h → step s = .next (resumeHeld h s))

/-- R10, R15, R60, R61, R45: a step only adds events at the end of the trace and changes no parameter. The model's choices
(DESIGN CHOICE) are in the other clauses: it leaves the lock owner's grant, an input, as it is (log entry 7); it takes at most
the first request of the host port, a list (log entry 9); and it puts nothing on the bench, so that a state whose bench is
empty is only ever left by host operations (R3; log entry 13). -/
def Obligations.StepOnlyAppendsToTrace : Prop :=
  ∀ s t : State, step s = .next t → t.cfg = s.cfg ∧ t.grant = s.grant ∧ (∃ new, t.trace = s.trace ++ new) ∧
    (t.port = s.port ∨ ∃ bytes, s.port = bytes :: t.port) ∧ (t.bench = s.bench ∨ t.bench = none) ∧
    (s.bench = none → s.hold = none → t = s ∨ ∃ bytes i, s.port = bytes :: t.port ∧ decode .fHost bytes = .ok (i, []) ∧
      i.format = .fHost ∧ exec i { s with port := t.port } = .next t)

/-- R52: the host buffer. MemWrite then MemRead gives the bytes written, in order; every other offset reads as before; the
canonical form is kept, and buffers in that form that read alike are equal data (log entry 22). -/
def Obligations.HostBufferLaws : Prop :=
  ∀ (m : Memory) (off : Nat) (v : List Byte),
    (m.writeBytes off v).readBytes off v.length = v ∧
    (∀ a, a < off ∨ off + v.length ≤ a → (m.writeBytes off v).read a = m.read a) ∧
    (m.wf = true → (m.writeBytes off v).wf = true) ∧
    ∀ n : Memory, m.wf = true → n.wf = true → (∀ a, m.read a = n.read a) → m = n
end

