-- ==== Sys2Proof/Laws/Crc.lean ====
section
/-! SUPPORT. The CRC7 register as a remainder of polynomials over the field with two elements (R100, R101). -/

namespace Sys2Proof.Machine

theorem crcPolynomial_append (bits : List Bool) (b : Bool) :
    crcPolynomial (bits ++ [b]) = crcPolynomial bits * Polynomial.X + (if b then 1 else 0) := by
  simp [crcPolynomial]

theorem two_eq_zero : (2 : Polynomial (ZMod 2)) = 0 := CharTwo.two_eq_zero

theorem ite_xor (a b : Bool) : (if (a ^^ b) then 1 else 0 : Polynomial (ZMod 2)) =
    (if a then 1 else 0) + (if b then 1 else 0) := by
  cases a <;> cases b <;> simp
  rw [one_add_one_eq_two, two_eq_zero]

theorem registerBits_crc7Bit (c : BitVec 7) (b : Bool) : registerBits (crc7Bit c b) =
    [c.getLsbD 5, c.getLsbD 4, c.getLsbD 3, c.getLsbD 2 ^^ (c.getLsbD 6 ^^ b), c.getLsbD 1, c.getLsbD 0,
      c.getLsbD 6 ^^ b] := by
  revert c b; decide

/-- One step of the register: the feedback bit is a bit of the quotient. -/
theorem crc_step (c : BitVec 7) (b : Bool) :
    crcPolynomial (registerBits c) * Polynomial.X + (if b then Polynomial.X ^ 7 else 0) =
      (if (c.getLsbD 6 ^^ b) then 1 else 0) * (Polynomial.X ^ 7 + Polynomial.X ^ 3 + 1) +
        crcPolynomial (registerBits (crc7Bit c b)) := by
  rw [registerBits_crc7Bit]
  have hb : (if b then Polynomial.X ^ 7 else 0 : Polynomial (ZMod 2)) = (if b then 1 else 0) * Polynomial.X ^ 7 := by
    split <;> simp
  simp only [crcPolynomial, registerBits, List.map, List.foldl, ite_xor, hb]
  linear_combination (-((if c.getLsbD 6 then 1 else 0 : Polynomial (ZMod 2)) + (if b then 1 else 0)) *
    (Polynomial.X ^ 3 + 1)) * two_eq_zero

/-- A run of bits from any register value. -/
theorem crc_bits (bits : List Bool) : ∀ c : BitVec 7, ∃ q : Polynomial (ZMod 2),
    crcPolynomial (registerBits c) * Polynomial.X ^ bits.length + crcPolynomial bits * Polynomial.X ^ 7 =
      q * (Polynomial.X ^ 7 + Polynomial.X ^ 3 + 1) + crcPolynomial (registerBits (bits.foldl crc7Bit c)) := by
  induction bits using List.reverseRecOn with
  | nil => intro c; exact ⟨0, by simp [crcPolynomial]⟩
  | append_singleton bits b ih =>
    intro c
    obtain ⟨q, hq⟩ := ih c
    have h := crc_step (bits.foldl crc7Bit c) b
    refine ⟨q * Polynomial.X + (if ((bits.foldl crc7Bit c).getLsbD 6 ^^ b) then 1 else 0), ?_⟩
    have hb : (if b then Polynomial.X ^ 7 else 0 : Polynomial (ZMod 2)) = (if b then 1 else 0) * Polynomial.X ^ 7 := by
      split <;> simp
    rw [crcPolynomial_append, List.foldl_append, List.length_append, List.length_singleton, pow_succ]
    rw [hb] at h
    simp only [List.foldl]
    linear_combination Polynomial.X * hq + h

theorem crc7Run_bits (bytes : List Byte) (c : BitVec 7) :
    bytes.foldl crc7Byte c = (bytes.flatMap bitsMsbFirst).foldl crc7Bit c := by
  rw [List.foldl_flatMap]; rfl

end Sys2Proof.Machine
end

