-- ==== Sys2Proof/Laws/State.lean ====
section
/-! SUPPORT. One lemma per field per update of the state, so that no later proof unfolds a record update. -/

namespace Sys2Proof.Machine

@[simp] theorem State.record_cfg (s : State) (e : Event) : (s.record e).cfg = s.cfg := rfl
@[simp] theorem State.record_ctype (s : State) (e : Event) : (s.record e).ctype = s.ctype := rfl
@[simp] theorem State.record_speed (s : State) (e : Event) : (s.record e).speed = s.speed := rfl
@[simp] theorem State.record_lock (s : State) (e : Event) : (s.record e).lock = s.lock := rfl
@[simp] theorem State.record_cs (s : State) (e : Event) : (s.record e).cs = s.cs := rfl
@[simp] theorem State.record_fsm (s : State) (e : Event) : (s.record e).fsm = s.fsm := rfl
@[simp] theorem State.record_err (s : State) (e : Event) : (s.record e).err = s.err := rfl
@[simp] theorem State.record_warnIdleR1 (s : State) (e : Event) : (s.record e).warnIdleR1 = s.warnIdleR1 := rfl
@[simp] theorem State.record_dp (s : State) (e : Event) : (s.record e).dp = s.dp := rfl
@[simp] theorem State.record_log (s : State) (e : Event) : (s.record e).log = e :: s.log := rfl
@[simp] theorem State.record_visits (s : State) (e : Event) : (s.record e).visits = s.visits := rfl
@[simp] theorem State.record_buffer (s : State) (e : Event) : (s.record e).buffer = s.buffer := rfl
@[simp] theorem State.record_card (s : State) (e : Event) : (s.record e).card = s.card := rfl
@[simp] theorem State.record_draws (s : State) (e : Event) : (s.record e).draws = s.draws := rfl
@[simp] theorem State.record_grant (s : State) (e : Event) : (s.record e).grant = s.grant := rfl
@[simp] theorem State.record_port (s : State) (e : Event) : (s.record e).port = s.port := rfl
@[simp] theorem State.record_bench (s : State) (e : Event) : (s.record e).bench = s.bench := rfl
@[simp] theorem State.record_hold (s : State) (e : Event) : (s.record e).hold = s.hold := rfl
@[simp] theorem State.record_result (s : State) (e : Event) : (s.record e).result = s.result := rfl

@[simp] theorem State.setCtype_cfg (s : State) (t : CardType) : (s.setCtype t).cfg = s.cfg := rfl
@[simp] theorem State.setCtype_ctype (s : State) (t : CardType) : (s.setCtype t).ctype = t := rfl
@[simp] theorem State.setCtype_speed (s : State) (t : CardType) : (s.setCtype t).speed = s.speed := rfl
@[simp] theorem State.setCtype_lock (s : State) (t : CardType) : (s.setCtype t).lock = s.lock := rfl
@[simp] theorem State.setCtype_cs (s : State) (t : CardType) : (s.setCtype t).cs = s.cs := rfl
@[simp] theorem State.setCtype_fsm (s : State) (t : CardType) : (s.setCtype t).fsm = s.fsm := rfl
@[simp] theorem State.setCtype_err (s : State) (t : CardType) : (s.setCtype t).err = s.err := rfl
@[simp] theorem State.setCtype_warnIdleR1 (s : State) (t : CardType) : (s.setCtype t).warnIdleR1 = s.warnIdleR1 := rfl
@[simp] theorem State.setCtype_dp (s : State) (t : CardType) : (s.setCtype t).dp = s.dp := rfl
@[simp] theorem State.setCtype_log (s : State) (t : CardType) : (s.setCtype t).log = s.log := rfl
@[simp] theorem State.setCtype_visits (s : State) (t : CardType) : (s.setCtype t).visits = s.visits := rfl
@[simp] theorem State.setCtype_buffer (s : State) (t : CardType) : (s.setCtype t).buffer = s.buffer := rfl
@[simp] theorem State.setCtype_card (s : State) (t : CardType) : (s.setCtype t).card = s.card := rfl
@[simp] theorem State.setCtype_draws (s : State) (t : CardType) : (s.setCtype t).draws = s.draws := rfl
@[simp] theorem State.setCtype_grant (s : State) (t : CardType) : (s.setCtype t).grant = s.grant := rfl
@[simp] theorem State.setCtype_port (s : State) (t : CardType) : (s.setCtype t).port = s.port := rfl
@[simp] theorem State.setCtype_bench (s : State) (t : CardType) : (s.setCtype t).bench = s.bench := rfl
@[simp] theorem State.setCtype_hold (s : State) (t : CardType) : (s.setCtype t).hold = s.hold := rfl
@[simp] theorem State.setCtype_result (s : State) (t : CardType) : (s.setCtype t).result = s.result := rfl

@[simp] theorem State.setSpeed_cfg (s : State) (v : Speed) : (s.setSpeed v).cfg = s.cfg := rfl
@[simp] theorem State.setSpeed_ctype (s : State) (v : Speed) : (s.setSpeed v).ctype = s.ctype := rfl
@[simp] theorem State.setSpeed_speed (s : State) (v : Speed) : (s.setSpeed v).speed = v := rfl
@[simp] theorem State.setSpeed_lock (s : State) (v : Speed) : (s.setSpeed v).lock = s.lock := rfl
@[simp] theorem State.setSpeed_cs (s : State) (v : Speed) : (s.setSpeed v).cs = s.cs := rfl
@[simp] theorem State.setSpeed_fsm (s : State) (v : Speed) : (s.setSpeed v).fsm = s.fsm := rfl
@[simp] theorem State.setSpeed_err (s : State) (v : Speed) : (s.setSpeed v).err = s.err := rfl
@[simp] theorem State.setSpeed_warnIdleR1 (s : State) (v : Speed) : (s.setSpeed v).warnIdleR1 = s.warnIdleR1 := rfl
@[simp] theorem State.setSpeed_dp (s : State) (v : Speed) : (s.setSpeed v).dp = s.dp := rfl
@[simp] theorem State.setSpeed_log (s : State) (v : Speed) : (s.setSpeed v).log = s.log := rfl
@[simp] theorem State.setSpeed_visits (s : State) (v : Speed) : (s.setSpeed v).visits = s.visits := rfl
@[simp] theorem State.setSpeed_buffer (s : State) (v : Speed) : (s.setSpeed v).buffer = s.buffer := rfl
@[simp] theorem State.setSpeed_card (s : State) (v : Speed) : (s.setSpeed v).card = s.card := rfl
@[simp] theorem State.setSpeed_draws (s : State) (v : Speed) : (s.setSpeed v).draws = s.draws := rfl
@[simp] theorem State.setSpeed_grant (s : State) (v : Speed) : (s.setSpeed v).grant = s.grant := rfl
@[simp] theorem State.setSpeed_port (s : State) (v : Speed) : (s.setSpeed v).port = s.port := rfl
@[simp] theorem State.setSpeed_bench (s : State) (v : Speed) : (s.setSpeed v).bench = s.bench := rfl
@[simp] theorem State.setSpeed_hold (s : State) (v : Speed) : (s.setSpeed v).hold = s.hold := rfl
@[simp] theorem State.setSpeed_result (s : State) (v : Speed) : (s.setSpeed v).result = s.result := rfl

@[simp] theorem State.setLock_cfg (s : State) (b : Bool) : (s.setLock b).cfg = s.cfg := rfl
@[simp] theorem State.setLock_ctype (s : State) (b : Bool) : (s.setLock b).ctype = s.ctype := rfl
@[simp] theorem State.setLock_speed (s : State) (b : Bool) : (s.setLock b).speed = s.speed := rfl
@[simp] theorem State.setLock_lock (s : State) (b : Bool) : (s.setLock b).lock = b := rfl
@[simp] theorem State.setLock_cs (s : State) (b : Bool) : (s.setLock b).cs = s.cs := rfl
@[simp] theorem State.setLock_fsm (s : State) (b : Bool) : (s.setLock b).fsm = s.fsm := rfl
@[simp] theorem State.setLock_err (s : State) (b : Bool) : (s.setLock b).err = s.err := rfl
@[simp] theorem State.setLock_warnIdleR1 (s : State) (b : Bool) : (s.setLock b).warnIdleR1 = s.warnIdleR1 := rfl
@[simp] theorem State.setLock_dp (s : State) (b : Bool) : (s.setLock b).dp = s.dp := rfl
@[simp] theorem State.setLock_log (s : State) (b : Bool) : (s.setLock b).log = s.log := rfl
@[simp] theorem State.setLock_visits (s : State) (b : Bool) : (s.setLock b).visits = s.visits := rfl
@[simp] theorem State.setLock_buffer (s : State) (b : Bool) : (s.setLock b).buffer = s.buffer := rfl
@[simp] theorem State.setLock_card (s : State) (b : Bool) : (s.setLock b).card = s.card := rfl
@[simp] theorem State.setLock_draws (s : State) (b : Bool) : (s.setLock b).draws = s.draws := rfl
@[simp] theorem State.setLock_grant (s : State) (b : Bool) : (s.setLock b).grant = s.grant := rfl
@[simp] theorem State.setLock_port (s : State) (b : Bool) : (s.setLock b).port = s.port := rfl
@[simp] theorem State.setLock_bench (s : State) (b : Bool) : (s.setLock b).bench = s.bench := rfl
@[simp] theorem State.setLock_hold (s : State) (b : Bool) : (s.setLock b).hold = s.hold := rfl
@[simp] theorem State.setLock_result (s : State) (b : Bool) : (s.setLock b).result = s.result := rfl

@[simp] theorem State.setCs_cfg (s : State) (b : Bool) : (s.setCs b).cfg = s.cfg := rfl
@[simp] theorem State.setCs_ctype (s : State) (b : Bool) : (s.setCs b).ctype = s.ctype := rfl
@[simp] theorem State.setCs_speed (s : State) (b : Bool) : (s.setCs b).speed = s.speed := rfl
@[simp] theorem State.setCs_lock (s : State) (b : Bool) : (s.setCs b).lock = s.lock := rfl
@[simp] theorem State.setCs_cs (s : State) (b : Bool) : (s.setCs b).cs = b := rfl
@[simp] theorem State.setCs_fsm (s : State) (b : Bool) : (s.setCs b).fsm = s.fsm := rfl
@[simp] theorem State.setCs_err (s : State) (b : Bool) : (s.setCs b).err = s.err := rfl
@[simp] theorem State.setCs_warnIdleR1 (s : State) (b : Bool) : (s.setCs b).warnIdleR1 = s.warnIdleR1 := rfl
@[simp] theorem State.setCs_dp (s : State) (b : Bool) : (s.setCs b).dp = s.dp := rfl
@[simp] theorem State.setCs_log (s : State) (b : Bool) : (s.setCs b).log = s.log := rfl
@[simp] theorem State.setCs_visits (s : State) (b : Bool) : (s.setCs b).visits = s.visits := rfl
@[simp] theorem State.setCs_buffer (s : State) (b : Bool) : (s.setCs b).buffer = s.buffer := rfl
@[simp] theorem State.setCs_card (s : State) (b : Bool) : (s.setCs b).card = s.card := rfl
@[simp] theorem State.setCs_draws (s : State) (b : Bool) : (s.setCs b).draws = s.draws := rfl
@[simp] theorem State.setCs_grant (s : State) (b : Bool) : (s.setCs b).grant = s.grant := rfl
@[simp] theorem State.setCs_port (s : State) (b : Bool) : (s.setCs b).port = s.port := rfl
@[simp] theorem State.setCs_bench (s : State) (b : Bool) : (s.setCs b).bench = s.bench := rfl
@[simp] theorem State.setCs_hold (s : State) (b : Bool) : (s.setCs b).hold = s.hold := rfl
@[simp] theorem State.setCs_result (s : State) (b : Bool) : (s.setCs b).result = s.result := rfl

@[simp] theorem State.enter_cfg (s : State) (f : Fsm) : (s.enter f).cfg = s.cfg := rfl
@[simp] theorem State.enter_ctype (s : State) (f : Fsm) : (s.enter f).ctype = s.ctype := rfl
@[simp] theorem State.enter_speed (s : State) (f : Fsm) : (s.enter f).speed = s.speed := rfl
@[simp] theorem State.enter_lock (s : State) (f : Fsm) : (s.enter f).lock = s.lock := rfl
@[simp] theorem State.enter_cs (s : State) (f : Fsm) : (s.enter f).cs = s.cs := rfl
@[simp] theorem State.enter_fsm (s : State) (f : Fsm) : (s.enter f).fsm = f := rfl
@[simp] theorem State.enter_err (s : State) (f : Fsm) : (s.enter f).err = s.err := rfl
@[simp] theorem State.enter_warnIdleR1 (s : State) (f : Fsm) : (s.enter f).warnIdleR1 = s.warnIdleR1 := rfl
@[simp] theorem State.enter_dp (s : State) (f : Fsm) : (s.enter f).dp = s.dp := rfl
@[simp] theorem State.enter_log (s : State) (f : Fsm) : (s.enter f).log = s.log := rfl
@[simp] theorem State.enter_visits (s : State) (f : Fsm) : (s.enter f).visits = f :: s.visits := rfl
@[simp] theorem State.enter_buffer (s : State) (f : Fsm) : (s.enter f).buffer = s.buffer := rfl
@[simp] theorem State.enter_card (s : State) (f : Fsm) : (s.enter f).card = s.card := rfl
@[simp] theorem State.enter_draws (s : State) (f : Fsm) : (s.enter f).draws = s.draws := rfl
@[simp] theorem State.enter_grant (s : State) (f : Fsm) : (s.enter f).grant = s.grant := rfl
@[simp] theorem State.enter_port (s : State) (f : Fsm) : (s.enter f).port = s.port := rfl
@[simp] theorem State.enter_bench (s : State) (f : Fsm) : (s.enter f).bench = s.bench := rfl
@[simp] theorem State.enter_hold (s : State) (f : Fsm) : (s.enter f).hold = s.hold := rfl
@[simp] theorem State.enter_result (s : State) (f : Fsm) : (s.enter f).result = s.result := rfl

@[simp] theorem State.setErr_cfg (s : State) (k : ErrKind) : (s.setErr k).cfg = s.cfg := rfl
@[simp] theorem State.setErr_ctype (s : State) (k : ErrKind) : (s.setErr k).ctype = s.ctype := rfl
@[simp] theorem State.setErr_speed (s : State) (k : ErrKind) : (s.setErr k).speed = s.speed := rfl
@[simp] theorem State.setErr_lock (s : State) (k : ErrKind) : (s.setErr k).lock = s.lock := rfl
@[simp] theorem State.setErr_cs (s : State) (k : ErrKind) : (s.setErr k).cs = s.cs := rfl
@[simp] theorem State.setErr_fsm (s : State) (k : ErrKind) : (s.setErr k).fsm = s.fsm := rfl
@[simp] theorem State.setErr_err (s : State) (k : ErrKind) : (s.setErr k).err = k := rfl
@[simp] theorem State.setErr_warnIdleR1 (s : State) (k : ErrKind) : (s.setErr k).warnIdleR1 = s.warnIdleR1 := rfl
@[simp] theorem State.setErr_dp (s : State) (k : ErrKind) : (s.setErr k).dp = s.dp := rfl
@[simp] theorem State.setErr_log (s : State) (k : ErrKind) : (s.setErr k).log = s.log := rfl
@[simp] theorem State.setErr_visits (s : State) (k : ErrKind) : (s.setErr k).visits = s.visits := rfl
@[simp] theorem State.setErr_buffer (s : State) (k : ErrKind) : (s.setErr k).buffer = s.buffer := rfl
@[simp] theorem State.setErr_card (s : State) (k : ErrKind) : (s.setErr k).card = s.card := rfl
@[simp] theorem State.setErr_draws (s : State) (k : ErrKind) : (s.setErr k).draws = s.draws := rfl
@[simp] theorem State.setErr_grant (s : State) (k : ErrKind) : (s.setErr k).grant = s.grant := rfl
@[simp] theorem State.setErr_port (s : State) (k : ErrKind) : (s.setErr k).port = s.port := rfl
@[simp] theorem State.setErr_bench (s : State) (k : ErrKind) : (s.setErr k).bench = s.bench := rfl
@[simp] theorem State.setErr_hold (s : State) (k : ErrKind) : (s.setErr k).hold = s.hold := rfl
@[simp] theorem State.setErr_result (s : State) (k : ErrKind) : (s.setErr k).result = s.result := rfl

@[simp] theorem State.setWarn_cfg (s : State) (b : Bool) : (s.setWarn b).cfg = s.cfg := rfl
@[simp] theorem State.setWarn_ctype (s : State) (b : Bool) : (s.setWarn b).ctype = s.ctype := rfl
@[simp] theorem State.setWarn_speed (s : State) (b : Bool) : (s.setWarn b).speed = s.speed := rfl
@[simp] theorem State.setWarn_lock (s : State) (b : Bool) : (s.setWarn b).lock = s.lock := rfl
@[simp] theorem State.setWarn_cs (s : State) (b : Bool) : (s.setWarn b).cs = s.cs := rfl
@[simp] theorem State.setWarn_fsm (s : State) (b : Bool) : (s.setWarn b).fsm = s.fsm := rfl
@[simp] theorem State.setWarn_err (s : State) (b : Bool) : (s.setWarn b).err = s.err := rfl
@[simp] theorem State.setWarn_warnIdleR1 (s : State) (b : Bool) : (s.setWarn b).warnIdleR1 = b := rfl
@[simp] theorem State.setWarn_dp (s : State) (b : Bool) : (s.setWarn b).dp = s.dp := rfl
@[simp] theorem State.setWarn_log (s : State) (b : Bool) : (s.setWarn b).log = s.log := rfl
@[simp] theorem State.setWarn_visits (s : State) (b : Bool) : (s.setWarn b).visits = s.visits := rfl
@[simp] theorem State.setWarn_buffer (s : State) (b : Bool) : (s.setWarn b).buffer = s.buffer := rfl
@[simp] theorem State.setWarn_card (s : State) (b : Bool) : (s.setWarn b).card = s.card := rfl
@[simp] theorem State.setWarn_draws (s : State) (b : Bool) : (s.setWarn b).draws = s.draws := rfl
@[simp] theorem State.setWarn_grant (s : State) (b : Bool) : (s.setWarn b).grant = s.grant := rfl
@[simp] theorem State.setWarn_port (s : State) (b : Bool) : (s.setWarn b).port = s.port := rfl
@[simp] theorem State.setWarn_bench (s : State) (b : Bool) : (s.setWarn b).bench = s.bench := rfl
@[simp] theorem State.setWarn_hold (s : State) (b : Bool) : (s.setWarn b).hold = s.hold := rfl
@[simp] theorem State.setWarn_result (s : State) (b : Bool) : (s.setWarn b).result = s.result := rfl

@[simp] theorem State.mapDp_cfg (s : State) (f : Datapath → Datapath) : (s.mapDp f).cfg = s.cfg := rfl
@[simp] theorem State.mapDp_ctype (s : State) (f : Datapath → Datapath) : (s.mapDp f).ctype = s.ctype := rfl
@[simp] theorem State.mapDp_speed (s : State) (f : Datapath → Datapath) : (s.mapDp f).speed = s.speed := rfl
@[simp] theorem State.mapDp_lock (s : State) (f : Datapath → Datapath) : (s.mapDp f).lock = s.lock := rfl
@[simp] theorem State.mapDp_cs (s : State) (f : Datapath → Datapath) : (s.mapDp f).cs = s.cs := rfl
@[simp] theorem State.mapDp_fsm (s : State) (f : Datapath → Datapath) : (s.mapDp f).fsm = s.fsm := rfl
@[simp] theorem State.mapDp_err (s : State) (f : Datapath → Datapath) : (s.mapDp f).err = s.err := rfl
@[simp] theorem State.mapDp_warnIdleR1 (s : State) (f : Datapath → Datapath) : (s.mapDp f).warnIdleR1 = s.warnIdleR1 := rfl
@[simp] theorem State.mapDp_dp (s : State) (f : Datapath → Datapath) : (s.mapDp f).dp = f s.dp := rfl
@[simp] theorem State.mapDp_log (s : State) (f : Datapath → Datapath) : (s.mapDp f).log = s.log := rfl
@[simp] theorem State.mapDp_visits (s : State) (f : Datapath → Datapath) : (s.mapDp f).visits = s.visits := rfl
@[simp] theorem State.mapDp_buffer (s : State) (f : Datapath → Datapath) : (s.mapDp f).buffer = s.buffer := rfl
@[simp] theorem State.mapDp_card (s : State) (f : Datapath → Datapath) : (s.mapDp f).card = s.card := rfl
@[simp] theorem State.mapDp_draws (s : State) (f : Datapath → Datapath) : (s.mapDp f).draws = s.draws := rfl
@[simp] theorem State.mapDp_grant (s : State) (f : Datapath → Datapath) : (s.mapDp f).grant = s.grant := rfl
@[simp] theorem State.mapDp_port (s : State) (f : Datapath → Datapath) : (s.mapDp f).port = s.port := rfl
@[simp] theorem State.mapDp_bench (s : State) (f : Datapath → Datapath) : (s.mapDp f).bench = s.bench := rfl
@[simp] theorem State.mapDp_hold (s : State) (f : Datapath → Datapath) : (s.mapDp f).hold = s.hold := rfl
@[simp] theorem State.mapDp_result (s : State) (f : Datapath → Datapath) : (s.mapDp f).result = s.result := rfl

@[simp] theorem State.setBuffer_cfg (s : State) (m : Memory) : (s.setBuffer m).cfg = s.cfg := rfl
@[simp] theorem State.setBuffer_ctype (s : State) (m : Memory) : (s.setBuffer m).ctype = s.ctype := rfl
@[simp] theorem State.setBuffer_speed (s : State) (m : Memory) : (s.setBuffer m).speed = s.speed := rfl
@[simp] theorem State.setBuffer_lock (s : State) (m : Memory) : (s.setBuffer m).lock = s.lock := rfl
@[simp] theorem State.setBuffer_cs (s : State) (m : Memory) : (s.setBuffer m).cs = s.cs := rfl
@[simp] theorem State.setBuffer_fsm (s : State) (m : Memory) : (s.setBuffer m).fsm = s.fsm := rfl
@[simp] theorem State.setBuffer_err (s : State) (m : Memory) : (s.setBuffer m).err = s.err := rfl
@[simp] theorem State.setBuffer_warnIdleR1 (s : State) (m : Memory) : (s.setBuffer m).warnIdleR1 = s.warnIdleR1 := rfl
@[simp] theorem State.setBuffer_dp (s : State) (m : Memory) : (s.setBuffer m).dp = s.dp := rfl
@[simp] theorem State.setBuffer_log (s : State) (m : Memory) : (s.setBuffer m).log = s.log := rfl
@[simp] theorem State.setBuffer_visits (s : State) (m : Memory) : (s.setBuffer m).visits = s.visits := rfl
@[simp] theorem State.setBuffer_buffer (s : State) (m : Memory) : (s.setBuffer m).buffer = m := rfl
@[simp] theorem State.setBuffer_card (s : State) (m : Memory) : (s.setBuffer m).card = s.card := rfl
@[simp] theorem State.setBuffer_draws (s : State) (m : Memory) : (s.setBuffer m).draws = s.draws := rfl
@[simp] theorem State.setBuffer_grant (s : State) (m : Memory) : (s.setBuffer m).grant = s.grant := rfl
@[simp] theorem State.setBuffer_port (s : State) (m : Memory) : (s.setBuffer m).port = s.port := rfl
@[simp] theorem State.setBuffer_bench (s : State) (m : Memory) : (s.setBuffer m).bench = s.bench := rfl
@[simp] theorem State.setBuffer_hold (s : State) (m : Memory) : (s.setBuffer m).hold = s.hold := rfl
@[simp] theorem State.setBuffer_result (s : State) (m : Memory) : (s.setBuffer m).result = s.result := rfl

@[simp] theorem State.setPort_cfg (s : State) (p : List (List Byte)) : (s.setPort p).cfg = s.cfg := rfl
@[simp] theorem State.setPort_ctype (s : State) (p : List (List Byte)) : (s.setPort p).ctype = s.ctype := rfl
@[simp] theorem State.setPort_speed (s : State) (p : List (List Byte)) : (s.setPort p).speed = s.speed := rfl
@[simp] theorem State.setPort_lock (s : State) (p : List (List Byte)) : (s.setPort p).lock = s.lock := rfl
@[simp] theorem State.setPort_cs (s : State) (p : List (List Byte)) : (s.setPort p).cs = s.cs := rfl
@[simp] theorem State.setPort_fsm (s : State) (p : List (List Byte)) : (s.setPort p).fsm = s.fsm := rfl
@[simp] theorem State.setPort_err (s : State) (p : List (List Byte)) : (s.setPort p).err = s.err := rfl
@[simp] theorem State.setPort_warnIdleR1 (s : State) (p : List (List Byte)) : (s.setPort p).warnIdleR1 = s.warnIdleR1 := rfl
@[simp] theorem State.setPort_dp (s : State) (p : List (List Byte)) : (s.setPort p).dp = s.dp := rfl
@[simp] theorem State.setPort_log (s : State) (p : List (List Byte)) : (s.setPort p).log = s.log := rfl
@[simp] theorem State.setPort_visits (s : State) (p : List (List Byte)) : (s.setPort p).visits = s.visits := rfl
@[simp] theorem State.setPort_buffer (s : State) (p : List (List Byte)) : (s.setPort p).buffer = s.buffer := rfl
@[simp] theorem State.setPort_card (s : State) (p : List (List Byte)) : (s.setPort p).card = s.card := rfl
@[simp] theorem State.setPort_draws (s : State) (p : List (List Byte)) : (s.setPort p).draws = s.draws := rfl
@[simp] theorem State.setPort_grant (s : State) (p : List (List Byte)) : (s.setPort p).grant = s.grant := rfl
@[simp] theorem State.setPort_port (s : State) (p : List (List Byte)) : (s.setPort p).port = p := rfl
@[simp] theorem State.setPort_bench (s : State) (p : List (List Byte)) : (s.setPort p).bench = s.bench := rfl
@[simp] theorem State.setPort_hold (s : State) (p : List (List Byte)) : (s.setPort p).hold = s.hold := rfl
@[simp] theorem State.setPort_result (s : State) (p : List (List Byte)) : (s.setPort p).result = s.result := rfl

@[simp] theorem State.setBench_cfg (s : State) (q : Option Request) : (s.setBench q).cfg = s.cfg := rfl
@[simp] theorem State.setBench_ctype (s : State) (q : Option Request) : (s.setBench q).ctype = s.ctype := rfl
@[simp] theorem State.setBench_speed (s : State) (q : Option Request) : (s.setBench q).speed = s.speed := rfl
@[simp] theorem State.setBench_lock (s : State) (q : Option Request) : (s.setBench q).lock = s.lock := rfl
@[simp] theorem State.setBench_cs (s : State) (q : Option Request) : (s.setBench q).cs = s.cs := rfl
@[simp] theorem State.setBench_fsm (s : State) (q : Option Request) : (s.setBench q).fsm = s.fsm := rfl
@[simp] theorem State.setBench_err (s : State) (q : Option Request) : (s.setBench q).err = s.err := rfl
@[simp] theorem State.setBench_warnIdleR1 (s : State) (q : Option Request) : (s.setBench q).warnIdleR1 = s.warnIdleR1 := rfl
@[simp] theorem State.setBench_dp (s : State) (q : Option Request) : (s.setBench q).dp = s.dp := rfl
@[simp] theorem State.setBench_log (s : State) (q : Option Request) : (s.setBench q).log = s.log := rfl
@[simp] theorem State.setBench_visits (s : State) (q : Option Request) : (s.setBench q).visits = s.visits := rfl
@[simp] theorem State.setBench_buffer (s : State) (q : Option Request) : (s.setBench q).buffer = s.buffer := rfl
@[simp] theorem State.setBench_card (s : State) (q : Option Request) : (s.setBench q).card = s.card := rfl
@[simp] theorem State.setBench_draws (s : State) (q : Option Request) : (s.setBench q).draws = s.draws := rfl
@[simp] theorem State.setBench_grant (s : State) (q : Option Request) : (s.setBench q).grant = s.grant := rfl
@[simp] theorem State.setBench_port (s : State) (q : Option Request) : (s.setBench q).port = s.port := rfl
@[simp] theorem State.setBench_bench (s : State) (q : Option Request) : (s.setBench q).bench = q := rfl
@[simp] theorem State.setBench_hold (s : State) (q : Option Request) : (s.setBench q).hold = s.hold := rfl
@[simp] theorem State.setBench_result (s : State) (q : Option Request) : (s.setBench q).result = s.result := rfl

@[simp] theorem State.setHold_cfg (s : State) (h : Option Hold) : (s.setHold h).cfg = s.cfg := rfl
@[simp] theorem State.setHold_ctype (s : State) (h : Option Hold) : (s.setHold h).ctype = s.ctype := rfl
@[simp] theorem State.setHold_speed (s : State) (h : Option Hold) : (s.setHold h).speed = s.speed := rfl
@[simp] theorem State.setHold_lock (s : State) (h : Option Hold) : (s.setHold h).lock = s.lock := rfl
@[simp] theorem State.setHold_cs (s : State) (h : Option Hold) : (s.setHold h).cs = s.cs := rfl
@[simp] theorem State.setHold_fsm (s : State) (h : Option Hold) : (s.setHold h).fsm = s.fsm := rfl
@[simp] theorem State.setHold_err (s : State) (h : Option Hold) : (s.setHold h).err = s.err := rfl
@[simp] theorem State.setHold_warnIdleR1 (s : State) (h : Option Hold) : (s.setHold h).warnIdleR1 = s.warnIdleR1 := rfl
@[simp] theorem State.setHold_dp (s : State) (h : Option Hold) : (s.setHold h).dp = s.dp := rfl
@[simp] theorem State.setHold_log (s : State) (h : Option Hold) : (s.setHold h).log = s.log := rfl
@[simp] theorem State.setHold_visits (s : State) (h : Option Hold) : (s.setHold h).visits = s.visits := rfl
@[simp] theorem State.setHold_buffer (s : State) (h : Option Hold) : (s.setHold h).buffer = s.buffer := rfl
@[simp] theorem State.setHold_card (s : State) (h : Option Hold) : (s.setHold h).card = s.card := rfl
@[simp] theorem State.setHold_draws (s : State) (h : Option Hold) : (s.setHold h).draws = s.draws := rfl
@[simp] theorem State.setHold_grant (s : State) (h : Option Hold) : (s.setHold h).grant = s.grant := rfl
@[simp] theorem State.setHold_port (s : State) (h : Option Hold) : (s.setHold h).port = s.port := rfl
@[simp] theorem State.setHold_bench (s : State) (h : Option Hold) : (s.setHold h).bench = s.bench := rfl
@[simp] theorem State.setHold_hold (s : State) (h : Option Hold) : (s.setHold h).hold = h := rfl
@[simp] theorem State.setHold_result (s : State) (h : Option Hold) : (s.setHold h).result = s.result := rfl

@[simp] theorem State.setResult_cfg (s : State) (r : Result) : (s.setResult r).cfg = s.cfg := rfl
@[simp] theorem State.setResult_ctype (s : State) (r : Result) : (s.setResult r).ctype = s.ctype := rfl
@[simp] theorem State.setResult_speed (s : State) (r : Result) : (s.setResult r).speed = s.speed := rfl
@[simp] theorem State.setResult_lock (s : State) (r : Result) : (s.setResult r).lock = s.lock := rfl
@[simp] theorem State.setResult_cs (s : State) (r : Result) : (s.setResult r).cs = s.cs := rfl
@[simp] theorem State.setResult_fsm (s : State) (r : Result) : (s.setResult r).fsm = s.fsm := rfl
@[simp] theorem State.setResult_err (s : State) (r : Result) : (s.setResult r).err = s.err := rfl
@[simp] theorem State.setResult_warnIdleR1 (s : State) (r : Result) : (s.setResult r).warnIdleR1 = s.warnIdleR1 := rfl
@[simp] theorem State.setResult_dp (s : State) (r : Result) : (s.setResult r).dp = s.dp := rfl
@[simp] theorem State.setResult_log (s : State) (r : Result) : (s.setResult r).log = s.log := rfl
@[simp] theorem State.setResult_visits (s : State) (r : Result) : (s.setResult r).visits = s.visits := rfl
@[simp] theorem State.setResult_buffer (s : State) (r : Result) : (s.setResult r).buffer = s.buffer := rfl
@[simp] theorem State.setResult_card (s : State) (r : Result) : (s.setResult r).card = s.card := rfl
@[simp] theorem State.setResult_draws (s : State) (r : Result) : (s.setResult r).draws = s.draws := rfl
@[simp] theorem State.setResult_grant (s : State) (r : Result) : (s.setResult r).grant = s.grant := rfl
@[simp] theorem State.setResult_port (s : State) (r : Result) : (s.setResult r).port = s.port := rfl
@[simp] theorem State.setResult_bench (s : State) (r : Result) : (s.setResult r).bench = s.bench := rfl
@[simp] theorem State.setResult_hold (s : State) (r : Result) : (s.setResult r).hold = s.hold := rfl
@[simp] theorem State.setResult_result (s : State) (r : Result) : (s.setResult r).result = r := rfl

@[simp] theorem State.forget_cfg (s : State) : (s.forget).cfg = s.cfg := rfl
@[simp] theorem State.forget_ctype (s : State) : (s.forget).ctype = s.ctype := rfl
@[simp] theorem State.forget_speed (s : State) : (s.forget).speed = s.speed := rfl
@[simp] theorem State.forget_lock (s : State) : (s.forget).lock = s.lock := rfl
@[simp] theorem State.forget_cs (s : State) : (s.forget).cs = s.cs := rfl
@[simp] theorem State.forget_fsm (s : State) : (s.forget).fsm = s.fsm := rfl
@[simp] theorem State.forget_err (s : State) : (s.forget).err = s.err := rfl
@[simp] theorem State.forget_warnIdleR1 (s : State) : (s.forget).warnIdleR1 = s.warnIdleR1 := rfl
@[simp] theorem State.forget_dp (s : State) : (s.forget).dp = Config.freeDatapath s.draws := rfl
@[simp] theorem State.forget_log (s : State) : (s.forget).log = s.log := rfl
@[simp] theorem State.forget_visits (s : State) : (s.forget).visits = s.visits := rfl
@[simp] theorem State.forget_buffer (s : State) : (s.forget).buffer = s.buffer := rfl
@[simp] theorem State.forget_card (s : State) : (s.forget).card = s.card := rfl
@[simp] theorem State.forget_draws (s : State) : (s.forget).draws = s.draws + 1 := rfl
@[simp] theorem State.forget_grant (s : State) : (s.forget).grant = s.grant := rfl
@[simp] theorem State.forget_port (s : State) : (s.forget).port = s.port := rfl
@[simp] theorem State.forget_bench (s : State) : (s.forget).bench = s.bench := rfl
@[simp] theorem State.forget_hold (s : State) : (s.forget).hold = s.hold := rfl
@[simp] theorem State.forget_result (s : State) : (s.forget).result = s.result := rfl

@[simp] theorem State.arrive_cfg (s : State) (bytes : List Byte) : (s.arrive bytes).cfg = s.cfg := rfl
@[simp] theorem State.arrive_ctype (s : State) (bytes : List Byte) : (s.arrive bytes).ctype = s.ctype := rfl
@[simp] theorem State.arrive_speed (s : State) (bytes : List Byte) : (s.arrive bytes).speed = s.speed := rfl
@[simp] theorem State.arrive_lock (s : State) (bytes : List Byte) : (s.arrive bytes).lock = s.lock := rfl
@[simp] theorem State.arrive_cs (s : State) (bytes : List Byte) : (s.arrive bytes).cs = s.cs := rfl
@[simp] theorem State.arrive_fsm (s : State) (bytes : List Byte) : (s.arrive bytes).fsm = s.fsm := rfl
@[simp] theorem State.arrive_err (s : State) (bytes : List Byte) : (s.arrive bytes).err = s.err := rfl
@[simp] theorem State.arrive_warnIdleR1 (s : State) (bytes : List Byte) : (s.arrive bytes).warnIdleR1 = s.warnIdleR1 := rfl
@[simp] theorem State.arrive_dp (s : State) (bytes : List Byte) : (s.arrive bytes).dp = s.dp := rfl
@[simp] theorem State.arrive_log (s : State) (bytes : List Byte) : (s.arrive bytes).log = s.log := rfl
@[simp] theorem State.arrive_visits (s : State) (bytes : List Byte) : (s.arrive bytes).visits = s.visits := rfl
@[simp] theorem State.arrive_buffer (s : State) (bytes : List Byte) : (s.arrive bytes).buffer = s.buffer := rfl
@[simp] theorem State.arrive_card (s : State) (bytes : List Byte) : (s.arrive bytes).card = bytes.map Reply.ok ++ s.card := rfl
@[simp] theorem State.arrive_draws (s : State) (bytes : List Byte) : (s.arrive bytes).draws = s.draws := rfl
@[simp] theorem State.arrive_grant (s : State) (bytes : List Byte) : (s.arrive bytes).grant = s.grant := rfl
@[simp] theorem State.arrive_port (s : State) (bytes : List Byte) : (s.arrive bytes).port = s.port := rfl
@[simp] theorem State.arrive_bench (s : State) (bytes : List Byte) : (s.arrive bytes).bench = s.bench := rfl
@[simp] theorem State.arrive_hold (s : State) (bytes : List Byte) : (s.arrive bytes).hold = s.hold := rfl
@[simp] theorem State.arrive_result (s : State) (bytes : List Byte) : (s.arrive bytes).result = s.result := rfl

@[simp] theorem State.requestSpeed_cfg (s : State) (v : Speed) : (s.requestSpeed v).cfg = s.cfg := rfl
@[simp] theorem State.requestSpeed_ctype (s : State) (v : Speed) : (s.requestSpeed v).ctype = s.ctype := rfl
@[simp] theorem State.requestSpeed_speed (s : State) (v : Speed) : (s.requestSpeed v).speed = v := rfl
@[simp] theorem State.requestSpeed_lock (s : State) (v : Speed) : (s.requestSpeed v).lock = s.lock := rfl
@[simp] theorem State.requestSpeed_cs (s : State) (v : Speed) : (s.requestSpeed v).cs = s.cs := rfl
@[simp] theorem State.requestSpeed_fsm (s : State) (v : Speed) : (s.requestSpeed v).fsm = s.fsm := rfl
@[simp] theorem State.requestSpeed_err (s : State) (v : Speed) : (s.requestSpeed v).err = s.err := rfl
@[simp] theorem State.requestSpeed_warnIdleR1 (s : State) (v : Speed) : (s.requestSpeed v).warnIdleR1 = s.warnIdleR1 := rfl
@[simp] theorem State.requestSpeed_dp (s : State) (v : Speed) : (s.requestSpeed v).dp = s.dp := rfl
@[simp] theorem State.requestSpeed_log (s : State) (v : Speed) : (s.requestSpeed v).log = .setSpeed v :: s.log := rfl
@[simp] theorem State.requestSpeed_visits (s : State) (v : Speed) : (s.requestSpeed v).visits = s.visits := rfl
@[simp] theorem State.requestSpeed_buffer (s : State) (v : Speed) : (s.requestSpeed v).buffer = s.buffer := rfl
@[simp] theorem State.requestSpeed_card (s : State) (v : Speed) : (s.requestSpeed v).card = s.card := rfl
@[simp] theorem State.requestSpeed_draws (s : State) (v : Speed) : (s.requestSpeed v).draws = s.draws := rfl
@[simp] theorem State.requestSpeed_grant (s : State) (v : Speed) : (s.requestSpeed v).grant = s.grant := rfl
@[simp] theorem State.requestSpeed_port (s : State) (v : Speed) : (s.requestSpeed v).port = s.port := rfl
@[simp] theorem State.requestSpeed_bench (s : State) (v : Speed) : (s.requestSpeed v).bench = s.bench := rfl
@[simp] theorem State.requestSpeed_hold (s : State) (v : Speed) : (s.requestSpeed v).hold = s.hold := rfl
@[simp] theorem State.requestSpeed_result (s : State) (v : Speed) : (s.requestSpeed v).result = s.result := rfl

@[simp] theorem State.csAssert_cfg (s : State) : (s.csAssert).cfg = s.cfg := rfl
@[simp] theorem State.csAssert_ctype (s : State) : (s.csAssert).ctype = s.ctype := rfl
@[simp] theorem State.csAssert_speed (s : State) : (s.csAssert).speed = s.speed := rfl
@[simp] theorem State.csAssert_lock (s : State) : (s.csAssert).lock = s.lock := rfl
@[simp] theorem State.csAssert_cs (s : State) : (s.csAssert).cs = true := rfl
@[simp] theorem State.csAssert_fsm (s : State) : (s.csAssert).fsm = s.fsm := rfl
@[simp] theorem State.csAssert_err (s : State) : (s.csAssert).err = s.err := rfl
@[simp] theorem State.csAssert_warnIdleR1 (s : State) : (s.csAssert).warnIdleR1 = s.warnIdleR1 := rfl
@[simp] theorem State.csAssert_dp (s : State) : (s.csAssert).dp = s.dp := rfl
@[simp] theorem State.csAssert_log (s : State) : (s.csAssert).log = .csAssert :: s.log := rfl
@[simp] theorem State.csAssert_visits (s : State) : (s.csAssert).visits = s.visits := rfl
@[simp] theorem State.csAssert_buffer (s : State) : (s.csAssert).buffer = s.buffer := rfl
@[simp] theorem State.csAssert_card (s : State) : (s.csAssert).card = s.card := rfl
@[simp] theorem State.csAssert_draws (s : State) : (s.csAssert).draws = s.draws := rfl
@[simp] theorem State.csAssert_grant (s : State) : (s.csAssert).grant = s.grant := rfl
@[simp] theorem State.csAssert_port (s : State) : (s.csAssert).port = s.port := rfl
@[simp] theorem State.csAssert_bench (s : State) : (s.csAssert).bench = s.bench := rfl
@[simp] theorem State.csAssert_hold (s : State) : (s.csAssert).hold = s.hold := rfl
@[simp] theorem State.csAssert_result (s : State) : (s.csAssert).result = s.result := rfl

@[simp] theorem State.csDeassert_cfg (s : State) : (s.csDeassert).cfg = s.cfg := rfl
@[simp] theorem State.csDeassert_ctype (s : State) : (s.csDeassert).ctype = s.ctype := rfl
@[simp] theorem State.csDeassert_speed (s : State) : (s.csDeassert).speed = s.speed := rfl
@[simp] theorem State.csDeassert_lock (s : State) : (s.csDeassert).lock = s.lock := rfl
@[simp] theorem State.csDeassert_cs (s : State) : (s.csDeassert).cs = false := rfl
@[simp] theorem State.csDeassert_fsm (s : State) : (s.csDeassert).fsm = s.fsm := rfl
@[simp] theorem State.csDeassert_err (s : State) : (s.csDeassert).err = s.err := rfl
@[simp] theorem State.csDeassert_warnIdleR1 (s : State) : (s.csDeassert).warnIdleR1 = s.warnIdleR1 := rfl
@[simp] theorem State.csDeassert_dp (s : State) : (s.csDeassert).dp = s.dp := rfl
@[simp] theorem State.csDeassert_log (s : State) : (s.csDeassert).log = .csDeassert :: s.log := rfl
@[simp] theorem State.csDeassert_visits (s : State) : (s.csDeassert).visits = s.visits := rfl
@[simp] theorem State.csDeassert_buffer (s : State) : (s.csDeassert).buffer = s.buffer := rfl
@[simp] theorem State.csDeassert_card (s : State) : (s.csDeassert).card = s.card := rfl
@[simp] theorem State.csDeassert_draws (s : State) : (s.csDeassert).draws = s.draws := rfl
@[simp] theorem State.csDeassert_grant (s : State) : (s.csDeassert).grant = s.grant := rfl
@[simp] theorem State.csDeassert_port (s : State) : (s.csDeassert).port = s.port := rfl
@[simp] theorem State.csDeassert_bench (s : State) : (s.csDeassert).bench = s.bench := rfl
@[simp] theorem State.csDeassert_hold (s : State) : (s.csDeassert).hold = s.hold := rfl
@[simp] theorem State.csDeassert_result (s : State) : (s.csDeassert).result = s.result := rfl

@[simp] theorem State.lockAcquire_cfg (s : State) : (s.lockAcquire).cfg = s.cfg := rfl
@[simp] theorem State.lockAcquire_ctype (s : State) : (s.lockAcquire).ctype = s.ctype := rfl
@[simp] theorem State.lockAcquire_speed (s : State) : (s.lockAcquire).speed = s.speed := rfl
@[simp] theorem State.lockAcquire_lock (s : State) : (s.lockAcquire).lock = true := rfl
@[simp] theorem State.lockAcquire_cs (s : State) : (s.lockAcquire).cs = s.cs := rfl
@[simp] theorem State.lockAcquire_fsm (s : State) : (s.lockAcquire).fsm = s.fsm := rfl
@[simp] theorem State.lockAcquire_err (s : State) : (s.lockAcquire).err = s.err := rfl
@[simp] theorem State.lockAcquire_warnIdleR1 (s : State) : (s.lockAcquire).warnIdleR1 = s.warnIdleR1 := rfl
@[simp] theorem State.lockAcquire_dp (s : State) : (s.lockAcquire).dp = s.dp := rfl
@[simp] theorem State.lockAcquire_log (s : State) : (s.lockAcquire).log = .lockAcquire :: s.log := rfl
@[simp] theorem State.lockAcquire_visits (s : State) : (s.lockAcquire).visits = s.visits := rfl
@[simp] theorem State.lockAcquire_buffer (s : State) : (s.lockAcquire).buffer = s.buffer := rfl
@[simp] theorem State.lockAcquire_card (s : State) : (s.lockAcquire).card = s.card := rfl
@[simp] theorem State.lockAcquire_draws (s : State) : (s.lockAcquire).draws = s.draws := rfl
@[simp] theorem State.lockAcquire_grant (s : State) : (s.lockAcquire).grant = s.grant := rfl
@[simp] theorem State.lockAcquire_port (s : State) : (s.lockAcquire).port = s.port := rfl
@[simp] theorem State.lockAcquire_bench (s : State) : (s.lockAcquire).bench = s.bench := rfl
@[simp] theorem State.lockAcquire_hold (s : State) : (s.lockAcquire).hold = s.hold := rfl
@[simp] theorem State.lockAcquire_result (s : State) : (s.lockAcquire).result = s.result := rfl

@[simp] theorem State.lockRelease_cfg (s : State) : (s.lockRelease).cfg = s.cfg := rfl
@[simp] theorem State.lockRelease_ctype (s : State) : (s.lockRelease).ctype = s.ctype := rfl
@[simp] theorem State.lockRelease_speed (s : State) : (s.lockRelease).speed = s.speed := rfl
@[simp] theorem State.lockRelease_lock (s : State) : (s.lockRelease).lock = false := rfl
@[simp] theorem State.lockRelease_cs (s : State) : (s.lockRelease).cs = s.cs := rfl
@[simp] theorem State.lockRelease_fsm (s : State) : (s.lockRelease).fsm = s.fsm := rfl
@[simp] theorem State.lockRelease_err (s : State) : (s.lockRelease).err = s.err := rfl
@[simp] theorem State.lockRelease_warnIdleR1 (s : State) : (s.lockRelease).warnIdleR1 = s.warnIdleR1 := rfl
@[simp] theorem State.lockRelease_dp (s : State) : (s.lockRelease).dp = s.dp := rfl
@[simp] theorem State.lockRelease_log (s : State) : (s.lockRelease).log = .lockRelease :: s.log := rfl
@[simp] theorem State.lockRelease_visits (s : State) : (s.lockRelease).visits = s.visits := rfl
@[simp] theorem State.lockRelease_buffer (s : State) : (s.lockRelease).buffer = s.buffer := rfl
@[simp] theorem State.lockRelease_card (s : State) : (s.lockRelease).card = s.card := rfl
@[simp] theorem State.lockRelease_draws (s : State) : (s.lockRelease).draws = s.draws := rfl
@[simp] theorem State.lockRelease_grant (s : State) : (s.lockRelease).grant = s.grant := rfl
@[simp] theorem State.lockRelease_port (s : State) : (s.lockRelease).port = s.port := rfl
@[simp] theorem State.lockRelease_bench (s : State) : (s.lockRelease).bench = s.bench := rfl
@[simp] theorem State.lockRelease_hold (s : State) : (s.lockRelease).hold = s.hold := rfl
@[simp] theorem State.lockRelease_result (s : State) : (s.lockRelease).result = s.result := rfl

@[simp] theorem State.begin_cfg (s : State) : (s.begin).cfg = s.cfg := rfl
@[simp] theorem State.begin_ctype (s : State) : (s.begin).ctype = s.ctype := rfl
@[simp] theorem State.begin_speed (s : State) : (s.begin).speed = s.speed := rfl
@[simp] theorem State.begin_lock (s : State) : (s.begin).lock = true := rfl
@[simp] theorem State.begin_cs (s : State) : (s.begin).cs = s.cs := rfl
@[simp] theorem State.begin_fsm (s : State) : (s.begin).fsm = s.fsm := rfl
@[simp] theorem State.begin_err (s : State) : (s.begin).err = .none := rfl
@[simp] theorem State.begin_warnIdleR1 (s : State) : (s.begin).warnIdleR1 = s.warnIdleR1 := rfl
@[simp] theorem State.begin_dp (s : State) : (s.begin).dp = s.dp := rfl
@[simp] theorem State.begin_log (s : State) : (s.begin).log = .lockAcquire :: s.log := rfl
@[simp] theorem State.begin_visits (s : State) : (s.begin).visits = s.visits := rfl
@[simp] theorem State.begin_buffer (s : State) : (s.begin).buffer = s.buffer := rfl
@[simp] theorem State.begin_card (s : State) : (s.begin).card = s.card := rfl
@[simp] theorem State.begin_draws (s : State) : (s.begin).draws = s.draws := rfl
@[simp] theorem State.begin_grant (s : State) : (s.begin).grant = s.grant := rfl
@[simp] theorem State.begin_port (s : State) : (s.begin).port = s.port := rfl
@[simp] theorem State.begin_bench (s : State) : (s.begin).bench = s.bench := rfl
@[simp] theorem State.begin_hold (s : State) : (s.begin).hold = s.hold := rfl
@[simp] theorem State.begin_result (s : State) : (s.begin).result = s.result := rfl

@[simp] theorem State.initStart_cfg (s : State) : (s.initStart).cfg = s.cfg := rfl
@[simp] theorem State.initStart_ctype (s : State) : (s.initStart).ctype = .unknown := rfl
@[simp] theorem State.initStart_speed (s : State) : (s.initStart).speed = .slow := rfl
@[simp] theorem State.initStart_lock (s : State) : (s.initStart).lock = s.lock := rfl
@[simp] theorem State.initStart_cs (s : State) : (s.initStart).cs = s.cs := rfl
@[simp] theorem State.initStart_fsm (s : State) : (s.initStart).fsm = .unidentified := rfl
@[simp] theorem State.initStart_err (s : State) : (s.initStart).err = s.err := rfl
@[simp] theorem State.initStart_warnIdleR1 (s : State) : (s.initStart).warnIdleR1 = false := rfl
@[simp] theorem State.initStart_dp (s : State) : (s.initStart).dp = s.dp := rfl
@[simp] theorem State.initStart_log (s : State) : (s.initStart).log = .setSpeed .slow :: s.log := rfl
@[simp] theorem State.initStart_visits (s : State) : (s.initStart).visits = .unidentified :: s.visits := rfl
@[simp] theorem State.initStart_buffer (s : State) : (s.initStart).buffer = s.buffer := rfl
@[simp] theorem State.initStart_card (s : State) : (s.initStart).card = s.card := rfl
@[simp] theorem State.initStart_draws (s : State) : (s.initStart).draws = s.draws := rfl
@[simp] theorem State.initStart_grant (s : State) : (s.initStart).grant = s.grant := rfl
@[simp] theorem State.initStart_port (s : State) : (s.initStart).port = s.port := rfl
@[simp] theorem State.initStart_bench (s : State) : (s.initStart).bench = s.bench := rfl
@[simp] theorem State.initStart_hold (s : State) : (s.initStart).hold = s.hold := rfl
@[simp] theorem State.initStart_result (s : State) : (s.initStart).result = s.result := rfl

@[simp] theorem State.takeReply_cfg (s : State) : s.takeReply.cfg = s.cfg := by
  unfold State.takeReply; split <;> rfl
@[simp] theorem State.takeReply_ctype (s : State) : s.takeReply.ctype = s.ctype := by
  unfold State.takeReply; split <;> rfl
@[simp] theorem State.takeReply_speed (s : State) : s.takeReply.speed = s.speed := by
  unfold State.takeReply; split <;> rfl
@[simp] theorem State.takeReply_lock (s : State) : s.takeReply.lock = s.lock := by
  unfold State.takeReply; split <;> rfl
@[simp] theorem State.takeReply_cs (s : State) : s.takeReply.cs = s.cs := by
  unfold State.takeReply; split <;> rfl
@[simp] theorem State.takeReply_fsm (s : State) : s.takeReply.fsm = s.fsm := by
  unfold State.takeReply; split <;> rfl
@[simp] theorem State.takeReply_err (s : State) : s.takeReply.err = s.err := by
  unfold State.takeReply; split <;> rfl
@[simp] theorem State.takeReply_warnIdleR1 (s : State) : s.takeReply.warnIdleR1 = s.warnIdleR1 := by
  unfold State.takeReply; split <;> rfl
@[simp] theorem State.takeReply_dp (s : State) : s.takeReply.dp = s.dp := by
  unfold State.takeReply; split <;> rfl
@[simp] theorem State.takeReply_log (s : State) : s.takeReply.log = s.log := by
  unfold State.takeReply; split <;> rfl
@[simp] theorem State.takeReply_visits (s : State) : s.takeReply.visits = s.visits := by
  unfold State.takeReply; split <;> rfl
@[simp] theorem State.takeReply_buffer (s : State) : s.takeReply.buffer = s.buffer := by
  unfold State.takeReply; split <;> rfl
@[simp] theorem State.takeReply_grant (s : State) : s.takeReply.grant = s.grant := by
  unfold State.takeReply; split <;> rfl
@[simp] theorem State.takeReply_port (s : State) : s.takeReply.port = s.port := by
  unfold State.takeReply; split <;> rfl
@[simp] theorem State.takeReply_bench (s : State) : s.takeReply.bench = s.bench := by
  unfold State.takeReply; split <;> rfl
@[simp] theorem State.takeReply_hold (s : State) : s.takeReply.hold = s.hold := by
  unfold State.takeReply; split <;> rfl
@[simp] theorem State.takeReply_result (s : State) : s.takeReply.result = s.result := by
  unfold State.takeReply; split <;> rfl

theorem State.takeReply_card (s : State) : s.takeReply.card = s.card.tail := by
  unfold State.takeReply; split <;> simp_all

/-- Two states with the same fields are equal. -/
theorem State.eq_of_fields {s t : State} (h1 : s.cfg = t.cfg) (h2 : s.ctype = t.ctype) (h3 : s.speed = t.speed)
    (h4 : s.lock = t.lock) (h5 : s.cs = t.cs) (h6 : s.fsm = t.fsm) (h7 : s.err = t.err)
    (h8 : s.warnIdleR1 = t.warnIdleR1) (h9 : s.dp = t.dp) (h10 : s.log = t.log) (h11 : s.visits = t.visits)
    (h12 : s.buffer = t.buffer) (h13 : s.card = t.card) (h14 : s.draws = t.draws) (h15 : s.grant = t.grant)
    (h16 : s.port = t.port) (h17 : s.bench = t.bench) (h18 : s.hold = t.hold) (h19 : s.result = t.result) : s = t := by
  cases s; cases t; simp_all

/-- The trace of a state one event later. -/
@[simp] theorem State.record_trace (s : State) (e : Event) : (s.record e).trace = s.trace ++ [e] := by
  simp [State.trace]

end Sys2Proof.Machine
end

