-- ==== Sys2Proof/Laws/Procs.lean ====
section
/-! SUPPORT. What the shared operations can do, said once: a relation between states that every primitive keeps is kept by
every procedure built from them (frames of whole procedures, on every path, follow from this), and what an exchange does. -/

namespace Sys2Proof.Machine

/-! ## Ends of procedures -/

@[simp] theorem Res.state_ok {α : Type} (v : α) (s : State) : (Res.ok v s).state = s := rfl

@[simp] theorem Res.state_err {α : Type} (k : ErrKind) (s : State) : (Res.err k s : Res α).state = s := rfl

theorem Proc.bind_ok {α β : Type} {p : Proc α} {f : α → Proc β} {s t : State} {v : α} (h : p s = .ok v t) :
    p.bind f s = f v t := by
  simp [Proc.bind, h]

theorem Proc.bind_err {α β : Type} {p : Proc α} {f : α → Proc β} {s t : State} {k : ErrKind} (h : p s = .err k t) :
    p.bind f s = .err k t := by
  simp [Proc.bind, h]

theorem Proc.andThen_ok {α β : Type} {p : Proc α} {q : Proc β} {s t : State} {v : α} (h : p s = .ok v t) :
    p.andThen q s = q t := Proc.bind_ok h

theorem Proc.andThen_err {α β : Type} {p : Proc α} {q : Proc β} {s t : State} {k : ErrKind} (h : p s = .err k t) :
    p.andThen q s = .err k t := Proc.bind_err h

/-! ## Exchanges -/

/-- The whole of an exchange: its event is recorded, and it either gives a byte or fails IoError. -/
theorem xchg_cases (m : Byte) (s : State) :
    (∃ b, s.nextReply = .ok b ∧ xchg m s = .ok b (s.takeReply.record (.xchg m (.ok b)))) ∨
      (s.nextReply = .fail ∧ xchg m s = .err .ioError (s.takeReply.record (.xchg m .fail))) := by
  unfold xchg
  cases h : s.nextReply with
  | ok b => exact .inl ⟨b, rfl, rfl⟩
  | fail => exact .inr ⟨rfl, rfl⟩

/-! ## Relations that procedures keep -/

/-- However the procedure ends, the relation holds between the states before and after it. -/
def Keeps {α : Type} (R : State → State → Prop) (p : Proc α) : Prop := ∀ s, R s (p s).state

/-- A relation between states that composes and that every exchange, and every datapath update allowed, keeps. -/
structure WireRel (allowed : (Datapath → Datapath) → Prop) (R : State → State → Prop) : Prop where
  refl : ∀ s, R s s
  trans : ∀ {s t u}, R s t → R t u → R s u
  xchg : ∀ s m o, R s (s.takeReply.record (.xchg m o))
  reg : ∀ s f, allowed f → R s (s.mapDp f)

section
variable {allowed : (Datapath → Datapath) → Prop} {R : State → State → Prop}

theorem keeps_ret {α : Type} (h : WireRel allowed R) (v : α) : Keeps R (ret v) := fun s => h.refl s

theorem keeps_fail {α : Type} (h : WireRel allowed R) (k : ErrKind) : Keeps R (fail k : Proc α) := fun s => h.refl s

theorem keeps_bind {α β : Type} (h : WireRel allowed R) {p : Proc α} {f : α → Proc β} (hp : Keeps R p)
    (hf : ∀ v, Keeps R (f v)) : Keeps R (p.bind f) := by
  intro s
  have h1 := hp s
  unfold Proc.bind
  cases hps : p s with
  | ok v t => rw [hps] at h1; exact h.trans h1 (hf v t)
  | err k t => rw [hps] at h1; exact h1

theorem keeps_andThen {α β : Type} (h : WireRel allowed R) {p : Proc α} {q : Proc β} (hp : Keeps R p)
    (hq : Keeps R q) : Keeps R (p.andThen q) := keeps_bind h hp fun _ => hq

theorem keeps_setReg (h : WireRel allowed R) {f : Datapath → Datapath} (hf : allowed f) : Keeps R (setReg f) :=
  fun s => h.reg s f hf

theorem keeps_withCfg {α : Type} {f : Config → Proc α} (hf : ∀ c, Keeps R (f c)) : Keeps R (withCfg f) :=
  fun s => hf s.cfg s

theorem keeps_xchg (h : WireRel allowed R) (m : Byte) : Keeps R (xchg m) := by
  intro s
  rcases xchg_cases m s with ⟨b, -, e⟩ | ⟨-, e⟩ <;> rw [e] <;> exact h.xchg s m _

theorem keeps_tx (h : WireRel allowed R) (m : Byte) : Keeps R (tx m) :=
  keeps_bind h (keeps_xchg h m) fun _ => keeps_ret h ()

theorem keeps_rx (h : WireRel allowed R) : Keeps R rx := keeps_xchg h fillByte

theorem keeps_txList (h : WireRel allowed R) (l : List Byte) : Keeps R (txList l) := by
  induction l with
  | nil => exact keeps_ret h ()
  | cons b bs ih => exact keeps_andThen h (keeps_tx h b) ih

theorem keeps_filler (h : WireRel allowed R) (n : Nat) : Keeps R (filler n) := keeps_txList h _

/-- The updates of POLL. -/
def PollSafe (allowed : (Datapath → Datapath) → Prop) : Prop :=
  ∀ g : Nat → Nat, allowed fun d => { d with poll := g d.poll }

theorem keeps_pollOnce (h : WireRel allowed R) (hp : PollSafe allowed) (budget : Option Nat) (accept : Byte → Bool) :
    Keeps R (pollOnce budget accept) := by
  refine keeps_andThen h (keeps_setReg h (hp fun n => n + 1)) (keeps_bind h (keeps_rx h) fun b s => ?_)
  split
  · exact h.refl s
  · split <;> exact h.refl s

theorem keeps_pollLoop (h : WireRel allowed R) (hp : PollSafe allowed) (budget : Nat) (accept : Byte → Bool) (n : Nat) :
    Keeps R (pollLoop budget accept n) := by
  induction n with
  | zero => exact keeps_fail h _
  | succ n ih =>
    refine keeps_bind h (keeps_pollOnce h hp _ _) fun o => ?_
    cases o with
    | some b => exact keeps_ret h b
    | none => exact ih

theorem keeps_poll (h : WireRel allowed R) (hp : PollSafe allowed) (budget : Nat) (accept : Byte → Bool) :
    Keeps R (poll budget accept) :=
  keeps_andThen h (keeps_setReg h (hp fun _ => 0)) (keeps_pollLoop h hp _ _ _)

/-! ### Response reader -/

/-- The registers a command transaction writes: IDX, ARG, FRAME, CRC7, R1, R2B, REG32 and POLL; the others stay. -/
structure CommandRegs (d e : Datapath) : Prop where
  dresp : e.dresp = d.dresp
  buf : e.buf = d.buf
  crc16 : e.crc16 = d.crc16
  addr : e.addr = d.addr
  sect : e.sect = d.sect
  remain : e.remain = d.remain
  iter : e.iter = d.iter
  off : e.off = d.off

/-- Every update that leaves the registers outside a command transaction alone is allowed. -/
def CommandSafe (allowed : (Datapath → Datapath) → Prop) : Prop := ∀ f, (∀ d, CommandRegs d (f d)) → allowed f

theorem CommandSafe.poll (hc : CommandSafe allowed) : PollSafe allowed := fun _ => hc _ fun _ => by constructor <;> rfl

theorem keeps_acceptR1 (h : WireRel allowed R) (hc : CommandSafe allowed) (b : Byte) : Keeps R (acceptR1 b) :=
  keeps_setReg h (hc _ fun _ => by constructor <;> rfl)

theorem keeps_waitR1 (h : WireRel allowed R) (hc : CommandSafe allowed) : Keeps R waitR1 :=
  keeps_withCfg fun _ => keeps_bind h (keeps_poll h hc.poll _ _) fun b =>
    keeps_andThen h (keeps_acceptR1 h hc b) (keeps_ret h b)

theorem keeps_r1Attempt (h : WireRel allowed R) (hc : CommandSafe allowed) : Keeps R r1Attempt := by
  refine keeps_withCfg fun _ => keeps_bind h (keeps_pollOnce h hc.poll _ _) fun o => ?_
  cases o with
  | some b => exact keeps_andThen h (keeps_acceptR1 h hc b) (keeps_ret h _)
  | none => exact keeps_ret h _

theorem keeps_waitLongR1 (h : WireRel allowed R) (hc : CommandSafe allowed) : Keeps R waitLongR1 := by
  refine keeps_bind h (keeps_waitR1 h hc) fun r => ?_
  split
  · exact keeps_fail h _
  · exact keeps_ret h _

theorem keeps_waitR2 (h : WireRel allowed R) (hc : CommandSafe allowed) : Keeps R waitR2 :=
  keeps_bind h (keeps_waitLongR1 h hc) fun _ => keeps_bind h (keeps_rx h) fun _ =>
    keeps_andThen h (keeps_setReg h (hc _ fun _ => by constructor <;> rfl)) (keeps_ret h _)

theorem keeps_readReg32 (h : WireRel allowed R) (hc : CommandSafe allowed) : Keeps R readReg32 :=
  keeps_bind h (keeps_rx h) fun _ => keeps_bind h (keeps_rx h) fun _ => keeps_bind h (keeps_rx h) fun _ =>
    keeps_bind h (keeps_rx h) fun _ =>
      keeps_andThen h (keeps_setReg h (hc _ fun _ => by constructor <;> rfl)) (keeps_ret h _)

theorem keeps_waitR3 (h : WireRel allowed R) (hc : CommandSafe allowed) : Keeps R waitR3 :=
  keeps_bind h (keeps_waitLongR1 h hc) fun _ => keeps_bind h (keeps_readReg32 h hc) fun _ => keeps_ret h _

theorem keeps_waitFor (h : WireRel allowed R) (hc : CommandSafe allowed) (k : RespKind) : Keeps R (waitFor k) := by
  cases k with
  | r1 => exact keeps_waitR1 h hc
  | r2 => exact keeps_waitR2 h hc
  | r3 => exact keeps_waitR3 h hc
  | r7 => exact keeps_waitR3 h hc

/-! ### Command codec -/

theorem keeps_sendFrame (h : WireRel allowed R) (hc : CommandSafe allowed) (idx : BitVec 6) (arg : Word) :
    Keeps R (sendFrame idx arg) :=
  keeps_bind h (keeps_andThen h (keeps_setReg h (hc _ fun _ => by constructor <;> rfl)) (keeps_ret h _)) fun _ =>
    keeps_txList h _

/-- The relation is kept by opening and closing a chip-select window. -/
structure WindowRel (R : State → State → Prop) : Prop where
  open_ : ∀ s, R s s.csAssert
  close : ∀ s, R s s.csDeassert

theorem txnExit_state {α : Type} (h : WireRel allowed R) (hw : WindowRel R) (r : Res α) : R r.state (txnExit r).state := by
  cases r with
  | ok v s =>
    have h1 := keeps_filler h 1 s
    simp only [txnExit, Res.state_ok]
    cases hf : filler 1 s with
    | ok u t => rw [hf] at h1; exact h.trans h1 (hw.close t)
    | err k t => rw [hf] at h1; exact h.trans h1 (hw.close t)
  | err k s =>
    have h1 := keeps_filler h 1 s
    cases k with
    | ioError => exact hw.close s
    | _ => exact h.trans h1 (hw.close _)

theorem keeps_command (h : WireRel allowed R) (hw : WindowRel R) (hc : CommandSafe allowed) (idx : BitVec 6) (arg : Word)
    (k : RespKind) : Keeps R (command idx arg k) := fun s =>
  h.trans (h.trans (hw.open_ s) (keeps_andThen h (keeps_sendFrame h hc idx arg) (keeps_waitFor h hc k) s.csAssert))
    (txnExit_state h hw _)

/-! ### Block transfer -/

/-- The registers a block transfer writes beside those of its command: BUF, CRC16 and DRESP; the others stay. -/
structure BlockRegs (d e : Datapath) : Prop where
  addr : e.addr = d.addr
  sect : e.sect = d.sect
  remain : e.remain = d.remain
  iter : e.iter = d.iter
  off : e.off = d.off

/-- Every update that leaves the registers outside a block transfer alone is allowed. -/
def BlockSafe (allowed : (Datapath → Datapath) → Prop) : Prop := ∀ f, (∀ d, BlockRegs d (f d)) → allowed f

theorem BlockSafe.command (hb : BlockSafe allowed) : CommandSafe allowed := fun f hf =>
  hb f fun d => ⟨(hf d).addr, (hf d).sect, (hf d).remain, (hf d).iter, (hf d).off⟩

theorem keeps_waitToken (h : WireRel allowed R) (hp : PollSafe allowed) : Keeps R waitToken :=
  keeps_withCfg fun _ => keeps_bind h (keeps_poll h hp _ _) fun _ => keeps_ret h _

theorem rxMany_keeps (h : WireRel allowed R) (n : Nat) (s : State) : R s (rxMany n s).2.state := by
  induction n generalizing s with
  | zero => exact h.refl s
  | succ n ih =>
    have h1 := keeps_rx h s
    unfold rxMany
    cases hr : rx s with
    | ok b t => rw [hr] at h1; exact h.trans h1 (ih t)
    | err k t => rw [hr] at h1; exact h1

theorem keeps_recvPayload (h : WireRel allowed R) (hb : BlockSafe allowed) : Keeps R recvPayload := by
  intro s
  have h1 := rxMany_keeps h blockLen s
  unfold recvPayload
  rcases hr : rxMany blockLen s with ⟨bytes, r⟩
  rw [hr] at h1
  cases r with
  | ok v t =>
    exact h.trans h1 (h.reg t (fun d => { d with buf := overwrite d.buf bytes }) (hb _ fun _ => by constructor <;> rfl))
  | err k t =>
    exact h.trans h1 (h.reg t (fun d => { d with buf := overwrite d.buf bytes }) (hb _ fun _ => by constructor <;> rfl))

theorem keeps_recvCrc (h : WireRel allowed R) (hb : BlockSafe allowed) : Keeps R recvCrc :=
  keeps_bind h (keeps_rx h) fun _ => keeps_andThen h (keeps_setReg h (hb _ fun _ => by constructor <;> rfl)) <|
    keeps_bind h (keeps_rx h) fun _ => keeps_setReg h (hb _ fun _ => by constructor <;> rfl)

theorem keeps_recvData (h : WireRel allowed R) (hb : BlockSafe allowed) : Keeps R recvData :=
  keeps_andThen h (keeps_waitToken h hb.command.poll) (keeps_andThen h (keeps_recvPayload h hb) (keeps_recvCrc h hb))

theorem keeps_waitZeroR1 (h : WireRel allowed R) (hc : CommandSafe allowed) : Keeps R waitZeroR1 := by
  refine keeps_bind h (keeps_waitR1 h hc) fun s => ?_
  split
  · exact keeps_ret h _
  · exact keeps_fail h _

theorem keeps_readBlock (h : WireRel allowed R) (hw : WindowRel R) (hb : BlockSafe allowed) (addr : Word) :
    Keeps R (readBlock addr) := fun s =>
  h.trans (h.trans (hw.open_ s) (keeps_andThen h (keeps_sendFrame h hb.command 17 addr)
    (keeps_andThen h (keeps_waitZeroR1 h hb.command) (keeps_recvData h hb)) s.csAssert)) (txnExit_state h hw _)

theorem keeps_sendData (h : WireRel allowed R) : Keeps R sendData :=
  keeps_andThen h (keeps_tx h _) (keeps_andThen h (fun s => keeps_txList h _ s) (keeps_txList h _))

theorem keeps_recvDresp (h : WireRel allowed R) (hb : BlockSafe allowed) : Keeps R recvDresp := by
  refine keeps_bind h (keeps_rx h) fun d => keeps_andThen h (keeps_setReg h (hb _ fun _ => by constructor <;> rfl)) ?_
  unfold decodeDrespByte
  split
  · exact keeps_ret h _
  all_goals exact keeps_fail h _

theorem keeps_busyAttempt (h : WireRel allowed R) (hp : PollSafe allowed) : Keeps R busyAttempt :=
  keeps_withCfg fun _ => keeps_pollOnce h hp _ _

theorem keeps_waitNotBusy (h : WireRel allowed R) (hp : PollSafe allowed) : Keeps R waitNotBusy := by
  refine keeps_withCfg fun c => ?_
  split
  · exact keeps_bind h (keeps_poll h hp _ _) fun _ => keeps_ret h _
  · exact keeps_andThen h (keeps_setReg h (hp fun _ => 0)) (keeps_bind h (keeps_busyAttempt h hp) fun _ => keeps_ret h _)

theorem writeExit_state (h : WireRel allowed R) (hw : WindowRel R) (r : Res Bool) : R r.state (writeExit r).state := by
  unfold writeExit
  split
  · exact h.refl _
  · exact txnExit_state h hw r

theorem keeps_writeBlock (h : WireRel allowed R) (hw : WindowRel R) (hb : BlockSafe allowed) (addr : Word) :
    Keeps R (writeBlock addr) := fun s =>
  h.trans (h.trans (hw.open_ s) (keeps_andThen h (keeps_sendFrame h hb.command 24 addr)
    (keeps_andThen h (keeps_waitZeroR1 h hb.command) (keeps_andThen h (keeps_filler h 1) (keeps_andThen h (keeps_sendData h)
      (keeps_bind h (keeps_recvDresp h hb) fun _ => keeps_waitNotBusy h hb.command.poll)))) s.csAssert))
    (writeExit_state h hw _)

theorem keeps_writeResume (h : WireRel allowed R) (hw : WindowRel R) (hb : BlockSafe allowed) : Keeps R writeResume :=
  fun s => h.trans (keeps_bind h (keeps_busyAttempt h hb.command.poll) (fun o => keeps_ret h o.isSome) s)
    (writeExit_state h hw _)

end

/-! ## Relations that whole transactions keep -/

/-- A relation between states that composes and that whole transactions, filler bytes outside them, delays and all register
updates keep. -/
structure CardRel (R : State → State → Prop) : Prop where
  refl : ∀ s, R s s
  trans : ∀ {s t u}, R s t → R t u → R s u
  reg : ∀ s f, R s (s.mapDp f)
  fill : ∀ s o, R s (s.takeReply.record (.xchg fillByte o))
  delay : ∀ s n, R s (s.record (.delayMs n))
  command : ∀ idx arg k, Keeps R (command idx arg k)
  readBlock : ∀ addr, Keeps R (readBlock addr)

/-- A relation that every exchange, window event, delay and register update keeps is kept by whole transactions. -/
theorem WireRel.card {R : State → State → Prop} (h : WireRel (fun _ => True) R) (hw : WindowRel R)
    (hd : ∀ s n, R s (s.record (.delayMs n))) : CardRel R where
  refl := h.refl
  trans := h.trans
  reg := fun s f => h.reg s f trivial
  fill := fun s o => h.xchg s fillByte o
  delay := hd
  command := keeps_command h hw fun _ _ => trivial
  readBlock := keeps_readBlock h hw fun _ _ => trivial

section
variable {R : State → State → Prop}

namespace CardRel

theorem ret {α : Type} (h : CardRel R) (v : α) : Keeps R (Sys2Proof.Machine.ret v) := fun s => h.refl s

theorem fail {α : Type} (h : CardRel R) (k : ErrKind) : Keeps R (Sys2Proof.Machine.fail k : Proc α) := fun s => h.refl s

theorem bind {α β : Type} (h : CardRel R) {p : Proc α} {f : α → Proc β} (hp : Keeps R p) (hf : ∀ v, Keeps R (f v)) :
    Keeps R (p.bind f) := by
  intro s
  have h1 := hp s
  unfold Proc.bind
  cases hps : p s with
  | ok v t => rw [hps] at h1; exact h.trans h1 (hf v t)
  | err k t => rw [hps] at h1; exact h1

theorem andThen {α β : Type} (h : CardRel R) {p : Proc α} {q : Proc β} (hp : Keeps R p) (hq : Keeps R q) :
    Keeps R (p.andThen q) := h.bind hp fun _ => hq

theorem setReg (h : CardRel R) (f : Datapath → Datapath) : Keeps R (Sys2Proof.Machine.setReg f) := fun s => h.reg s f

theorem filler (h : CardRel R) (n : Nat) : Keeps R (Sys2Proof.Machine.filler n) := by
  induction n with
  | zero => exact h.ret ()
  | succ n ih =>
    refine h.andThen (h.bind (fun s => ?_) fun _ => h.ret ()) ih
    rcases xchg_cases fillByte s with ⟨b, -, e⟩ | ⟨-, e⟩ <;> rw [e] <;> exact h.fill s _

theorem sendAcmd (h : CardRel R) (n : BitVec 6) (arg : Word) : Keeps R (Sys2Proof.Machine.sendAcmd n arg) := by
  refine h.bind (h.command 55 0 .r1) fun a => ?_
  split
  · exact h.command n arg .r1
  · exact h.fail _

theorem setAddress (h : CardRel R) : Keeps R Sys2Proof.Machine.setAddress := by
  intro s
  unfold Sys2Proof.Machine.setAddress
  split
  · exact h.andThen (h.setReg _) (h.ret _) s
  · exact h.refl s

theorem advance (h : CardRel R) : Keeps R Sys2Proof.Machine.advance := by
  refine h.andThen (h.setReg _) fun s => ?_
  split
  · exact h.refl s
  · split
    · exact h.refl s
    · exact h.reg s fun d => { d with sect := d.sect + 1 }

theorem loadBuf (h : CardRel R) : Keeps R Sys2Proof.Machine.loadBuf := fun s =>
  h.reg s fun d => { d with buf := s.buffer.readBlock d.off }

theorem readLoop (h : CardRel R) (hs : Keeps R storeBuf) (n : Nat) : Keeps R (Sys2Proof.Machine.readLoop n) := by
  induction n with
  | zero => exact h.ret _
  | succ n ih =>
    exact h.bind h.setAddress fun a => h.andThen (h.readBlock a) (h.andThen hs (h.andThen h.advance ih))

theorem readRun (h : CardRel R) (hs : Keeps R storeBuf) (sector count : Word) (off0 : Nat) :
    Keeps R (Sys2Proof.Machine.readRun sector count off0) := h.andThen (h.setReg _) (h.readLoop hs _)

theorem writeLoop (h : CardRel R) (hb : ∀ addr, Keeps R (writeBlock addr)) (n : Nat) :
    Keeps R (Sys2Proof.Machine.writeLoop n) := by
  induction n with
  | zero => exact h.ret _
  | succ n ih =>
    refine h.bind h.setAddress fun a => h.andThen h.loadBuf (h.bind (hb a) fun ended => ?_)
    split
    · exact h.andThen h.advance ih
    · exact h.ret _

theorem writeRun (h : CardRel R) (hb : ∀ addr, Keeps R (writeBlock addr)) (sector count : Word) (off0 : Nat) :
    Keeps R (Sys2Proof.Machine.writeRun sector count off0) := h.andThen (h.setReg _) (h.writeLoop hb _)

theorem writeRunResume (h : CardRel R) (hr : Keeps R writeResume) (hb : ∀ addr, Keeps R (writeBlock addr)) :
    Keeps R Sys2Proof.Machine.writeRunResume := by
  refine h.bind hr fun ended => ?_
  split
  · exact h.andThen h.advance fun s => h.writeLoop hb _ s
  · exact h.ret _

/-! ### Card session -/

theorem loopCommand (h : CardRel R) (w : LoopCommand) : Keeps R (Sys2Proof.Machine.loopCommand w) := by
  cases w with
  | acmdHcs => exact h.sendAcmd _ _
  | acmd => exact h.sendAcmd _ _
  | cmd1 => exact h.command _ _ _

theorem attempt (h : CardRel R) (w : LoopCommand) : Keeps R (Sys2Proof.Machine.attempt w) := by
  intro s
  have h1 := h.loopCommand w s
  unfold Sys2Proof.Machine.attempt
  cases hr : Sys2Proof.Machine.loopCommand w s with
  | ok r t => rw [hr] at h1; exact h1
  | err k t => rw [hr] at h1; cases k <;> exact h1

theorem retryFrom (h : CardRel R) (w : LoopCommand) (n : Nat) (stop : Bool) (left : Nat) :
    Keeps R (Sys2Proof.Machine.retryFrom w n stop left) := by
  induction left with
  | zero => exact h.ret _
  | succ left ih =>
    refine h.andThen (h.setReg _) (h.bind (h.attempt w) fun x => ?_)
    split
    · exact h.ret _
    · split
      · exact h.ret _
      · exact h.andThen (fun s => h.delay s _) ih

theorem retryLoop (h : CardRel R) (w : LoopCommand) (n : Nat) (stop : Bool) :
    Keeps R (Sys2Proof.Machine.retryLoop w n stop) := h.retryFrom w n stop n

theorem v2Path (h : CardRel R) : Keeps R Sys2Proof.Machine.v2Path := by
  intro s
  refine h.bind (h.retryLoop _ _ _) (fun p => ?_) s
  cases p with
  | ready => exact h.bind (h.command _ _ _) fun _ => h.ret _
  | exhausted => exact h.fail _
  | illegal => exact h.fail _

theorem mmcPath (h : CardRel R) : Keeps R Sys2Proof.Machine.mmcPath := by
  intro s
  refine h.bind (h.retryLoop _ _ _) (fun p => ?_) s
  cases p with
  | ready => exact h.ret _
  | exhausted => exact h.fail _
  | illegal => exact h.fail _

theorem wakeLoop (h : CardRel R) (t : CardType) : Keeps R (Sys2Proof.Machine.wakeLoop t) := by
  intro s
  cases t with
  | unknown => exact h.fail _ s
  | mmcV3 => exact h.retryLoop _ _ _ s
  | sdV1 => exact h.retryLoop _ _ _ s
  | sdV2Byte => exact h.retryLoop _ _ _ s
  | sdV2Block => exact h.retryLoop _ _ _ s

end CardRel

/-- The relation is kept by the updates of the session state. -/
structure SessionRel (R : State → State → Prop) : Prop where
  enter : ∀ s f, R s (s.enter f)
  warn : ∀ s b, R s (s.setWarn b)

namespace CardRel

theorem legacyPath (h : CardRel R) (hs : SessionRel R) : Keeps R Sys2Proof.Machine.legacyPath := by
  intro s
  refine h.bind (h.retryLoop _ _ _) (fun p => ?_) s
  cases p with
  | ready => exact h.ret _
  | exhausted => exact h.fail _
  | illegal => exact h.andThen (fun s => hs.enter s _) h.mmcPath

theorem voltageCheck (h : CardRel R) (hs : SessionRel R) : Keeps R Sys2Proof.Machine.voltageCheck := by
  intro s
  have h1 := h.command 8 cmd8Arg .r7 s
  unfold Sys2Proof.Machine.voltageCheck
  cases hr : Sys2Proof.Machine.command 8 cmd8Arg .r7 s with
  | ok v t =>
    rw [hr] at h1
    dsimp only
    split
    · exact h.trans h1 (h.trans (hs.enter t _) (h.v2Path _))
    · exact h1
  | err k t =>
    rw [hr] at h1
    cases k with
    | illegalCommand => exact h.trans h1 (h.trans (hs.enter t _) (h.legacyPath hs _))
    | _ => exact h1

theorem noteIdleR1 (h : CardRel R) (hs : SessionRel R) (a : Byte) : Keeps R (Sys2Proof.Machine.noteIdleR1 a) := by
  intro s
  simp only [Sys2Proof.Machine.noteIdleR1, update, Res.state_ok]
  split
  · exact h.refl s
  · exact hs.warn s _

theorem initBody (h : CardRel R) (hs : SessionRel R) : Keeps R Sys2Proof.Machine.initBody :=
  h.andThen (h.filler _) (h.andThen (fun s => hs.enter s _) (h.bind (h.command _ _ _) fun a =>
    h.andThen (h.noteIdleR1 hs a) (h.andThen (fun s => hs.enter s _) (h.voltageCheck hs))))

end CardRel

end

end Sys2Proof.Machine
end

