-- ==== Sys2Proof/Laws/Runs.lean ====
section
/-! SUPPORT. What a procedure does when the card's answers are known: closed forms of every procedure of the block over a
script of received bytes, composed step by step. -/

namespace Sys2Proof.Machine

/-! ## Lists of exchanges -/

@[simp] theorem replies_nil : replies [] = [] := rfl

@[simp] theorem replies_cons (b : Byte) (l : List Byte) : replies (b :: l) = .ok b :: replies l := rfl

@[simp] theorem replies_append (l m : List Byte) : replies (l ++ m) = replies l ++ replies m := List.map_append

@[simp] theorem fills_zero : fills 0 = [] := rfl

theorem fills_succ (n : Nat) : fills (n + 1) = fillByte :: fills n := rfl

@[simp] theorem fills_length (n : Nat) : (fills n).length = n := List.length_replicate

theorem fills_add (m n : Nat) : fills (m + n) = fills m ++ fills n := by
  exact List.replicate_add ..

@[simp] theorem exchanges_nil (l : List Byte) : exchanges [] l = [] := by simp [exchanges]

@[simp] theorem exchanges_cons (m b : Byte) (sent got : List Byte) :
    exchanges (m :: sent) (b :: got) = .xchg m (.ok b) :: exchanges sent got := rfl

theorem exchanges_append {s1 s2 g1 g2 : List Byte} (h : s1.length = g1.length) :
    exchanges (s1 ++ s2) (g1 ++ g2) = exchanges s1 g1 ++ exchanges s2 g2 := by
  exact List.zipWith_append h

/-! ## Closed forms -/

/-- The state after these exchange events, with the card's remaining outcomes and the datapath given. -/
def State.saw (s : State) (events : List Event) (rest : List Reply) (d : Datapath) : State :=
  { s with card := rest, log := events.reverse ++ s.log, dp := d }

@[simp] theorem State.saw_cfg (s : State) (e : List Event) (r : List Reply) (d : Datapath) : (s.saw e r d).cfg = s.cfg := rfl

@[simp] theorem State.saw_dp (s : State) (e : List Event) (r : List Reply) (d : Datapath) : (s.saw e r d).dp = d := rfl

@[simp] theorem State.saw_card (s : State) (e : List Event) (r : List Reply) (d : Datapath) : (s.saw e r d).card = r := rfl

@[simp] theorem State.saw_saw (s : State) (e e' : List Event) (r r' : List Reply) (d d' : Datapath) :
    (s.saw e r d).saw e' r' d' = s.saw (e ++ e') r' d' := by
  simp [State.saw]

theorem State.saw_nil {s : State} {r : List Reply} {d : Datapath} (hr : s.card = r)
    (hd : s.dp = d) : s.saw [] r d = s := by
  subst hr hd; rfl

/-- An outcome as the end of a procedure. -/
def outcome {α : Type} : Except ErrKind α → State → Res α
  | .ok v, s => .ok v s
  | .error k, s => .err k s

@[simp] theorem outcome_ok {α : Type} (v : α) (s : State) : outcome (.ok v) s = .ok v s := rfl

@[simp] theorem outcome_error {α : Type} (k : ErrKind) (s : State) : outcome (.error k : Except ErrKind α) s = .err k s := rfl

/-- From datapath d, with the parameters c, the procedure reads exactly the bytes got, with these events,
  and ends with this
datapath and outcome. -/
def Gives {α : Type} (c : Config) (p : Proc α) (d : Datapath) (got : List Byte) (events : List Event) (d' : Datapath)
    (o : Except ErrKind α) : Prop :=
  ∀ s rest, s.cfg = c → s.dp = d → s.card = replies got ++ rest → p s = outcome o (s.saw events rest d')

section
variable {c : Config} {d d' d'' : Datapath} {g g' : List Byte} {e e' : List Event}

theorem Gives.cast {α : Type} {p : Proc α} {o : Except ErrKind α} (h : Gives c p d g e d' o) (hg : g = g') (he : e = e')
    (hd : d' = d'') : Gives c p d g' e' d'' o := by
  subst hg he hd
  exact h

theorem gives_ret {α : Type} (v : α) : Gives c (ret v) d [] [] d (.ok v) := by
  intro s rest _ hd hc
  simp only [replies_nil, List.nil_append] at hc
  simp [ret, State.saw_nil hc hd]

theorem gives_fail {α : Type} (k : ErrKind) : Gives c (fail k : Proc α) d [] [] d (.error k) := by
  intro s rest _ hd hc
  simp only [replies_nil, List.nil_append] at hc
  simp [fail, State.saw_nil hc hd]

theorem Gives.bind {α β : Type} {p : Proc α} {f : α → Proc β} {v : α} {o : Except ErrKind β}
    (hp : Gives c p d g e d' (.ok v)) (hf : Gives c (f v) d' g' e' d'' o) :
    Gives c (p.bind f) d (g ++ g') (e ++ e') d'' o := by
  intro s rest hcfg hd hcard
  rw [replies_append, List.append_assoc] at hcard
  rw [Proc.bind_ok (hp s _ hcfg hd hcard)]
  rw [hf (s.saw e (replies g' ++ rest) d') rest (by simpa using hcfg) rfl rfl, State.saw_saw]

theorem Gives.bind_err {α β : Type} {p : Proc α} {f : α → Proc β} {k : ErrKind}
    (hp : Gives c p d g e d' (.error k)) : Gives c (p.bind f) d g e d' (.error k) := by
  intro s rest hcfg hd hcard
  exact Proc.bind_err (hp s rest hcfg hd hcard)

theorem Gives.andThen {α β : Type} {p : Proc α} {q : Proc β} {v : α} {o : Except ErrKind β}
    (hp : Gives c p d g e d' (.ok v)) (hq : Gives c q d' g' e' d'' o) :
    Gives c (p.andThen q) d (g ++ g') (e ++ e') d'' o := hp.bind hq

theorem Gives.andThen_err {α β : Type} {p : Proc α} {q : Proc β} {k : ErrKind}
    (hp : Gives c p d g e d' (.error k)) : Gives c (p.andThen q) d g e d' (.error k) := hp.bind_err

theorem gives_setReg (f : Datapath → Datapath) : Gives c (setReg f) d [] [] (f d) (.ok ()) := by
  intro s rest _ hd hc
  simp only [replies_nil, List.nil_append] at hc
  subst hc hd
  rfl

theorem Gives.withCfg {α : Type} {f : Config → Proc α} {o : Except ErrKind α} (h : Gives c (f c) d g e d' o) :
    Gives c (withCfg f) d g e d' o := by
  intro s rest hcfg
  subst hcfg
  exact h s rest rfl

theorem gives_xchg (m b : Byte) : Gives c (xchg m) d [b] [.xchg m (.ok b)] d (.ok b) := by
  intro s rest _ hd hc
  simp only [replies_cons, replies_nil, List.cons_append, List.nil_append] at hc
  subst hd
  simp [xchg, State.nextReply, State.takeReply, hc, State.record, State.saw]

theorem gives_tx (m b : Byte) : Gives c (tx m) d [b] [.xchg m (.ok b)] d (.ok ()) :=
  (gives_xchg m b).bind (gives_ret ())

theorem gives_rx (b : Byte) : Gives c rx d [b] [.xchg fillByte (.ok b)] d (.ok b) := gives_xchg fillByte b

theorem gives_txList {sent got : List Byte} (h : sent.length = got.length) :
    Gives c (txList sent) d got (exchanges sent got) d (.ok ()) := by
  induction sent generalizing got with
  | nil =>
    cases got with
    | nil => exact gives_ret ()
    | cons b bs => simp at h
  | cons m ms ih =>
    cases got with
    | nil => simp at h
    | cons b bs => exact (gives_tx m b).andThen (ih (by simpa using h))

theorem gives_filler {n : Nat} {got : List Byte} (h : got.length = n) :
    Gives c (filler n) d got (exchanges (fills n) got) d (.ok ()) :=
  gives_txList (by simp [h])

/-! ### Poll loops -/

theorem gives_pollOnce_accept {accept : Byte → Bool} {b : Byte} (budget : Option Nat) (hb : accept b = true) :
    Gives c (pollOnce budget accept) d [b] [.xchg fillByte (.ok b)] { d with poll := d.poll + 1 } (.ok (some b)) := by
  refine (gives_setReg _).andThen (g := []) (e := []) ?_
  intro s rest hcfg hd hcard
  rw [Proc.bind_ok (gives_rx b s rest hcfg hd hcard)]
  simp [hb]

theorem gives_pollOnce_reject {accept : Byte → Bool} {b : Byte} (budget : Option Nat) (hb : accept b = false)
    (hn : budget.any (fun n => decide (n ≤ d.poll + 1)) = false) :
    Gives c (pollOnce budget accept) d [b] [.xchg fillByte (.ok b)] { d with poll := d.poll + 1 } (.ok none) := by
  refine (gives_setReg _).andThen (g := []) (e := []) ?_
  intro s rest hcfg hd hcard
  rw [Proc.bind_ok (gives_rx b s rest hcfg hd hcard)]
  show (if accept b then _ else if budget.any (fun n => decide (n ≤ d.poll + 1)) then _ else _) = _
  rw [hb, hn]
  rfl

theorem gives_pollOnce_timeout {accept : Byte → Bool} {b : Byte} (budget : Option Nat) (hb : accept b = false)
    (hn : budget.any (fun n => decide (n ≤ d.poll + 1)) = true) :
    Gives c (pollOnce budget accept) d [b] [.xchg fillByte (.ok b)] { d with poll := d.poll + 1 } (.error .timeout) := by
  refine (gives_setReg _).andThen (g := []) (e := []) ?_
  intro s rest hcfg hd hcard
  rw [Proc.bind_ok (gives_rx b s rest hcfg hd hcard)]
  show (if accept b then _ else if budget.any (fun n => decide (n ≤ d.poll + 1)) then _ else _) = _
  rw [hb, hn]
  rfl

/-- The poll accepts the byte after the bytes of wait, none of which it accepts. -/
theorem gives_pollLoop {accept : Byte → Bool} {b : Byte} {wait : List Byte} {n left : Nat}
    (hw : wait.all (fun x => !accept x) = true) (hb : accept b = true) (hl : wait.length < left)
    (hp : d.poll + left = n) :
    Gives c (pollLoop n accept left) d (wait ++ [b]) (exchanges (fills (wait.length + 1)) (wait ++ [b]))
      { d with poll := d.poll + (wait.length + 1) } (.ok b) := by
  induction wait generalizing d left with
  | nil =>
    cases left with
    | zero => simp at hl
    | succ left => exact (gives_pollOnce_accept (some n) hb).bind (gives_ret b)
  | cons x xs ih =>
    cases left with
    | zero => simp at hl
    | succ left =>
      simp only [List.all_cons, Bool.and_eq_true, Bool.not_eq_true'] at hw
      have hl' : xs.length < left := by simpa using hl
      have hn : (some n).any (fun n => decide (n ≤ d.poll + 1)) = false := by simp; omega
      have := ih (d := { d with poll := d.poll + 1 }) hw.2 hl' (by simp; omega)
      refine Gives.cast ((gives_pollOnce_reject (c := c) (some n) hw.1 hn).bind this) rfl rfl ?_
      simp only [List.length_cons]
      congr 1
      omega

theorem gives_pollLoop_timeout {accept : Byte → Bool} {wait : List Byte} {n : Nat}
    (hw : wait.all (fun x => !accept x) = true) (hp : d.poll + wait.length = n) :
    Gives c (pollLoop n accept wait.length) d wait (exchanges (fills wait.length) wait) { d with poll := n }
      (.error .timeout) := by
  induction wait generalizing d with
  | nil => subst hp; exact gives_fail _
  | cons x xs ih =>
    simp only [List.all_cons, Bool.and_eq_true, Bool.not_eq_true'] at hw
    simp only [List.length_cons] at hp
    cases xs with
    | nil =>
      subst hp
      exact (gives_pollOnce_timeout (some _) hw.1 (by simp)).bind_err
    | cons y ys =>
      have hn : (some n).any (fun n => decide (n ≤ d.poll + 1)) = false := by simp at hp ⊢; omega
      have := ih (d := { d with poll := d.poll + 1 }) hw.2 (by simp at hp ⊢; omega)
      exact (gives_pollOnce_reject (c := c) (some n) hw.1 hn).bind this

theorem gives_poll {accept : Byte → Bool} {b : Byte} {wait : List Byte} {n : Nat}
    (hw : wait.all (fun x => !accept x) = true) (hb : accept b = true) (hl : wait.length < n) :
    Gives c (poll n accept) d (wait ++ [b]) (exchanges (fills (wait.length + 1)) (wait ++ [b]))
      { d with poll := wait.length + 1 } (.ok b) := by
  refine Gives.cast ((gives_setReg (c := c) (d := d) fun d => { d with poll := 0 }).andThen
    (gives_pollLoop (n := n) (left := n) hw hb hl (by simp))) rfl rfl ?_
  simp

theorem gives_poll_timeout {accept : Byte → Bool} {wait : List Byte} {n : Nat}
    (hw : wait.all (fun x => !accept x) = true) (hl : wait.length = n) :
    Gives c (poll n accept) d wait (exchanges (fills n) wait) { d with poll := n } (.error .timeout) := by
  subst hl
  exact (gives_setReg (c := c) (d := d) fun d => { d with poll := 0 }).andThen
    (gives_pollLoop_timeout (n := wait.length) hw (by simp))

/-! ### Response reader -/

theorem gives_waitR1 {b : Byte} {wait : List Byte} (hw : wait.all (fun x => !r1Valid x) = true) (hb : r1Valid b = true)
    (hl : wait.length < c.nR1) :
    Gives c waitR1 d (wait ++ [b]) (exchanges (fills (wait.length + 1)) (wait ++ [b]))
      { d with poll := wait.length + 1, r1 := b } (.ok b) := by
  refine Gives.withCfg ?_
  exact Gives.cast ((gives_poll hw hb hl).bind ((gives_setReg _).andThen (gives_ret b))) (by simp) (by simp) rfl

theorem gives_waitR1_timeout {wait : List Byte} (hw : wait.all (fun x => !r1Valid x) = true)
    (hl : wait.length = c.nR1) :
    Gives c waitR1 d wait (exchanges (fills c.nR1) wait) { d with poll := c.nR1 } (.error .timeout) :=
  Gives.withCfg (gives_poll_timeout hw hl).bind_err

theorem gives_waitLongR1 {b : Byte} {wait : List Byte} (hw : wait.all (fun x => !r1Valid x) = true)
    (hb : r1Valid b = true) (hl : wait.length < c.nR1) (hi : r1IllegalCommand b = false) :
    Gives c waitLongR1 d (wait ++ [b]) (exchanges (fills (wait.length + 1)) (wait ++ [b]))
      { d with poll := wait.length + 1, r1 := b } (.ok b) := by
  refine Gives.cast ((gives_waitR1 hw hb hl).bind (g' := []) (e' := []) ?_) (by simp) (by simp) rfl
  rw [hi]
  exact gives_ret b

theorem gives_waitLongR1_illegal {b : Byte} {wait : List Byte} (hw : wait.all (fun x => !r1Valid x) = true)
    (hb : r1Valid b = true) (hl : wait.length < c.nR1) (hi : r1IllegalCommand b = true) :
    Gives c waitLongR1 d (wait ++ [b]) (exchanges (fills (wait.length + 1)) (wait ++ [b]))
      { d with poll := wait.length + 1, r1 := b } (.error .illegalCommand) := by
  refine Gives.cast ((gives_waitR1 hw hb hl).bind (g' := []) (e' := []) ?_) (by simp) (by simp) rfl
  rw [hi]
  exact gives_fail _

theorem gives_waitLongR1_timeout {wait : List Byte} (hw : wait.all (fun x => !r1Valid x) = true)
    (hl : wait.length = c.nR1) :
    Gives c waitLongR1 d wait (exchanges (fills c.nR1) wait) { d with poll := c.nR1 } (.error .timeout) :=
  (gives_waitR1_timeout hw hl).bind_err

theorem gives_waitR2 {b x : Byte} {wait : List Byte} (hw : wait.all (fun x => !r1Valid x) = true)
    (hb : r1Valid b = true) (hl : wait.length < c.nR1) (hi : r1IllegalCommand b = false) :
    Gives c waitR2 d (wait ++ [b, x]) (exchanges (fills (wait.length + 1 + 1)) (wait ++ [b, x]))
      { d with poll := wait.length + 1, r1 := b, r2b := x } (.ok (b ++ x)) := by
  refine Gives.cast ((gives_waitLongR1 hw hb hl hi).bind ((gives_rx x).bind ((gives_setReg _).andThen (gives_ret _))))
    (by simp) ?_ rfl
  have h : wait ++ [b, x] = (wait ++ [b]) ++ [x] := by simp
  rw [h, fills_add (wait.length + 1) 1, exchanges_append (by simp)]
  rfl

/-- R54: the bytes of a word, most significant first, compose to the word. -/
theorem beWord_wordBytes (v : Word) : beWord (v.extractLsb' 24 8) (v.extractLsb' 16 8) (v.extractLsb' 8 8)
    (v.extractLsb' 0 8) = v := by
  unfold beWord
  ext i hi
  simp only [BitVec.getElem_append, BitVec.getElem_extractLsb']
  split
  · simp [BitVec.getLsbD_eq_getElem hi]
  · split
    · simp [show 8 + (i - 8) = i by omega, BitVec.getLsbD_eq_getElem hi]
    · split
      · simp [show 16 + (i - 8 - 8) = i by omega, BitVec.getLsbD_eq_getElem hi]
      · simp [show 24 + (i - 8 - 8 - 8) = i by omega, BitVec.getLsbD_eq_getElem hi]

theorem gives_readReg32_bytes (b0 b1 b2 b3 : Byte) :
    Gives c readReg32 d [b0, b1, b2, b3] (exchanges (fills 4) [b0, b1, b2, b3])
      { d with reg32 := beWord b0 b1 b2 b3 } (.ok (beWord b0 b1 b2 b3)) :=
  (gives_rx b0).bind <| (gives_rx b1).bind <| (gives_rx b2).bind <| (gives_rx b3).bind <|
    (gives_setReg _).andThen (gives_ret _)

theorem gives_readReg32 (v : Word) :
    Gives c readReg32 d (wordBytes v) (exchanges (fills 4) (wordBytes v)) { d with reg32 := v } (.ok v) := by
  have h := gives_readReg32_bytes (c := c) (d := d) (v.extractLsb' 24 8) (v.extractLsb' 16 8) (v.extractLsb' 8 8)
    (v.extractLsb' 0 8)
  rw [beWord_wordBytes] at h
  exact h

theorem gives_waitR3 {b : Byte} {v : Word} {wait : List Byte} (hw : wait.all (fun x => !r1Valid x) = true)
    (hb : r1Valid b = true) (hl : wait.length < c.nR1) (hi : r1IllegalCommand b = false) :
    Gives c waitR3 d (wait ++ b :: wordBytes v) (exchanges (fills (wait.length + 1 + 4)) (wait ++ b :: wordBytes v))
      { d with poll := wait.length + 1, r1 := b, reg32 := v } (.ok (b, v)) := by
  have h : wait ++ b :: wordBytes v = (wait ++ [b]) ++ wordBytes v := by simp
  refine Gives.cast ((gives_waitLongR1 hw hb hl hi).bind ((gives_readReg32 v).bind (gives_ret _))) (by simp) ?_ rfl
  rw [h, fills_add (wait.length + 1) 4, exchanges_append (by simp)]
  simp

/-! ### Transactions -/

theorem gives_sendFrame (idx : BitVec 6) (arg : Word) (during : Vector Byte 6) :
    Gives c (sendFrame idx arg) d during.toList (exchanges (buildFrame idx arg).toList during.toList) (d.framed idx arg)
      (.ok ()) := by
  have h := ((gives_setReg (c := c) (d := d) fun d =>
    { d with idx := idx, arg := arg, crc7 := crc7Run (frameHead idx arg), frame := buildFrame idx arg }).andThen
      (gives_ret (buildFrame idx arg))).bind (f := fun f => txList f.toList)
        (gives_txList (got := during.toList) (by simp))
  exact h

/-- As Gives, for a procedure that leaves chip-select deasserted: it consists of whole transactions. -/
def GivesTxn {α : Type} (c : Config) (p : Proc α) (d : Datapath) (got : List Byte) (events : List Event) (d' : Datapath)
    (o : Except ErrKind α) : Prop :=
  ∀ s rest, s.cfg = c → s.dp = d → s.card = replies got ++ rest →
    p s = outcome o ((s.setCs false).saw events rest d')

theorem GivesTxn.cast {α : Type} {p : Proc α} {o : Except ErrKind α} (h : GivesTxn c p d g e d' o) (hg : g = g')
    (he : e = e') (hd : d' = d'') : GivesTxn c p d g' e' d'' o := by
  subst hg he hd
  exact h

@[simp] theorem State.saw_setCs (s : State) (ev : List Event) (r : List Reply) (x : Datapath) (b : Bool) :
    (s.saw ev r x).setCs b = (s.setCs b).saw ev r x := rfl

@[simp] theorem State.setCs_setCs (s : State) (a b : Bool) : (s.setCs a).setCs b = s.setCs b := rfl

theorem GivesTxn.bind {α β : Type} {p : Proc α} {f : α → Proc β} {v : α} {o : Except ErrKind β}
    (hp : GivesTxn c p d g e d' (.ok v)) (hf : GivesTxn c (f v) d' g' e' d'' o) :
    GivesTxn c (p.bind f) d (g ++ g') (e ++ e') d'' o := by
  intro s rest hcfg hd hcard
  rw [replies_append, List.append_assoc] at hcard
  rw [Proc.bind_ok (hp s _ hcfg hd hcard)]
  rw [hf _ rest (by simpa using hcfg) rfl rfl]
  simp

theorem GivesTxn.bind_err {α β : Type} {p : Proc α} {f : α → Proc β} {k : ErrKind}
    (hp : GivesTxn c p d g e d' (.error k)) : GivesTxn c (p.bind f) d g e d' (.error k) := by
  intro s rest hcfg hd hcard
  exact Proc.bind_err (hp s rest hcfg hd hcard)

/-- Registers may be written after a transaction. -/
theorem GivesTxn.bindGives {α β : Type} {p : Proc α} {f : α → Proc β} {v : α} {o : Except ErrKind β}
    (hp : GivesTxn c p d g e d' (.ok v)) (hf : Gives c (f v) d' g' e' d'' o) :
    GivesTxn c (p.bind f) d (g ++ g') (e ++ e') d'' o := by
  intro s rest hcfg hd hcard
  rw [replies_append, List.append_assoc] at hcard
  rw [Proc.bind_ok (hp s _ hcfg hd hcard)]
  rw [hf _ rest (by simpa using hcfg) rfl rfl]
  simp

/-- Registers may be written before a transaction. -/
theorem Gives.bindTxn {α β : Type} {p : Proc α} {f : α → Proc β} {v : α} {o : Except ErrKind β}
    (hp : Gives c p d g e d' (.ok v)) (hf : GivesTxn c (f v) d' g' e' d'' o) :
    GivesTxn c (p.bind f) d (g ++ g') (e ++ e') d'' o := by
  intro s rest hcfg hd hcard
  rw [replies_append, List.append_assoc] at hcard
  rw [Proc.bind_ok (hp s _ hcfg hd hcard)]
  rw [hf _ rest (by simpa using hcfg) rfl rfl]
  simp

theorem GivesTxn.withCfg {α : Type} {f : Config → Proc α} {o : Except ErrKind α} (h : GivesTxn c (f c) d g e d' o) :
    GivesTxn c (Sys2Proof.Machine.withCfg f) d g e d' o := by
  intro s rest hcfg
  subst hcfg
  exact h s rest rfl

/-- R109: the exit of a transaction whose procedure did not meet a transport failure: filler and deassert. -/
theorem gives_txn {α : Type} {p : Proc α} {o : Except ErrKind α} (hp : Gives c p d g e d' o)
    (ho : o ≠ .error .ioError) (b : Byte) :
    GivesTxn c (fun s => txnExit (p s.csAssert)) d (g ++ [b])
      (.csAssert :: (e ++ [.xchg fillByte (.ok b), .csDeassert])) d' o := by
  intro s rest hcfg hd hcard
  rw [replies_append, List.append_assoc] at hcard
  have h1 := hp s.csAssert _ hcfg hd hcard
  have h2 := gives_filler (c := c) (d := d') (n := 1) (got := [b]) rfl
    (s.csAssert.saw e (replies [b] ++ rest) d') rest hcfg rfl rfl
  have h3 : ((s.csAssert.saw e (replies [b] ++ rest) d').saw (exchanges (fills 1) [b]) rest d').csDeassert =
      (s.setCs false).saw (.csAssert :: (e ++ [.xchg fillByte (.ok b), .csDeassert])) rest d' := by
    simp [State.saw, State.csDeassert, State.csAssert, State.record, State.setCs, fills, exchanges]
  show txnExit (p s.csAssert) = _
  rw [h1]
  cases o with
  | ok v => simp only [outcome_ok, txnExit, h2, h3]
  | error k =>
    cases k with
    | ioError => exact absurd rfl ho
    | _ => simp only [outcome_error, txnExit, h2, outcome_ok, Res.state_ok, h3]

/-- The events of a transaction, from those of the frame and of what follows it. -/
theorem answer_events_eq (a : Answer) (frame : List Byte) (hf : frame.length = 6) (l : List Byte)
    (hl : l = a.wait ++ a.r1 :: a.more) :
    .csAssert :: ((exchanges frame a.during.toList ++ exchanges (fills l.length) l) ++
      [.xchg fillByte (.ok a.filler), .csDeassert]) = a.events frame := by
  subst hl
  have h1 : a.bytes = a.during.toList ++ ((a.wait ++ a.r1 :: a.more) ++ [a.filler]) := by
    simp [Answer.bytes]
  have h2 : a.wait.length + 1 + a.more.length + 1 = (a.wait ++ a.r1 :: a.more).length + 1 := by
    simp only [List.length_append, List.length_cons]; omega
  unfold Answer.events
  rw [h1, h2, fills_add _ 1, exchanges_append (by simp [hf]), exchanges_append (by simp)]
  simp [fills, exchanges]

theorem answer_bytes_eq (a : Answer) (l : List Byte) (hl : l = a.wait ++ a.r1 :: a.more) :
    a.during.toList ++ l ++ [a.filler] = a.bytes := by
  subst hl
  simp [Answer.bytes]

theorem Answer.ok_iff {a : Answer} : a.ok c = true ↔
    a.wait.all (fun b => !r1Valid b) = true ∧ a.wait.length < c.nR1 ∧ r1Valid a.r1 = true := by
  simp [Answer.ok, Bool.and_eq_true]

theorem Silence.ok_iff {a : Silence} : a.ok c = true ↔
    a.wait.all (fun b => !r1Valid b) = true ∧ a.wait.length = c.nR1 := by
  simp [Silence.ok, Bool.and_eq_true]

/-- A transaction over an answer, from what follows its frame. -/
theorem gives_txn_answer {α : Type} {p : Proc α} {o : Except ErrKind α} (idx : BitVec 6) (arg : Word) (a : Answer)
    (hp : Gives c p (d.framed idx arg) (a.wait ++ a.r1 :: a.more)
      (exchanges (fills (a.wait ++ a.r1 :: a.more).length) (a.wait ++ a.r1 :: a.more)) d' o)
    (ho : o ≠ .error .ioError) :
    GivesTxn c (fun s => txnExit ((sendFrame idx arg).andThen p s.csAssert)) d a.bytes
      (a.events (buildFrame idx arg).toList) d' o :=
  GivesTxn.cast (gives_txn ((gives_sendFrame idx arg a.during).andThen hp) ho a.filler)
    (answer_bytes_eq a _ rfl) (answer_events_eq a _ (by simp) _ rfl) rfl

/-- A transaction that gets no R1. -/
theorem gives_txn_silence {α : Type} {p : Proc α} (idx : BitVec 6) (arg : Word) (x : Silence) (hx : x.ok c = true)
    (hp : Gives c p (d.framed idx arg) x.wait (exchanges (fills c.nR1) x.wait)
      { d.framed idx arg with poll := c.nR1 } (.error .timeout)) :
    GivesTxn c (fun s => txnExit ((sendFrame idx arg).andThen p s.csAssert)) d x.bytes
      (x.events (buildFrame idx arg).toList) { d.framed idx arg with poll := c.nR1 } (.error .timeout) := by
  have hl := (Silence.ok_iff.1 hx).2
  refine GivesTxn.cast (gives_txn ((gives_sendFrame idx arg x.during).andThen hp) (by simp) x.filler)
    (by simp [Silence.bytes]) ?_ rfl
  unfold Silence.events Silence.bytes
  rw [hl, fills_add _ 1, exchanges_append (by simp), exchanges_append (by simp [hl])]
  simp [fills, exchanges]

theorem gives_command_r1 (idx : BitVec 6) (arg : Word) (a : Answer) (ha : a.ok c = true) (hm : a.more = []) :
    GivesTxn c (command idx arg .r1) d a.bytes (a.events (buildFrame idx arg).toList)
      { d.framed idx arg with r1 := a.r1, poll := a.wait.length + 1 } (.ok a.r1) := by
  obtain ⟨hw, hl, hv⟩ := Answer.ok_iff.1 ha
  refine gives_txn_answer idx arg a ?_ (by simp)
  rw [hm]
  exact Gives.cast (gives_waitR1 hw hv hl) rfl (by simp) rfl

theorem gives_command_silence (idx : BitVec 6) (arg : Word) (kind : RespKind) (x : Silence) (hx : x.ok c = true) :
    GivesTxn c (command idx arg kind) d x.bytes (x.events (buildFrame idx arg).toList)
      { d.framed idx arg with poll := c.nR1 } (.error .timeout) := by
  obtain ⟨hw, hl⟩ := Silence.ok_iff.1 hx
  cases kind with
  | r1 => exact gives_txn_silence idx arg x hx (gives_waitR1_timeout hw hl)
  | r2 => exact gives_txn_silence idx arg x hx (gives_waitLongR1_timeout hw hl).bind_err
  | r3 => exact gives_txn_silence idx arg x hx (gives_waitLongR1_timeout hw hl).bind_err
  | r7 => exact gives_txn_silence idx arg x hx (gives_waitLongR1_timeout hw hl).bind_err

theorem gives_command_r2 (idx : BitVec 6) (arg : Word) (a : Answer) (b : Byte) (ha : a.ok c = true)
    (hi : r1IllegalCommand a.r1 = false) (hm : a.more = [b]) :
    GivesTxn c (command idx arg .r2) d a.bytes (a.events (buildFrame idx arg).toList)
      { d.framed idx arg with r1 := a.r1, poll := a.wait.length + 1, r2b := b } (.ok (a.r1 ++ b)) := by
  obtain ⟨hw, hl, hv⟩ := Answer.ok_iff.1 ha
  refine gives_txn_answer idx arg a ?_ (by simp)
  rw [hm]
  exact Gives.cast (gives_waitR2 hw hv hl hi) rfl (by simp) rfl

theorem gives_command_reg (idx : BitVec 6) (arg : Word) (a : Answer) (v : Word) (ha : a.ok c = true)
    (hi : r1IllegalCommand a.r1 = false) (hm : a.more = wordBytes v) :
    GivesTxn c (command idx arg .r3) d a.bytes (a.events (buildFrame idx arg).toList)
      { d.framed idx arg with r1 := a.r1, poll := a.wait.length + 1, reg32 := v } (.ok (a.r1, v)) := by
  obtain ⟨hw, hl, hv⟩ := Answer.ok_iff.1 ha
  refine gives_txn_answer idx arg a ?_ (by simp)
  rw [hm]
  exact Gives.cast (gives_waitR3 hw hv hl hi) rfl (by simp [wordBytes]) rfl

theorem gives_command_illegal (idx : BitVec 6) (arg : Word) (kind : RespKind) (hk : kind ≠ .r1) (a : Answer)
    (ha : a.ok c = true) (hi : r1IllegalCommand a.r1 = true) (hm : a.more = []) :
    GivesTxn c (command idx arg kind) d a.bytes (a.events (buildFrame idx arg).toList)
      { d.framed idx arg with r1 := a.r1, poll := a.wait.length + 1 } (.error .illegalCommand) := by
  obtain ⟨hw, hl, hv⟩ := Answer.ok_iff.1 ha
  have h := gives_waitLongR1_illegal (c := c) (d := d.framed idx arg) hw hv hl hi
  cases kind with
  | r1 => exact absurd rfl hk
  | r2 => refine gives_txn_answer idx arg a ?_ (by simp); rw [hm]; exact Gives.cast h.bind_err rfl (by simp) rfl
  | r3 => refine gives_txn_answer idx arg a ?_ (by simp); rw [hm]; exact Gives.cast h.bind_err rfl (by simp) rfl
  | r7 => refine gives_txn_answer idx arg a ?_ (by simp); rw [hm]; exact Gives.cast h.bind_err rfl (by simp) rfl

end

end Sys2Proof.Machine
end

