-- ==== Sys2Proof/Laws/Loops.lean ====
section
/-! SUPPORT. Closed forms of the card session machine over what a card does: application commands, attempts, polling loops
(spec/43_card_session.md R180), and the paths of the initialization sequence. -/

namespace Sys2Proof.Machine

section
variable {c : Config} {d d' d'' : Datapath}

/-! ## Application commands -/

theorem appFrame_eq : (buildFrame 55 0).toList = appFrame := by decide +kernel

theorem loopFrame_acmdHcs : (buildFrame 41 (acmd41Arg true)).toList = loopFrame .acmdHcs := by decide +kernel

theorem loopFrame_acmd : (buildFrame 41 (acmd41Arg false)).toList = loopFrame .acmd := by decide +kernel

theorem loopFrame_cmd1 : (buildFrame 1 0).toList = loopFrame .cmd1 := by decide +kernel

theorem Answer.plain_iff {a : Answer} : a.plain c = true ↔ a.ok c = true ∧ a.more = [] := by
  simp [Answer.plain, Bool.and_eq_true]

theorem Answer.appOk_iff {a : Answer} : a.appOk c = true ↔ a.ok c = true ∧ a.more = [] ∧ r1IdleOrReady a.r1 = true := by
  simp [Answer.appOk, Answer.plain_iff, Bool.and_eq_true, and_assoc]

theorem gives_sendAcmd (n : BitVec 6) (arg : Word) (app a : Answer) (happ : app.appOk c = true) (ha : a.plain c = true) :
    GivesTxn c (sendAcmd n arg) d (app.bytes ++ a.bytes)
      (app.events (buildFrame 55 0).toList ++ a.events (buildFrame n arg).toList)
      { (d.framed 55 0).framed n arg with r1 := a.r1, poll := a.wait.length + 1 } (.ok a.r1) := by
  obtain ⟨ho, hm, hi⟩ := Answer.appOk_iff.1 happ
  obtain ⟨ho', hm'⟩ := Answer.plain_iff.1 ha
  refine (gives_command_r1 55 0 app ho hm).bind ?_
  rw [hi]
  exact GivesTxn.cast (gives_command_r1 n arg a ho' hm') rfl rfl (by simp only [Datapath.framed])

theorem gives_sendAcmd_rejected (n : BitVec 6) (arg : Word) (app : Answer) (happ : app.plain c = true)
    (hi : r1IdleOrReady app.r1 = false) :
    GivesTxn c (sendAcmd n arg) d app.bytes (app.events (buildFrame 55 0).toList)
      { d.framed 55 0 with r1 := app.r1, poll := app.wait.length + 1 } (.error .appCmdRejected) := by
  obtain ⟨ho, hm⟩ := Answer.plain_iff.1 happ
  refine GivesTxn.cast ((gives_command_r1 55 0 app ho hm).bindGives (g' := []) (e' := []) ?_) (by simp) (by simp) rfl
  rw [hi]
  exact gives_fail _

theorem gives_sendAcmd_noApp (n : BitVec 6) (arg : Word) (x : Silence) (hx : x.ok c = true) :
    GivesTxn c (sendAcmd n arg) d x.bytes (x.events (buildFrame 55 0).toList) { d.framed 55 0 with poll := c.nR1 }
      (.error .timeout) :=
  (gives_command_silence 55 0 .r1 x hx).bind_err

theorem gives_sendAcmd_noBody (n : BitVec 6) (arg : Word) (app : Answer) (x : Silence) (happ : app.appOk c = true)
    (hx : x.ok c = true) :
    GivesTxn c (sendAcmd n arg) d (app.bytes ++ x.bytes)
      (app.events (buildFrame 55 0).toList ++ x.events (buildFrame n arg).toList)
      { (d.framed 55 0).framed n arg with r1 := app.r1, poll := c.nR1 } (.error .timeout) := by
  obtain ⟨ho, hm, hi⟩ := Answer.appOk_iff.1 happ
  refine (gives_command_r1 55 0 app ho hm).bind ?_
  rw [hi]
  exact GivesTxn.cast (gives_command_silence n arg .r1 x hx) rfl rfl (by simp only [Datapath.framed])

/-! ## Attempts -/

/-- R180: what an attempt comes to. -/
def CardTry.attempt : CardTry → Attempt
  | .status a => .status a.r1
  | .quiet _ => .noAnswer
  | .body _ a => .status a.r1
  | .rejected app => .rejected app.r1
  | .noApp _ => .noAnswer
  | .noBody _ _ => .noAnswer

/-- An attempt over what the card does: the outcome of R180's table. -/
theorem gives_attempt (w : LoopCommand) (t : CardTry) (ht : t.ok c w = true) :
    ∃ d', GivesTxn c (attempt w) d t.bytes (t.events w) d' (.ok t.attempt) := by
  have statusOf : ∀ {g : List Byte} {e : List Event} {x : Datapath} {r : Byte},
      GivesTxn c (loopCommand w) d g e x (.ok r) →
        GivesTxn c (Sys2Proof.Machine.attempt w) d g e x (.ok (.status r)) := by
    intro g e x r h s rest h1 h2 h3
    simp only [Sys2Proof.Machine.attempt, h s rest h1 h2 h3, outcome_ok]
  have noAnswerOf : ∀ {g : List Byte} {e : List Event} {x : Datapath},
      GivesTxn c (loopCommand w) d g e x (.error .timeout) →
        GivesTxn c (Sys2Proof.Machine.attempt w) d g e x (.ok .noAnswer) := by
    intro g e x h s rest h1 h2 h3
    simp only [Sys2Proof.Machine.attempt, h s rest h1 h2 h3, outcome_ok, outcome_error]
  have rejectedOf : ∀ {g : List Byte} {e : List Event} {x : Datapath},
      GivesTxn c (loopCommand w) d g e x (.error .appCmdRejected) →
        GivesTxn c (Sys2Proof.Machine.attempt w) d g e x (.ok (.rejected x.r1)) := by
    intro g e x h s rest h1 h2 h3
    simp only [Sys2Proof.Machine.attempt, h s rest h1 h2 h3, outcome_ok, outcome_error, State.saw_dp]
  cases w with
  | cmd1 =>
    cases t with
    | status a =>
      obtain ⟨ho, hm⟩ := Answer.plain_iff.1 (by simpa [CardTry.ok] using ht)
      have h := gives_command_r1 (d := d) 1 0 a ho hm
      rw [loopFrame_cmd1] at h
      exact ⟨_, statusOf h⟩
    | quiet x =>
      have h := gives_command_silence (c := c) (d := d) 1 0 .r1 x (by simpa [CardTry.ok] using ht)
      rw [loopFrame_cmd1] at h
      exact ⟨_, noAnswerOf h⟩
    | body app a => simp [CardTry.ok] at ht
    | rejected app => simp [CardTry.ok] at ht
    | noApp x => simp [CardTry.ok] at ht
    | noBody app x => simp [CardTry.ok] at ht
  | acmd =>
    cases t with
    | status a => simp [CardTry.ok] at ht
    | quiet x => simp [CardTry.ok] at ht
    | body app a =>
      have ht : app.appOk c = true ∧ a.plain c = true := by simpa [CardTry.ok] using ht
      have h := gives_sendAcmd (d := d) 41 (acmd41Arg false) app a ht.1 ht.2
      rw [loopFrame_acmd, appFrame_eq] at h
      exact ⟨_, statusOf h⟩
    | rejected app =>
      have ht : app.plain c = true ∧ r1IdleOrReady app.r1 = false := by simpa [CardTry.ok] using ht
      have h := gives_sendAcmd_rejected (d := d) 41 (acmd41Arg false) app ht.1 ht.2
      rw [appFrame_eq] at h
      exact ⟨_, rejectedOf h⟩
    | noApp x =>
      have h := gives_sendAcmd_noApp (c := c) (d := d) 41 (acmd41Arg false) x (by simpa [CardTry.ok] using ht)
      rw [appFrame_eq] at h
      exact ⟨_, noAnswerOf h⟩
    | noBody app x =>
      have ht : app.appOk c = true ∧ x.ok c = true := by simpa [CardTry.ok] using ht
      have h := gives_sendAcmd_noBody (d := d) 41 (acmd41Arg false) app x ht.1 ht.2
      rw [loopFrame_acmd, appFrame_eq] at h
      exact ⟨_, noAnswerOf h⟩
  | acmdHcs =>
    cases t with
    | status a => simp [CardTry.ok] at ht
    | quiet x => simp [CardTry.ok] at ht
    | body app a =>
      have ht : app.appOk c = true ∧ a.plain c = true := by simpa [CardTry.ok] using ht
      have h := gives_sendAcmd (d := d) 41 (acmd41Arg true) app a ht.1 ht.2
      rw [loopFrame_acmdHcs, appFrame_eq] at h
      exact ⟨_, statusOf h⟩
    | rejected app =>
      have ht : app.plain c = true ∧ r1IdleOrReady app.r1 = false := by simpa [CardTry.ok] using ht
      have h := gives_sendAcmd_rejected (d := d) 41 (acmd41Arg true) app ht.1 ht.2
      rw [appFrame_eq] at h
      exact ⟨_, rejectedOf h⟩
    | noApp x =>
      have h := gives_sendAcmd_noApp (c := c) (d := d) 41 (acmd41Arg true) x (by simpa [CardTry.ok] using ht)
      rw [appFrame_eq] at h
      exact ⟨_, noAnswerOf h⟩
    | noBody app x =>
      have ht : app.appOk c = true ∧ x.ok c = true := by simpa [CardTry.ok] using ht
      have h := gives_sendAcmd_noBody (d := d) 41 (acmd41Arg true) app x ht.1 ht.2
      rw [loopFrame_acmdHcs, appFrame_eq] at h
      exact ⟨_, noAnswerOf h⟩

/-- R180's table: how an attempt ends the loop, if it does. -/
theorem loopVerdict_attempt (w : LoopCommand) (t : CardTry) (stop : Bool) (ht : t.ok c w = true) :
    loopVerdict stop t.attempt =
      if t.ready then some .ready else if t.illegal && stop then some .illegal else none := by
  cases t with
  | status a => simp [CardTry.attempt, loopVerdict, CardTry.ready, CardTry.illegal, CardTry.lastR1, r1Ready]
  | quiet x => simp [CardTry.attempt, loopVerdict, CardTry.ready, CardTry.illegal, CardTry.lastR1]
  | body app a => simp [CardTry.attempt, loopVerdict, CardTry.ready, CardTry.illegal, CardTry.lastR1, r1Ready]
  | rejected app => simp [CardTry.attempt, loopVerdict, CardTry.ready, CardTry.illegal, CardTry.lastR1]
  | noApp x => simp [CardTry.attempt, loopVerdict, CardTry.ready, CardTry.illegal, CardTry.lastR1]
  | noBody app x => simp [CardTry.attempt, loopVerdict, CardTry.ready, CardTry.illegal, CardTry.lastR1]

/-! ## Polling loops -/

/-- One iteration: ITER is written, then the attempt is made. -/
theorem gives_iteration (w : LoopCommand) (t : CardTry) (ht : t.ok c w = true) (n left : Nat) :
    ∃ d', GivesTxn c ((setReg fun d => { d with iter := n - left }).andThen (attempt w)) d t.bytes (t.events w) d'
      (.ok t.attempt) := by
  obtain ⟨d', h⟩ := gives_attempt (d := { d with iter := n - left }) w t ht
  exact ⟨d', (gives_setReg _).bindTxn h⟩

theorem gives_delay (n : Nat) : Gives c (delayMs n) d [] [.delayMs n] d (.ok ()) := by
  intro s rest _ hd hc
  simp only [replies_nil, List.nil_append] at hc
  subst hc hd
  rfl

theorem Proc.bind_assoc {α β γ : Type} (p : Proc α) (f : α → Proc β) (g : β → Proc γ) :
    (p.bind f).bind g = p.bind fun x => (f x).bind g := by
  funext s
  simp only [Proc.bind]
  cases p s <;> rfl

theorem Proc.andThen_bind {α β γ : Type} (p : Proc α) (q : Proc β) (g : β → Proc γ) :
    p.andThen (q.bind g) = (p.andThen q).bind g := (Proc.bind_assoc p (fun _ => q) g).symm

/-- A loop whose first attempts do not end it and whose last attempt ends it with e. -/
theorem gives_retryFrom (w : LoopCommand) (n : Nat) (stop : Bool) (first : List CardTry) (last : CardTry) (e : LoopEnd)
    (hfirst : ∀ t ∈ first, t.ok c w = true ∧ loopVerdict stop t.attempt = none) (hlast : last.ok c w = true)
    (he : loopVerdict stop last.attempt = some e) (left : Nat) (hl : first.length < left) :
    ∃ d', GivesTxn c (retryFrom w n stop left) d (triesBytes (first ++ [last])) (triesEvents w (first ++ [last])) d'
      (.ok e) := by
  induction first generalizing d left with
  | nil =>
    cases left with
    | zero => simp at hl
    | succ left =>
      obtain ⟨d1, h⟩ := gives_iteration (d := d) w last hlast n left
      refine ⟨d1, ?_⟩
      rw [retryFrom, Proc.andThen_bind]
      refine GivesTxn.cast (h.bindGives (g' := []) (e' := []) ?_) (by simp [triesBytes]) (by simp [triesEvents]) rfl
      simp only [he]
      exact gives_ret e
  | cons t rest ih =>
    cases left with
    | zero => simp at hl
    | succ left =>
      have hr : rest.length < left := by simpa using hl
      have ht := hfirst t (List.mem_cons_self ..)
      obtain ⟨d1, h⟩ := gives_iteration (d := d) w t ht.1 n left
      obtain ⟨d2, h2⟩ := ih (d := d1) (fun u hu => hfirst u (List.mem_cons_of_mem _ hu)) left hr
      refine ⟨d2, ?_⟩
      rw [retryFrom, Proc.andThen_bind]
      have h3 : GivesTxn c (if left = 0 then ret LoopEnd.exhausted
          else (delayMs initDelayMs).andThen (retryFrom w n stop left)) d1 ([] ++ triesBytes (rest ++ [last]))
          ([.delayMs initDelayMs] ++ triesEvents w (rest ++ [last])) d2 (.ok e) := by
        rw [if_neg (by omega)]
        exact (gives_delay initDelayMs).bindTxn h2
      refine GivesTxn.cast (h.bind (f := fun x => match loopVerdict stop x with
        | some e => ret e
        | none => if left = 0 then ret LoopEnd.exhausted
          else (delayMs initDelayMs).andThen (retryFrom w n stop left)) (by simpa only [ht.2] using h3)) ?_ ?_ rfl
      · simp [triesBytes]
      · cases rest with
        | nil => simp [triesEvents, initDelayMs]
        | cons u us => simp [triesEvents, initDelayMs]

/-- A loop whose budget runs out. -/
theorem gives_retryFrom_exhausted (w : LoopCommand) (n : Nat) (stop : Bool) (tries : List CardTry) (hne : tries ≠ [])
    (h : ∀ t ∈ tries, t.ok c w = true ∧ loopVerdict stop t.attempt = none) :
    ∃ d', GivesTxn c (retryFrom w n stop tries.length) d (triesBytes tries) (triesEvents w tries) d' (.ok .exhausted) := by
  induction tries generalizing d with
  | nil => exact absurd rfl hne
  | cons t rest ih =>
    have ht := h t (List.mem_cons_self ..)
    obtain ⟨d1, h1⟩ := gives_iteration (d := d) w t ht.1 n rest.length
    cases rest with
    | nil =>
      refine ⟨d1, ?_⟩
      simp only [List.length_cons, List.length_nil, retryFrom]
      rw [Proc.andThen_bind]
      refine GivesTxn.cast (h1.bindGives (g' := []) (e' := []) ?_) (by simp [triesBytes]) (by simp [triesEvents]) rfl
      simp only [ht.2]
      exact gives_ret _
    | cons u us =>
      obtain ⟨d2, h2⟩ := ih (d := d1) (by simp) (fun x hx => h x (List.mem_cons_of_mem _ hx))
      refine ⟨d2, ?_⟩
      rw [List.length_cons, retryFrom, Proc.andThen_bind]
      have h3 : GivesTxn c (if (u :: us).length = 0 then ret LoopEnd.exhausted
          else (delayMs initDelayMs).andThen (retryFrom w n stop (u :: us).length)) d1 ([] ++ triesBytes (u :: us))
          ([.delayMs initDelayMs] ++ triesEvents w (u :: us)) d2 (.ok .exhausted) := by
        rw [if_neg (by simp)]
        exact (gives_delay initDelayMs).bindTxn h2
      refine GivesTxn.cast (h1.bind (f := fun x => match loopVerdict stop x with
        | some e => ret e
        | none => if (u :: us).length = 0 then ret LoopEnd.exhausted
          else (delayMs initDelayMs).andThen (retryFrom w n stop (u :: us).length)) (by simpa only [ht.2] using h3)) ?_ ?_ rfl
      · simp [triesBytes]
      · simp [triesEvents, initDelayMs]

end

end Sys2Proof.Machine
end

