-- ==== Sys2Proof/Laws/Transfers.lean ====
section
/-! SUPPORT. Closed forms of the block-transfer engine over what a card does (spec/42_block_transfer.md). -/

namespace Sys2Proof.Machine

section
variable {c : Config} {d d' d'' : Datapath} {g g' : List Byte} {e e' : List Event}

/-! ## Read path -/

theorem gives_waitToken {gap : List Byte} (hg : gap.all (fun b => !isStartToken b) = true) (hl : gap.length < c.nToken) :
    Gives c waitToken d (gap ++ [0xFE]) (exchanges (fills (gap.length + 1)) (gap ++ [0xFE]))
      { d with poll := gap.length + 1 } (.ok ()) := by
  refine Gives.withCfg ?_
  exact Gives.cast ((gives_poll (b := 0xFE) hg (by decide) hl).bind (gives_ret ())) (by simp) (by simp) rfl

theorem gives_waitToken_timeout {gap : List Byte} (hg : gap.all (fun b => !isStartToken b) = true)
    (hl : gap.length = c.nToken) :
    Gives c waitToken d gap (exchanges (fills c.nToken) gap) { d with poll := c.nToken } (.error .timeout) :=
  Gives.withCfg (gives_poll_timeout hg hl).bind_err

theorem rxMany_gives (got : List Byte) (s : State) (rest : List Reply) (h : s.card = replies got ++ rest) :
    rxMany got.length s = (got, .ok () (s.saw (exchanges (fills got.length) got) rest s.dp)) := by
  induction got generalizing s with
  | nil =>
    simp only [replies_nil, List.nil_append] at h
    simp [rxMany, State.saw_nil h rfl]
  | cons b bs ih =>
    have h1 : rx s = .ok b (s.saw [.xchg fillByte (.ok b)] (replies bs ++ rest) s.dp) :=
      gives_rx (c := s.cfg) b s _ rfl rfl (by simpa using h)
    rw [List.length_cons, rxMany, h1]
    simp only [ih (s.saw [.xchg fillByte (.ok b)] (replies bs ++ rest) s.dp) rfl, State.saw_saw, State.saw_dp,
      fills_succ, exchanges_cons, List.singleton_append]

theorem overwrite_full (buf payload : Block) : overwrite buf payload.toList = payload := by
  apply Vector.toList_inj.1
  simp [overwrite]

theorem gives_recvPayload (payload : Block) :
    Gives c recvPayload d payload.toList (exchanges (fills 512) payload.toList) { d with buf := payload } (.ok ()) := by
  intro s rest _ hd hcard
  have h := rxMany_gives payload.toList s rest hcard
  rw [show payload.toList.length = blockLen by simp [blockLen]] at h
  subst hd
  unfold recvPayload
  rw [h]
  simp only [overwrite_full, outcome_ok, State.mapDp, State.saw_dp]
  rfl

theorem append_high (hi lo : Byte) : (hi ++ lo : BitVec 16).extractLsb' 8 8 = hi := by
  ext i h
  simp only [BitVec.getElem_extractLsb', BitVec.getLsbD_append]
  simp [BitVec.getLsbD_eq_getElem h]

theorem append_low (hi lo : Byte) : (hi ++ lo : BitVec 16).extractLsb' 0 8 = lo := by
  ext i h
  simp only [BitVec.getElem_extractLsb', BitVec.getLsbD_append]
  simp [h]

theorem extract_append (x : BitVec 16) : (x.extractLsb' 8 8 ++ x.extractLsb' 0 8 : BitVec 16) = x := by
  ext i h
  simp only [BitVec.getElem_append, BitVec.getElem_extractLsb']
  split
  · simp [BitVec.getLsbD_eq_getElem h]
  · simp [show 8 + (i - 8) = i by omega, BitVec.getLsbD_eq_getElem h]

theorem gives_recvCrc (hi lo : Byte) :
    Gives c recvCrc d [hi, lo] (exchanges (fills 2) [hi, lo]) { d with crc16 := hi ++ lo } (.ok ()) := by
  refine Gives.cast ((gives_rx hi).bind ((gives_setReg _).andThen ((gives_rx lo).bind (gives_setReg _)))) rfl rfl ?_
  simp only [append_high]

/-- The bytes of a data block from the card. -/
theorem gives_recvData {gap : List Byte} (payload : Block) (hi lo : Byte)
    (hg : gap.all (fun b => !isStartToken b) = true) (hl : gap.length < c.nToken) :
    Gives c recvData d (gap ++ 0xFE :: (payload.toList ++ [hi, lo]))
      (exchanges (fills ((gap.length + 1) + 512 + 2)) (gap ++ 0xFE :: (payload.toList ++ [hi, lo])))
      { d with poll := gap.length + 1, buf := payload, crc16 := hi ++ lo } (.ok ()) := by
  have h : gap ++ 0xFE :: (payload.toList ++ [hi, lo]) = (gap ++ [0xFE]) ++ (payload.toList ++ [hi, lo]) := by simp
  refine Gives.cast ((gives_waitToken hg hl).andThen ((gives_recvPayload payload).andThen (gives_recvCrc hi lo))) h.symm ?_ rfl
  have hf : fills ((gap.length + 1) + 512 + 2) = fills (gap.length + 1) ++ (fills 512 ++ fills 2) := by
    rw [fills_add, fills_add _ 512, List.append_assoc]
  rw [h, hf, exchanges_append (by simp), exchanges_append (by simp)]

theorem gives_waitZeroR1 {wait : List Byte} (hw : wait.all (fun x => !r1Valid x) = true) (hl : wait.length < c.nR1) :
    Gives c waitZeroR1 d (wait ++ [0x00]) (exchanges (fills (wait.length + 1)) (wait ++ [0x00]))
      { d with poll := wait.length + 1, r1 := 0x00 } (.ok ()) := by
  refine Gives.cast ((gives_waitR1 (b := 0x00) hw (by decide) hl).bind (g' := []) (e' := []) ?_) (by simp) (by simp) rfl
  exact gives_ret ()

theorem gives_waitZeroR1_nonzero {b : Byte} {wait : List Byte} (hw : wait.all (fun x => !r1Valid x) = true)
    (hb : r1Valid b = true) (hl : wait.length < c.nR1) (hz : b ≠ 0x00) :
    Gives c waitZeroR1 d (wait ++ [b]) (exchanges (fills (wait.length + 1)) (wait ++ [b]))
      { d with poll := wait.length + 1, r1 := b } (.error .statusNotZero) := by
  refine Gives.cast ((gives_waitR1 hw hb hl).bind (g' := []) (e' := []) ?_) (by simp) (by simp) rfl
  have : r1Ready b = false := by simpa [r1Ready] using hz
  rw [this]
  exact gives_fail _

theorem gives_waitZeroR1_timeout {wait : List Byte} (hw : wait.all (fun x => !r1Valid x) = true)
    (hl : wait.length = c.nR1) :
    Gives c waitZeroR1 d wait (exchanges (fills c.nR1) wait) { d with poll := c.nR1 } (.error .timeout) :=
  (gives_waitR1_timeout hw hl).bind_err

theorem ReadAnswer.ok_iff {a : ReadAnswer} : a.ok c = true ↔ a.wait.all (fun b => !r1Valid b) = true ∧
    a.wait.length < c.nR1 ∧ a.gap.all (fun b => !isStartToken b) = true ∧ a.gap.length < c.nToken := by
  simp [ReadAnswer.ok, Bool.and_eq_true]

/-- R146: a block read that is served. -/
theorem gives_readBlock (addr : Word) (a : ReadAnswer) (ha : a.ok c = true) :
    GivesTxn c (readBlock addr) d a.bytes (a.events addr)
      { d.framed 17 addr with r1 := 0x00, poll := a.gap.length + 1, buf := a.payload, crc16 := a.crcHi ++ a.crcLo }
      (.ok ()) := by
  obtain ⟨hw, hl, hg, hgl⟩ := ReadAnswer.ok_iff.1 ha
  have h := (gives_sendFrame (c := c) (d := d) 17 addr a.during).andThen
    ((gives_waitZeroR1 hw hl).andThen (gives_recvData a.payload a.crcHi a.crcLo hg hgl))
  have hb : a.bytes = (a.during.toList ++ ((a.wait ++ [0x00]) ++ (a.gap ++ 0xFE :: (a.payload.toList ++ [a.crcHi,
    a.crcLo]))))
      ++ [a.filler] := by
    simp [ReadAnswer.bytes]
  refine GivesTxn.cast (gives_txn h (by simp) a.filler) hb.symm ?_ rfl
  have hf : (buildFrame 17 addr).toList ++ fills ((a.wait.length + 1) + (a.gap.length + 1) + 512 + 2 + 1) =
      ((buildFrame 17 addr).toList ++ (fills (a.wait.length + 1) ++ fills ((a.gap.length + 1) + 512 + 2))) ++ fills 1 := by
    have hn : (a.wait.length + 1) + (a.gap.length + 1) + 512 + 2 + 1 =
        (a.wait.length + 1) + ((a.gap.length + 1) + 512 + 2) + 1 := by omega
    rw [hn, fills_add _ 1, fills_add (a.wait.length + 1) ((a.gap.length + 1) + 512 + 2), List.append_assoc,
      List.append_assoc, List.append_assoc]
  unfold ReadAnswer.events ReadAnswer.sent
  rw [hb, hf, exchanges_append (by simp; omega), exchanges_append (by simp), exchanges_append (by simp)]
  simp only [List.append_assoc]
  rfl

theorem gives_block_silence {α : Type} {q : Proc α} (idx : BitVec 6) (addr : Word) (x : Silence) (hx : x.ok c = true) :
    GivesTxn c (fun s => txnExit ((sendFrame idx addr).andThen (waitZeroR1.andThen q) s.csAssert)) d x.bytes
      (x.events (buildFrame idx addr).toList) { d.framed idx addr with poll := c.nR1 } (.error .timeout) :=
  gives_txn_silence idx addr x hx (gives_waitZeroR1_timeout (Silence.ok_iff.1 hx).1 (Silence.ok_iff.1 hx).2).andThen_err

theorem gives_block_nonzero {α : Type} {q : Proc α} (idx : BitVec 6) (addr : Word) (a : Answer) (ha : a.plain c = true)
    (hz : a.r1 ≠ 0x00) :
    GivesTxn c (fun s => txnExit ((sendFrame idx addr).andThen (waitZeroR1.andThen q) s.csAssert)) d a.bytes
      (a.events (buildFrame idx addr).toList) { d.framed idx addr with r1 := a.r1, poll := a.wait.length + 1 }
      (.error .statusNotZero) := by
  obtain ⟨ho, hm⟩ := Answer.plain_iff.1 ha
  obtain ⟨hw, hl, hv⟩ := Answer.ok_iff.1 ho
  refine gives_txn_answer idx addr a ?_ (by simp)
  rw [hm]
  exact Gives.cast (gives_waitZeroR1_nonzero hw hv hl hz).andThen_err rfl (by simp) rfl

/-- R148: the token window ends without a token; the bytes of the window stand after the R1. -/
theorem gives_readBlock_noToken (addr : Word) (a : Answer) (ha : a.ok c = true) (hz : a.r1 = 0x00)
    (hg : a.more.all (fun b => !isStartToken b) = true) (hl : a.more.length = c.nToken) :
    GivesTxn c (readBlock addr) d a.bytes (a.events (buildFrame 17 addr).toList)
      { d.framed 17 addr with r1 := 0x00, poll := c.nToken } (.error .timeout) := by
  obtain ⟨hw, hwl, -⟩ := Answer.ok_iff.1 ha
  refine gives_txn_answer 17 addr a ?_ (by simp)
  rw [hz]
  have h := (gives_waitZeroR1 (d := d.framed 17 addr) hw hwl).andThen (q := recvData)
    (Gives.andThen_err (q := recvPayload.andThen recvCrc) (gives_waitToken_timeout hg hl))
  refine Gives.cast h (by simp) ?_ rfl
  rw [← exchanges_append (by simp), ← hl, ← fills_add]
  simp [Nat.add_assoc, Nat.add_comm, Nat.add_left_comm]

/-! ## Write path -/

theorem gives_sendPayload {got : List Byte} (h : got.length = 512) :
    Gives c sendPayload d got (exchanges d.buf.toList got) d (.ok ()) := by
  intro s rest hcfg hd hcard
  subst hd
  exact gives_txList (by simp [h]) s rest hcfg rfl hcard

theorem gives_sendData (token crcHi crcLo : Byte) (payload : Vector Byte 512) :
    Gives c sendData d (token :: (payload.toList ++ [crcHi, crcLo]))
      (exchanges (0xFE :: (d.buf.toList ++ [0xFF, 0xFF])) (token :: (payload.toList ++ [crcHi, crcLo]))) d (.ok ()) := by
  have h := (gives_tx (c := c) (d := d) tokenStart token).andThen ((gives_sendPayload (got := payload.toList)
    (by simp)).andThen (gives_txList (sent := crc16Fill) (got := [crcHi, crcLo]) rfl))
  refine Gives.cast h rfl ?_ rfl
  rw [exchanges_cons, exchanges_append (by simp)]
  rfl

theorem gives_recvDresp_ok (b : Byte) (h : classifyDresp b = .accepted) :
    Gives c recvDresp d [b] [.xchg fillByte (.ok b)] { d with dresp := b } (.ok b) := by
  refine (gives_rx b).bind ((gives_setReg _).andThen (g' := []) (e' := []) ?_)
  unfold decodeDrespByte
  rw [h]
  exact gives_ret b

theorem gives_recvDresp_err (b : Byte) (h : classifyDresp b ≠ .accepted) :
    Gives c recvDresp d [b] [.xchg fillByte (.ok b)] { d with dresp := b } (.error (drespKind (classifyDresp b))) := by
  refine (gives_rx b).bind ((gives_setReg _).andThen (g' := []) (e' := []) ?_)
  unfold decodeDrespByte
  cases hc : classifyDresp b with
  | accepted => exact absurd hc h
  | crcError => exact gives_fail _
  | writeError => exact gives_fail _
  | badFormat => exact gives_fail _

theorem gives_waitNotBusy {busy : List Byte} {r : Byte} {n : Nat} (hn : c.nBusy = some n)
    (hb : busy.all isBusyByte = true) (hr : isBusyByte r = false) (hl : busy.length < n) :
    Gives c waitNotBusy d (busy ++ [r]) (exchanges (fills (busy.length + 1)) (busy ++ [r]))
      { d with poll := busy.length + 1 } (.ok true) := by
  refine Gives.withCfg ?_
  rw [hn]
  exact Gives.cast ((gives_poll (b := r) (accept := fun b => !isBusyByte b) (by simpa using hb) (by simp [hr]) hl).bind
    (gives_ret true)) (by simp) (by simp) rfl

theorem gives_waitNotBusy_timeout {busy : List Byte} {n : Nat} (hn : c.nBusy = some n)
    (hb : busy.all isBusyByte = true) (hl : busy.length = n) :
    Gives c waitNotBusy d busy (exchanges (fills n) busy) { d with poll := n } (.error .timeout) := by
  refine Gives.withCfg ?_
  rw [hn]
  exact (gives_poll_timeout (accept := fun b => !isBusyByte b) (by simpa using hb) hl).bind_err

theorem gives_busyAttempt_unbounded (hn : c.nBusy = none) (b : Byte) :
    Gives c (busyAttempt.bind fun o => ret o.isSome) d [b] [.xchg fillByte (.ok b)] { d with poll := d.poll + 1 }
      (.ok (!isBusyByte b)) := by
  have h1 : Gives c busyAttempt d [b] [.xchg fillByte (.ok b)] { d with poll := d.poll + 1 }
      (.ok (if isBusyByte b then none else some b)) := by
    refine Gives.withCfg ?_
    rw [hn]
    cases hb : isBusyByte b with
    | true => exact gives_pollOnce_reject (accept := fun b => !isBusyByte b) none (by simp [hb]) rfl
    | false => exact gives_pollOnce_accept (accept := fun b => !isBusyByte b) none (by simp [hb])
  have h2 := h1.bind (f := fun o => ret o.isSome) (gives_ret (d := { d with poll := d.poll + 1 })
    (if isBusyByte b then none else some b).isSome)
  have h3 : (if isBusyByte b then none else some b).isSome = !isBusyByte b := by cases isBusyByte b <;> rfl
  rw [h3] at h2
  exact h2

theorem gives_waitNotBusy_unbounded (hn : c.nBusy = none) (b : Byte) :
    Gives c waitNotBusy d [b] [.xchg fillByte (.ok b)] { d with poll := 1 } (.ok (!isBusyByte b)) := by
  refine Gives.withCfg ?_
  rw [hn]
  exact (gives_setReg _).andThen (gives_busyAttempt_unbounded hn b)

/-- What WRITE_BLOCK sends and reads before the data response, and then the rest of its procedure. -/
theorem gives_writeHead {α : Type} {q : Proc α} {o : Except ErrKind α} (addr : Word) (a : WriteAnswer)
    (ha : a.ok c = true)
    (hq : Gives c q { d.framed 24 addr with r1 := 0x00, poll := a.wait.length + 1 } (a.dresp :: a.busy)
      (exchanges (fills (1 + a.busy.length)) (a.dresp :: a.busy)) d' o) :
    Gives c ((sendFrame 24 addr).andThen (waitZeroR1.andThen ((filler 1).andThen (sendData.andThen q)))) d a.bytesToBusy
      (exchanges (a.sentToBusy addr d.buf.toList) a.bytesToBusy) d' o := by
  have ⟨hw, hl⟩ : a.wait.all (fun b => !r1Valid b) = true ∧ a.wait.length < c.nR1 := by
    simpa [WriteAnswer.ok, Bool.and_eq_true] using ha
  have h := (gives_sendFrame (c := c) (d := d) 24 addr a.during).andThen ((gives_waitZeroR1 hw hl).andThen
    ((gives_filler (n := 1) (got := [a.filler1]) rfl).andThen
      ((gives_sendData a.token a.crcHi a.crcLo a.payload).andThen hq)))
  have hb : a.bytesToBusy = a.during.toList ++ ((a.wait ++ [0x00]) ++ ([a.filler1] ++
      ((a.token :: (a.payload.toList ++ [a.crcHi, a.crcLo])) ++ (a.dresp :: a.busy)))) := by
    simp [WriteAnswer.bytesToBusy]
  have hs : a.sentToBusy addr d.buf.toList = (buildFrame 24 addr).toList ++ (fills (a.wait.length + 1) ++ (fills 1 ++
      ((0xFE :: (d.buf.toList ++ [0xFF, 0xFF])) ++ fills (1 + a.busy.length)))) := by
    simp [WriteAnswer.sentToBusy, fills]
  refine Gives.cast h hb.symm ?_ rfl
  rw [hb, hs, exchanges_append (by simp), exchanges_append (by simp), exchanges_append (by simp),
    exchanges_append (by simp)]
  rfl

theorem writeEvents_eq (addr : Word) (a : WriteAnswer) (p : List Byte) (hp : p.length = 512) :
    .csAssert :: (exchanges (a.sentToBusy addr p) a.bytesToBusy ++ [.xchg fillByte (.ok a.filler2), .csDeassert]) =
      a.events addr p := by
  unfold WriteAnswer.events WriteAnswer.sent WriteAnswer.bytes
  rw [exchanges_append (by simp [WriteAnswer.sentToBusy, WriteAnswer.bytesToBusy, hp]; omega)]
  simp

theorem writeExit_true {r : Res Bool} {s : State} (h : r = .ok true s ∨ ∃ k, r = .err k s) : writeExit r = txnExit r := by
  rcases h with rfl | ⟨k, rfl⟩ <;> rfl

/-- R152: a WRITE_BLOCK that runs to its final filler. -/
theorem gives_writeBlock {o : Except ErrKind Bool} (addr : Word) (a : WriteAnswer) (ha : a.ok c = true)
    (ho : o = .ok true ∨ ∃ k, o = .error k ∧ k ≠ .ioError)
    (hq : Gives c (recvDresp.bind fun _ => waitNotBusy)
      { d.framed 24 addr with r1 := 0x00, poll := a.wait.length + 1 } (a.dresp :: a.busy)
      (exchanges (fills (1 + a.busy.length)) (a.dresp :: a.busy)) d' o) :
    GivesTxn c (writeBlock addr) d a.bytes (a.events addr d.buf.toList) d' o := by
  have hio : o ≠ .error .ioError := by
    rcases ho with rfl | ⟨k, rfl, hk⟩
    · simp
    · simpa using hk
  have h := GivesTxn.cast (gives_txn (gives_writeHead (d := d) addr a ha hq) hio a.filler2) rfl
    (writeEvents_eq addr a d.buf.toList (by simp)) rfl
  intro s rest hcfg hd hcard
  rw [← h s rest hcfg hd hcard]
  have h2 := gives_writeHead (d := d) addr a ha hq s.csAssert (replies [a.filler2] ++ rest) hcfg hd (by
    show s.card = _
    simpa [WriteAnswer.bytes] using hcard)
  unfold writeBlock
  dsimp only
  rw [h2]
  rcases ho with rfl | ⟨k, rfl, -⟩
  · exact writeExit_true (.inl rfl)
  · exact writeExit_true (.inr ⟨k, rfl⟩)

theorem leavesBusy_iff {a : WriteAnswer} {n : Nat} : a.leavesBusy n = true ↔
    ∃ busy r, a.busy = busy ++ [r] ∧ busy.all isBusyByte = true ∧ isBusyByte r = false ∧ busy.length < n := by
  constructor
  · intro h
    simp only [WriteAnswer.leavesBusy, Bool.and_eq_true, decide_eq_true_eq] at h
    obtain ⟨h1, h2, h3⟩ := h
    rcases List.eq_nil_or_concat a.busy with hn | ⟨l, x, hl⟩
    · simp [hn] at h2
    · rw [List.concat_eq_append] at hl
      rw [hl] at h1 h2 h3
      refine ⟨l, x, hl, by simpa using h1, by simpa using h2, by simp at h3; omega⟩
  · rintro ⟨busy, r, h, h1, h2, h3⟩
    simp only [WriteAnswer.leavesBusy, h, Bool.and_eq_true, decide_eq_true_eq]
    refine ⟨by simpa using h1, by simp [h2], by simp; omega⟩

/-- R152: the card accepts the block and leaves busy. -/
theorem gives_writeBlock_ok (addr : Word) (a : WriteAnswer) (ha : a.ok c = true) (hd : classifyDresp a.dresp = .accepted)
    (hb : a.leavesBusy (c.nBusy.getD 1) = true) :
    GivesTxn c (writeBlock addr) d a.bytes (a.events addr d.buf.toList)
      { d.framed 24 addr with r1 := 0x00, dresp := a.dresp, poll := a.busy.length } (.ok true) := by
  obtain ⟨busy, r, h, h1, h2, h3⟩ := leavesBusy_iff.1 hb
  refine gives_writeBlock addr a ha (.inl rfl) ?_
  rw [h, show 1 + (busy ++ [r]).length = 1 + (busy.length + 1) by simp, fills_add]
  rw [show (busy ++ [r]).length = busy.length + 1 by simp]
  refine Gives.cast ((gives_recvDresp_ok a.dresp hd).bind (g' := busy ++ [r])
    (e' := exchanges (fills (busy.length + 1)) (busy ++ [r])) (o := .ok true) ?_) rfl rfl rfl
  cases hn : c.nBusy with
  | some n =>
    rw [hn] at h3
    exact gives_waitNotBusy hn h1 h2 h3
  | none =>
    rw [hn] at h3
    have : busy = [] := by simpa using h3
    subst this
    have h4 := gives_waitNotBusy_unbounded (d := { d.framed 24 addr with
      r1 := 0x00, poll := a.wait.length + 1, dresp := a.dresp }) hn r
    rw [h2] at h4
    exact h4

/-- R156: the card does not accept the block: no busy poll. -/
theorem gives_writeBlock_rejected (addr : Word) (a : WriteAnswer) (ha : a.ok c = true)
    (hd : classifyDresp a.dresp ≠ .accepted) (hb : a.busy = []) :
    GivesTxn c (writeBlock addr) d a.bytes (a.events addr d.buf.toList)
      { d.framed 24 addr with r1 := 0x00, dresp := a.dresp, poll := a.wait.length + 1 }
      (.error (drespKind (classifyDresp a.dresp))) := by
  refine gives_writeBlock addr a ha (.inr ⟨_, rfl, ?_⟩) ?_
  · cases classifyDresp a.dresp <;> simp [drespKind]
  · rw [hb]
    exact Gives.cast (gives_recvDresp_err a.dresp hd).bind_err rfl rfl rfl

/-- R158: the bounded busy poll runs out. -/
theorem gives_writeBlock_busy (addr : Word) (a : WriteAnswer) (ha : a.ok c = true)
    (hd : classifyDresp a.dresp = .accepted)
    {n : Nat} (hn : c.nBusy = some n) (hb : a.busy.all isBusyByte = true) (hl : a.busy.length = n) :
    GivesTxn c (writeBlock addr) d a.bytes (a.events addr d.buf.toList)
      { d.framed 24 addr with r1 := 0x00, dresp := a.dresp, poll := n } (.error .timeout) := by
  refine gives_writeBlock addr a ha (.inr ⟨_, rfl, by simp⟩) ?_
  rw [fills_add]
  refine Gives.cast ((gives_recvDresp_ok a.dresp hd).bind (gives_waitNotBusy_timeout hn hb hl)) rfl ?_ rfl
  rw [hl]
  rfl

/-! ### Block writes that end early, and that are left open -/

theorem writeBlock_of_err {addr : Word} {s t : State} {k : ErrKind}
    (h : (sendFrame 24 addr).andThen (waitZeroR1.andThen ((filler 1).andThen (sendData.andThen
      (recvDresp.bind fun _ => waitNotBusy)))) s.csAssert = .err k t) : writeBlock addr s = txnExit (.err k t) := by
  unfold writeBlock
  rw [h]
  rfl

theorem gives_writeBlock_silence (addr : Word) (x : Silence) (hx : x.ok c = true) :
    GivesTxn c (writeBlock addr) d x.bytes (x.events (buildFrame 24 addr).toList) { d.framed 24 addr with poll := c.nR1 }
      (.error .timeout) := by
  intro s rest hcfg hd hcard
  obtain ⟨hw, hl⟩ := Silence.ok_iff.1 hx
  have h := ((gives_sendFrame (c := c) (d := d) 24 addr x.during).andThen (Gives.andThen_err (gives_waitZeroR1_timeout hw hl)
    (q := (filler 1).andThen (sendData.andThen (recvDresp.bind fun _ => waitNotBusy))))) s.csAssert
    (replies [x.filler] ++ rest) hcfg hd (by
      rw [← List.append_assoc, ← replies_append]
      simpa [Silence.bytes] using hcard)
  rw [writeBlock_of_err h]
  have h2 := gives_block_silence (q := (filler 1).andThen (sendData.andThen (recvDresp.bind fun _ => waitNotBusy)))
    24 addr x hx s rest hcfg hd hcard
  simp only [h] at h2
  exact h2

theorem gives_writeBlock_nonzero (addr : Word) (a : Answer) (ha : a.plain c = true) (hz : a.r1 ≠ 0x00) :
    GivesTxn c (writeBlock addr) d a.bytes (a.events (buildFrame 24 addr).toList)
      { d.framed 24 addr with r1 := a.r1, poll := a.wait.length + 1 } (.error .statusNotZero) := by
  intro s rest hcfg hd hcard
  obtain ⟨ho, hm⟩ := Answer.plain_iff.1 ha
  obtain ⟨hw, hl, hv⟩ := Answer.ok_iff.1 ho
  have h := ((gives_sendFrame (c := c) (d := d) 24 addr a.during).andThen (Gives.andThen_err (gives_waitZeroR1_nonzero hw hv hl hz)
    (q := (filler 1).andThen (sendData.andThen (recvDresp.bind fun _ => waitNotBusy))))) s.csAssert
    (replies [a.filler] ++ rest) hcfg hd
    (by rw [← List.append_assoc, ← replies_append]; simpa [Answer.bytes, hm] using hcard)
  rw [writeBlock_of_err h]
  have h2 := gives_block_nonzero (q := (filler 1).andThen (sendData.andThen (recvDresp.bind fun _ => waitNotBusy)))
    24 addr a ha hz s rest hcfg hd hcard
  simp only [h] at h2
  exact h2

/-- R158, N_BUSY unbounded: the first poll gets 0x00, so WRITE_BLOCK is left open. -/
theorem writeBlock_held (addr : Word) (a : WriteAnswer) (hn : c.nBusy = none) (ha : a.ok c = true)
    (hd : classifyDresp a.dresp = .accepted) (hb : a.busy = [0x00]) (s : State) (rest : List Reply) (hc : s.cfg = c)
    (hdp : s.dp = d) (hcard : s.card = replies a.bytesToBusy ++ rest) :
    writeBlock addr s = .ok false (s.csAssert.saw (exchanges (a.sentToBusy addr d.buf.toList) a.bytesToBusy) rest
      { d.framed 24 addr with r1 := 0x00, dresp := a.dresp, poll := 1 }) := by
  have h := gives_writeHead (c := c) (d := d) (q := recvDresp.bind fun _ => waitNotBusy) (o := .ok false)
    (d' := { d.framed 24 addr with r1 := 0x00, dresp := a.dresp, poll := 1 }) addr a ha (by
      rw [hb]
      exact Gives.cast ((gives_recvDresp_ok a.dresp hd).bind (gives_waitNotBusy_unbounded hn 0x00)) rfl rfl rfl)
    s.csAssert rest hc hdp hcard
  unfold writeBlock
  rw [h]
  rfl

theorem writeBlock_held_state (addr : Word) (a : WriteAnswer) (s : State) (rest : List Reply) (hn : s.cfg.nBusy = none)
    (ha : a.ok s.cfg = true) (hd : classifyDresp a.dresp = .accepted) (hb : a.busy = [0x00])
    (hcard : s.card = replies a.bytesToBusy ++ rest) :
    ∃ t, writeBlock addr s = .ok false t ∧ t.lock = s.lock ∧ t.cs = true ∧ t.cfg = s.cfg ∧ t.card = rest ∧
      t.port = s.port ∧ t.buffer = s.buffer :=
  ⟨_, writeBlock_held addr a hn ha hd hb s rest rfl rfl hcard, rfl, rfl, rfl, rfl, rfl, rfl⟩

end

end Sys2Proof.Machine
end

