-- ==== Sys2Proof/Laws/Failures.lean ====
section
/-! SUPPORT. How procedures fail: what a transport failure at a known place leaves (R240), the kinds a procedure may fail
with and the shape of its events (R231, R232, R240), and the one exit of a transaction (R109). -/

namespace Sys2Proof.Machine

theorem setReg_eq (f : Datapath → Datapath) (s : State) : setReg f s = .ok () (s.mapDp f) := rfl

theorem r1Valid_true {b : Byte} (h : b.getLsbD 7 = false) : r1Valid b = true := by unfold r1Valid; rw [h]; rfl

theorem r1Valid_false {b : Byte} (h : b.getLsbD 7 = true) : r1Valid b = false := by unfold r1Valid; rw [h]; rfl

/-! ## A transport failure at a known place -/

theorem xchg_failing {s : State} {rest : List Reply} (m : Byte) (h : s.card = .fail :: rest) :
    xchg m s = .err .ioError { s with card := rest, log := .xchg m .fail :: s.log } := by
  simp [xchg, State.nextReply, State.takeReply, h, State.record]

theorem txList_failing (sent : List Byte) (got : List Byte) (s : State) (rest : List Reply) (h : got.length < sent.length)
    (hc : s.card = replies got ++ .fail :: rest) :
    txList sent s = .err .ioError (s.saw (exchanges sent got ++ [.xchg sent[got.length] .fail]) rest s.dp) := by
  induction sent generalizing got s with
  | nil => simp at h
  | cons m ms ih =>
    cases got with
    | nil =>
      simp only [replies_nil, List.nil_append] at hc
      have h1 : tx m s = .err .ioError { s with card := rest, log := .xchg m .fail :: s.log } :=
        Proc.bind_err (xchg_failing m hc)
      rw [txList, Proc.andThen_err h1]
      simp [State.saw, exchanges]
    | cons b bs =>
      have h1 := gives_tx (c := s.cfg) (d := s.dp) m b s (replies bs ++ .fail :: rest) rfl rfl (by simpa using hc)
      rw [txList, Proc.andThen_ok h1, ih bs _ (by simpa using h) rfl]
      simp

theorem pollLoop_failing {accept : Byte → Bool} (wait : List Byte) (n left : Nat) (s : State) (rest : List Reply)
    (hw : wait.all (fun x => !accept x) = true) (hl : wait.length < left) (hp : s.dp.poll + left = n)
    (hc : s.card = replies wait ++ .fail :: rest) :
    pollLoop n accept left s = .err .ioError (s.saw (exchanges (fills wait.length) wait ++ [.xchg fillByte .fail]) rest
      { s.dp with poll := s.dp.poll + (wait.length + 1) }) := by
  induction wait generalizing s left with
  | nil =>
    cases left with
    | zero => simp at hl
    | succ left =>
      simp only [replies_nil, List.nil_append] at hc
      have h1 : pollOnce (some n) accept s = .err .ioError (s.saw [.xchg fillByte .fail] rest
          { s.dp with poll := s.dp.poll + 1 }) := by
        rw [pollOnce]
        refine (Proc.andThen_ok (v := ()) (t := s.mapDp fun d => { d with poll := d.poll + 1 }) rfl).trans ?_
        refine (Proc.bind_err (xchg_failing fillByte (rest := rest) ?_)).trans ?_
        · simpa using hc
        · rfl
      rw [pollLoop, Proc.bind_err h1]
      simp
  | cons x xs ih =>
    cases left with
    | zero => simp at hl
    | succ left =>
      simp only [List.all_cons, Bool.and_eq_true, Bool.not_eq_true'] at hw
      have hl' : xs.length < left := by simpa using hl
      have hn : (some n).any (fun n => decide (n ≤ s.dp.poll + 1)) = false := by simp; omega
      have h1 := gives_pollOnce_reject (c := s.cfg) (some n) hw.1 hn s (replies xs ++ .fail :: rest) rfl rfl
        (by simpa using hc)
      rw [pollLoop, Proc.bind_ok h1]
      simp only []
      rw [ih left _ hw.2 hl' (by simp; omega) rfl]
      simp only [State.saw_saw, State.saw_dp, List.length_cons, fills_succ, exchanges_cons, List.cons_append,
        List.nil_append]
      congr 2
      congr 1
      omega

theorem poll_failing {accept : Byte → Bool} (wait : List Byte) (n : Nat) (s : State) (rest : List Reply)
    (hw : wait.all (fun x => !accept x) = true) (hl : wait.length < n)
    (hc : s.card = replies wait ++ .fail :: rest) :
    poll n accept s = .err .ioError (s.saw (exchanges (fills wait.length) wait ++ [.xchg fillByte .fail]) rest
      { s.dp with poll := wait.length + 1 }) := by
  rw [poll, Proc.andThen_ok (setReg_eq _ s),
    pollLoop_failing wait n n _ rest hw hl (by simp) (by simpa using hc)]
  simp [State.saw, State.mapDp]

/-! ## The kinds a procedure fails with, and the shape of its events -/

/-- How a procedure without transactions ends, from the state it began in: chip-select is as it was, its events are exchanges
that did not fail, and it fails with one of these kinds; with IoError, a failing exchange is its last event. -/
def WireEnd {α : Type} (kinds : List ErrKind) (s : State) : Res α → Prop
  | .ok _ u => u.cs = s.cs ∧ ∃ new, new.all Event.exchanged = true ∧ u.log = new ++ s.log
  | .err k u => k ∈ kinds ∧ u.cs = s.cs ∧ ∃ new, new.all Event.exchanged = true ∧
      (k = .ioError → ∃ m, u.log = .xchg m .fail :: (new ++ s.log)) ∧ (k ≠ .ioError → u.log = new ++ s.log)

/-- The procedure so ends from every state, whatever the card does. -/
def FailsIn {α : Type} (kinds : List ErrKind) (p : Proc α) : Prop := ∀ s, WireEnd kinds s (p s)

theorem WireEnd.same {α : Type} {ks : List ErrKind} {s u : State} {v : α} (hc : u.cs = s.cs) (hl : u.log = s.log) :
    WireEnd ks s (.ok v u) := ⟨hc, [], rfl, hl⟩

theorem WireEnd.failed {α : Type} {ks : List ErrKind} {s u : State} {k : ErrKind} (hk : k ∈ ks) (hi : k ≠ .ioError)
    (hc : u.cs = s.cs) (hl : u.log = s.log) : WireEnd ks s (.err k u : Res α) :=
  ⟨hk, hc, [], rfl, fun e => absurd e hi, fun _ => hl⟩

/-- One end after another. -/
theorem WireEnd.after {α β : Type} {ks : List ErrKind} {s u : State} {v : α} {r : Res β} (h : WireEnd ks s (.ok v u))
    (g : WireEnd ks u r) : WireEnd ks s r := by
  obtain ⟨hc, a, ha, hl⟩ := h
  cases r with
  | ok w t =>
    obtain ⟨gc, b, hb, gl⟩ := g
    exact ⟨gc.trans hc, b ++ a, by simp [ha, hb], by rw [gl, hl, List.append_assoc]⟩
  | err k t =>
    obtain ⟨hk, gc, b, hb, gi, gl⟩ := g
    refine ⟨hk, gc.trans hc, b ++ a, by simp [ha, hb], fun e => ?_, fun e => ?_⟩
    · obtain ⟨m, hm⟩ := gi e
      exact ⟨m, by rw [hm, hl, List.append_assoc]⟩
    · rw [gl e, hl, List.append_assoc]

/-- A failure, whatever type of value was due. -/
theorem WireEnd.recast {α β : Type} {ks : List ErrKind} {s u : State} {k : ErrKind} (h : WireEnd ks s (.err k u : Res α)) :
    WireEnd ks s (.err k u : Res β) := h

theorem WireEnd.mono {α : Type} {ks ks' : List ErrKind} {s : State} {r : Res α} (h : WireEnd ks s r)
    (hk : ∀ k ∈ ks, k ∈ ks') : WireEnd ks' s r := by
  cases r with
  | ok v u => exact h
  | err k u => exact ⟨hk k h.1, h.2⟩

theorem FailsIn.mono {α : Type} {ks ks' : List ErrKind} {p : Proc α} (h : FailsIn ks p) (hk : ∀ k ∈ ks, k ∈ ks') :
    FailsIn ks' p := fun s => (h s).mono hk

/-- The kind of a failure. -/
theorem FailsIn.kind {α : Type} {ks : List ErrKind} {p : Proc α} (h : FailsIn ks p) {s t : State} {k : ErrKind}
    (e : p s = .err k t) : k ∈ ks := by
  have := h s
  rw [e] at this
  exact this.1

theorem failsIn_ret {α : Type} (ks : List ErrKind) (v : α) : FailsIn ks (ret v) := fun _ => .same rfl rfl

theorem failsIn_setReg (ks : List ErrKind) (f : Datapath → Datapath) : FailsIn ks (setReg f) := fun _ => .same rfl rfl

theorem failsIn_fail {α : Type} {ks : List ErrKind} {k : ErrKind} (hk : k ∈ ks) (hi : k ≠ .ioError) :
    FailsIn ks (fail k : Proc α) := fun _ => .failed hk hi rfl rfl

theorem failsIn_bind {α β : Type} {ks : List ErrKind} {p : Proc α} {f : α → Proc β} (hp : FailsIn ks p)
    (hf : ∀ v, FailsIn ks (f v)) : FailsIn ks (p.bind f) := by
  intro s
  have h := hp s
  cases e : p s with
  | ok v u =>
    rw [e] at h
    rw [Proc.bind_ok e]
    exact h.after (hf v u)
  | err k u =>
    rw [e] at h
    rw [Proc.bind_err e]
    exact h.recast

theorem failsIn_andThen {α β : Type} {ks : List ErrKind} {p : Proc α} {q : Proc β} (hp : FailsIn ks p)
    (hq : FailsIn ks q) : FailsIn ks (p.andThen q) := failsIn_bind hp fun _ => hq

theorem failsIn_withCfg {α : Type} {ks : List ErrKind} {f : Config → Proc α} (hf : ∀ c, FailsIn ks (f c)) :
    FailsIn ks (withCfg f) := fun s => hf s.cfg s

theorem failsIn_xchg {ks : List ErrKind} (hio : .ioError ∈ ks) (m : Byte) : FailsIn ks (xchg m) := by
  intro s
  rcases xchg_cases m s with ⟨b, -, e⟩ | ⟨-, e⟩ <;> rw [e]
  · exact ⟨by simp, [.xchg m (.ok b)], rfl, by simp⟩
  · exact ⟨hio, by simp, [], rfl, fun _ => ⟨m, by simp⟩, fun h => absurd rfl h⟩

theorem failsIn_tx {ks : List ErrKind} (hio : .ioError ∈ ks) (m : Byte) : FailsIn ks (tx m) :=
  failsIn_bind (failsIn_xchg hio m) fun _ => failsIn_ret _ _

theorem failsIn_rx {ks : List ErrKind} (hio : .ioError ∈ ks) : FailsIn ks rx := failsIn_xchg hio _

theorem failsIn_txList {ks : List ErrKind} (hio : .ioError ∈ ks) (l : List Byte) : FailsIn ks (txList l) := by
  induction l with
  | nil => exact failsIn_ret _ _
  | cons b bs ih => exact failsIn_andThen (failsIn_tx hio b) ih

theorem failsIn_pollOnce {ks : List ErrKind} (hio : .ioError ∈ ks) (ht : .timeout ∈ ks) (bud acc) :
    FailsIn ks (pollOnce bud acc) := by
  refine failsIn_andThen (failsIn_setReg _ _) (failsIn_bind (failsIn_rx hio) fun b s => ?_)
  split
  · exact .same rfl rfl
  · split
    · exact .failed ht (by simp) rfl rfl
    · exact .same rfl rfl

theorem failsIn_pollLoop {ks : List ErrKind} (hio : .ioError ∈ ks) (ht : .timeout ∈ ks) (bud acc n) :
    FailsIn ks (pollLoop bud acc n) := by
  induction n with
  | zero => exact failsIn_fail ht (by simp)
  | succ n ih => 
    refine failsIn_bind (failsIn_pollOnce hio ht _ _) fun o => ?_
    cases o with
    | some b => exact failsIn_ret _ _
    | none => exact ih

theorem failsIn_poll {ks : List ErrKind} (hio : .ioError ∈ ks) (ht : .timeout ∈ ks) (bud acc) :
    FailsIn ks (poll bud acc) :=
  failsIn_andThen (failsIn_setReg _ _) (failsIn_pollLoop hio ht _ _ _)

theorem failsIn_waitR1 {ks : List ErrKind} (hio : .ioError ∈ ks) (ht : .timeout ∈ ks) : FailsIn ks waitR1 :=
  failsIn_withCfg fun _ => failsIn_bind (failsIn_poll hio ht _ _) fun _ =>
    failsIn_andThen (failsIn_setReg _ _) (failsIn_ret _ _)

theorem failsIn_waitLongR1 {ks : List ErrKind} (hio : .ioError ∈ ks) (ht : .timeout ∈ ks)
    (hc : .illegalCommand ∈ ks) : FailsIn ks waitLongR1 := by
  refine failsIn_bind (failsIn_waitR1 hio ht) fun r => ?_
  split
  · exact failsIn_fail hc (by simp)
  · exact failsIn_ret _ _

theorem failsIn_waitR2 {ks : List ErrKind} (hio : .ioError ∈ ks) (ht : .timeout ∈ ks)
    (hc : .illegalCommand ∈ ks) : FailsIn ks waitR2 :=
  failsIn_bind (failsIn_waitLongR1 hio ht hc) fun _ => failsIn_bind (failsIn_rx hio) fun _ =>
    failsIn_andThen (failsIn_setReg _ _) (failsIn_ret _ _)

theorem failsIn_waitR3 {ks : List ErrKind} (hio : .ioError ∈ ks) (ht : .timeout ∈ ks)
    (hc : .illegalCommand ∈ ks) : FailsIn ks waitR3 :=
  failsIn_bind (failsIn_waitLongR1 hio ht hc) fun _ => failsIn_bind (failsIn_bind (failsIn_rx hio) fun _ =>
    failsIn_bind (failsIn_rx hio) fun _ =>
    failsIn_bind (failsIn_rx hio) fun _ => failsIn_bind (failsIn_rx hio) fun _ =>
      failsIn_andThen (failsIn_setReg _ _) (failsIn_ret _ _)) fun _ => failsIn_ret _ _

/-- The kinds a wait of a response kind may fail with. -/
def waitKinds : RespKind → List ErrKind
  | .r1 => [.ioError, .timeout]
  | _ => [.ioError, .timeout, .illegalCommand]

theorem failsIn_waitFor (k : RespKind) : FailsIn (waitKinds k) (waitFor k) := by
  cases k with
  | r1 => exact failsIn_waitR1 (by simp [waitKinds]) (by simp [waitKinds])
  | r2 => exact failsIn_waitR2 (by simp [waitKinds]) (by simp [waitKinds]) (by simp [waitKinds])
  | r3 => exact failsIn_waitR3 (by simp [waitKinds]) (by simp [waitKinds]) (by simp [waitKinds])
  | r7 => exact failsIn_waitR3 (by simp [waitKinds]) (by simp [waitKinds]) (by simp [waitKinds])

theorem failsIn_sendFrame {ks : List ErrKind} (hio : .ioError ∈ ks) (idx arg) : FailsIn ks (sendFrame idx arg) :=
  failsIn_bind (failsIn_andThen (failsIn_setReg _ _) (failsIn_ret _ _)) fun _ => failsIn_txList hio _

/-! ## The exit of a transaction -/

/-- One filler byte, whatever its exchange comes to. -/
theorem filler_one (s : State) : (∃ b, s.nextReply = .ok b ∧
      filler 1 s = .ok () (s.takeReply.record (.xchg 0xFF s.nextReply))) ∨
    (s.nextReply = .fail ∧ filler 1 s = .err .ioError (s.takeReply.record (.xchg 0xFF s.nextReply))) := by
  have hf : filler 1 = (tx fillByte).andThen (ret ()) := rfl
  rcases xchg_cases fillByte s with ⟨b, h, e⟩ | ⟨h, e⟩
  · refine .inl ⟨b, h, ?_⟩
    rw [hf, tx, Proc.andThen, Proc.bind_assoc, Proc.bind_ok e, h]
    rfl
  · refine .inr ⟨h, ?_⟩
    rw [hf, tx, Proc.andThen, Proc.bind_assoc, Proc.bind_err e, h]
    rfl

theorem closed_eq (s : State) : (s.takeReply.record (.xchg 0xFF s.nextReply)).csDeassert = s.closed := by
  simp [State.closed, State.csDeassert, State.record, State.setCs]

/-- R109: everything the exit of a transaction can do. -/
theorem txnExit_exitsFrom {α : Type} (r : Res α) : ExitsFrom r (txnExit r) := by
  cases r with
  | ok v u =>
    rcases filler_one u with ⟨b, h, e⟩ | ⟨h, e⟩
    · refine ⟨fun _ _ => ?_, fun h2 => by rw [h] at h2; cases h2⟩
      simp only [txnExit, e, closed_eq]
    · refine ⟨fun b h2 => ?_, fun _ => ?_⟩
      · rw [h] at h2; cases h2
      · simp only [txnExit, e, closed_eq]
  | err k u =>
    have h : (filler 1 u).state = u.takeReply.record (.xchg 0xFF u.nextReply) := by
      rcases filler_one u with ⟨b, -, e⟩ | ⟨-, e⟩ <;> rw [e] <;> rfl
    cases k <;> first | rfl | exact congrArg (Res.err _) ((congrArg State.csDeassert h).trans (closed_eq u))

/-- What is inside a window, from the shape of its procedure's events. -/
theorem WireEnd.window {α : Type} {ks : List ErrKind} {s : State} {r : Res α} (h : WireEnd ks s.csAssert r) :
    WindowOf s.log r := by
  cases r with
  | ok v u =>
    obtain ⟨hc, new, hn, hl⟩ := h
    exact ⟨hc, new, hn, hl⟩
  | err k u =>
    obtain ⟨-, hc, new, hn, hi, hl⟩ := h
    refine ⟨hc, new, hn, ?_⟩
    cases k <;> first | exact hi rfl | exact hl (by simp)

/-! ## Block transfers -/

theorem rxMany_wire {ks : List ErrKind} (hio : .ioError ∈ ks) (n : Nat) (s : State) : WireEnd ks s (rxMany n s).2 := by
  induction n generalizing s with
  | zero => exact .same rfl rfl
  | succ n ih =>
    have h := failsIn_rx hio s
    unfold rxMany
    cases e : rx s with
    | err k u => rw [e] at h; exact h.recast
    | ok b u => rw [e] at h; exact h.after (ih u)

theorem failsIn_recvPayload {ks : List ErrKind} (hio : .ioError ∈ ks) : FailsIn ks recvPayload := by
  intro s
  have h := rxMany_wire hio blockLen s
  unfold recvPayload
  rcases e : rxMany blockLen s with ⟨bs, r⟩
  rw [e] at h
  cases r with
  | ok v u => exact h
  | err k u => exact h

theorem failsIn_recvCrc {ks : List ErrKind} (hio : .ioError ∈ ks) : FailsIn ks recvCrc :=
  failsIn_bind (failsIn_rx hio) fun _ => failsIn_andThen (failsIn_setReg _ _) (failsIn_bind (failsIn_rx hio) fun _ =>
    failsIn_setReg _ _)

theorem failsIn_recvData {ks : List ErrKind} (hio : .ioError ∈ ks) (ht : .timeout ∈ ks) : FailsIn ks recvData :=
  failsIn_andThen (failsIn_withCfg fun _ => failsIn_bind (failsIn_poll hio ht _ _) fun _ => failsIn_ret _ _)
    (failsIn_andThen (failsIn_recvPayload hio) (failsIn_recvCrc hio))

theorem failsIn_waitZeroR1 {ks : List ErrKind} (hio : .ioError ∈ ks) (ht : .timeout ∈ ks)
    (hz : .statusNotZero ∈ ks) : FailsIn ks waitZeroR1 := by
  refine failsIn_bind (failsIn_waitR1 hio ht) fun r => ?_
  split
  · exact failsIn_ret _ _
  · exact failsIn_fail hz (by simp)

/-- The kinds of a transaction are those of the procedure in its window, and IoError. -/
theorem failsIn_txn {α : Type} {ks : List ErrKind} (hio : .ioError ∈ ks) {p : Proc α} (hp : FailsIn ks p)
    (s : State) (k : ErrKind) (t : State) (h : txnExit (p s.csAssert) = .err k t) : k ∈ ks := by
  cases hr : p s.csAssert with
  | ok v u =>
    rw [hr] at h
    rcases filler_one u with ⟨b, -, e⟩ | ⟨-, e⟩ <;> simp only [txnExit, e] at h <;> cases h
    exact hio
  | err k' u =>
    rw [hr] at h
    have : k = k' := by cases k' <;> cases h <;> rfl
    subst this
    exact hp.kind hr

theorem failsIn_sendData {ks : List ErrKind} (hio : .ioError ∈ ks) : FailsIn ks sendData :=
  failsIn_andThen (failsIn_tx hio _) (failsIn_andThen (fun s => failsIn_txList hio _ s) (failsIn_txList hio _))

theorem failsIn_recvDresp {ks : List ErrKind} (hio : .ioError ∈ ks) (h1 : .dataCrcError ∈ ks)
    (h2 : .dataWriteError ∈ ks) (h3 : .answerFormat ∈ ks) : FailsIn ks recvDresp := by
  refine failsIn_bind (failsIn_rx hio) fun d => failsIn_andThen (failsIn_setReg _ _) ?_
  unfold decodeDrespByte
  split
  · exact failsIn_ret _ _
  · exact failsIn_fail h1 (by simp)
  · exact failsIn_fail h2 (by simp)
  · exact failsIn_fail h3 (by simp)

theorem failsIn_busyAttempt {ks : List ErrKind} (hio : .ioError ∈ ks) (ht : .timeout ∈ ks) :
    FailsIn ks (busyAttempt.bind fun o => ret o.isSome) :=
  failsIn_bind (failsIn_withCfg fun _ => failsIn_pollOnce hio ht _ _) fun _ => failsIn_ret _ _

theorem failsIn_waitNotBusy {ks : List ErrKind} (hio : .ioError ∈ ks) (ht : .timeout ∈ ks) : FailsIn ks waitNotBusy := by
  refine failsIn_withCfg fun c => ?_
  split
  · exact failsIn_bind (failsIn_poll hio ht _ _) fun _ => failsIn_ret _ _
  · exact failsIn_andThen (failsIn_setReg _ _) (failsIn_busyAttempt hio ht)

def writeKinds : List ErrKind := [.ioError, .timeout, .statusNotZero, .dataCrcError, .dataWriteError, .answerFormat]

theorem failsIn_writeBody (addr : Word) : FailsIn writeKinds (writeBody addr) :=
  failsIn_andThen (failsIn_sendFrame (by simp [writeKinds]) _ _) <|
    failsIn_andThen (failsIn_waitZeroR1 (by simp [writeKinds]) (by simp [writeKinds]) (by simp [writeKinds])) <|
    failsIn_andThen (failsIn_txList (by simp [writeKinds]) _) <|
      failsIn_andThen (failsIn_sendData (by simp [writeKinds])) <|
      failsIn_bind (failsIn_recvDresp (by simp [writeKinds]) (by simp [writeKinds]) (by simp [writeKinds])
        (by simp [writeKinds])) fun _ => failsIn_waitNotBusy (by simp [writeKinds]) (by simp [writeKinds])

theorem failsIn_commandBody (idx : BitVec 6) (arg : Word) (k : RespKind) : FailsIn (waitKinds k) (commandBody idx arg k) := by
  have hio : .ioError ∈ waitKinds k := by cases k <;> simp [waitKinds]
  exact failsIn_andThen (failsIn_sendFrame hio idx arg) (failsIn_waitFor k)

theorem failsIn_readBody (addr : Word) : FailsIn [.ioError, .timeout, .statusNotZero] (readBody addr) :=
  failsIn_andThen (failsIn_sendFrame (by simp) 17 addr)
    (failsIn_andThen (failsIn_waitZeroR1 (by simp) (by simp) (by simp)) (failsIn_recvData (by simp) (by simp)))

end Sys2Proof.Machine
end

