-- ==== Sys2Proof/Laws/Memory.lean ====
section
/-! SUPPORT. The laws of the host data buffer: what a byte reads as after a MemWrite, that the canonical form is kept, and
that equal canonical buffers are equal data. -/

namespace Sys2Proof.Machine

@[simp] theorem Memory.read_nil (a : Nat) : Memory.read [] a = Memory.default := rfl

theorem Memory.read_cons (k : Nat) (v : Byte) (m : Memory) (a : Nat) :
    Memory.read ((k, v) :: m) a = if k = a then v else Memory.read m a := by
  simp only [Memory.read]
  by_cases h : k = a
  · subst h; simp
  · have : Nat.beq k a = false := by
      cases hb : Nat.beq k a with
      | false => rfl
      | true => exact absurd (Nat.eq_of_beq_eq_true hb) h
    simp [this, h]

/-- Entries that do not name an offset do not decide what it reads as. -/
theorem Memory.read_append_of_ne {m n : Memory} {a : Nat} (h : ∀ c ∈ m, c.1 ≠ a) :
    Memory.read (m ++ n) a = Memory.read n a := by
  induction m with
  | nil => rfl
  | cons c m ih =>
    obtain ⟨k, v⟩ := c
    rw [List.cons_append, Memory.read_cons, if_neg (h (k, v) (by simp))]
    exact ih fun c hc => h c (by simp [hc])

/-- Leaving out entries that do not name an offset does not change what it reads as. -/
theorem Memory.read_filter {p : Host.Cell → Bool} {m : Memory} {a : Nat} (h : ∀ v, p (a, v) = true) :
    Memory.read (m.filter p) a = Memory.read m a := by
  induction m with
  | nil => rfl
  | cons c m ih =>
    obtain ⟨k, v⟩ := c
    by_cases hk : k = a
    · subst hk; simp [h, Memory.read_cons]
    · rw [Memory.read_cons, if_neg hk, ← ih, List.filter_cons]
      split
      · rw [Memory.read_cons, if_neg hk]
      · rfl

theorem Memory.cells_ge {off : Nat} {bs : List Byte} : ∀ c ∈ Memory.cells off bs, off ≤ c.1 ∧ c.1 < off + bs.length := by
  induction bs generalizing off with
  | nil => simp [Memory.cells]
  | cons b bs ih =>
    intro c hc
    simp only [Memory.cells] at hc
    split at hc
    · have := ih c hc; simp only [List.length_cons]; omega
    · rcases List.mem_cons.mp hc with rfl | hc
      · simp
      · have := ih c hc; simp only [List.length_cons]; omega

/-- What the entries of a run of bytes read as, with other entries behind them. -/
theorem Memory.read_cells {off : Nat} {bs : List Byte} {m : Memory} {i : Nat} (hi : i < bs.length)
    (hm : ∀ c ∈ m, off + bs.length ≤ c.1) : Memory.read (Memory.cells off bs ++ m) (off + i) = bs[i] := by
  induction bs generalizing off i with
  | nil => simp at hi
  | cons b bs ih =>
    have hm' : ∀ c ∈ m, off + 1 + bs.length ≤ c.1 := fun c hc => by have := hm c hc; simp at this; omega
    simp only [Memory.cells]
    cases i with
    | zero =>
      split
      · rename_i hb
        subst hb
        rw [Memory.read_append_of_ne fun c hc => by have := Memory.cells_ge c hc; omega]
        simp only [Nat.add_zero, List.getElem_cons_zero]
        clear ih hm' hi
        induction m with
        | nil => rfl
        | cons c m ihm =>
          obtain ⟨k, v⟩ := c
          rw [Memory.read_cons, if_neg (by have := hm (k, v) (by simp); simp at this; omega)]
          exact ihm fun c hc => hm c (by simp [hc])
      · simp [Memory.read_cons]
    | succ i =>
      have e : off + (i + 1) = off + 1 + i := by omega
      have hi' : i < bs.length := by simpa using hi
      rw [e]
      split
      · simpa using ih hi' hm'
      · rw [List.cons_append, Memory.read_cons, if_neg (by omega)]
        simpa using ih hi' hm'

/-- R52: inside the run, MemWrite stores its bytes in order. -/
theorem Memory.read_writeBytes_inside (m : Memory) (off : Nat) (v : List Byte) {i : Nat} (hi : i < v.length) :
    (m.writeBytes off v).read (off + i) = v[i] := by
  unfold Memory.writeBytes
  rw [Memory.read_append_of_ne, Memory.read_cells hi]
  · intro c hc; simpa using (List.mem_filter.mp hc).2
  · intro c hc
    have := (List.mem_filter.mp hc).2
    simp [Nat.blt_eq] at this
    omega

/-- R52: outside the run, MemWrite changes nothing. -/
theorem Memory.read_writeBytes_outside (m : Memory) (off : Nat) (v : List Byte) {a : Nat}
    (ha : a < off ∨ off + v.length ≤ a) : (m.writeBytes off v).read a = m.read a := by
  unfold Memory.writeBytes
  rcases ha with ha | ha
  · have key : ∀ (l n : Memory), (∀ c ∈ n, a < c.1) →
        Memory.read (l.filter (fun c => Nat.blt c.1 off) ++ n) a = Memory.read l a := by
      intro l n hn
      induction l with
      | nil =>
        induction n with
        | nil => rfl
        | cons c n ih =>
          obtain ⟨k, w⟩ := c
          have hk := hn (k, w) (by simp)
          simp only [List.filter_nil, List.nil_append] at ih ⊢
          rw [Memory.read_cons, if_neg (by omega)]
          exact ih fun c hc => hn c (by simp [hc])
      | cons c l ih =>
        obtain ⟨k, w⟩ := c
        rw [List.filter_cons]
        split
        · rw [List.cons_append, Memory.read_cons, Memory.read_cons, ih]
        · rename_i hk
          simp [Nat.blt_eq] at hk
          rw [ih, Memory.read_cons, if_neg (by omega)]
    apply key
    intro c hc
    rcases List.mem_append.mp hc with hc | hc
    · have := Memory.cells_ge c hc; omega
    · have := (List.mem_filter.mp hc).2
      simp at this
      omega
  · rw [Memory.read_append_of_ne, Memory.read_append_of_ne, Memory.read_filter]
    · intro w; simpa using ha
    · intro c hc; have := Memory.cells_ge c hc; omega
    · intro c hc
      have := (List.mem_filter.mp hc).2
      simp [Nat.blt_eq] at this
      omega

theorem Memory.wfFrom_mono {lo lo' : Nat} {m : Memory} (h : lo' ≤ lo) (hm : m.wfFrom lo = true) :
    m.wfFrom lo' = true := by
  cases m with
  | nil => rfl
  | cons c m =>
    obtain ⟨k, v⟩ := c
    simp only [Memory.wfFrom, Bool.and_eq_true, decide_eq_true_eq] at hm ⊢
    exact ⟨⟨by omega, hm.1.2⟩, hm.2⟩

theorem Memory.wfFrom_ge {lo : Nat} {m : Memory} (hm : m.wfFrom lo = true) : ∀ c ∈ m, lo ≤ c.1 := by
  induction m generalizing lo with
  | nil => simp
  | cons c m ih =>
    obtain ⟨k, v⟩ := c
    simp only [Memory.wfFrom, Bool.and_eq_true, decide_eq_true_eq] at hm
    intro c hc
    rcases List.mem_cons.mp hc with rfl | hc
    · exact hm.1.1
    · have := ih hm.2 c hc; omega

theorem Memory.wfFrom_append {lo mid : Nat} {m n : Memory} (hm : m.wfFrom lo = true) (hn : n.wfFrom mid = true)
    (h : ∀ c ∈ m, c.1 < mid) (hlo : lo ≤ mid) : (m ++ n : Memory).wfFrom lo = true := by
  induction m generalizing lo with
  | nil => exact Memory.wfFrom_mono hlo hn
  | cons c m ih =>
    obtain ⟨k, v⟩ := c
    simp only [Memory.wfFrom, Bool.and_eq_true, decide_eq_true_eq, List.cons_append] at hm ⊢
    refine ⟨hm.1, ih hm.2 (fun c hc => h c (by simp [hc])) ?_⟩
    have := h (k, v) (by simp); simp at this; omega

theorem Memory.wfFrom_filter {lo : Nat} {m : Memory} {p : Host.Cell → Bool} (hm : m.wfFrom lo = true) :
    Memory.wfFrom lo (m.filter p) = true := by
  induction m generalizing lo with
  | nil => rfl
  | cons c m ih =>
    obtain ⟨k, v⟩ := c
    simp only [Memory.wfFrom, Bool.and_eq_true, decide_eq_true_eq] at hm
    rw [List.filter_cons]
    split
    · simp only [Memory.wfFrom, Bool.and_eq_true, decide_eq_true_eq]
      exact ⟨hm.1, ih hm.2⟩
    · exact Memory.wfFrom_mono (by omega) (ih hm.2)

theorem Memory.wfFrom_raise {lo lo' : Nat} {m : Memory} (hm : m.wfFrom lo = true) (h : ∀ c ∈ m, lo' ≤ c.1) :
    m.wfFrom lo' = true := by
  cases m with
  | nil => rfl
  | cons c m =>
    obtain ⟨k, v⟩ := c
    simp only [Memory.wfFrom, Bool.and_eq_true, decide_eq_true_eq] at hm ⊢
    exact ⟨⟨h (k, v) (by simp), hm.1.2⟩, hm.2⟩

theorem Memory.wfFrom_cells {off : Nat} {bs : List Byte} : (Memory.cells off bs).wfFrom off = true := by
  induction bs generalizing off with
  | nil => rfl
  | cons b bs ih =>
    simp only [Memory.cells]
    split
    · exact Memory.wfFrom_mono (by omega) ih
    · rename_i hb
      simp [Memory.wfFrom, ih, hb]

/-- Every MemWrite keeps the canonical form. -/
theorem Memory.wf_writeBytes {m : Memory} (off : Nat) (v : List Byte) (hm : m.wf = true) :
    (m.writeBytes off v).wf = true := by
  unfold Memory.wf at hm ⊢
  unfold Memory.writeBytes
  refine Memory.wfFrom_append (mid := off) (Memory.wfFrom_filter hm) ?_ ?_ (by omega)
  · refine Memory.wfFrom_append (mid := off + v.length) Memory.wfFrom_cells ?_ ?_ (by omega)
    · refine Memory.wfFrom_raise (Memory.wfFrom_filter hm) fun c hc => ?_
      simpa using (List.mem_filter.mp hc).2
    · intro c hc; exact (Memory.cells_ge c hc).2
  · intro c hc
    have := (List.mem_filter.mp hc).2
    simpa [Nat.blt_eq] using this

theorem Memory.read_of_lt {lo a : Nat} {m : Memory} (hm : m.wfFrom lo = true) (h : a < lo) :
    m.read a = Memory.default := by
  induction m generalizing lo with
  | nil => rfl
  | cons c m ih =>
    obtain ⟨k, v⟩ := c
    simp only [Memory.wfFrom, Bool.and_eq_true, decide_eq_true_eq] at hm
    rw [Memory.read_cons, if_neg (by omega)]
    exact ih hm.2 (by omega)

/-- Canonical buffers that read alike at every offset are equal. -/
theorem Memory.wfFrom_ext {lo : Nat} {m n : Memory} (hm : m.wfFrom lo = true) (hn : n.wfFrom lo = true)
    (h : ∀ a, m.read a = n.read a) : m = n := by
  induction m generalizing lo n with
  | nil =>
    cases n with
    | nil => rfl
    | cons c n =>
      obtain ⟨k, v⟩ := c
      simp only [Memory.wfFrom, Bool.and_eq_true, decide_eq_true_eq, bne_iff_ne, ne_eq] at hn
      have := h k
      simp [Memory.read_cons] at this
      exact absurd this.symm hn.1.2
  | cons c m ih =>
    obtain ⟨k, v⟩ := c
    simp only [Memory.wfFrom, Bool.and_eq_true, decide_eq_true_eq, bne_iff_ne, ne_eq] at hm
    cases n with
    | nil =>
      have := h k
      simp [Memory.read_cons] at this
      exact absurd this hm.1.2
    | cons d n =>
      obtain ⟨k', v'⟩ := d
      simp only [Memory.wfFrom, Bool.and_eq_true, decide_eq_true_eq, bne_iff_ne, ne_eq] at hn
      have hk : k = k' := by
        rcases Nat.lt_trichotomy k k' with hlt | heq | hgt
        · have := h k
          rw [Memory.read_cons, Memory.read_cons, if_pos rfl, if_neg (by omega), Memory.read_of_lt hn.2 (by omega)] at this
          exact absurd this hm.1.2
        · exact heq
        · have := h k'
          rw [Memory.read_cons, Memory.read_cons, if_pos rfl, if_neg (by omega), Memory.read_of_lt hm.2 (by omega)] at this
          exact absurd this.symm hn.1.2
      subst hk
      have hv : v = v' := by
        have := h k
        rwa [Memory.read_cons, Memory.read_cons, if_pos rfl, if_pos rfl] at this
      subst hv
      have : m = n := by
        apply ih hm.2 hn.2
        intro a
        by_cases ha : k = a
        · subst ha; rw [Memory.read_of_lt hm.2 (by omega), Memory.read_of_lt hn.2 (by omega)]
        · have := h a
          rwa [Memory.read_cons, Memory.read_cons, if_neg ha, if_neg ha] at this
      rw [this]

/-- Equal canonical buffers are equal data. -/
theorem Memory.wf_ext {m n : Memory} (hm : m.wf = true) (hn : n.wf = true) (h : ∀ a, m.read a = n.read a) : m = n :=
  Memory.wfFrom_ext hm hn h

@[simp] theorem Memory.readBlock_toList (m : Memory) (off : Nat) : (m.readBlock off).toList = m.readBytes off 512 := by
  simp [Memory.readBlock]

@[simp] theorem Memory.readBytes_length (m : Memory) (off n : Nat) : (m.readBytes off n).length = n := by
  simp [Memory.readBytes]

end Sys2Proof.Machine
end

