-- ==== Sys2Proof/Laws/HostRuns.lean ====
section
/-! SUPPORT. Closed forms of the runs and of the host operations over what a card does (spec/42_block_transfer.md R160,
R161; spec/43_card_session.md; spec/44_host_operations.md). -/

namespace Sys2Proof.Machine

/-! ## Addresses (R204) -/

theorem sectorLimit_le (t : CardType) : sectorLimit t ≤ 2 ^ 32 := by
  unfold sectorLimit; split <;> decide

theorem firstBadSector_toNat : firstBadSector.toNat = 2 ^ 23 := rfl

theorem argAddress_ok {t : CardType} {sector : Word} (h : sector.toNat < sectorLimit t) :
    argAddress t sector = .ok (protocolAddress t sector) := by
  unfold argAddress protocolAddress
  unfold sectorLimit at h
  split
  · rfl
  · rename_i ht
    rw [if_neg ht] at h
    have : ¬ firstBadSector ≤ sector := by
      rw [BitVec.le_def, firstBadSector_toNat]
      omega
    rw [if_neg this]

theorem argAddress_overflow {t : CardType} {sector : Word} (h : sectorLimit t ≤ sector.toNat) :
    argAddress t sector = .error .addressOverflow := by
  unfold argAddress
  unfold sectorLimit at h
  have hs := sector.isLt
  split
  · rename_i ht; rw [if_pos ht] at h; omega
  · rename_i ht
    rw [if_neg ht] at h
    have : firstBadSector ≤ sector := by
      rw [BitVec.le_def, firstBadSector_toNat]
      omega
    rw [if_pos this]

theorem setAddress_ok {s : State} (h : s.dp.sect.toNat < sectorLimit s.ctype) :
    setAddress s = .ok (protocolAddress s.ctype s.dp.sect)
      (s.mapDp fun d => { d with addr := protocolAddress s.ctype s.dp.sect }) := by
  unfold setAddress
  rw [argAddress_ok h]
  rfl

theorem setAddress_overflow {s : State} (h : sectorLimit s.ctype ≤ s.dp.sect.toNat) :
    setAddress s = .err .addressOverflow s := by
  unfold setAddress
  rw [argAddress_overflow h]

theorem advance_last {s : State} (h : s.dp.remain = 1) :
    advance s = .ok () (s.mapDp fun d => { d with remain := 0, off := d.off + blockLen }) := by
  have : advance s = if s.dp.remain - 1 = 0 then
      .ok () (s.mapDp fun d => { d with remain := d.remain - 1, off := d.off + blockLen }) else _ := rfl
  rw [this, h, if_pos (by decide)]
  simp only [State.mapDp, h]
  rfl

theorem advance_next {s : State} (h : 2 ≤ s.dp.remain.toNat) (hs : s.dp.sect.toNat + 1 < 2 ^ 32) :
    advance s = .ok () (s.mapDp fun d =>
      { d with remain := d.remain - 1, off := d.off + blockLen, sect := d.sect + 1 }) := by
  have : advance s = if s.dp.remain - 1 = 0 then _ else if s.dp.sect = 0xFFFFFFFF then _ else
      .ok () (s.mapDp fun d => { d with remain := d.remain - 1, off := d.off + blockLen, sect := d.sect + 1 }) := rfl
  rw [this, if_neg, if_neg]
  · intro h2
    rw [h2] at hs
    simp at hs
  · intro h2
    have := congrArg BitVec.toNat h2
    simp [BitVec.toNat_sub] at this
    omega

/-! ## Read runs (R160) -/

theorem storeBuf_eq (s : State) :
    storeBuf s = .ok () (s.setBuffer (s.buffer.writeBytes s.dp.off s.dp.buf.toList)) := rfl

/-- The bytes of several block reads. -/
def readBytesOf (answers : List ReadAnswer) : List Byte := answers.flatMap ReadAnswer.bytes

theorem ofNat_succ (n : Nat) : BitVec.ofNat 32 n + 1 = BitVec.ofNat 32 (n + 1) := by
  apply BitVec.eq_of_toNat_eq
  simp

theorem readEvents_append (t : CardType) (sector : Word) (as : List ReadAnswer) (b : ReadAnswer) :
    readEvents t sector (as ++ [b]) =
      readEvents t sector as ++ b.events (protocolAddress t (sector + BitVec.ofNat 32 as.length)) := by
  induction as generalizing sector with
  | nil => simp [readEvents]
  | cons a as ih =>
    simp only [List.cons_append, readEvents, ih, List.length_cons, List.append_assoc]
    rw [BitVec.add_assoc, BitVec.add_comm 1, ofNat_succ]

theorem putBlocks_append (m : Memory) (off : Nat) (as : List ReadAnswer) (b : ReadAnswer) :
    putBlocks m off (as ++ [b]) = (putBlocks m off as).writeBytes (off + 512 * as.length) b.payload.toList := by
  induction as generalizing m off with
  | nil => simp [putBlocks]
  | cons a as ih =>
    simp only [List.cons_append, putBlocks, ih, List.length_cons]
    congr 1
    omega

/-- The state after some sectors of a READ_RUN. -/
def State.readTo (s : State) (answers : List ReadAnswer) (rest : List Reply) (d : Datapath) : State :=
  { s with
    card := rest
    log := (readEvents s.ctype s.dp.sect answers).reverse ++ s.log
    cs := s.cs && answers.isEmpty
    dp := d
    buffer := putBlocks s.buffer s.dp.off answers }

/-- One sector of a READ_RUN that is served. -/
theorem readSector_served (a : ReadAnswer) (s : State) (rest : List Reply) (n : Nat) (hok : a.ok s.cfg = true)
    (hcard : s.card = replies a.bytes ++ rest) (haddr : s.dp.sect.toNat < sectorLimit s.ctype) :
    ∃ d, readLoop (n + 1) s = (advance.andThen (readLoop n)) (s.readTo [a] rest d) ∧ d.sect = s.dp.sect ∧
      d.remain = s.dp.remain ∧ d.off = s.dp.off := by
  have h1 := setAddress_ok haddr
  have h2 := gives_readBlock (c := s.cfg) (protocolAddress s.ctype s.dp.sect) a hok
    (s.mapDp fun d => { d with addr := protocolAddress s.ctype s.dp.sect }) rest rfl rfl hcard
  refine ⟨{ ({ s.dp with addr := protocolAddress s.ctype s.dp.sect } : Datapath).framed 17
    (protocolAddress s.ctype s.dp.sect) with
      r1 := 0x00, poll := a.gap.length + 1, buf := a.payload, crc16 := a.crcHi ++ a.crcLo }, ?_, rfl, rfl, rfl⟩
  rw [readLoop, Proc.bind_ok h1, Proc.andThen_ok h2, Proc.andThen_ok (storeBuf_eq _)]
  congr 1
  simp [State.readTo, readEvents, putBlocks, State.saw, State.setBuffer, State.setCs, State.mapDp, Datapath.framed]

/-- The sectors of a READ_RUN that are served, with at least one sector still to do. -/
theorem readLoop_some (answers : List ReadAnswer) (k : Nat) (s : State) (rest : List Reply)
    (hok : ∀ a ∈ answers, a.ok s.cfg = true) (hcard : s.card = replies (readBytesOf answers) ++ rest)
    (hrem : s.dp.remain.toNat = answers.length + (k + 1)) (hlim : s.dp.sect.toNat + answers.length ≤ sectorLimit s.ctype)
    (hwrap : s.dp.sect.toNat + answers.length < 2 ^ 32) :
    ∃ d, readLoop (answers.length + (k + 1)) s = readLoop (k + 1) (s.readTo answers rest d) ∧
      d.sect.toNat = s.dp.sect.toNat + answers.length ∧ d.remain.toNat = k + 1 ∧
        d.off = s.dp.off + 512 * answers.length := by
  induction answers generalizing s with
  | nil =>
    refine ⟨s.dp, ?_, by simp, by simpa using hrem, by simp⟩
    simp only [readBytesOf, List.flatMap_nil, replies_nil, List.nil_append] at hcard
    subst hcard
    simp [State.readTo, readEvents, putBlocks]
  | cons a as ih =>
    simp only [List.length_cons] at hrem hlim hwrap
    have hcard2 : s.card = replies a.bytes ++ (replies (readBytesOf as) ++ rest) := by
      rw [hcard]; simp [readBytesOf]
    obtain ⟨d1, h1, hs1, hr1, ho1⟩ := readSector_served a s _ (as.length + (k + 1)) (hok a (List.mem_cons_self ..)) hcard2
      (by omega)
    have hr2 : 2 ≤ (s.readTo [a] (replies (readBytesOf as) ++ rest) d1).dp.remain.toNat := by
      show 2 ≤ d1.remain.toNat
      rw [hr1, hrem]; omega
    have hsl : (s.readTo [a] (replies (readBytesOf as) ++ rest) d1).dp.sect.toNat + 1 < 2 ^ 32 := by
      show d1.sect.toNat + 1 < 2 ^ 32
      rw [hs1]; omega
    have hsn : (d1.sect + 1).toNat = s.dp.sect.toNat + 1 := by
      rw [← hs1]
      change d1.sect.toNat + 1 < 2 ^ 32 at hsl
      simp [BitVec.toNat_add]
      omega
    have hrn : (d1.remain - 1).toNat = as.length + (k + 1) := by
      have := s.dp.remain.isLt
      rw [hr1]
      simp only [BitVec.toNat_sub, hrem]
      simp
      omega
    obtain ⟨d2, h2, hs2, hr3, ho2⟩ := ih ((s.readTo [a] (replies (readBytesOf as) ++ rest) d1).mapDp fun d =>
        { d with remain := d.remain - 1, off := d.off + blockLen, sect := d.sect + 1 })
      (fun x hx => hok x (List.mem_cons_of_mem _ hx)) rfl hrn
      (by show (d1.sect + 1).toNat + _ ≤ sectorLimit s.ctype; rw [hsn]; omega)
      (by show (d1.sect + 1).toNat + _ < _; rw [hsn]; omega)
    refine ⟨d2, ?_, ?_, hr3, ?_⟩
    · rw [List.length_cons, show as.length + 1 + (k + 1) = as.length + (k + 1) + 1 by omega, h1,
        Proc.andThen_ok (advance_next hr2 hsl), h2]
      congr 1
      have hs1' : (d1.sect + 1) = s.dp.sect + 1 := by rw [hs1]
      have ho1' : d1.off + blockLen = s.dp.off + 512 := by rw [ho1]; rfl
      simp only [State.readTo, State.mapDp, hs1', ho1', readEvents, putBlocks, List.append_nil, List.reverse_append,
        List.append_assoc, List.isEmpty_cons, Bool.and_false, Bool.false_and]
    · rw [hs2]; show (d1.sect + 1).toNat + _ = _; rw [hsn, List.length_cons]; omega
    · rw [ho2]; show d1.off + blockLen + _ = _; rw [ho1, List.length_cons]; simp only [blockLen]; omega

/-- A READ_RUN whose sectors are all served. -/
theorem readLoop_served (answers : List ReadAnswer) (s : State) (rest : List Reply)
    (hok : ∀ a ∈ answers, a.ok s.cfg = true) (hcard : s.card = replies (readBytesOf answers) ++ rest)
    (hrem : s.dp.remain.toNat = answers.length) (hlim : s.dp.sect.toNat + answers.length ≤ sectorLimit s.ctype) :
    ∃ d, readLoop answers.length s = .ok () (s.readTo answers rest d) := by
  rcases List.eq_nil_or_concat answers with h | ⟨as, b, h⟩
  · subst h
    refine ⟨s.dp, ?_⟩
    simp only [readBytesOf, List.flatMap_nil, replies_nil, List.nil_append] at hcard
    subst hcard
    simp [readLoop, ret, State.readTo, readEvents, putBlocks]
  · rw [List.concat_eq_append] at h
    subst h
    have hl := sectorLimit_le s.ctype
    simp only [List.length_append, List.length_singleton] at hrem hlim
    obtain ⟨d1, h1, hs1, hr1, ho1⟩ := readLoop_some as 0 s (replies b.bytes ++ rest)
      (fun a ha => hok a (by simp [ha])) (by rw [hcard]; simp [readBytesOf]) (by omega) (by omega) (by omega)
    obtain ⟨d2, h2, hs2, hr2, ho2⟩ := readSector_served b (s.readTo as (replies b.bytes ++ rest) d1) rest 0
      (hok b (by simp)) rfl (by show d1.sect.toNat < sectorLimit s.ctype; omega)
    have hr : ((s.readTo as (replies b.bytes ++ rest) d1).readTo [b] rest d2).dp.remain = 1 := by
      show d2.remain = 1
      exact BitVec.eq_of_toNat_eq (by rw [hr2]; show d1.remain.toNat = _; rw [hr1]; rfl)
    refine ⟨{ d2 with remain := 0, off := d2.off + blockLen }, ?_⟩
    have hsect : d1.sect = s.dp.sect + BitVec.ofNat 32 as.length := by
      apply BitVec.eq_of_toNat_eq
      rw [hs1]
      simp [BitVec.toNat_add]
      omega
    have he : (as ++ [b]).isEmpty = false := by simp
    rw [List.length_append, List.length_singleton, h1, h2, Proc.andThen_ok (advance_last hr)]
    show Res.ok () _ = _
    congr 1
    simp only [State.readTo, State.mapDp, readEvents_append, putBlocks_append, hsect, ho1, readEvents, putBlocks,
      List.append_nil, List.reverse_append, List.append_assoc, he, List.isEmpty_cons, Bool.and_false]

/-! ## Write runs (R161) -/

/-- The bytes of several block writes. -/
def writeBytesOf (answers : List WriteAnswer) : List Byte := answers.flatMap WriteAnswer.bytes

theorem writeEvents_append (t : CardType) (m : Memory) (sector : Word) (off : Nat) (as : List WriteAnswer)
    (b : WriteAnswer) :
    writeEvents t m sector off (as ++ [b]) = writeEvents t m sector off as ++
      b.events (protocolAddress t (sector + BitVec.ofNat 32 as.length)) (m.readBytes (off + 512 * as.length) 512) := by
  induction as generalizing sector off with
  | nil => simp [writeEvents]
  | cons a as ih =>
    simp only [List.cons_append, writeEvents, ih, List.length_cons, List.append_assoc]
    have h1 : sector + 1 + BitVec.ofNat 32 as.length = sector + BitVec.ofNat 32 (as.length + 1) := by
      rw [BitVec.add_assoc, BitVec.add_comm 1, ofNat_succ]
    have h2 : off + 512 + 512 * as.length = off + 512 * (as.length + 1) := by omega
    rw [h1, h2]

/-- The state after some sectors of a WRITE_RUN. -/
def State.wroteTo (s : State) (answers : List WriteAnswer) (rest : List Reply) (d : Datapath) : State :=
  { s with
    card := rest
    log := (writeEvents s.ctype s.buffer s.dp.sect s.dp.off answers).reverse ++ s.log
    cs := s.cs && answers.isEmpty
    dp := d }

theorem loadBuf_eq (s : State) :
    loadBuf s = .ok () (s.mapDp fun d => { d with buf := s.buffer.readBlock d.off }) := rfl

theorem WriteAnswer.taken_iff {a : WriteAnswer} {c : Config} : a.taken c = true ↔
    a.ok c = true ∧ classifyDresp a.dresp = .accepted ∧ a.leavesBusy (c.nBusy.getD 1) = true := by
  simp [WriteAnswer.taken, Bool.and_eq_true]

/-- One sector of a WRITE_RUN that is taken. -/
theorem writeSector_taken (a : WriteAnswer) (s : State) (rest : List Reply) (n : Nat) (hok : a.taken s.cfg = true)
    (hcard : s.card = replies a.bytes ++ rest) (haddr : s.dp.sect.toNat < sectorLimit s.ctype) :
    ∃ d, writeLoop (n + 1) s = (advance.andThen (writeLoop n)) (s.wroteTo [a] rest d) ∧ d.sect = s.dp.sect ∧
      d.remain = s.dp.remain ∧ d.off = s.dp.off := by
  obtain ⟨hw, hd, hb⟩ := WriteAnswer.taken_iff.1 hok
  have h1 := setAddress_ok haddr
  have h2 := gives_writeBlock_ok (c := s.cfg) (protocolAddress s.ctype s.dp.sect) a hw hd hb
    ((s.mapDp fun d => { d with addr := protocolAddress s.ctype s.dp.sect }).mapDp fun d =>
      { d with buf := s.buffer.readBlock d.off }) rest (by simp only [State.mapDp_cfg]) rfl
    (by simpa only [State.mapDp_card] using hcard)
  refine ⟨{ ({ s.dp with addr := protocolAddress s.ctype s.dp.sect, buf := s.buffer.readBlock s.dp.off } :
    Datapath).framed 24 (protocolAddress s.ctype s.dp.sect) with
      r1 := 0x00, dresp := a.dresp, poll := a.busy.length }, ?_, rfl, rfl, rfl⟩
  rw [writeLoop, Proc.bind_ok h1, Proc.andThen_ok (loadBuf_eq _)]
  simp only [State.mapDp_buffer]
  rw [Proc.bind_ok h2, if_pos rfl]
  refine congrArg _ ?_
  simp only [State.wroteTo, writeEvents, State.saw, State.setCs, State.mapDp, Datapath.framed, List.append_nil,
    Memory.readBlock_toList, List.isEmpty_cons, Bool.and_false]

/-- The sectors of a WRITE_RUN that are taken, with at least one sector still to do. -/
theorem writeLoop_some (answers : List WriteAnswer) (k : Nat) (s : State) (rest : List Reply)
    (hok : ∀ a ∈ answers, a.taken s.cfg = true) (hcard : s.card = replies (writeBytesOf answers) ++ rest)
    (hrem : s.dp.remain.toNat = answers.length + (k + 1)) (hlim : s.dp.sect.toNat + answers.length ≤ sectorLimit s.ctype)
    (hwrap : s.dp.sect.toNat + answers.length < 2 ^ 32) :
    ∃ d, writeLoop (answers.length + (k + 1)) s = writeLoop (k + 1) (s.wroteTo answers rest d) ∧
      d.sect.toNat = s.dp.sect.toNat + answers.length ∧ d.remain.toNat = k + 1 ∧
        d.off = s.dp.off + 512 * answers.length := by
  induction answers generalizing s with
  | nil =>
    refine ⟨s.dp, ?_, by simp, by simpa using hrem, by simp⟩
    simp only [writeBytesOf, List.flatMap_nil, replies_nil, List.nil_append] at hcard
    subst hcard
    simp [State.wroteTo, writeEvents]
  | cons a as ih =>
    simp only [List.length_cons] at hrem hlim hwrap
    have hcard2 : s.card = replies a.bytes ++ (replies (writeBytesOf as) ++ rest) := by
      rw [hcard]; simp [writeBytesOf]
    obtain ⟨d1, h1, hs1, hr1, ho1⟩ := writeSector_taken a s _ (as.length + (k + 1)) (hok a (List.mem_cons_self ..)) hcard2
      (by omega)
    have hr2 : 2 ≤ (s.wroteTo [a] (replies (writeBytesOf as) ++ rest) d1).dp.remain.toNat := by
      show 2 ≤ d1.remain.toNat
      rw [hr1, hrem]; omega
    have hsl : (s.wroteTo [a] (replies (writeBytesOf as) ++ rest) d1).dp.sect.toNat + 1 < 2 ^ 32 := by
      show d1.sect.toNat + 1 < 2 ^ 32
      rw [hs1]; omega
    have hsn : (d1.sect + 1).toNat = s.dp.sect.toNat + 1 := by
      rw [← hs1]
      change d1.sect.toNat + 1 < 2 ^ 32 at hsl
      simp [BitVec.toNat_add]
      omega
    have hrn : (d1.remain - 1).toNat = as.length + (k + 1) := by
      have := s.dp.remain.isLt
      rw [hr1]
      simp only [BitVec.toNat_sub, hrem]
      simp
      omega
    obtain ⟨d2, h2, hs2, hr3, ho2⟩ := ih ((s.wroteTo [a] (replies (writeBytesOf as) ++ rest) d1).mapDp fun d =>
        { d with remain := d.remain - 1, off := d.off + blockLen, sect := d.sect + 1 })
      (fun x hx => hok x (List.mem_cons_of_mem _ hx)) rfl hrn
      (by show (d1.sect + 1).toNat + _ ≤ sectorLimit s.ctype; rw [hsn]; omega)
      (by show (d1.sect + 1).toNat + _ < _; rw [hsn]; omega)
    refine ⟨d2, ?_, ?_, hr3, ?_⟩
    · rw [List.length_cons, show as.length + 1 + (k + 1) = as.length + (k + 1) + 1 by omega, h1,
        Proc.andThen_ok (advance_next hr2 hsl), h2]
      congr 1
      have hs1' : (d1.sect + 1) = s.dp.sect + 1 := by rw [hs1]
      have ho1' : d1.off + blockLen = s.dp.off + 512 := by rw [ho1]; rfl
      simp only [State.wroteTo, State.mapDp, hs1', ho1', writeEvents, List.append_nil, List.reverse_append,
        List.append_assoc, List.isEmpty_cons, Bool.and_false, Bool.false_and]
    · rw [hs2]; show (d1.sect + 1).toNat + _ = _; rw [hsn, List.length_cons]; omega
    · rw [ho2]; show d1.off + blockLen + _ = _; rw [ho1, List.length_cons]; simp only [blockLen]; omega

/-- A WRITE_RUN whose sectors are all taken. -/
theorem writeLoop_taken (answers : List WriteAnswer) (s : State) (rest : List Reply)
    (hok : ∀ a ∈ answers, a.taken s.cfg = true) (hcard : s.card = replies (writeBytesOf answers) ++ rest)
    (hrem : s.dp.remain.toNat = answers.length) (hlim : s.dp.sect.toNat + answers.length ≤ sectorLimit s.ctype) :
    ∃ d, writeLoop answers.length s = .ok true (s.wroteTo answers rest d) := by
  rcases List.eq_nil_or_concat answers with h | ⟨as, b, h⟩
  · subst h
    refine ⟨s.dp, ?_⟩
    simp only [writeBytesOf, List.flatMap_nil, replies_nil, List.nil_append] at hcard
    subst hcard
    simp [writeLoop, ret, State.wroteTo, writeEvents]
  · rw [List.concat_eq_append] at h
    subst h
    have hl := sectorLimit_le s.ctype
    simp only [List.length_append, List.length_singleton] at hrem hlim
    obtain ⟨d1, h1, hs1, hr1, ho1⟩ := writeLoop_some as 0 s (replies b.bytes ++ rest)
      (fun a ha => hok a (by simp [ha])) (by rw [hcard]; simp [writeBytesOf]) (by omega) (by omega) (by omega)
    obtain ⟨d2, h2, hs2, hr2, ho2⟩ := writeSector_taken b (s.wroteTo as (replies b.bytes ++ rest) d1) rest 0
      (hok b (by simp)) rfl (by show d1.sect.toNat < sectorLimit s.ctype; omega)
    have hr : ((s.wroteTo as (replies b.bytes ++ rest) d1).wroteTo [b] rest d2).dp.remain = 1 := by
      show d2.remain = 1
      exact BitVec.eq_of_toNat_eq (by rw [hr2]; show d1.remain.toNat = _; rw [hr1]; rfl)
    refine ⟨{ d2 with remain := 0, off := d2.off + blockLen }, ?_⟩
    have hsect : d1.sect = s.dp.sect + BitVec.ofNat 32 as.length := by
      apply BitVec.eq_of_toNat_eq
      rw [hs1]
      simp [BitVec.toNat_add]
      omega
    have he : (as ++ [b]).isEmpty = false := by simp
    rw [List.length_append, List.length_singleton, h1, h2, Proc.andThen_ok (advance_last hr)]
    show Res.ok true _ = _
    congr 1
    simp only [State.wroteTo, State.mapDp, writeEvents_append, hsect, ho1, writeEvents, List.append_nil,
      List.reverse_append, List.append_assoc, he, List.isEmpty_cons, Bool.and_false]

/-! ## Runs that come to the end of the addresses -/

theorem advance_wraps {s : State} (h : 2 ≤ s.dp.remain.toNat) (hs : s.dp.sect = 0xFFFFFFFF) :
    advance s = .err .addressOverflow (s.mapDp fun d => { d with remain := d.remain - 1, off := d.off + blockLen }) := by
  have : advance s = if s.dp.remain - 1 = 0 then _ else if s.dp.sect = 0xFFFFFFFF then
      .err .addressOverflow (s.mapDp fun d => { d with remain := d.remain - 1, off := d.off + blockLen }) else _ := rfl
  rw [this, if_neg, if_pos hs]
  intro h2
  have := congrArg BitVec.toNat h2
  simp [BitVec.toNat_sub] at this
  omega

/-- A READ_RUN that comes to a sector without an address (R204, D20). -/
theorem readLoop_overflow (answers : List ReadAnswer) (k : Nat) (s : State) (rest : List Reply)
    (hok : ∀ a ∈ answers, a.ok s.cfg = true) (hcard : s.card = replies (readBytesOf answers) ++ rest)
    (hrem : s.dp.remain.toNat = answers.length + (k + 1))
    (hlim : s.dp.sect.toNat + answers.length = sectorLimit s.ctype) :
    ∃ d, readLoop (answers.length + (k + 1)) s = .err .addressOverflow (s.readTo answers rest d) := by
  have h32 := sectorLimit_le s.ctype
  by_cases hw : s.dp.sect.toNat + answers.length < 2 ^ 32
  · obtain ⟨d, h, hs, hr, ho⟩ := readLoop_some answers k s rest hok hcard hrem (le_of_eq hlim) hw
    have h2 : setAddress (s.readTo answers rest d) = .err .addressOverflow _ :=
      setAddress_overflow (by show sectorLimit s.ctype ≤ d.sect.toNat; rw [hs]; exact hlim.ge)
    exact ⟨d, by rw [h, readLoop, Proc.bind_err h2]⟩
  · have hne : answers ≠ [] := by
      rintro rfl
      have := s.dp.sect.isLt
      simp at hw; omega
    obtain ⟨as, b, rfl⟩ := List.eq_nil_or_concat answers |>.resolve_left hne
    rw [List.concat_eq_append] at *
    simp only [List.length_append, List.length_singleton] at hrem hlim hw
    obtain ⟨d1, h1, hs1, hr1, ho1⟩ := readLoop_some as (k + 1) s (replies b.bytes ++ rest)
      (fun a ha => hok a (by simp [ha])) (by rw [hcard]; simp [readBytesOf]) (by omega) (by omega) (by omega)
    obtain ⟨d2, h2, hs2, hr2, ho2⟩ := readSector_served b (s.readTo as (replies b.bytes ++ rest) d1) rest (k + 1)
      (hok b (by simp)) rfl (by show d1.sect.toNat < sectorLimit s.ctype; omega)
    have h3 := advance_wraps (s := (s.readTo as (replies b.bytes ++ rest) d1).readTo [b] rest d2)
      (by show 2 ≤ d2.remain.toNat; rw [hr2]; show 2 ≤ d1.remain.toNat; omega)
      (by show d2.sect = _; rw [hs2]; exact BitVec.eq_of_toNat_eq (by show d1.sect.toNat = 4294967295; omega))
    refine ⟨{ d2 with remain := d2.remain - 1, off := d2.off + blockLen }, ?_⟩
    have hsect : d1.sect = s.dp.sect + BitVec.ofNat 32 as.length := by
      apply BitVec.eq_of_toNat_eq
      rw [hs1]
      simp [BitVec.toNat_add]
      omega
    have he : (as ++ [b]).isEmpty = false := by simp
    rw [List.length_append, List.length_singleton, show as.length + 1 + (k + 1) = as.length + (k + 1 + 1) by omega,
      h1, h2,
      Proc.andThen_err h3]
    congr 1
    simp only [State.readTo, State.mapDp, readEvents_append, putBlocks_append, hsect, ho1, readEvents, putBlocks,
      List.append_nil, List.reverse_append, List.append_assoc, he, List.isEmpty_cons, Bool.and_false]

/-- A WRITE_RUN that comes to a sector without an address (R204, D20). -/
theorem writeLoop_overflow (answers : List WriteAnswer) (k : Nat) (s : State) (rest : List Reply)
    (hok : ∀ a ∈ answers, a.taken s.cfg = true) (hcard : s.card = replies (writeBytesOf answers) ++ rest)
    (hrem : s.dp.remain.toNat = answers.length + (k + 1))
    (hlim : s.dp.sect.toNat + answers.length = sectorLimit s.ctype) :
    ∃ d, writeLoop (answers.length + (k + 1)) s = .err .addressOverflow (s.wroteTo answers rest d) := by
  have h32 := sectorLimit_le s.ctype
  by_cases hw : s.dp.sect.toNat + answers.length < 2 ^ 32
  · obtain ⟨d, h, hs, hr, ho⟩ := writeLoop_some answers k s rest hok hcard hrem (le_of_eq hlim) hw
    have h2 : setAddress (s.wroteTo answers rest d) = .err .addressOverflow _ :=
      setAddress_overflow (by show sectorLimit s.ctype ≤ d.sect.toNat; rw [hs]; exact hlim.ge)
    exact ⟨d, by rw [h, writeLoop, Proc.bind_err h2]⟩
  · have hne : answers ≠ [] := by
      rintro rfl
      have := s.dp.sect.isLt
      simp at hw; omega
    obtain ⟨as, b, rfl⟩ := List.eq_nil_or_concat answers |>.resolve_left hne
    rw [List.concat_eq_append] at *
    simp only [List.length_append, List.length_singleton] at hrem hlim hw
    obtain ⟨d1, h1, hs1, hr1, ho1⟩ := writeLoop_some as (k + 1) s (replies b.bytes ++ rest)
      (fun a ha => hok a (by simp [ha])) (by rw [hcard]; simp [writeBytesOf]) (by omega) (by omega) (by omega)
    obtain ⟨d2, h2, hs2, hr2, ho2⟩ := writeSector_taken b (s.wroteTo as (replies b.bytes ++ rest) d1) rest (k + 1)
      (hok b (by simp)) rfl (by show d1.sect.toNat < sectorLimit s.ctype; omega)
    have h3 := advance_wraps (s := (s.wroteTo as (replies b.bytes ++ rest) d1).wroteTo [b] rest d2)
      (by show 2 ≤ d2.remain.toNat; rw [hr2]; show 2 ≤ d1.remain.toNat; omega)
      (by show d2.sect = _; rw [hs2]; exact BitVec.eq_of_toNat_eq (by show d1.sect.toNat = 4294967295; omega))
    refine ⟨{ d2 with remain := d2.remain - 1, off := d2.off + blockLen }, ?_⟩
    have hsect : d1.sect = s.dp.sect + BitVec.ofNat 32 as.length := by
      apply BitVec.eq_of_toNat_eq
      rw [hs1]
      simp [BitVec.toNat_add]
      omega
    have he : (as ++ [b]).isEmpty = false := by simp
    rw [List.length_append, List.length_singleton, show as.length + 1 + (k + 1) = as.length + (k + 1 + 1) by omega,
      h1, h2,
      Proc.andThen_err h3]
    congr 1
    simp only [State.wroteTo, State.mapDp, writeEvents_append, hsect, ho1, writeEvents, List.append_nil,
      List.reverse_append, List.append_assoc, he, List.isEmpty_cons, Bool.and_false]

/-! ## Host operations -/

theorem hostOp_free {s : State} (h : s.lockFree = true) (body : State → Turn) :
    hostOp body s = .next (body s.begin).finish := by
  rw [hostOp, if_pos h]

theorem typeChecked_known {s : State} (h : s.ctype ≠ .unknown) (r : Result) (body : State → Turn) :
    typeChecked r body s = body s := by
  rw [typeChecked, if_neg h]

/-- The state at the start of a run, inside its host operation. -/
def State.runStart (s : State) (sector count : Word) : State :=
  s.begin.mapDp fun d => { d with sect := sector, remain := count, off := 0 }

theorem exec_readSectors {s : State} (hf : s.lockFree = true) (ht : s.ctype ≠ .unknown) (sector count timeout : Word) :
    exec (.readSectors sector count timeout) s =
      .next (readTurn (readLoop count.toNat (s.runStart sector count))).finish := by
  simp only [exec, execReadSectors]
  rw [hostOp_free hf, typeChecked_known (s := s.begin) ht]
  rfl

theorem exec_readSector {s : State} (hf : s.lockFree = true) (ht : s.ctype ≠ .unknown) (sector : Word) :
    exec (.readSector sector) s = .next (readTurn (readLoop 1 (s.runStart sector 1))).finish := by
  simp only [exec, execReadSector]
  rw [hostOp_free hf, typeChecked_known (s := s.begin) ht]
  rfl

theorem exec_writeSectors {s : State} (hf : s.lockFree = true) (ht : s.ctype ≠ .unknown) (sector count timeout : Word) :
    exec (.writeSectors sector count timeout) s =
      .next (writeTurn (writeLoop count.toNat (s.runStart sector count))).finish := by
  simp only [exec, execWriteSectors]
  rw [hostOp_free hf, typeChecked_known (s := s.begin) ht]
  rfl

theorem exec_writeSector {s : State} (hf : s.lockFree = true) (ht : s.ctype ≠ .unknown) (sector : Word) :
    exec (.writeSector sector) s = .next (writeTurn (writeLoop 1 (s.runStart sector 1))).finish := by
  simp only [exec, execWriteSector]
  rw [hostOp_free hf, typeChecked_known (s := s.begin) ht]
  rfl

/-! ### The ends of runs, as states -/

theorem finish_readTo (s : State) (sector count : Word) (answers : List ReadAnswer) (rest : List Reply)
    (d : Datapath) (r : Result) :
    (Turn.done r ((s.runStart sector count).readTo answers rest d)).finish =
      { s.served (readEvents s.ctype sector answers) rest r with
        cs := s.cs && answers.isEmpty, buffer := putBlocks s.buffer 0 answers } := by
  simp only [Turn.finish, State.forget, State.lockRelease, State.setHold, State.setResult, State.setLock,
    State.record, State.readTo, State.runStart, State.begin, State.lockAcquire, State.setErr, State.mapDp, State.served]

theorem finish_readTo_err (s : State) (sector count : Word) (answers : List ReadAnswer) (rest : List Reply)
    (d : Datapath) (r : Result) (k : ErrKind) :
    (Turn.done r (((s.runStart sector count).readTo answers rest d).setErr k)).finish =
      { s.served (readEvents s.ctype sector answers) rest r with
        cs := s.cs && answers.isEmpty, err := k, buffer := putBlocks s.buffer 0 answers } := by
  simp only [Turn.finish, State.forget, State.lockRelease, State.setHold, State.setResult, State.setLock,
    State.record, State.readTo, State.runStart, State.begin, State.lockAcquire, State.setErr, State.mapDp, State.served]

theorem finish_wroteTo (s : State) (sector count : Word) (answers : List WriteAnswer) (rest : List Reply)
    (d : Datapath) (r : Result) :
    (Turn.done r ((s.runStart sector count).wroteTo answers rest d)).finish =
      { s.served (writeEvents s.ctype s.buffer sector 0 answers) rest r with
        cs := s.cs && answers.isEmpty } := by
  simp only [Turn.finish, State.forget, State.lockRelease, State.setHold, State.setResult, State.setLock,
    State.record, State.wroteTo, State.runStart, State.begin, State.lockAcquire, State.setErr, State.mapDp, State.served]

theorem finish_wroteTo_err (s : State) (sector count : Word) (answers : List WriteAnswer) (rest : List Reply)
    (d : Datapath) (r : Result) (k : ErrKind) :
    (Turn.done r (((s.runStart sector count).wroteTo answers rest d).setErr k)).finish =
      { s.served (writeEvents s.ctype s.buffer sector 0 answers) rest r with
        cs := s.cs && answers.isEmpty, err := k } := by
  simp only [Turn.finish, State.forget, State.lockRelease, State.setHold, State.setResult, State.setLock,
    State.record, State.wroteTo, State.runStart, State.begin, State.lockAcquire, State.setErr, State.mapDp, State.served]

theorem finish_start_err (s : State) (sector count : Word) (r : Result) (k : ErrKind) :
    (Turn.done r ((s.runStart sector count).setErr k)).finish =
      { s.served [] s.card r with cs := s.cs, err := k } := by
  simp only [Turn.finish, State.forget, State.lockRelease, State.setHold, State.setResult, State.setLock,
    State.record, State.runStart, State.begin, State.lockAcquire, State.setErr, State.mapDp, State.served,
      List.reverse_nil, List.nil_append]

theorem isEmpty_false {α : Type} {l : List α} (h : l ≠ []) : l.isEmpty = false := by cases l <;> simp_all

theorem putBlocks_outside (m : Memory) (off : Nat) (answers : List ReadAnswer) (a : Nat)
    (h : a < off ∨ off + 512 * answers.length ≤ a) : (putBlocks m off answers).read a = m.read a := by
  induction answers generalizing m off with
  | nil => rfl
  | cons x xs ih =>
    simp only [List.length_cons] at h
    rw [putBlocks, ih _ _ (by omega), Memory.read_writeBytes_outside]
    rw [Vector.length_toList]
    clear ih
    rcases h with h | h
    · exact .inl h
    · refine .inr (le_trans ?_ h)
      rw [Nat.mul_add, ← Nat.add_assoc]
      exact Nat.add_le_add_right (Nat.le_add_right _ _) _

theorem putBlocks_inside (m : Memory) (off : Nat) (answers : List ReadAnswer) (i : Nat) (x : ReadAnswer)
    (h : answers[i]? = some x) (j : Nat) (hj : j < 512) :
    (putBlocks m off answers).read (off + 512 * i + j) = x.payload[j] := by
  induction answers generalizing m off i with
  | nil => simp at h
  | cons y ys ih =>
    cases i with
    | zero =>
      simp at h
      subst h
      rw [putBlocks, putBlocks_outside _ _ _ _ (by omega), Nat.mul_zero, Nat.add_zero,
        Memory.read_writeBytes_inside _ _ _ (by simpa using hj)]
      simp
    | succ i =>
      have := ih (m.writeBytes off y.payload.toList) (off + 512) i (by simpa using h)
      rw [putBlocks, ← this]
      congr 1
      omega

end Sys2Proof.Machine
end

