-- ==== Sys2Proof/Laws/Frames.lean ====
section
/-! SUPPORT. Frames of the procedures, in every state and whatever the card does: what a transaction, a run and the card
session leave unchanged, and how their events move the chip-select line (R42, R64). -/

namespace Sys2Proof.Machine

/-! ## What stays -/

/-- Only the card's outcomes, the trace (which grows), CS and the datapath may differ. -/
structure Quiet (s t : State) : Prop where
  cfg : t.cfg = s.cfg
  ctype : t.ctype = s.ctype
  speed : t.speed = s.speed
  lock : t.lock = s.lock
  fsm : t.fsm = s.fsm
  err : t.err = s.err
  warn : t.warnIdleR1 = s.warnIdleR1
  visits : t.visits = s.visits
  buffer : t.buffer = s.buffer
  grant : t.grant = s.grant
  port : t.port = s.port
  bench : t.bench = s.bench
  hold : t.hold = s.hold
  result : t.result = s.result
  log : ∃ new, t.log = new ++ s.log

theorem Quiet.refl (s : State) : Quiet s s := ⟨rfl, rfl, rfl, rfl, rfl, rfl, rfl, rfl, rfl, rfl, rfl, rfl, rfl, rfl, [], rfl⟩

theorem Quiet.trans {s t u : State} (h : Quiet s t) (g : Quiet t u) : Quiet s u := by
  refine ⟨g.cfg.trans h.cfg, g.ctype.trans h.ctype, g.speed.trans h.speed, g.lock.trans h.lock, g.fsm.trans h.fsm,
    g.err.trans h.err, g.warn.trans h.warn, g.visits.trans h.visits, g.buffer.trans h.buffer, g.grant.trans h.grant,
    g.port.trans h.port, g.bench.trans h.bench, g.hold.trans h.hold, g.result.trans h.result, ?_⟩
  obtain ⟨a, ha⟩ := h.log
  obtain ⟨b, hb⟩ := g.log
  exact ⟨b ++ a, by rw [hb, ha, List.append_assoc]⟩

theorem quiet_xchg (s : State) (m : Byte) (o : Reply) : Quiet s (s.takeReply.record (.xchg m o)) := by
  unfold State.takeReply
  split <;> exact ⟨rfl, rfl, rfl, rfl, rfl, rfl, rfl, rfl, rfl, rfl, rfl, rfl, rfl, rfl, [.xchg m o], rfl⟩

theorem quiet_record (s : State) (e : Event) : Quiet s (s.record e) :=
  ⟨rfl, rfl, rfl, rfl, rfl, rfl, rfl, rfl, rfl, rfl, rfl, rfl, rfl, rfl, [e], rfl⟩

theorem quiet_mapDp (s : State) (f : Datapath → Datapath) : Quiet s (s.mapDp f) :=
  ⟨rfl, rfl, rfl, rfl, rfl, rfl, rfl, rfl, rfl, rfl, rfl, rfl, rfl, rfl, [], rfl⟩

theorem quiet_wire : WireRel (fun _ => True) Quiet where
  refl := Quiet.refl
  trans := Quiet.trans
  xchg := quiet_xchg
  reg := fun s f _ => quiet_mapDp s f

theorem quiet_window : WindowRel Quiet where
  open_ := fun _ => ⟨rfl, rfl, rfl, rfl, rfl, rfl, rfl, rfl, rfl, rfl, rfl, rfl, rfl, rfl, [.csAssert], rfl⟩
  close := fun _ => ⟨rfl, rfl, rfl, rfl, rfl, rfl, rfl, rfl, rfl, rfl, rfl, rfl, rfl, rfl, [.csDeassert], rfl⟩

theorem quiet_card : CardRel Quiet := quiet_wire.card quiet_window fun s _ => quiet_record s _

theorem quiet_writeBlock (addr : Word) : Keeps Quiet (writeBlock addr) :=
  keeps_writeBlock quiet_wire quiet_window (fun _ _ => trivial) addr

theorem quiet_writeResume : Keeps Quiet writeResume := keeps_writeResume quiet_wire quiet_window fun _ _ => trivial

/-- As Quiet, but STATE, its record and WARN_IDLE_R1 may differ too. -/
structure InSession (s t : State) : Prop where
  cfg : t.cfg = s.cfg
  ctype : t.ctype = s.ctype
  speed : t.speed = s.speed
  lock : t.lock = s.lock
  err : t.err = s.err
  buffer : t.buffer = s.buffer
  grant : t.grant = s.grant
  port : t.port = s.port
  bench : t.bench = s.bench
  hold : t.hold = s.hold
  result : t.result = s.result
  log : ∃ new, t.log = new ++ s.log

theorem Quiet.inSession {s t : State} (h : Quiet s t) : InSession s t :=
  ⟨h.cfg, h.ctype, h.speed, h.lock, h.err, h.buffer, h.grant, h.port, h.bench, h.hold, h.result, h.log⟩

theorem InSession.trans {s t u : State} (h : InSession s t) (g : InSession t u) : InSession s u := by
  refine ⟨g.cfg.trans h.cfg, g.ctype.trans h.ctype, g.speed.trans h.speed, g.lock.trans h.lock, g.err.trans h.err,
    g.buffer.trans h.buffer, g.grant.trans h.grant, g.port.trans h.port, g.bench.trans h.bench, g.hold.trans h.hold,
    g.result.trans h.result, ?_⟩
  obtain ⟨a, ha⟩ := h.log
  obtain ⟨b, hb⟩ := g.log
  exact ⟨b ++ a, by rw [hb, ha, List.append_assoc]⟩

theorem inSession_card : CardRel InSession where
  refl := fun s => (Quiet.refl s).inSession
  trans := InSession.trans
  reg := fun s f => (quiet_mapDp s f).inSession
  fill := fun s o => (quiet_xchg s _ o).inSession
  delay := fun s _ => (quiet_record s _).inSession
  command := fun idx arg k s => (quiet_card.command idx arg k s).inSession
  readBlock := fun addr s => (quiet_card.readBlock addr s).inSession

theorem inSession_session : SessionRel InSession where
  enter := fun _ _ => ⟨rfl, rfl, rfl, rfl, rfl, rfl, rfl, rfl, rfl, rfl, rfl, [], rfl⟩
  warn := fun _ _ => ⟨rfl, rfl, rfl, rfl, rfl, rfl, rfl, rfl, rfl, rfl, rfl, [], rfl⟩

/-- As Quiet, but the host buffer may differ too, and keeps its canonical form. -/
structure InRun (s t : State) : Prop where
  cfg : t.cfg = s.cfg
  ctype : t.ctype = s.ctype
  speed : t.speed = s.speed
  lock : t.lock = s.lock
  fsm : t.fsm = s.fsm
  err : t.err = s.err
  warn : t.warnIdleR1 = s.warnIdleR1
  visits : t.visits = s.visits
  wf : s.buffer.wf = true → t.buffer.wf = true
  grant : t.grant = s.grant
  port : t.port = s.port
  bench : t.bench = s.bench
  hold : t.hold = s.hold
  result : t.result = s.result
  log : ∃ new, t.log = new ++ s.log

theorem Quiet.inRun {s t : State} (h : Quiet s t) : InRun s t :=
  ⟨h.cfg, h.ctype, h.speed, h.lock, h.fsm, h.err, h.warn, h.visits, fun g => by rw [h.buffer]; exact g, h.grant, h.port,
    h.bench, h.hold, h.result, h.log⟩

theorem InRun.trans {s t u : State} (h : InRun s t) (g : InRun t u) : InRun s u := by
  refine ⟨g.cfg.trans h.cfg, g.ctype.trans h.ctype, g.speed.trans h.speed, g.lock.trans h.lock, g.fsm.trans h.fsm,
    g.err.trans h.err, g.warn.trans h.warn, g.visits.trans h.visits, fun w => g.wf (h.wf w), g.grant.trans h.grant,
    g.port.trans h.port, g.bench.trans h.bench, g.hold.trans h.hold, g.result.trans h.result, ?_⟩
  obtain ⟨a, ha⟩ := h.log
  obtain ⟨b, hb⟩ := g.log
  exact ⟨b ++ a, by rw [hb, ha, List.append_assoc]⟩

theorem inRun_card : CardRel InRun where
  refl := fun s => (Quiet.refl s).inRun
  trans := InRun.trans
  reg := fun s f => (quiet_mapDp s f).inRun
  fill := fun s o => (quiet_xchg s _ o).inRun
  delay := fun s _ => (quiet_record s _).inRun
  command := fun idx arg k s => (quiet_card.command idx arg k s).inRun
  readBlock := fun addr s => (quiet_card.readBlock addr s).inRun

theorem inRun_storeBuf : Keeps InRun storeBuf := fun _ =>
  ⟨rfl, rfl, rfl, rfl, rfl, rfl, rfl, rfl, fun w => Memory.wf_writeBytes _ _ w, rfl, rfl, rfl, rfl, rfl,
    [], rfl⟩

/-! ## Chip-select windows -/

/-- No event of the lock port among these. -/
def Lockless (events : List Event) : Prop := .lockAcquire ∉ events ∧ .lockRelease ∉ events

theorem Lockless.append {a b : List Event} (ha : Lockless a) (hb : Lockless b) : Lockless (a ++ b) :=
  ⟨by simp [ha.1, hb.1], by simp [ha.2, hb.2]⟩

theorem windowRun_append (cs : Bool) (a b : List Event) {cs' : Bool} (h : windowRun cs a = some cs') :
    windowRun cs (a ++ b) = windowRun cs' b := by
  induction a generalizing cs with
  | nil => cases h; rfl
  | cons e es ih =>
    simp only [List.cons_append, windowRun] at h ⊢
    cases hs : windowStep cs e with
    | some c => rw [hs] at h; exact ih c h
    | none => rw [hs] at h; cases h

/-- Inside a window: the window stays open, and its events are exchanges. -/
def Inside (s t : State) : Prop := s.cs = true → t.cs = true ∧ ∃ new, t.log = new ++ s.log ∧
  windowRun true new.reverse = some true ∧ Lockless new

theorem inside_wire : WireRel (fun _ => True) Inside where
  refl := fun _ h => ⟨h, [], rfl, rfl, by simp [Lockless]⟩
  trans := by
    intro s t u h g hs
    obtain ⟨h1, a, ha, wa, la⟩ := h hs
    obtain ⟨h2, b, hb, wb, lb⟩ := g h1
    refine ⟨h2, b ++ a, by rw [hb, ha, List.append_assoc], ?_, lb.append la⟩
    rw [List.reverse_append, windowRun_append _ _ _ wa, wb]
  xchg := by
    intro s m o hs
    unfold State.takeReply
    split <;> exact ⟨hs, [.xchg m o], rfl, rfl, by simp [Lockless]⟩
  reg := fun _ _ _ h => ⟨h, [], rfl, rfl, by simp [Lockless]⟩

/-- From outside a window to outside a window. -/
def Outside (s t : State) : Prop := s.cs = false → t.cs = false ∧ ∃ new, t.log = new ++ s.log ∧
  windowRun false new.reverse = some false ∧ Lockless new

theorem Outside.trans {s t u : State} (h : Outside s t) (g : Outside t u) : Outside s u := by
  intro hs
  obtain ⟨h1, a, ha, wa, la⟩ := h hs
  obtain ⟨h2, b, hb, wb, lb⟩ := g h1
  refine ⟨h2, b ++ a, by rw [hb, ha, List.append_assoc], ?_, lb.append la⟩
  rw [List.reverse_append, windowRun_append _ _ _ wa, wb]

/-- Nothing of the trace or of chip-select changes. -/
theorem outside_of_eq {s t : State} (hc : t.cs = s.cs) (hl : t.log = s.log) : Outside s t := fun h =>
  ⟨hc.trans h, [], hl, rfl, by simp [Lockless]⟩

/-- An event that may occur outside a window. -/
theorem outside_event {s t : State} (e : Event) (hc : t.cs = s.cs) (hl : t.log = e :: s.log)
    (he : windowStep false e = some false) (h1 : e ≠ .lockAcquire) (h2 : e ≠ .lockRelease) : Outside s t := fun h =>
  ⟨hc.trans h, [e], hl, by simp [windowRun, he], by simp [Lockless, h1.symm, h2.symm]⟩

/-- Closing the window at the end of a transaction. -/
theorem txnExit_inside {α : Type} (r : Res α) (h : r.state.cs = true) :
    (txnExit r).state.cs = false ∧ ∃ new, (txnExit r).state.log = new ++ r.state.log ∧
      windowRun true new.reverse = some false ∧ Lockless new := by
  have close : ∀ s t : State, s.cs = true → Inside s t → t.csDeassert.cs = false ∧
      ∃ new, t.csDeassert.log = new ++ s.log ∧ windowRun true new.reverse = some false ∧ Lockless new := by
    intro s t hs hi
    obtain ⟨-, a, ha, wa, la⟩ := hi hs
    refine ⟨rfl, .csDeassert :: a, by simp [State.csDeassert, ha], ?_, ?_⟩
    · rw [List.reverse_cons, windowRun_append _ _ _ wa]; rfl
    · exact Lockless.append (a := [.csDeassert]) (by simp [Lockless]) la
  have hf := keeps_filler inside_wire 1
  cases r with
  | ok v s =>
    have h1 := hf s
    simp only [txnExit, Res.state_ok]
    cases e : filler 1 s with
    | ok u t => rw [e] at h1; exact close s t h h1
    | err k t => rw [e] at h1; exact close s t h h1
  | err k s =>
    cases k with
    | ioError => exact close s s h (inside_wire.refl s)
    | _ => exact close s _ h (hf s)

/-- A transaction around a procedure that keeps its window open. -/
theorem outside_txn {α : Type} {p : Proc α} (hp : Keeps Inside p) : Keeps Outside fun s => txnExit (p s.csAssert) := by
  intro s hs
  obtain ⟨h1, a, ha, wa, la⟩ := hp s.csAssert rfl
  obtain ⟨h2, b, hb, wb, lb⟩ := txnExit_inside (p s.csAssert) h1
  refine ⟨h2, b ++ (a ++ [.csAssert]), ?_, ?_, lb.append (la.append (by simp [Lockless]))⟩
  · rw [hb, ha]; simp [State.csAssert]
  · have h3 : windowRun false [.csAssert] = some true := rfl
    rw [List.reverse_append, List.reverse_append, List.append_assoc, List.reverse_singleton,
      windowRun_append _ _ _ h3, windowRun_append _ _ _ wa, wb]

theorem inside_command_body (idx : BitVec 6) (arg : Word) (k : RespKind) :
    Keeps Inside ((sendFrame idx arg).andThen (waitFor k)) :=
  keeps_andThen inside_wire (keeps_sendFrame inside_wire (fun _ _ => trivial) idx arg)
    (keeps_waitFor inside_wire (fun _ _ => trivial) k)

theorem inside_write_body (addr : Word) : Keeps Inside ((sendFrame 24 addr).andThen (waitZeroR1.andThen
    ((filler 1).andThen (sendData.andThen (recvDresp.bind fun _ => waitNotBusy))))) :=
  keeps_andThen inside_wire (keeps_sendFrame inside_wire (fun _ _ => trivial) 24 addr)
    (keeps_andThen inside_wire (keeps_waitZeroR1 inside_wire fun _ _ => trivial) (keeps_andThen inside_wire
      (keeps_filler inside_wire 1) (keeps_andThen inside_wire (keeps_sendData inside_wire)
        (keeps_bind inside_wire (keeps_recvDresp inside_wire fun _ _ => trivial) fun _ =>
          keeps_waitNotBusy inside_wire fun _ => trivial))))

theorem outside_card : CardRel Outside where
  refl := fun _ => outside_of_eq rfl rfl
  trans := Outside.trans
  reg := fun _ _ => outside_of_eq rfl rfl
  fill := fun s o => by
    unfold State.takeReply
    split <;> exact outside_event (.xchg fillByte o) rfl rfl rfl (by simp) (by simp)
  delay := fun s n => outside_event (.delayMs n) rfl rfl rfl (by simp) (by simp)
  command := fun idx arg k => outside_txn (inside_command_body idx arg k)
  readBlock := fun addr => outside_txn (keeps_andThen inside_wire (keeps_sendFrame inside_wire (fun _ _ => trivial) 17 addr)
    (keeps_andThen inside_wire (keeps_waitZeroR1 inside_wire fun _ _ => trivial)
      (keeps_recvData inside_wire fun _ _ => trivial)))

theorem outside_session : SessionRel Outside where
  enter := fun _ _ => outside_of_eq rfl rfl
  warn := fun _ _ => outside_of_eq rfl rfl

/-! ## Writes: over, or held -/

theorem Proc.bind_ok_inv {α β : Type} {p : Proc α} {f : α → Proc β} {s t : State} {v : β} (h : p.bind f s = .ok v t) :
    ∃ x u, p s = .ok x u ∧ f x u = .ok v t := by
  unfold Proc.bind at h
  cases hp : p s with
  | ok x u => rw [hp] at h; exact ⟨x, u, rfl, h⟩
  | err k u => rw [hp] at h; cases h

theorem Proc.andThen_ok_inv {α β : Type} {p : Proc α} {q : Proc β} {s t : State} {v : β} (h : p.andThen q s = .ok v t) :
    ∃ x u, p s = .ok x u ∧ q u = .ok v t := Proc.bind_ok_inv h

/-- What a kept relation says of a procedure that ended with a value. -/
theorem Keeps.ok {α : Type} {R : State → State → Prop} {p : Proc α} (hp : Keeps R p) {s t : State} {v : α}
    (h : p s = .ok v t) : R s t := by
  have := hp s
  rw [h] at this
  exact this

theorem Keeps.err {α : Type} {R : State → State → Prop} {p : Proc α} (hp : Keeps R p) {s t : State} {k : ErrKind}
    (h : p s = .err k t) : R s t := by
  have := hp s
  rw [h] at this
  exact this

/-- A busy poll that is bounded is never left open (R158). -/
theorem waitNotBusy_bounded {s t : State} {b : Bool} (hn : s.cfg.nBusy ≠ none) (h : waitNotBusy s = .ok b t) :
    b = true := by
  unfold waitNotBusy withCfg at h
  dsimp only at h
  cases hc : s.cfg.nBusy with
  | none => exact absurd hc hn
  | some n =>
    rw [hc] at h
    obtain ⟨x, u, -, h2⟩ := Proc.bind_ok_inv h
    cases h2
    rfl

theorem writeBody_held {addr : Word} {s t : State} (h : writeBody addr s = .ok false t) : s.cfg.nBusy = none := by
  by_contra hn
  obtain ⟨_, s1, h1, h⟩ := Proc.andThen_ok_inv h
  obtain ⟨_, s2, h2, h⟩ := Proc.andThen_ok_inv h
  obtain ⟨_, s3, h3, h⟩ := Proc.andThen_ok_inv h
  obtain ⟨_, s4, h4, h⟩ := Proc.andThen_ok_inv h
  obtain ⟨_, s5, h5, h⟩ := Proc.bind_ok_inv h
  have c1 := ((keeps_sendFrame quiet_wire (fun _ _ => trivial) 24 addr).ok h1).cfg
  have c2 := ((keeps_waitZeroR1 quiet_wire fun _ _ => trivial).ok h2).cfg
  have c3 := ((keeps_filler quiet_wire 1).ok h3).cfg
  have c4 := ((keeps_sendData quiet_wire).ok h4).cfg
  have c5 := ((keeps_recvDresp quiet_wire fun _ _ => trivial).ok h5).cfg
  exact absurd (waitNotBusy_bounded (by rw [c5, c4, c3, c2, c1]; exact hn) h) (by simp)

theorem txnExit_ok {α : Type} {r : Res α} {v : α} {t : State} (h : txnExit r = .ok v t) : ∃ u, r = .ok v u := by
  cases r with
  | ok w s =>
    simp only [txnExit] at h
    cases e : filler 1 s with
    | ok u x => rw [e] at h; cases h; exact ⟨s, rfl⟩
    | err k x => rw [e] at h; cases h
  | err k s => cases k <;> cases h

/-- How a write ends: held, which takes an unbounded busy poll, with its window open; or over, with its window closed. -/
def WriteEnd (s : State) (r : Res Bool) : Prop :=
  (∃ t, r = .ok false t ∧ t.cs = true ∧ s.cfg.nBusy = none) ∨ (Outside s r.state ∧ ∀ t, r ≠ .ok false t)

theorem writeExit_end {r : Res Bool} : (∃ t, r = .ok false t ∧ writeExit r = .ok false t) ∨
    (writeExit r = txnExit r ∧ ∀ t, writeExit r ≠ .ok false t) := by
  cases r with
  | ok b s =>
    cases b with
    | false => exact .inl ⟨s, rfl, rfl⟩
    | true =>
      refine .inr ⟨rfl, fun t h => ?_⟩
      obtain ⟨u, hu⟩ := txnExit_ok (r := .ok true s) h
      cases hu
  | err k s =>
    refine .inr ⟨rfl, fun t h => ?_⟩
    obtain ⟨u, hu⟩ := txnExit_ok (r := .err k s) h
    cases hu

theorem writeBlock_end (addr : Word) (s : State) : WriteEnd s (writeBlock addr s) := by
  rcases writeExit_end (r := writeBody addr s.csAssert) with ⟨t, h, e⟩ | ⟨h, e⟩
  · have hn := writeBody_held h
    exact .inl ⟨t, e, ((inside_write_body addr).ok h rfl).1, hn⟩
  · refine .inr ⟨?_, e⟩
    have : writeBlock addr s = txnExit (writeBody addr s.csAssert) := h
    rw [this]
    exact outside_txn (inside_write_body addr) s

theorem WriteEnd.of_outside {s t : State} {r : Res Bool} (h : Outside s t) (hc : t.cfg = s.cfg) (g : WriteEnd t r) :
    WriteEnd s r := by
  rcases g with ⟨u, e, hu, hn⟩ | ⟨hu, e⟩
  · exact .inl ⟨u, e, hu, by rw [← hc]; exact hn⟩
  · exact .inr ⟨h.trans hu, e⟩

theorem writeLoop_end (n : Nat) (s : State) : WriteEnd s (writeLoop n s) := by
  induction n generalizing s with
  | zero => exact .inr ⟨outside_card.refl s, fun t h => by cases h⟩
  | succ n ih =>
    unfold writeLoop
    cases h1 : setAddress s with
    | err k t => rw [Proc.bind_err h1]; exact .inr ⟨outside_card.setAddress.err h1, fun t h => by cases h⟩
    | ok a s1 =>
      obtain ⟨s2, hl⟩ : ∃ s2, loadBuf s1 = .ok () s2 := ⟨_, rfl⟩
      rw [Proc.bind_ok h1, Proc.andThen_ok hl]
      refine WriteEnd.of_outside ((outside_card.setAddress.ok h1).trans (outside_card.loadBuf.ok hl))
        ((quiet_card.loadBuf.ok hl).cfg.trans (quiet_card.setAddress.ok h1).cfg) ?_
      rcases writeBlock_end a s2 with ⟨t, e, ht, hn⟩ | ⟨ho, e⟩
      · rw [Proc.bind_ok e]; exact .inl ⟨t, rfl, ht, hn⟩
      · cases h2 : writeBlock a s2 with
        | err k t =>
          rw [h2] at ho
          rw [Proc.bind_err h2]
          exact .inr ⟨ho, fun t h => by cases h⟩
        | ok b s3 =>
          cases b with
          | false => exact absurd h2 (e s3)
          | true =>
            rw [h2] at ho
            rw [Proc.bind_ok h2, if_pos rfl]
            refine WriteEnd.of_outside ho ((quiet_writeBlock a).ok h2).cfg ?_
            cases h3 : advance s3 with
            | err k t => rw [Proc.andThen_err h3]; exact .inr ⟨outside_card.advance.err h3, fun t h => by cases h⟩
            | ok u s4 =>
              rw [Proc.andThen_ok h3]
              exact WriteEnd.of_outside (outside_card.advance.ok h3) (quiet_card.advance.ok h3).cfg (ih s4)

theorem writeRun_end (sector count : Word) (off0 : Nat) (s : State) : WriteEnd s (writeRun sector count off0 s) := by
  unfold writeRun startRun
  rw [Proc.andThen_ok (setReg_eq _ s)]
  exact WriteEnd.of_outside (outside_card.reg s _) rfl (writeLoop_end _ _)

/-- R158: after an attempt of an unbounded poll, from inside the window: still open, or closed. -/
theorem writeResume_end (s : State) (hs : s.cs = true) : (∃ t, writeResume s = .ok false t ∧ t.cs = true) ∨
    ((writeResume s).state.cs = false ∧ ∀ t, writeResume s ≠ .ok false t) := by
  have hi : Keeps Inside (busyAttempt.bind fun o => ret o.isSome) :=
    keeps_bind inside_wire (keeps_busyAttempt inside_wire fun _ => trivial) fun _ => keeps_ret inside_wire _
  rcases writeExit_end (r := (busyAttempt.bind fun o => ret o.isSome) s) with ⟨t, h, e⟩ | ⟨h, e⟩
  · exact .inl ⟨t, e, (hi.ok h hs).1⟩
  · refine .inr ⟨?_, e⟩
    have : writeResume s = txnExit ((busyAttempt.bind fun o => ret o.isSome) s) := h
    rw [this]
    exact (txnExit_inside _ (hi s hs).1).1

/-- The rest of a run after such an attempt. -/
theorem writeRunResume_end (s : State) (hs : s.cs = true) : (∃ t, writeRunResume s = .ok false t ∧ t.cs = true) ∨
    ((writeRunResume s).state.cs = false ∧ ∀ t, writeRunResume s ≠ .ok false t) := by
  unfold writeRunResume
  rcases writeResume_end s hs with ⟨t, e, ht⟩ | ⟨ho, e⟩
  · rw [Proc.bind_ok e]; exact .inl ⟨t, rfl, ht⟩
  · cases h2 : writeResume s with
    | err k t =>
      rw [h2] at ho
      rw [Proc.bind_err h2]
      exact .inr ⟨ho, fun t h => by cases h⟩
    | ok b s3 =>
      cases b with
      | false => exact absurd h2 (e s3)
      | true =>
        rw [h2] at ho
        rw [Proc.bind_ok h2, if_pos rfl]
        cases h3 : advance s3 with
        | err k t =>
          rw [Proc.andThen_err h3]
          exact .inr ⟨((outside_card.advance.err h3) ho).1, fun t h => by cases h⟩
        | ok u s4 =>
          rw [Proc.andThen_ok h3]
          have h4 := ((outside_card.advance.ok h3) ho).1
          rcases writeLoop_end s4.dp.remain.toNat s4 with ⟨t, e2, ht, -⟩ | ⟨ho2, e2⟩
          · exact .inl ⟨t, e2, ht⟩
          · exact .inr ⟨(ho2 h4).1, e2⟩

end Sys2Proof.Machine
end

