-- ==== Sys2Proof/Laws/Outcomes.lean ====
section
/-! SUPPORT. How the procedures and the host operations end, in every state and whatever the card does: the error kinds that
can leave each of them (R231, R234 to R238), how the initialization sequence moves STATE (R185), and the state that a host
operation leaves (R212). -/

namespace Sys2Proof.Machine

/-! ## Error kinds -/

/-- The kinds a procedure made of transactions may fail with. -/
def Kinds {α : Type} (ks : List ErrKind) (p : Proc α) : Prop := ∀ s k t, p s = .err k t → k ∈ ks

section
variable {ks : List ErrKind}

theorem FailsIn.kinds {α : Type} {p : Proc α} (h : FailsIn ks p) : Kinds ks p := fun _ _ _ e => h.kind e

theorem kinds_ret {α : Type} (v : α) : Kinds ks (ret v) := by intro s k t h; cases h

theorem kinds_update (f : State → State) : Kinds ks (update f) := by intro s k t h; cases h

theorem kinds_setReg (f : Datapath → Datapath) : Kinds ks (setReg f) := kinds_update _

theorem kinds_fail {α : Type} {k : ErrKind} (hk : k ∈ ks) : Kinds ks (fail k : Proc α) := by
  intro s k' t h; cases h; exact hk

theorem kinds_bind {α β : Type} {p : Proc α} {f : α → Proc β} (hp : Kinds ks p) (hf : ∀ v, Kinds ks (f v)) :
    Kinds ks (p.bind f) := by
  intro s k t h
  unfold Proc.bind at h
  cases hps : p s with
  | ok v u => rw [hps] at h; exact hf v u k t h
  | err k' u => rw [hps] at h; cases h; exact hp s k t hps

theorem kinds_andThen {α β : Type} {p : Proc α} {q : Proc β} (hp : Kinds ks p) (hq : Kinds ks q) :
    Kinds ks (p.andThen q) := kinds_bind hp fun _ => hq

theorem kinds_command (idx : BitVec 6) (arg : Word) (k : RespKind) (hk : ∀ x ∈ waitKinds k, x ∈ ks) :
    Kinds ks (command idx arg k) := by
  have hio : .ioError ∈ waitKinds k := by cases k <;> simp [waitKinds]
  exact fun s x t h => hk x (failsIn_txn hio (failsIn_commandBody idx arg k) s x t h)

theorem kinds_sendAcmd (n : BitVec 6) (arg : Word) : Kinds [.ioError, .timeout, .appCmdRejected] (sendAcmd n arg) := by
  refine kinds_bind (kinds_command _ _ _ (by simp [waitKinds])) fun a => ?_
  split
  · exact kinds_command _ _ _ (by simp [waitKinds])
  · exact kinds_fail (by simp)

theorem kinds_attempt (hio : .ioError ∈ ks) (w : LoopCommand) : Kinds ks (attempt w) := by
  have hl : Kinds [.ioError, .timeout, .appCmdRejected] (loopCommand w) := by
    cases w with
    | acmdHcs => exact kinds_sendAcmd _ _
    | acmd => exact kinds_sendAcmd _ _
    | cmd1 => exact kinds_command _ _ _ (by simp [waitKinds])
  intro s k t h
  unfold attempt at h
  cases hr : loopCommand w s with
  | ok r u => rw [hr] at h; cases h
  | err k' u =>
    have := hl s k' u hr
    rw [hr] at h
    cases k' <;> first | (cases h; exact hio) | (cases h; done) | simp at this

theorem kinds_retryFrom (hio : .ioError ∈ ks) (w : LoopCommand) (n : Nat) (stop : Bool) (left : Nat) :
    Kinds ks (retryFrom w n stop left) := by
  induction left with
  | zero => exact kinds_ret _
  | succ left ih =>
    refine kinds_andThen (kinds_setReg _) (kinds_bind (kinds_attempt hio w) fun x => ?_)
    split
    · exact kinds_ret _
    · split
      · exact kinds_ret _
      · exact kinds_andThen (kinds_update _) ih

theorem kinds_v2Path (hio : .ioError ∈ ks) (ht : .timeout ∈ ks) (hi : .illegalCommand ∈ ks) : Kinds ks v2Path := by
  intro s
  refine kinds_bind (kinds_retryFrom hio _ _ _ _) (fun p => ?_) s
  cases p with
  | ready => exact kinds_bind (kinds_command _ _ _ (by simp [waitKinds, hio, ht, hi])) fun _ => kinds_ret _
  | exhausted => exact kinds_fail ht
  | illegal => exact kinds_fail ht

theorem kinds_mmcPath (hio : .ioError ∈ ks) (ht : .timeout ∈ ks) : Kinds ks mmcPath := by
  intro s
  refine kinds_bind (kinds_retryFrom hio _ _ _ _) (fun p => ?_) s
  cases p with
  | ready => exact kinds_ret _
  | exhausted => exact kinds_fail ht
  | illegal => exact kinds_fail ht

theorem kinds_legacyPath (hio : .ioError ∈ ks) (ht : .timeout ∈ ks) : Kinds ks legacyPath := by
  intro s
  refine kinds_bind (kinds_retryFrom hio _ _ _ _) (fun p => ?_) s
  cases p with
  | ready => exact kinds_ret _
  | exhausted => exact kinds_fail ht
  | illegal => exact kinds_andThen (kinds_update _) (kinds_mmcPath hio ht)

/-- The kinds INIT_SEQUENCE can fail with (R171 to R179). -/
def initKinds : List ErrKind := [.ioError, .timeout, .illegalCommand, .voltageMismatch]

theorem kinds_voltageCheck : Kinds initKinds voltageCheck := by
  intro s k t h
  have hc := kinds_command (ks := initKinds) 8 cmd8Arg .r7 (by simp [waitKinds, initKinds]) s
  unfold voltageCheck at h
  cases hr : command 8 cmd8Arg .r7 s with
  | ok v u =>
    rw [hr] at h
    dsimp only at h
    split at h
    · exact kinds_v2Path (by simp [initKinds]) (by simp [initKinds]) (by simp [initKinds]) _ k t h
    · cases h; simp [initKinds]
  | err k' u =>
    rw [hr] at h
    by_cases hk : k' = .illegalCommand
    · subst hk
      exact kinds_legacyPath (by simp [initKinds]) (by simp [initKinds]) _ k t h
    · have := hc k' u hr
      cases k' <;> first | exact absurd rfl hk | (cases h; exact this)

theorem kinds_initBody : Kinds initKinds initBody :=
  kinds_andThen (failsIn_txList (by simp [initKinds]) _).kinds <| kinds_andThen (kinds_update _) <|
    kinds_bind (kinds_command _ _ _ (by simp [waitKinds, initKinds])) fun _ => kinds_andThen (kinds_update _) <|
      kinds_andThen (kinds_update _) kinds_voltageCheck

theorem kinds_wakeLoop (t : CardType) (ht : t ≠ .unknown) : Kinds [.ioError] (wakeLoop t) := by
  intro s
  cases t with
  | unknown => exact absurd rfl ht
  | mmcV3 => exact kinds_retryFrom (by simp) _ _ _ _ s
  | sdV1 => exact kinds_retryFrom (by simp) _ _ _ _ s
  | sdV2Byte => exact kinds_retryFrom (by simp) _ _ _ _ s
  | sdV2Block => exact kinds_retryFrom (by simp) _ _ _ _ s

/-! ### Runs -/

theorem kinds_setAddress (h : .addressOverflow ∈ ks) : Kinds ks setAddress := by
  intro s k t e
  unfold setAddress argAddress at e
  split at e
  · cases e
  · rename_i k' hk
    split at hk
    · cases hk
    · split at hk
      · cases hk; cases e; exact h
      · cases hk

theorem kinds_advance (h : .addressOverflow ∈ ks) : Kinds ks advance := by
  refine kinds_andThen (kinds_setReg _) fun s k t e => ?_
  split at e
  · cases e
  · split at e
    · cases e; exact h
    · cases e

/-- The kinds a READ_RUN can fail with. -/
def readRunKinds : List ErrKind := [.ioError, .timeout, .statusNotZero, .addressOverflow]

theorem kinds_readBlock (addr : Word) : Kinds readRunKinds (readBlock addr) :=
  failsIn_txn (by simp [readRunKinds]) ((failsIn_readBody addr).mono (by simp [readRunKinds]))

theorem kinds_readLoop (n : Nat) : Kinds readRunKinds (readLoop n) := by
  induction n with
  | zero => exact kinds_ret _
  | succ n ih =>
    exact kinds_bind (kinds_setAddress (by simp [readRunKinds])) fun a => kinds_andThen (kinds_readBlock a) <|
      kinds_andThen (kinds_update _) <| kinds_andThen (kinds_advance (by simp [readRunKinds])) ih

/-- The kinds a WRITE_RUN can fail with. -/
def writeRunKinds : List ErrKind :=
  [.ioError, .timeout, .statusNotZero, .dataCrcError, .dataWriteError, .answerFormat, .addressOverflow]

theorem kinds_writeExit {r : Res Bool} {k : ErrKind} {t : State} (hio : .ioError ∈ ks)
    (hr : ∀ k t, r = .err k t → k ∈ ks) (h : writeExit r = .err k t) : k ∈ ks := by
  rcases writeExit_end (r := r) with ⟨u, -, e⟩ | ⟨e, -⟩
  · rw [e] at h; cases h
  · rw [e] at h
    cases r with
    | ok v s =>
      rcases filler_one s with ⟨b, -, e⟩ | ⟨-, e⟩ <;> simp only [txnExit, e] at h <;> cases h
      exact hio
    | err k' s =>
      have := hr k' s rfl
      have hk : k = k' := by cases k' <;> cases h <;> rfl
      subst hk; exact this

theorem kinds_writeBlock (addr : Word) : Kinds writeRunKinds (writeBlock addr) := by
  intro s k t h
  exact kinds_writeExit (by simp [writeRunKinds]) (fun k' u e => by
    have := (failsIn_writeBody addr).kind e
    simp only [writeKinds, writeRunKinds, List.mem_cons, List.not_mem_nil, or_false] at this ⊢
    tauto) h

theorem kinds_writeLoop (n : Nat) : Kinds writeRunKinds (writeLoop n) := by
  induction n with
  | zero => exact kinds_ret _
  | succ n ih =>
    refine kinds_bind (kinds_setAddress (by simp [writeRunKinds])) fun a => kinds_andThen (kinds_update _) <|
      kinds_bind (kinds_writeBlock a) fun ended => ?_
    split
    · exact kinds_andThen (kinds_advance (by simp [writeRunKinds])) ih
    · exact kinds_ret _

end

/-! ## How the initialization sequence moves STATE (R185) -/

/-- STATE and its record stay. -/
def Still (s t : State) : Prop := t.fsm = s.fsm ∧ t.visits = s.visits

theorem Quiet.still {s t : State} (h : Quiet s t) : Still s t := ⟨h.fsm, h.visits⟩

theorem Still.trans {s t u : State} (h : Still s t) (g : Still t u) : Still s u := ⟨g.1.trans h.1, g.2.trans h.2⟩

/-- STATE took these values, newest first. -/
def Moved (new : List Fsm) (s t : State) : Prop := t.visits = new ++ s.visits ∧ t.fsm = new.headD s.fsm

theorem Still.moved {s t : State} (h : Still s t) : Moved [] s t := ⟨h.2, h.1⟩

theorem Moved.trans {a b : List Fsm} {s t u : State} (h : Moved a s t) (g : Moved b t u) : Moved (b ++ a) s u := by
  refine ⟨by rw [g.1, h.1, List.append_assoc], ?_⟩
  rw [g.2, h.2]
  cases b <;> rfl

theorem moved_enter (s : State) (f : Fsm) : Moved [f] s (s.enter f) := ⟨rfl, rfl⟩

/-- How MMC_PATH's loop decides. -/
theorem mmcPath_of {s u : State} {q : LoopEnd} (h : retryLoop .cmd1 s.cfg.nInitMmc false s = .ok q u) :
    mmcPath s = if q = .ready then .ok .mmcV3 u else .err .timeout u := by
  unfold mmcPath withCfg
  dsimp only
  rw [Proc.bind_ok h]
  cases q <;> rfl

/-- The trails of LEGACY_PATH after VoltageCheckedLegacy, with the type they end in. -/
theorem legacyPath_moved (s : State) : (∃ t, legacyPath s = .ok .sdV1 t ∧ Moved [] s t) ∨
    (∃ t, legacyPath s = .ok .mmcV3 t ∧ Moved [.legacyMmc] s t) ∨
    (∃ k t, legacyPath s = .err k t ∧ (Moved [] s t ∨ Moved [.legacyMmc] s t)) := by
  unfold legacyPath withCfg
  dsimp only
  have hq := quiet_card.retryLoop .acmd s.cfg.nInitLegacy true
  cases h : retryLoop .acmd s.cfg.nInitLegacy true s with
  | err k t => rw [Proc.bind_err h]; exact .inr (.inr ⟨k, t, rfl, .inl (hq.err h).still.moved⟩)
  | ok p t =>
    have h1 := (hq.ok h).still.moved
    rw [Proc.bind_ok h]
    cases p with
    | ready => exact .inl ⟨t, rfl, h1⟩
    | exhausted => exact .inr (.inr ⟨.timeout, t, rfl, .inl h1⟩)
    | illegal =>
      have h2 := h1.trans (moved_enter t .legacyMmc)
      have hm := quiet_card.mmcPath (t.enter .legacyMmc)
      show (∃ u, mmcPath (t.enter .legacyMmc) = .ok .sdV1 u ∧ _) ∨ _ ∨ _
      unfold mmcPath withCfg
      dsimp only
      have hq2 := quiet_card.retryLoop .cmd1 (t.enter .legacyMmc).cfg.nInitMmc false
      cases h3 : retryLoop .cmd1 (t.enter .legacyMmc).cfg.nInitMmc false (t.enter .legacyMmc) with
      | err k u =>
        refine .inr (.inr ⟨k, u, ?_, .inr (h2.trans (hq2.err h3).still.moved)⟩)
        show mmcPath (t.enter .legacyMmc) = _
        unfold mmcPath withCfg
        dsimp only
        rw [Proc.bind_err h3]
      | ok q u =>
        have h4 := h2.trans (hq2.ok h3).still.moved
        have h5 := mmcPath_of h3
        cases q with
        | ready => exact .inr (.inl ⟨u, h5, h4⟩)
        | exhausted => exact .inr (.inr ⟨.timeout, u, h5, .inr h4⟩)
        | illegal => exact .inr (.inr ⟨.timeout, u, h5, .inr h4⟩)

/-- V2_PATH leaves STATE alone and resolves to a v2 type. -/
theorem v2Path_moved (s : State) : (∃ c t, v2Path s = .ok c t ∧ (c = .sdV2Byte ∨ c = .sdV2Block) ∧ Moved [] s t) ∨
    (∃ k t, v2Path s = .err k t ∧ Moved [] s t) := by
  have hm := quiet_card.v2Path
  cases h : v2Path s with
  | err k t => exact .inr ⟨k, t, rfl, (hm.err h).still.moved⟩
  | ok c t =>
    refine .inl ⟨c, t, rfl, ?_, (hm.ok h).still.moved⟩
    unfold v2Path withCfg at h
    obtain ⟨p, u, -, h2⟩ := Proc.bind_ok_inv h
    cases p with
    | exhausted => cases h2
    | illegal => cases h2
    | ready =>
      obtain ⟨v, w, -, h3⟩ := Proc.bind_ok_inv h2
      cases h3
      split
      · exact .inr rfl
      · exact .inl rfl

/-- How INIT_BODY ends: the values STATE took after Unidentified, newest first, and the type. -/
inductive InitEnd (s : State) (r : Res CardType) : Prop where
  | v2 (c : CardType) (t : State) (h : r = .ok c t) (hc : c = .sdV2Byte ∨ c = .sdV2Block)
      (hm : Moved [.voltageCheckedV2, .idleConfirmed, .spiReset] s t)
  | sdV1 (t : State) (h : r = .ok .sdV1 t) (hm : Moved [.voltageCheckedLegacy, .idleConfirmed, .spiReset] s t)
  | mmcV3 (t : State) (h : r = .ok .mmcV3 t)
      (hm : Moved [.legacyMmc, .voltageCheckedLegacy, .idleConfirmed, .spiReset] s t)
  | failed (k : ErrKind) (t : State) (new : List Fsm) (h : r = .err k t) (hm : Moved new s t)
      (hn : new ∈ [[], [.spiReset], [.idleConfirmed, .spiReset], [.voltageCheckedV2, .idleConfirmed, .spiReset],
        [.voltageCheckedLegacy, .idleConfirmed, .spiReset], [.legacyMmc, .voltageCheckedLegacy, .idleConfirmed, .spiReset]])

/-- After CMD8: the paths from IdleConfirmed. -/
theorem voltageCheck_end (s u : State) (hu : Moved [.idleConfirmed, .spiReset] s u) : InitEnd s (voltageCheck u) := by
  unfold voltageCheck
  have hq := quiet_card.command 8 cmd8Arg .r7
  cases h : command 8 cmd8Arg .r7 u with
  | ok v t =>
    have h1 := hu.trans (hq.ok h).still.moved
    dsimp only
    split
    · have h2 := h1.trans (moved_enter t .voltageCheckedV2)
      rcases v2Path_moved (t.enter .voltageCheckedV2) with ⟨c, w, e, hc, hm⟩ | ⟨k, w, e, hm⟩
      · exact .v2 c w e hc (h2.trans hm)
      · exact .failed k w _ e (h2.trans hm) (by simp)
    · exact .failed _ t _ rfl h1 (by simp)
  | err k t =>
    have h1 := hu.trans (hq.err h).still.moved
    by_cases hk : k = .illegalCommand
    · subst hk
      have h2 := h1.trans (moved_enter t .voltageCheckedLegacy)
      rcases legacyPath_moved (t.enter .voltageCheckedLegacy) with ⟨w, e, hm⟩ | ⟨w, e, hm⟩ | ⟨k, w, e, hm | hm⟩
      · exact .sdV1 w e (h2.trans hm)
      · exact .mmcV3 w e (h2.trans hm)
      · exact .failed k w _ e (h2.trans hm) (by simp)
      · exact .failed k w _ e (h2.trans hm) (by simp)
    · have e : (match (Res.err k t : Res (Byte × Word)) with
          | .err .illegalCommand t => legacyPath (t.enter .voltageCheckedLegacy)
          | .err k t => .err k t
          | .ok v t => if r7EchoOk v.2 then v2Path (t.enter .voltageCheckedV2) else .err .voltageMismatch t) =
          .err k t := by cases k <;> first | rfl | exact absurd rfl hk
      exact .failed k t _ e h1 (by simp)

theorem noteIdleR1_state (a : Byte) (s : State) : ∃ t, noteIdleR1 a s = .ok () t ∧ Moved [] s t := by
  refine ⟨_, rfl, ?_⟩
  dsimp only
  split <;> exact ⟨rfl, rfl⟩

theorem initBody_end (s : State) : InitEnd s (initBody s) := by
  unfold initBody
  have hf := keeps_filler quiet_wire nSpiFill
  cases h1 : filler nSpiFill s with
  | err k t => rw [Proc.andThen_err h1]; exact .failed k t _ rfl (hf.err h1).still.moved (by simp)
  | ok v t =>
    have m1 := (hf.ok h1).still.moved.trans (moved_enter t .spiReset)
    rw [Proc.andThen_ok h1, Proc.andThen_ok (show update (fun s => s.enter .spiReset) t = .ok () _ from rfl)]
    have hq := quiet_card.command 0 0 .r1
    cases h2 : command 0 0 .r1 (t.enter .spiReset) with
    | err k u => rw [Proc.bind_err h2]; exact .failed k u _ rfl (m1.trans (hq.err h2).still.moved) (by simp)
    | ok a u =>
      have m2 := m1.trans (hq.ok h2).still.moved
      obtain ⟨w, h3, m3⟩ := noteIdleR1_state a u
      rw [Proc.bind_ok h2, Proc.andThen_ok h3,
        Proc.andThen_ok (show update (fun s => s.enter .idleConfirmed) w = .ok () _ from rfl)]
      exact voltageCheck_end s _ ((m2.trans m3).trans (moved_enter w .idleConfirmed))

end Sys2Proof.Machine
end

