-- ==== Sys2Proof/Laws/Cuts.lean ====
section
/-! SUPPORT. How the transfer of a sector is cut short: what a procedure that would read a script of bytes does when its
exchange number j fails in transport, from single exchanges up to block transfers, and what the runs do with a sector that
fails (R160, R161, R233, R240). -/

namespace Sys2Proof.Machine

/-! ## Scripts that break off -/

/-- Bytes that are driven after the last one received make no event. -/
theorem exchanges_prefix (a a' g : List Byte) (h : g.length ≤ a.length) : exchanges (a ++ a') g = exchanges a g := by
  induction a generalizing g with
  | nil =>
    obtain rfl : g = [] := by simpa using h
    simp [exchanges]
  | cons m ms ih =>
    cases g with
    | nil => simp [exchanges]
    | cons b bs => simp only [List.cons_append, exchanges_cons, ih bs (by simpa using h)]

theorem exchanges_fills (n : Nat) (g : List Byte) (h : g.length ≤ n) :
    exchanges (fills n) g = exchanges (fills g.length) g := by
  rw [show n = g.length + (n - g.length) by omega, fills_add, exchanges_prefix _ _ _ (by simp)]

theorem fills_getD (n j : Nat) : (fills n).getD j fillByte = fillByte := by
  by_cases h : j < n <;> simp [List.getD_eq_getElem?_getD, fills, h]

theorem replies_take_append (g g' : List Byte) (j : Nat) (h : g.length ≤ j) :
    replies ((g ++ g').take j) = replies g ++ replies (g'.take (j - g.length)) := by
  rw [List.take_append, List.take_of_length_le h, replies_append]

/-- From datapath d the procedure drives the bytes sent while it receives the bytes got and returns v; and if its exchange
number j fails, it has done the ones before it, ends there with IoError, and only the datapath is left open. -/
structure Goes {α : Type} (c : Config) (p : Proc α) (d : Datapath) (sent got : List Byte) (d' : Datapath) (v : α) : Prop where
  length : sent.length = got.length
  gives : Gives c p d got (exchanges sent got) d' (.ok v)
  breaks : ∀ j, j < got.length → ∀ s rest, s.cfg = c → s.dp = d → s.card = replies (got.take j) ++ .fail :: rest →
    ∃ x : Datapath, p s = .err .ioError (s.saw (exchanges sent (got.take j) ++ [.xchg (sent.getD j fillByte) .fail]) rest x)

section
variable {c : Config} {d d' d'' : Datapath} {a a' g g' : List Byte}

theorem Goes.cast {α : Type} {p : Proc α} {v : α} (h : Goes c p d a g d' v) (ha : a = a') (hg : g = g')
    (hd : d' = d'') : Goes c p d a' g' d'' v := by
  subst ha hg hd
  exact h

theorem goes_ret {α : Type} (v : α) : Goes c (ret v) d [] [] d v :=
  ⟨rfl, gives_ret v, fun j h => absurd h (by simp)⟩

theorem goes_setReg (f : Datapath → Datapath) : Goes c (setReg f) d [] [] (f d) () :=
  ⟨rfl, gives_setReg f, fun j h => absurd h (by simp)⟩

theorem Goes.withCfg {α : Type} {f : Config → Proc α} {v : α} (h : Goes c (f c) d a g d' v) :
    Goes c (withCfg f) d a g d' v :=
  ⟨h.length, h.gives.withCfg, fun j hj s rest hcfg hd hcard => by
    obtain ⟨x, e⟩ := h.breaks j hj s rest hcfg hd hcard
    exact ⟨x, by rw [← e, ← hcfg]; rfl⟩⟩

theorem Goes.bind {α β : Type} {p : Proc α} {f : α → Proc β} {v : α} {w : β} (hp : Goes c p d a g d' v)
    (hf : Goes c (f v) d' a' g' d'' w) : Goes c (p.bind f) d (a ++ a') (g ++ g') d'' w := by
  refine ⟨by simp [hp.length, hf.length], by rw [exchanges_append hp.length]; exact hp.gives.bind hf.gives, ?_⟩
  intro j hj s rest hcfg hd hcard
  by_cases h : j < g.length
  · rw [List.take_append_of_le_length (by omega)] at hcard
    obtain ⟨x, e⟩ := hp.breaks j h s rest hcfg hd hcard
    refine ⟨x, ?_⟩
    rw [Proc.bind_err e, List.take_append_of_le_length (by omega)]
    have h1 : (a ++ a').getD j fillByte = a.getD j fillByte := by
      simp only [List.getD_eq_getElem?_getD]
      rw [List.getElem?_append_left (by rw [hp.length]; exact h)]
    rw [h1, exchanges_prefix _ _ _ (by simp [hp.length])]
  · have hg : g.length ≤ j := by omega
    rw [replies_take_append _ _ _ hg, List.append_assoc] at hcard
    have e1 := hp.gives s _ hcfg hd hcard
    obtain ⟨x, e2⟩ := hf.breaks (j - g.length) (by simp only [List.length_append] at hj; omega)
      (s.saw (exchanges a g) (replies (g'.take (j - g.length)) ++ .fail :: rest) d') rest (by simpa using hcfg) rfl rfl
    refine ⟨x, ?_⟩
    rw [Proc.bind_ok e1, e2, State.saw_saw]
    have h1 : (a ++ a').getD j fillByte = a'.getD (j - g.length) fillByte := by
      simp only [List.getD_eq_getElem?_getD]
      rw [List.getElem?_append_right (by rw [hp.length]; exact hg), hp.length]
    rw [h1, List.take_append, List.take_of_length_le hg, exchanges_append hp.length, List.append_assoc]

theorem Goes.andThen {α β : Type} {p : Proc α} {q : Proc β} {v : α} {w : β} (hp : Goes c p d a g d' v)
    (hq : Goes c q d' a' g' d'' w) : Goes c (p.andThen q) d (a ++ a') (g ++ g') d'' w := hp.bind hq

theorem goes_xchg (m b : Byte) : Goes c (xchg m) d [m] [b] d b := by
  refine ⟨rfl, gives_xchg m b, fun j hj s rest hcfg hd hcard => ?_⟩
  obtain rfl : j = 0 := by simpa using hj
  refine ⟨d, ?_⟩
  subst hd
  rw [xchg_failing m (rest := rest) (by simpa using hcard)]
  rfl

theorem goes_tx (m b : Byte) : Goes c (tx m) d [m] [b] d () := (goes_xchg m b).bind (goes_ret ())

theorem goes_rx (b : Byte) : Goes c rx d [fillByte] [b] d b := goes_xchg fillByte b

theorem goes_txList {sent got : List Byte} (h : sent.length = got.length) : Goes c (txList sent) d sent got d () := by
  induction sent generalizing got with
  | nil =>
    obtain rfl : got = [] := by simpa using h.symm
    exact goes_ret ()
  | cons m ms ih =>
    cases got with
    | nil => simp at h
    | cons b bs => exact (goes_tx m b).andThen (ih (by simpa using h))

theorem goes_poll {accept : Byte → Bool} {b : Byte} {wait : List Byte} {n : Nat}
    (hw : wait.all (fun x => !accept x) = true) (hb : accept b = true) (hl : wait.length < n) :
    Goes c (poll n accept) d (fills (wait.length + 1)) (wait ++ [b]) { d with poll := wait.length + 1 } b := by
  refine ⟨by simp, gives_poll hw hb hl, fun j hj s rest hcfg hd hcard => ?_⟩
  simp only [List.length_append, List.length_singleton] at hj
  have ht : (wait ++ [b]).take j = wait.take j := List.take_append_of_le_length (by omega)
  rw [ht] at hcard ⊢
  have hall : (wait.take j).all (fun x => !accept x) = true := by
    rw [List.all_eq_true] at hw ⊢
    exact fun x hx => hw x (List.mem_of_mem_take hx)
  have hlen : (wait.take j).length = j := by simp; omega
  have e := poll_failing (wait.take j) n s rest hall (by omega) hcard
  exact ⟨_, by rw [e, exchanges_fills (wait.length + 1) _ (by omega), fills_getD]⟩

/-- A single attempt that ends its wait. -/
theorem goes_pollOnce_accept {accept : Byte → Bool} {b : Byte} (budget : Option Nat) (hb : accept b = true) :
    Goes c (pollOnce budget accept) d [fillByte] [b] { d with poll := d.poll + 1 } (some b) := by
  refine ⟨rfl, gives_pollOnce_accept budget hb, fun j hj s rest hcfg hd hcard => ?_⟩
  obtain rfl : j = 0 := by simpa using hj
  refine ⟨{ d with poll := d.poll + 1 }, ?_⟩
  subst hd
  rw [pollOnce, Proc.andThen_ok (setReg_eq _ s), rx,
    Proc.bind_err (xchg_failing fillByte (s := s.mapDp fun d => { d with poll := d.poll + 1 }) (rest := rest)
      (by simpa using hcard))]
  rfl

theorem rxMany_breaks (n : Nat) (got : List Byte) (s : State) (rest : List Reply) (h : got.length < n)
    (hc : s.card = replies got ++ .fail :: rest) : (rxMany n s) =
      (got, .err .ioError (s.saw (exchanges (fills got.length) got ++ [.xchg fillByte .fail]) rest s.dp)) := by
  induction got generalizing s n with
  | nil =>
    cases n with
    | zero => simp at h
    | succ n =>
      rw [rxMany, show rx s = _ from xchg_failing fillByte (by simpa using hc)]
      rfl
  | cons b bs ih =>
    cases n with
    | zero => simp at h
    | succ n =>
      have h1 : rx s = .ok b (s.saw [.xchg fillByte (.ok b)] (replies bs ++ .fail :: rest) s.dp) :=
        gives_rx (c := s.cfg) b s _ rfl rfl (by simpa using hc)
      rw [rxMany, h1]
      simp only [ih n (s.saw [.xchg fillByte (.ok b)] (replies bs ++ .fail :: rest) s.dp) (by simpa using h) rfl,
        State.saw_saw, State.saw_dp, List.length_cons, fills_succ, exchanges_cons, List.cons_append, List.nil_append]

theorem goes_recvPayload (payload : Block) :
    Goes c recvPayload d (fills 512) payload.toList { d with buf := payload } () := by
  refine ⟨by simp, gives_recvPayload payload, fun j hj s rest hcfg hd hcard => ?_⟩
  have hj' : j < 512 := by simpa using hj
  have hlen : (payload.toList.take j).length = j := by simp; omega
  have e := rxMany_breaks blockLen (payload.toList.take j) s rest (by rw [hlen]; exact hj') hcard
  refine ⟨{ s.dp with buf := overwrite s.dp.buf (payload.toList.take j) }, ?_⟩
  rw [recvPayload, e, hlen]
  rw [exchanges_fills 512 _ (by omega), fills_getD, hlen]
  rfl

theorem goes_recvCrc (hi lo : Byte) : Goes c recvCrc d (fills 2) [hi, lo] { d with crc16 := hi ++ lo } () := by
  refine Goes.cast ((goes_rx hi).bind ((goes_setReg _).andThen ((goes_rx lo).bind (goes_setReg _)))) rfl rfl ?_
  simp only [append_high]

theorem goes_waitZeroR1 {wait : List Byte} (hw : wait.all (fun x => !r1Valid x) = true) (hl : wait.length < c.nR1) :
    Goes c waitZeroR1 d (fills (wait.length + 1)) (wait ++ [0x00]) { d with poll := wait.length + 1, r1 := 0x00 } () := by
  have h1 : Goes c waitR1 d (fills (wait.length + 1)) (wait ++ [0x00])
      { d with poll := wait.length + 1, r1 := 0x00 } 0x00 :=
    Goes.withCfg (Goes.cast ((goes_poll hw (by decide) hl).bind ((goes_setReg _).andThen (goes_ret _))) (by simp) (by simp)
      rfl)
  exact Goes.cast (h1.bind (goes_ret ())) (by simp) (by simp) rfl

theorem goes_waitToken {gap : List Byte} (hg : gap.all (fun b => !isStartToken b) = true) (hl : gap.length < c.nToken) :
    Goes c waitToken d (fills (gap.length + 1)) (gap ++ [0xFE]) { d with poll := gap.length + 1 } () :=
  Goes.withCfg (Goes.cast ((goes_poll (b := 0xFE) hg (by decide) hl).bind (goes_ret ())) (by simp) (by simp) rfl)

theorem goes_sendFrame (idx : BitVec 6) (arg : Word) (during : Vector Byte 6) :
    Goes c (sendFrame idx arg) d (buildFrame idx arg).toList during.toList (d.framed idx arg) () := by
  have h := ((goes_setReg (c := c) (d := d) fun d =>
    { d with idx := idx, arg := arg, crc7 := crc7Run (frameHead idx arg), frame := buildFrame idx arg }).andThen
      (goes_ret (buildFrame idx arg))).bind (f := fun f => txList f.toList)
        (goes_txList (sent := (buildFrame idx arg).toList) (got := during.toList) (by simp))
  exact h

/-- Wherever the script breaks off, a value that is returned is v. -/
theorem Goes.value {α : Type} {p : Proc α} {v : α} (h : Goes c p d a g d' v) (tail : List Byte) (j : Nat) (s : State)
    (rest : List Reply) (hcfg : s.cfg = c) (hd : s.dp = d) (hcard : s.card = lostReplies (g ++ tail) j ++ rest) {w : α}
    {u : State} (e : p s = .ok w u) : w = v := by
  have hcard : s.card = replies ((g ++ tail).take j) ++ .fail :: rest := by rw [hcard, lostReplies]; simp
  by_cases hj : j < g.length
  · rw [List.take_append_of_le_length (by omega)] at hcard
    obtain ⟨x, e2⟩ := h.breaks j hj s rest hcfg hd hcard
    rw [e2] at e
    cases e
  · rw [replies_take_append _ _ _ (by omega), List.append_assoc] at hcard
    rw [h.gives s _ hcfg hd hcard] at e
    cases e
    rfl

/-! ## Transactions that break off -/

/-- A transaction whose exchange number j, its trailing filler's included, fails in transport. -/
theorem Goes.lost {α : Type} {p : Proc α} {v : α} (h : Goes c p d a g d' v) (b : Byte) (j : Nat) (hj : j < g.length + 1)
    (s : State) (rest : List Reply) (hcfg : s.cfg = c) (hd : s.dp = d)
    (hcard : s.card = lostReplies (g ++ [b]) j ++ rest) :
    ∃ x, txnExit (p s.csAssert) =
      .err .ioError ((s.setCs false).saw (lostEvents (a ++ [fillByte]) (g ++ [b]) j) rest x) := by
  have hb := (h.bind (f := fun _ => tx fillByte) (goes_tx (d := d') fillByte b)).breaks j
    (by simpa using hj) s.csAssert rest hcfg hd (by rw [lostReplies] at hcard; simpa using hcard)
  obtain ⟨x, e⟩ := hb
  refine ⟨x, ?_⟩
  have hs : ∀ ev : List Event, (s.csAssert.saw ev rest x).csDeassert =
      (s.setCs false).saw (.csAssert :: (ev ++ [.csDeassert])) rest x := by
    intro ev
    simp [State.saw, State.csDeassert, State.csAssert, State.record, State.setCs]
  have hf : filler 1 = (tx fillByte).andThen (ret ()) := rfl
  cases hp : p s.csAssert with
  | err k u =>
    rw [Proc.bind_err hp] at e
    cases e
    show Res.err .ioError _ = _
    rw [hs]
    simp [lostEvents]
  | ok w u =>
    rw [Proc.bind_ok hp] at e
    have : filler 1 u = .err .ioError (s.csAssert.saw (exchanges (a ++ [fillByte]) ((g ++ [b]).take j) ++
        [.xchg ((a ++ [fillByte]).getD j fillByte) .fail]) rest x) := by rw [hf, Proc.andThen_err e]
    simp only [txnExit, this, hs]
    simp [lostEvents]

/-- A block read that would be served, with exchange number j failing. -/
theorem readBlock_lost (addr : Word) (r : ReadAnswer) (j : Nat) (hr : r.ok c = true) (hj : j < r.bytes.length)
    (s : State) (rest : List Reply) (hcfg : s.cfg = c) (hcard : s.card = lostReplies r.bytes j ++ rest) :
    ∃ x, readBlock addr s = .err .ioError ((s.setCs false).saw (lostEvents (r.sent addr) r.bytes j) rest x) := by
  obtain ⟨hw, hl, hg, hgl⟩ := ReadAnswer.ok_iff.1 hr
  have h := (goes_sendFrame (c := c) (d := s.dp) 17 addr r.during).andThen ((goes_waitZeroR1 hw hl).andThen
    ((goes_waitToken hg hgl).andThen ((goes_recvPayload r.payload).andThen (goes_recvCrc r.crcHi r.crcLo))))
  have hb : (r.during.toList ++ ((r.wait ++ [0x00]) ++ ((r.gap ++ [0xFE]) ++ (r.payload.toList ++ [r.crcHi, r.crcLo])))) ++
      [r.filler] = r.bytes := by simp [ReadAnswer.bytes]
  have hs : ((buildFrame 17 addr).toList ++ (fills (r.wait.length + 1) ++ (fills (r.gap.length + 1) ++ (fills 512 ++
      fills 2)))) ++ [fillByte] = r.sent addr := by
    have e : [fillByte] = fills 1 := rfl
    rw [ReadAnswer.sent, e, List.append_assoc, List.append_assoc, List.append_assoc, List.append_assoc, ← fills_add,
      ← fills_add, ← fills_add, ← fills_add]
    exact congrArg (fun n => (buildFrame 17 addr).toList ++ fills n) (by omega)
  have := h.lost r.filler j (by rw [← hb, List.length_append, List.length_singleton] at hj; exact hj) s rest
    hcfg rfl (by rw [hb]; exact hcard)
  rw [hb, hs] at this
  exact this

theorem goes_recvDresp_ok (b : Byte) (h : classifyDresp b = .accepted) :
    Goes c recvDresp d [fillByte] [b] { d with dresp := b } b := by
  refine Goes.cast ((goes_rx b).bind ((goes_setReg fun p => { p with dresp := b }).andThen (a' := []) (g' := []) ?_))
    rfl rfl rfl
  unfold decodeDrespByte
  rw [h]
  exact goes_ret b

theorem goes_waitNotBusy {busy : List Byte} {r : Byte} (hb : busy.all isBusyByte = true) (hr : isBusyByte r = false)
    (hl : busy.length < c.nBusy.getD 1) :
    Goes c waitNotBusy d (fills (busy.length + 1)) (busy ++ [r]) { d with poll := busy.length + 1 } true := by
  refine Goes.withCfg ?_
  cases hn : c.nBusy with
  | some n =>
    rw [hn] at hl
    exact Goes.cast ((goes_poll (b := r) (accept := fun b => !isBusyByte b) (by simpa using hb) (by simp [hr]) hl).bind
      (goes_ret true)) (by simp) (by simp) rfl
  | none =>
    rw [hn] at hl
    obtain rfl : busy = [] := by simpa using hl
    have h1 : Goes c busyAttempt { d with poll := 0 } [fillByte] [r] { d with poll := 1 } (some r) := by
      refine Goes.withCfg ?_
      rw [hn]
      exact goes_pollOnce_accept (accept := fun b => !isBusyByte b) none (by simp [hr])
    exact Goes.cast ((goes_setReg (d := d) fun d => { d with poll := 0 }).andThen (h1.bind (goes_ret true))) rfl rfl rfl

theorem goes_sendData (token crcHi crcLo : Byte) (payload : Vector Byte 512) :
    Goes c sendData d (0xFE :: (d.buf.toList ++ [0xFF, 0xFF])) (token :: (payload.toList ++ [crcHi, crcLo])) d () := by
  have h1 : Goes c sendPayload d d.buf.toList payload.toList d () := by
    have h := goes_txList (c := c) (d := d) (sent := d.buf.toList) (got := payload.toList) (by simp)
    refine ⟨h.length, gives_sendPayload (by simp), fun j hj s rest hcfg hd hcard => ?_⟩
    obtain ⟨x, e⟩ := h.breaks j hj s rest hcfg hd hcard
    subst hd
    exact ⟨x, e⟩
  exact (goes_tx tokenStart token).andThen (h1.andThen (goes_txList (sent := crc16Fill) (got := [crcHi, crcLo]) rfl))

/-- A block write that would be taken, with exchange number j failing. -/
theorem writeBlock_lost (addr : Word) (w : WriteAnswer) (j : Nat) (hr : w.taken c = true) (hj : j < w.bytes.length)
    (s : State) (rest : List Reply) (hcfg : s.cfg = c) (hcard : s.card = lostReplies w.bytes j ++ rest) :
    ∃ x, writeBlock addr s = .err .ioError
      ((s.setCs false).saw (lostEvents (w.sent addr s.dp.buf.toList) w.bytes j) rest x) := by
  obtain ⟨ho, hd, hb⟩ := WriteAnswer.taken_iff.1 hr
  obtain ⟨busy, r, h, h1, h2, h3⟩ := leavesBusy_iff.1 hb
  have ⟨hw, hl⟩ : w.wait.all (fun b => !r1Valid b) = true ∧ w.wait.length < c.nR1 := by
    simpa [WriteAnswer.ok, Bool.and_eq_true] using ho
  have hg := (goes_sendFrame (c := c) (d := s.dp) 24 addr w.during).andThen ((goes_waitZeroR1 hw hl).andThen
    ((goes_txList (sent := [fillByte]) (got := [w.filler1]) rfl).andThen
      ((goes_sendData w.token w.crcHi w.crcLo w.payload).andThen ((goes_recvDresp_ok w.dresp hd).bind
        (f := fun _ => waitNotBusy) (goes_waitNotBusy h1 h2 h3)))))
  have hbytes : (w.during.toList ++ ((w.wait ++ [0x00]) ++ ([w.filler1] ++ ((w.token :: (w.payload.toList ++
      [w.crcHi, w.crcLo])) ++ ([w.dresp] ++ (busy ++ [r])))))) ++ [w.filler2] = w.bytes := by
    simp [WriteAnswer.bytes, WriteAnswer.bytesToBusy, h]
  have hs : ((buildFrame 24 addr).toList ++ (fills (w.wait.length + 1) ++ ([fillByte] ++ ((0xFE :: (s.dp.buf.toList ++
      [0xFF, 0xFF])) ++ ([fillByte] ++ fills (busy.length + 1)))))) ++ [fillByte] = w.sent addr s.dp.buf.toList := by
    have e : [fillByte] ++ fills (busy.length + 1) = fills (1 + w.busy.length) := by
      rw [h, List.length_append, List.length_singleton, fills_add 1]; rfl
    rw [e]
    simp [WriteAnswer.sent, WriteAnswer.sentToBusy]
  obtain ⟨x, hx⟩ := hg.lost w.filler2 j (by rw [← hbytes, List.length_append, List.length_singleton] at hj; exact hj) s rest
    hcfg rfl (by rw [hbytes]; exact hcard)
  rw [hbytes] at hx
  have hx' : txnExit (writeBody addr s.csAssert) = .err .ioError
      ((s.setCs false).saw (lostEvents (w.sent addr s.dp.buf.toList) w.bytes j) rest x) := by
    rw [← hs]; exact hx
  refine ⟨x, ?_⟩
  rcases writeExit_end (r := writeBody addr s.csAssert) with ⟨t, e1, -⟩ | ⟨e1, -⟩
  · have := hg.value [w.filler2] j s.csAssert rest hcfg rfl (by rw [hbytes]; exact hcard) e1
    cases this
  · exact e1.trans hx'

end

/-! ## Block transfers that fail -/

/-- R147, R148, R233: a READ_BLOCK that is cut short. -/
theorem readBlock_cut (addr : Word) (x : ReadCut) (s : State) (rest : List Reply) (hx : x.ok s.cfg = true)
    (hcard : s.card = x.outcomes ++ rest) :
    ∃ d, readBlock addr s = .err x.kind ((s.setCs false).saw (x.events addr) rest d) := by
  cases x with
  | silent y => exact ⟨_, gives_block_silence (q := recvData) 17 addr y hx s rest rfl rfl hcard⟩
  | status a =>
    simp only [ReadCut.ok, Bool.and_eq_true, bne_iff_ne, ne_eq] at hx
    exact ⟨_, gives_block_nonzero (q := recvData) 17 addr a hx.1 hx.2 s rest rfl rfl hcard⟩
  | noToken a =>
    simp only [ReadCut.ok, Bool.and_eq_true, beq_iff_eq] at hx
    exact ⟨_, gives_readBlock_noToken addr a hx.1 hx.2.1 hx.2.2.1 hx.2.2.2 s rest rfl rfl hcard⟩
  | lost a j =>
    simp only [ReadCut.ok, Bool.and_eq_true, decide_eq_true_eq] at hx
    exact readBlock_lost addr a j hx.1 hx.2 s rest rfl hcard

/-- R147, R156, R158, R233: a WRITE_BLOCK that is cut short. -/
theorem writeBlock_cut (addr : Word) (x : WriteCut) (s : State) (rest : List Reply) (hx : x.ok s.cfg = true)
    (hcard : s.card = x.outcomes ++ rest) :
    ∃ d, writeBlock addr s = .err x.kind ((s.setCs false).saw (x.events addr s.dp.buf.toList) rest d) := by
  cases x with
  | silent y => exact ⟨_, gives_writeBlock_silence addr y hx s rest rfl rfl hcard⟩
  | status a =>
    simp only [WriteCut.ok, Bool.and_eq_true, bne_iff_ne, ne_eq] at hx
    exact ⟨_, gives_writeBlock_nonzero addr a hx.1 hx.2 s rest rfl rfl hcard⟩
  | rejected a =>
    simp only [WriteCut.ok, Bool.and_eq_true, bne_iff_ne, ne_eq, beq_iff_eq] at hx
    exact ⟨_, gives_writeBlock_rejected addr a hx.1 hx.2.1 hx.2.2 s rest rfl rfl hcard⟩
  | busy a =>
    simp only [WriteCut.ok, Bool.and_eq_true, beq_iff_eq] at hx
    exact ⟨_, gives_writeBlock_busy addr a hx.1 hx.2.1 hx.2.2.2 hx.2.2.1 rfl s rest rfl rfl hcard⟩
  | lost a j =>
    simp only [WriteCut.ok, Bool.and_eq_true, decide_eq_true_eq] at hx
    exact writeBlock_lost addr a j hx.1 hx.2 s rest rfl hcard

/-! ## Runs that abort -/

/-- R160: a READ_RUN whose card serves some sectors and then cuts one short. -/
theorem readLoop_cut (answers : List ReadAnswer) (x : ReadCut) (k : Nat) (s : State) (rest : List Reply)
    (hok : ∀ a ∈ answers, a.ok s.cfg = true) (hx : x.ok s.cfg = true)
    (hcard : s.card = replies (readBytesOf answers) ++ (x.outcomes ++ rest))
    (hrem : s.dp.remain.toNat = answers.length + (k + 1)) (hlim : s.dp.sect.toNat + answers.length < sectorLimit s.ctype) :
    ∃ d d', readLoop (answers.length + (k + 1)) s = .err x.kind (((s.readTo answers (x.outcomes ++ rest) d).setCs false).saw
      (x.events (protocolAddress s.ctype (s.dp.sect + BitVec.ofNat 32 answers.length))) rest d') := by
  have h32 := sectorLimit_le s.ctype
  obtain ⟨d, h, hs, hr, ho⟩ := readLoop_some answers k s (x.outcomes ++ rest) hok hcard hrem (by omega) (by omega)
  have hsect : d.sect = s.dp.sect + BitVec.ofNat 32 answers.length := by
    apply BitVec.eq_of_toNat_eq
    rw [hs]
    simp [BitVec.toNat_add]
    omega
  have h1 := setAddress_ok (s := s.readTo answers (x.outcomes ++ rest) d) (by
    show d.sect.toNat < sectorLimit s.ctype
    omega)
  obtain ⟨d', h2⟩ := readBlock_cut (protocolAddress s.ctype d.sect) x
    ((s.readTo answers (x.outcomes ++ rest) d).mapDp fun e => { e with addr := protocolAddress s.ctype d.sect }) rest hx rfl
  refine ⟨d, d', ?_⟩
  rw [h, readLoop, Proc.bind_ok h1, ← hsect]
  exact Proc.andThen_err h2

/-- R161: a WRITE_RUN whose card takes some sectors and then cuts one short. -/
theorem writeLoop_cut (answers : List WriteAnswer) (x : WriteCut) (k : Nat) (s : State) (rest : List Reply)
    (hok : ∀ a ∈ answers, a.taken s.cfg = true) (hx : x.ok s.cfg = true)
    (hcard : s.card = replies (writeBytesOf answers) ++ (x.outcomes ++ rest))
    (hrem : s.dp.remain.toNat = answers.length + (k + 1)) (hlim : s.dp.sect.toNat + answers.length < sectorLimit s.ctype) :
    ∃ d d', writeLoop (answers.length + (k + 1)) s = .err x.kind (((s.wroteTo answers (x.outcomes ++ rest) d).setCs false).saw
      (x.events (protocolAddress s.ctype (s.dp.sect + BitVec.ofNat 32 answers.length))
        (s.buffer.readBytes (s.dp.off + 512 * answers.length) 512)) rest d') := by
  have h32 := sectorLimit_le s.ctype
  obtain ⟨d, h, hs, hr, ho⟩ := writeLoop_some answers k s (x.outcomes ++ rest) hok hcard hrem (by omega) (by omega)
  have hsect : d.sect = s.dp.sect + BitVec.ofNat 32 answers.length := by
    apply BitVec.eq_of_toNat_eq
    rw [hs]
    simp [BitVec.toNat_add]
    omega
  have h1 : setAddress (s.wroteTo answers (x.outcomes ++ rest) d) = .ok (protocolAddress s.ctype d.sect)
      ((s.wroteTo answers (x.outcomes ++ rest) d).mapDp fun e => { e with addr := protocolAddress s.ctype d.sect }) :=
    setAddress_ok (s := s.wroteTo answers (x.outcomes ++ rest) d) (by
    show d.sect.toNat < sectorLimit s.ctype
    omega)
  obtain ⟨d', h2⟩ := writeBlock_cut (protocolAddress s.ctype d.sect) x
    (((s.wroteTo answers (x.outcomes ++ rest) d).mapDp fun e => { e with addr := protocolAddress s.ctype d.sect }).mapDp
      fun e => { e with buf := s.buffer.readBlock e.off }) rest hx rfl
  refine ⟨d, d', ?_⟩
  have h3 := Memory.readBlock_toList s.buffer d.off
  rw [ho] at h3
  rw [h, writeLoop, Proc.bind_ok h1, Proc.andThen_ok (loadBuf_eq _), ← hsect, ← h3, ← ho]
  have hb : ((s.wroteTo answers (x.outcomes ++ rest) d).mapDp
      fun e => { e with addr := protocolAddress s.ctype d.sect }).buffer = s.buffer := rfl
  simp only [State.mapDp_dp] at h2
  have hd : (s.wroteTo answers (x.outcomes ++ rest) d).dp = d := rfl
  rw [hd] at h2
  rw [hb, Proc.bind_err h2]
  simp only [State.saw, State.setCs, State.mapDp]

/-! ### As host operations -/

/-- The state after a read run that was cut short. -/
theorem finish_readCut (s : State) (sector count : Word) (answers : List ReadAnswer) (r rest : List Reply) (d d' : Datapath)
    (ev : List Event) (k : ErrKind) :
    (Turn.done (.io .error) (((((s.runStart sector count).readTo answers r d).setCs false).saw ev rest d').setErr k)).finish =
      { s.served (readEvents s.ctype sector answers ++ ev) rest (.io .error) with
        err := k, buffer := putBlocks s.buffer 0 answers } := by
  simp [Turn.finish, State.forget, State.lockRelease, State.setHold, State.setResult, State.setLock, State.record,
    State.readTo, State.runStart, State.begin, State.lockAcquire, State.setErr, State.mapDp, State.served, State.saw,
    State.setCs]

/-- The state after a write run that was cut short. -/
theorem finish_writeCut (s : State) (sector count : Word) (answers : List WriteAnswer) (r rest : List Reply) (d d' : Datapath)
    (ev : List Event) (k : ErrKind) :
    (Turn.done (.io .error) (((((s.runStart sector count).wroteTo answers r d).setCs false).saw ev rest d').setErr k)).finish =
      { s.served (writeEvents s.ctype s.buffer sector 0 answers ++ ev) rest (.io .error) with err := k } := by
  simp [Turn.finish, State.forget, State.lockRelease, State.setHold, State.setResult, State.setLock, State.record,
    State.wroteTo, State.runStart, State.begin, State.lockAcquire, State.setErr, State.mapDp, State.served, State.saw,
    State.setCs]

end Sys2Proof.Machine
end

