-- ==== Sys2Proof/Laws/Encoding.lean ====
section
/-! SUPPORT. What the parts of the encoding tables give back: fields of bytes, words and frames, in both directions
(spec/30_encoding.md R54, R71, R74, R87). -/

namespace Sys2Proof

open Sys2Proof.Machine

/-! ## Bytes and words -/

theorem start_marker (idx : BitVec 6) : ((0b01 : BitVec 2) ++ idx : Byte).extractLsb' 6 2 = 0b01 := by revert idx; decide

theorem start_index (idx : BitVec 6) : ((0b01 : BitVec 2) ++ idx : Byte).extractLsb' 0 6 = idx := by revert idx; decide

theorem stop_bit (crc : BitVec 7) : (crc ++ (0b1 : BitVec 1) : Byte).getLsbD 0 = true := by revert crc; decide

theorem stop_crc (crc : BitVec 7) : (crc ++ (0b1 : BitVec 1) : Byte).extractLsb' 1 7 = crc := by revert crc; decide

theorem byte_marker (b : Byte) (h : b.extractLsb' 6 2 = 0b01) : ((0b01 : BitVec 2) ++ b.extractLsb' 0 6 : Byte) = b := by
  revert b; decide

theorem byte_stop (b : Byte) (h : b.getLsbD 0 = true) : (b.extractLsb' 1 7 ++ (0b1 : BitVec 1) : Byte) = b := by
  revert b; decide

theorem extract_low {n : Nat} (x : BitVec n) (y : Byte) : (x ++ y).extractLsb' 0 8 = y := by
  ext i hi; simp [BitVec.getLsbD_append, hi]

theorem extract_high {n : Nat} (x : BitVec n) (y : Byte) (k w : Nat) :
    (x ++ y).extractLsb' (k + 8) w = x.extractLsb' k w := by
  ext i hi; simp [BitVec.getLsbD_append, show ¬ (k + 8 + i < 8) by omega, show k + 8 + i - 8 = k + i by omega]

/-- R54: the bytes of a word composed of four bytes are these bytes. -/
theorem wordBytes_beWord (a b c d : Byte) : wordBytes (beWord a b c d) = [a, b, c, d] := by
  have h3 : (beWord a b c d).extractLsb' 24 8 = a := by
    refine (extract_high (a ++ b ++ c) d 16 8).trans <| (extract_high (a ++ b) c 8 8).trans <|
      (extract_high a b 0 8).trans ?_
    exact BitVec.extractLsb'_eq_self
  have h2 : (beWord a b c d).extractLsb' 16 8 = b :=
    (extract_high (a ++ b ++ c) d 8 8).trans <| (extract_high (a ++ b) c 0 8).trans <| extract_low a b
  have h1 : (beWord a b c d).extractLsb' 8 8 = c :=
    (extract_high (a ++ b ++ c) d 0 8).trans <| extract_low (a ++ b) c
  have h0 : (beWord a b c d).extractLsb' 0 8 = d := extract_low (a ++ b ++ c) d
  rw [wordBytes, h3, h2, h1, h0]

theorem frameByte0_toNat (idx : BitVec 6) : (frameByte0 idx).toNat = 0x40 + idx.toNat := by revert idx; decide

theorem crcSlot_toNat (c : BitVec 7) : (crcSlot c).toNat = 2 * c.toNat + 1 := by revert c; decide

theorem wordBytes_toNat (w : Word) : (w.extractLsb' 24 8).toNat * 2 ^ 24 + (w.extractLsb' 16 8).toNat * 2 ^ 16 +
    (w.extractLsb' 8 8).toNat * 2 ^ 8 + (w.extractLsb' 0 8).toNat = w.toNat := by
  have := w.isLt
  simp only [BitVec.extractLsb'_toNat, Nat.shiftRight_eq_div_pow]
  omega

/-! ## Frames -/

theorem frameRow_cmd17 (arg : Word) (crc : BitVec 7) : frameRow 17 arg crc = .cmd17 arg crc := by
  simp [frameRow, fixedFrames]

theorem frameRow_cmd24 (arg : Word) (crc : BitVec 7) : frameRow 24 arg crc = .cmd24 arg crc := by
  simp [frameRow, fixedFrames]

theorem frameRow_frame (idx : BitVec 6) (arg : Word) (crc : BitVec 7) (h : hasOwnRow idx arg = false) :
    frameRow idx arg crc = .frame idx arg crc := by
  simp only [hasOwnRow, Bool.or_eq_false_iff, Bool.and_eq_false_iff, beq_eq_false_iff_ne, ne_eq] at h
  have hn : fixedFrames.find? (fun r => r.1 == idx && r.2.1 == arg && r.2.2.1 == crc) = none := by
    simp only [fixedFrames, List.find?_eq_none, List.mem_cons, List.not_mem_nil, or_false, Bool.and_eq_true, beq_iff_eq,
      not_and]
    rintro x hx
    rcases hx with rfl | rfl | rfl | rfl | rfl | rfl | rfl | rfl <;> rintro ⟨rfl, rfl⟩ <;> simp at h
  simp only [frameRow, hn]
  rw [if_neg (by tauto), if_neg (by tauto)]

theorem decode_encodeFrame (idx : BitVec 6) (arg : Word) (crc : BitVec 7) (rest : List Byte) :
    decode .fCmd (encodeFrame idx arg crc ++ rest) = .ok (frameRow idx arg crc, rest) := by
  simp only [encodeFrame, wordBytes, List.cons_append, List.nil_append, decode, decodeFrame, start_marker, stop_bit,
    start_index, stop_crc, beWord_wordBytes]
  rfl

theorem encode_frameRow (idx : BitVec 6) (arg : Word) (crc : BitVec 7) :
    encode (frameRow idx arg crc) = encodeFrame idx arg crc := by
  unfold frameRow
  split
  · rename_i r h
    have h1 := List.mem_of_find?_eq_some h
    have h2 := List.find?_some h
    simp only [Bool.and_eq_true, beq_iff_eq] at h2
    obtain ⟨⟨rfl, rfl⟩, rfl⟩ := h2
    have : ∀ r ∈ fixedFrames, encode r.2.2.2 = encodeFrame r.1 r.2.1 r.2.2.1 := by decide +kernel
    exact this r h1
  · split
    · subst_vars; rfl
    · split
      · subst_vars; rfl
      · rfl

/-! ## Received formats -/

theorem encode_decodeR1 (b : Byte) : encode (decodeR1 b) = [b] := by
  unfold decodeR1; split <;> rfl

theorem encode_decodeDresp (b : Byte) : encode (decodeDresp b) = [b] := by
  unfold decodeDresp; split <;> rfl

theorem encode_decodeLong (full : Byte → List Byte → Decoded)
    (hf : ∀ r bs i rest, full r bs = .ok (i, rest) → encode i ++ rest = r :: bs) (b : Byte) (bs : List Byte) (i : Instr)
    (rest : List Byte) (h : decodeLong full b bs = .ok (i, rest)) : encode i ++ rest = b :: bs := by
  unfold decodeLong at h
  split at h
  · cases h; rfl
  · split at h
    · cases h; rfl
    · exact hf _ _ _ _ h

theorem decode_block (d : Dir) (payload : Block) (crc : BitVec 16) (rest : List Byte) :
    decode (.fBlk d) (0xFE :: payload.toList ++ [crc.extractLsb' 8 8, crc.extractLsb' 0 8] ++ rest) =
      .ok (.dataBlock d payload crc, rest) := by
  have h : takeBlock (payload.toList ++ ([crc.extractLsb' 8 8, crc.extractLsb' 0 8] ++ rest)) =
      some (payload, [crc.extractLsb' 8 8, crc.extractLsb' 0 8] ++ rest) := by
    unfold takeBlock
    rw [dif_pos (by simp)]
    congr 1
    refine Prod.ext (Vector.toList_inj.1 ?_) ?_
    · simp
    · simp
  have h2 : decodeBlockRest d (payload.toList ++ ([crc.extractLsb' 8 8, crc.extractLsb' 0 8] ++ rest)) =
      .ok (.dataBlock d payload crc, rest) := by
    unfold decodeBlockRest
    rw [h]
    simp only [List.cons_append, List.nil_append, extract_append]
  have h3 : 0xFE :: payload.toList ++ [crc.extractLsb' 8 8, crc.extractLsb' 0 8] ++ rest =
      0xFE :: (payload.toList ++ ([crc.extractLsb' 8 8, crc.extractLsb' 0 8] ++ rest)) := by simp
  rw [h3, ← h2]
  rfl

theorem encode_decodeBlockRest (d : Dir) (bytes : List Byte) (i : Instr) (rest : List Byte)
    (h : decodeBlockRest d bytes = .ok (i, rest)) : encode i ++ rest = 0xFE :: bytes := by
  unfold decodeBlockRest takeBlock at h
  split at h
  · rename_i p c0 c1 r hp
    split at hp
    · rename_i hl
      simp only [Option.some.injEq, Prod.mk.injEq] at hp
      obtain ⟨rfl, hr⟩ := hp
      simp only [Except.ok.injEq, Prod.mk.injEq] at h
      obtain ⟨rfl, rfl⟩ := h
      have := List.take_append_drop 512 bytes
      rw [hr] at this
      simpa [encode, append_high, append_low] using this
    · simp at hp
  · simp at h

/-! ## Host operations -/

theorem encode_decodeHost (b : Byte) (bs : List Byte) (i : Instr) (rest : List Byte)
    (h : decodeHost b bs = .ok (i, rest)) :
    encode i ++ rest = b :: bs := by
  have one : ∀ (f : Word → Instr) (c : Byte), (∀ w, encode (f w) = c :: wordBytes w) →
      decodeOneWord f bs = .ok (i, rest) → encode i ++ rest = c :: bs := by
    intro f c hf h
    unfold decodeOneWord at h
    split at h <;> cases h
    rw [hf, wordBytes_beWord]; rfl
  have three : ∀ (f : Word → Word → Word → Instr) (c : Byte),
      (∀ u v w, encode (f u v w) = c :: (wordBytes u ++ wordBytes v ++ wordBytes w)) →
        decodeThreeWords f bs = .ok (i, rest) → encode i ++ rest = c :: bs := by
    intro f c hf h
    unfold decodeThreeWords at h
    split at h <;> cases h
    rw [hf, wordBytes_beWord, wordBytes_beWord, wordBytes_beWord]; rfl
  unfold decodeHost at h
  split at h
  · rename_i hb; rw [show b = 0 from BitVec.eq_of_toNat_eq hb]; cases h; rfl
  · rename_i hb; rw [show b = 1 from BitVec.eq_of_toNat_eq hb]; cases h; rfl
  · rename_i hb; rw [show b = 2 from BitVec.eq_of_toNat_eq hb]; cases h; rfl
  · rename_i hb; rw [show b = 3 from BitVec.eq_of_toNat_eq hb]; exact one _ _ (fun _ => rfl) h
  · rename_i hb; rw [show b = 4 from BitVec.eq_of_toNat_eq hb]; exact one _ _ (fun _ => rfl) h
  · rename_i hb; rw [show b = 5 from BitVec.eq_of_toNat_eq hb]; exact three _ _ (fun _ _ _ => rfl) h
  · rename_i hb; rw [show b = 6 from BitVec.eq_of_toNat_eq hb]; exact three _ _ (fun _ _ _ => rfl) h
  · rename_i hb; rw [show b = 7 from BitVec.eq_of_toNat_eq hb]; cases h; rfl
  · cases h

end Sys2Proof
end

