-- ==== Sys2Proof/Laws/Steps.lean ====
section
/-! SUPPORT. What one step can do: the rows of the table that are no host operation, the host operations that leave the
session alone, the initialization sequence and the status query, and the cases of a step. -/

namespace Sys2Proof.Machine

/-! ## Rows that are no host operation -/

theorem conclude_eq {α : Type} (r : Res α) (shown : α → Result) : ∃ x, r.conclude shown = r.state.setResult x := by
  cases r <;> exact ⟨_, rfl⟩

theorem quiet_arrive (s : State) (b : List Byte) : Quiet s (s.arrive b) :=
  ⟨rfl, rfl, rfl, rfl, rfl, rfl, rfl, rfl, rfl, rfl, rfl, rfl, rfl, rfl, [], rfl⟩

theorem runAlone_next {α : Type} {p : Proc α} {shown : α → Result}
    {s t : State} (hp : Keeps Quiet p) (h : runAlone p shown s = .next t) :
   ∃ u x, Quiet s u ∧ t = u.setResult x := by
  unfold runAlone at h
  cases h
  obtain ⟨x, e⟩ := conclude_eq (p s) shown
  exact ⟨_, x, hp s, e⟩

theorem runAlone_arrive {α : Type} {p : Proc α} {shown : α → Result}
    {s t : State} {b} (hp : Keeps Quiet p) (h : runAlone p shown (s.arrive b) = .next t) :
   ∃ u x, Quiet s u ∧ t = u.setResult x := by
  obtain ⟨u, x, hu, e⟩ := runAlone_next hp h
  exact ⟨u, x, (quiet_arrive s b).trans hu, e⟩

theorem concludeBlock_eq (r : Res Bool) : ∃ h x, concludeBlock r = (r.state.setHold h).setResult x := by
  cases r with
  | ok b s => cases b <;> exact ⟨_, _, rfl⟩
  | err k s => exact ⟨_, _, rfl⟩

theorem exec_row {i : Instr} {s t : State} (hi : i.format ≠ .fHost) (h : exec i s = .next t) :
    ∃ u y x, Quiet s u ∧ t = (u.setHold y).setResult x := by
  have one : (∃ u x, Quiet s u ∧ t = u.setResult x) → ∃ u y x, Quiet s u ∧ t = (u.setHold y).setResult x := by
    rintro ⟨u, x, hu, rfl⟩
    exact ⟨u, u.hold, x, hu, rfl⟩
  have hc : CommandSafe fun _ => True := fun _ _ => trivial
  have hb : BlockSafe fun _ => True := fun _ _ => trivial
  cases i
  case cmd0 => exact one (runAlone_next (quiet_card.command _ _ _) h)
  case cmd1 => exact one (runAlone_next (quiet_card.command _ _ _) h)
  case cmd8 => exact one (runAlone_next (quiet_card.command _ _ _) h)
  case cmd13 => exact one (runAlone_next (quiet_card.command _ _ _) h)
  case cmd55 => exact one (runAlone_next (quiet_card.command _ _ _) h)
  case cmd58 => exact one (runAlone_next (quiet_card.command _ _ _) h)
  case acmd41Hcs => exact one (runAlone_next (quiet_card.sendAcmd _ _) h)
  case acmd41 => exact one (runAlone_next (quiet_card.sendAcmd _ _) h)
  case cmd17 a c => exact one (runAlone_next (quiet_card.readBlock _) h)
  case cmd24 a c =>
    cases h
    obtain ⟨y, x, e⟩ := concludeBlock_eq (writeBlock a s)
    exact ⟨_, y, x, quiet_writeBlock a s, e⟩
  case frame a b c =>
    exact one (runAlone_next (keeps_andThen quiet_wire (keeps_setReg quiet_wire trivial) (keeps_ret quiet_wire _)) h)
  case r1 b => exact one (runAlone_arrive (keeps_r1Attempt quiet_wire hc) h)
  case notR1 b => exact one (runAlone_arrive (keeps_r1Attempt quiet_wire hc) h)
  case r2 a b => exact one (runAlone_arrive (keeps_waitR2 quiet_wire hc) h)
  case r3 a b => exact one (runAlone_arrive (keeps_waitR3 quiet_wire hc) h)
  case r7 a b => exact one (runAlone_arrive (keeps_waitR3 quiet_wire hc) h)
  case r1Illegal b => exact one (runAlone_arrive (keeps_waitR3 quiet_wire hc) h)
  case dataStart d => 
    cases d with
    | fromCard => exact one (runAlone_arrive (keeps_withCfg fun _ => keeps_pollOnce quiet_wire hc.poll _ _) h)
    | toCard => exact one (runAlone_next (keeps_tx quiet_wire _) h)
  case dataBlock d p c =>
    cases d with
    | fromCard => exact one (runAlone_arrive (keeps_recvData quiet_wire hb) h)
    | toCard =>
      exact one (runAlone_next (keeps_andThen quiet_wire (keeps_setReg quiet_wire trivial) (keeps_sendData quiet_wire)) h)
  case drespAccepted b => exact one (runAlone_arrive (keeps_recvDresp quiet_wire hb) h)
  case drespCrcError b => exact one (runAlone_arrive (keeps_recvDresp quiet_wire hb) h)
  case drespWriteError b => exact one (runAlone_arrive (keeps_recvDresp quiet_wire hb) h)
  case drespBadFormat b => exact one (runAlone_arrive (keeps_recvDresp quiet_wire hb) h)
  case busy => exact one (runAlone_arrive (keeps_busyAttempt quiet_wire hc.poll) h)
  case fill => exact one (runAlone_next (keeps_filler quiet_wire _) h)
  all_goals exact absurd rfl hi

/-! ## Host operations that leave the session alone -/

def Turn.state : Turn → State
  | .done _ s => s
  | .held s => s

structure HostFrame (s t : State) : Prop where
  cfg : t.cfg = s.cfg
  ctype : t.ctype = s.ctype
  speed : t.speed = s.speed
  fsm : t.fsm = s.fsm
  warn : t.warnIdleR1 = s.warnIdleR1
  visits : t.visits = s.visits
  grant : t.grant = s.grant
  port : t.port = s.port
  bench : t.bench = s.bench
  wf : s.buffer.wf = true → t.buffer.wf = true
  log : ∃ new, t.log = new ++ s.log

theorem InRun.hostFrame {s t : State}
    (h : InRun s t) : HostFrame s t := ⟨h.cfg, h.ctype, h.speed, h.fsm, h.warn, h.visits, h.grant, h.port, h.bench, h.wf, h.log⟩

theorem HostFrame.trans {s t u : State} (h : HostFrame s t) (g : HostFrame t u) : HostFrame s u := by
  refine ⟨g.cfg.trans h.cfg, g.ctype.trans h.ctype, g.speed.trans h.speed, g.fsm.trans h.fsm, g.warn.trans h.warn,
    g.visits.trans h.visits, g.grant.trans h.grant,
    g.port.trans h.port, g.bench.trans h.bench, fun w => g.wf (h.wf w), ?_⟩
  obtain ⟨a, ha⟩ := h.log
  obtain ⟨b, hb⟩ := g.log
  exact ⟨b ++ a, by rw [hb, ha, List.append_assoc]⟩

theorem hostFrame_begin (s : State) : HostFrame s s.begin := ⟨rfl, rfl, rfl, rfl, rfl, rfl, rfl, rfl, rfl, id,
    [.lockAcquire], rfl⟩

theorem hostFrame_setErr (s : State) (k) : HostFrame s (s.setErr k) := ⟨rfl, rfl, rfl, rfl, rfl, rfl, rfl, rfl, rfl, id,
    [], rfl⟩

theorem hostFrame_finish (t : Turn) : HostFrame (Turn.state t) t.finish := by
  cases t with
  | done r s => exact ⟨rfl, rfl, rfl, rfl, rfl, rfl, rfl, rfl, rfl, id, [.lockRelease], rfl⟩
  | held s => exact ⟨rfl, rfl, rfl, rfl, rfl, rfl, rfl, rfl, rfl, id, [], rfl⟩

theorem hostOp_next {body : State → Turn} {s t : State} (h : hostOp body s = .next t) :
    s.lockFree = true ∧ t = (body s.begin).finish := by
  unfold hostOp at h
  split at h
  · cases h; exact ⟨by assumption, rfl⟩
  · cases h

theorem hostOp_frame {body : State → Turn} {s t : State} (hb : ∀ u, HostFrame u (Turn.state (body u)))
    (h : hostOp body s = .next t) : HostFrame s t := by
  obtain ⟨-, rfl⟩ := hostOp_next h
  exact ((hostFrame_begin s).trans (hb _)).trans (hostFrame_finish _)

theorem typeChecked_frame {r} {body : State → Turn} (hb : ∀ u, HostFrame u (Turn.state (body u))) (u) :
    HostFrame u (Turn.state (typeChecked r body u)) := by
  unfold typeChecked
  split
  · exact hostFrame_setErr u _
  · exact hb u

theorem readTurn_frame (r : Res Unit) : HostFrame r.state (Turn.state (readTurn r)) := by
  cases r with
  | ok v s => exact ((Quiet.refl s).inRun).hostFrame
  | err k s => exact hostFrame_setErr s k

theorem writeTurn_frame (r : Res Bool) : HostFrame r.state (Turn.state (writeTurn r)) := by
  cases r with
  | ok v s => cases v <;> exact ((Quiet.refl s).inRun).hostFrame
  | err k s => exact hostFrame_setErr s k

theorem readRun_frame (a b c) (u) : HostFrame u (Turn.state (readTurn (readRun a b c u))) :=
  ((inRun_card.readRun inRun_storeBuf a b c) u).hostFrame.trans (readTurn_frame _)

theorem inRun_writeBlock (a) : Keeps InRun (writeBlock a) := fun s => (quiet_writeBlock a s).inRun

theorem writeRun_frame (a b c) (u) : HostFrame u (Turn.state (writeTurn (writeRun a b c u))) :=
  ((inRun_card.writeRun inRun_writeBlock a b c) u).hostFrame.trans (writeTurn_frame _)

theorem wake_frame (u) : HostFrame u (Turn.state (wakeSequence u)) := by
  have hq := quiet_card.wakeLoop u.ctype
  unfold wakeSequence
  cases h : wakeLoop u.ctype u with
  | ok p t => 
    have := (hq.ok h).inRun.hostFrame
    cases p
    · exact this
    · exact this.trans (hostFrame_setErr _ _)
    · exact this.trans (hostFrame_setErr _ _)
  | err k t => exact (hq.err h).inRun.hostFrame.trans (hostFrame_setErr _ _)

theorem exec_host {i : Instr} {s t : State} (hi : i.format = .fHost) (h1 : i ≠ .initializeCard)
    (h2 : i ≠ .getStatus) (h : exec i s = .next t) : HostFrame s t := by
  cases i
  case getType => cases h; exact ⟨rfl, rfl, rfl, rfl, rfl, rfl, rfl, rfl, rfl, id, [], rfl⟩
  case wakeUp => exact hostOp_frame (typeChecked_frame wake_frame) h
  case readSector a => exact hostOp_frame (typeChecked_frame (readRun_frame _ _ _)) h
  case writeSector a => exact hostOp_frame (typeChecked_frame (writeRun_frame _ _ _)) h
  case readSectors a b c => exact hostOp_frame (typeChecked_frame (readRun_frame _ _ _)) h
  case writeSectors a b c => exact hostOp_frame (typeChecked_frame (writeRun_frame _ _ _)) h
  case initializeCard => exact absurd rfl h1
  case getStatus => exact absurd rfl h2
  all_goals cases hi

theorem resume_frame (h : Hold) (s : State) : HostFrame s (resumeHeld h s) := by
  cases h with
  | block =>
    obtain ⟨y, x, e⟩ := concludeBlock_eq (writeResume s)
    simp only [resumeHeld, e]
    have := (quiet_writeResume s).inRun.hostFrame
    exact ⟨this.cfg, this.ctype, this.speed, this.fsm, this.warn, this.visits, this.grant, this.port, this.bench, this.wf,
      this.log⟩
  | run =>
    have := (inRun_card.writeRunResume (fun s => (quiet_writeResume s).inRun) inRun_writeBlock s).hostFrame
    exact (this.trans (writeTurn_frame _)).trans (hostFrame_finish _)

/-! ## Initialization and status -/

inductive InitOut (s u : State) : Prop where
  | ok (t : State) (new : List Fsm) (c : CardType) (hc : c ≠ .unknown) (hs : InSession s.initStart t)
    (hm : Moved new s.initStart t)
     (hn : (new = [.voltageCheckedV2, .idleConfirmed, .spiReset] ∧
       (c = .sdV2Byte ∨ c = .sdV2Block)) ∨ (new = [.voltageCheckedLegacy, .idleConfirmed, .spiReset] ∧ c = .sdV1) ∨
        (new = [.legacyMmc, .voltageCheckedLegacy, .idleConfirmed, .spiReset] ∧ c = .mmcV3))
     (he : u = ((t.setCtype c).enter .typeResolved).requestSpeed .fast)
  | failed (t : State) (new : List Fsm) (k : ErrKind) (hk : k ∈ initKinds) (hs : InSession s.initStart t)
    (hm : Moved new s.initStart t)
     (hn : new ∈ [[], [.spiReset], [.idleConfirmed, .spiReset], [.voltageCheckedV2, .idleConfirmed, .spiReset],
        [.voltageCheckedLegacy, .idleConfirmed, .spiReset], [.legacyMmc, .voltageCheckedLegacy, .idleConfirmed,
          .spiReset]])
     (he : u = (t.enter .failed).setErr k)

theorem initSequence_out (s : State) : InitOut s (initSequence s) := by
  have hq := inSession_card.initBody inSession_session
  have hk := kinds_initBody s.initStart
  unfold initSequence
  cases initBody_end s.initStart with
  | v2 c t h hc hm => exact .ok t _ c (by rcases hc with rfl | rfl <;> simp) (hq.ok h) hm (.inl ⟨rfl, hc⟩) (by rw [h])
  | sdV1 t h hm => exact .ok t _ _ (by simp) (hq.ok h) hm (.inr (.inl ⟨rfl, rfl⟩)) (by rw [h])
  | mmcV3 t h hm => exact .ok t _ _ (by simp) (hq.ok h) hm (.inr (.inr ⟨rfl, rfl⟩)) (by rw [h])
  | failed k t new h hm hn => exact .failed t new k (hk k t h) (hq.err h) hm hn (by rw [h])

theorem statusQuery_cases (s : State) : (∃ t v, Quiet s t ∧ statusQuery s = .done (.status (classifyStatus v)) t) ∨
   (∃ t, Quiet s t ∧ statusQuery s = .done (.status .noMedium) (t.setErr .ioError)) ∨
   (∃ t, Quiet s t ∧ statusQuery s = statusAfterInit (initSequence t)) := by
  have hq := quiet_card.command 13 0 .r2
  unfold statusQuery
  cases h : command 13 0 .r2 s with
  | ok v t => exact .inl ⟨t, v, hq.ok h, rfl⟩
  | err k t =>
    by_cases hk : k = .ioError
    · subst hk; exact .inr (.inl ⟨t, hq.err h, rfl⟩)
    · refine .inr (.inr ⟨t, hq.err h, ?_⟩)
      cases k <;> first | rfl | exact absurd rfl hk

theorem statusAfterInit_cases (s : State) : (s.ctype = .unknown ∧ statusAfterInit s = .done (.status .noMedium) s) ∨
   (s.ctype ≠ .unknown ∧ ∃ t v, Quiet s t ∧ statusAfterInit s = .done (.status (classifyStatus v)) t) ∨
   (s.ctype ≠ .unknown ∧ ∃ t k, Quiet s t ∧ k ∈ waitKinds .r2 ∧
     statusAfterInit s = .done (.status .noMedium) (t.setErr k)) := by
  have hq := quiet_card.command 13 0 .r2
  have hk := kinds_command (ks := waitKinds .r2) 13 0 .r2 (by simp)
  unfold statusAfterInit
  by_cases hc : s.ctype = .unknown
  · rw [if_pos hc]; exact .inl ⟨hc, rfl⟩
  · rw [if_neg hc]
    unfold statusRetry
    cases h : command 13 0 .r2 s with
    | ok v t => exact .inr (.inl ⟨hc, t, v, hq.ok h, rfl⟩)
    | err k t => exact .inr (.inr ⟨hc, t, k, hq.err h, hk _ _ _ h, rfl⟩)

/-! ## One step -/

/-- What taking a request can do: it runs the one instruction of its bytes. -/
theorem runRequest_next {q : Request} {s t : State} (h : runRequest q s = .next t) :
    ∃ i, decode q.format q.bytes = .ok (i, []) ∧ exec i s = .next t := by
  unfold runRequest decodeRequest at h
  cases hd : decode q.format q.bytes with
  | error e => rw [hd] at h; cases h
  | ok p =>
    obtain ⟨i, l⟩ := p
    rw [hd] at h
    cases l with
    | nil => exact ⟨i, rfl, h⟩
    | cons b bs => cases h

/-- What is read in the format F-HOST is one of the eight host operations (R200). -/
theorem decode_fHost_format {bytes rest : List Byte} {i : Instr} (h : decode .fHost bytes = .ok (i, rest)) :
    i.format = .fHost := by
  cases bytes with
  | nil => cases h
  | cons b bs =>
    simp only [decode, decodeHost, decodeOneWord, decodeThreeWords] at h
    split at h <;> (try split at h) <;> cases h <;> rfl

/-- What a step that answers a next state did: went on with what is in progress, ran the row on the bench, ran the next host
operation, or waited. -/
theorem step_cases {s t : State} (h : step s = .next t) :
    (∃ x, s.hold = some x ∧ t = resumeHeld x s) ∨
    (s.hold = none ∧ s.bench = none ∧ s.port = [] ∧ t = s) ∨
    (s.hold = none ∧ ∃ q i, s.bench = some q ∧ decode q.format q.bytes = .ok (i, []) ∧ exec i (s.setBench none) = .next t) ∨
    (s.hold = none ∧ s.bench = none ∧ ∃ bytes rest i, s.port = bytes :: rest ∧ decode .fHost bytes = .ok (i, []) ∧
      i.format = .fHost ∧ exec i (s.setPort rest) = .next t) := by
  unfold step at h
  cases hh : s.hold with
  | some x => rw [hh] at h; cases h; exact .inl ⟨x, rfl, rfl⟩
  | none =>
    rw [hh] at h
    cases hb : s.bench with
    | some q =>
      rw [hb] at h
      obtain ⟨i, hd, he⟩ := runRequest_next h
      exact .inr (.inr (.inl ⟨rfl, q, i, rfl, hd, he⟩))
    | none =>
      rw [hb] at h
      cases hp : s.port with
      | nil => rw [hp] at h; cases h; exact .inr (.inl ⟨rfl, rfl, rfl, rfl⟩)
      | cons bytes rest =>
        rw [hp] at h
        obtain ⟨i, hd, he⟩ := runRequest_next h
        exact .inr (.inr (.inr ⟨rfl, rfl, bytes, rest, i, rfl, hd, decode_fHost_format hd, he⟩))

/-- A request that is offered to an idle block is what the next step runs. -/
theorem step_offer {s : State} (q : Request) (h : s.hold = none) :
    step (s.offer q) = runRequest q (s.setBench none) := by
  by_cases hf : q.format = .fHost
  · have e : hostRequest q.bytes = q := by cases q; cases hf; rfl
    have h1 : s.offer q = { s with port := q.bytes :: s.port, bench := none } := if_pos hf
    simp only [step, h1, h, e]
    simp [State.setPort, State.setBench, h]
  · have h1 : s.offer q = { s with bench := some q } := if_neg hf
    simp only [step, h1, h]
    simp [State.setBench, h]

/-- What withFetchWord sets up is what the next step runs, and nothing else of the state is different for it. -/
theorem step_withFetchWord (s : State) (nbits w : Nat) :
    step (s.withFetchWord nbits w) = runRequest (Request.ofTableWord nbits w) ((s.setHold none).setBench none) :=
  step_offer _ rfl

end Sys2Proof.Machine
end

