-- ==== Sys2Proof/Laws/Envelopes.lean ====
section
/-! SUPPORT. Chip-select windows and the lock around host operations, the parts of the session invariant, and
the procedures that keep it. -/

namespace Sys2Proof.Machine

/-! ## Chip-select outside the lock envelope -/

theorem outside_initSequence (s : State) : Outside s (initSequence s) := by
  have h0 : Outside s s.initStart := outside_event (.setSpeed .slow) rfl rfl rfl (by simp) (by simp)
  have hb := outside_card.initBody outside_session s.initStart
  have : initSequence s = match initBody s.initStart with
    | .ok t u => ((u.setCtype t).enter .typeResolved).requestSpeed .fast
    | .err k u => (u.enter .failed).setErr k := rfl
  rw [this]
  cases h : initBody s.initStart with
  | ok c u => rw [h] at hb; exact (h0.trans hb).trans (outside_event (.setSpeed .fast) rfl rfl rfl (by simp) (by simp))
  | err k u => rw [h] at hb; exact (h0.trans hb).trans (outside_of_eq rfl rfl)

theorem outside_status (s : State) : Outside s (Turn.state (statusQuery s)) := by
  have hq := outside_card.command 13 0 .r2
  unfold statusQuery
  cases h : command 13 0 .r2 s with
  | ok v t => exact hq.ok h
  | err k t =>
    have h1 := hq.err h
    have h2 : Outside s (Turn.state (statusAfterInit (initSequence t))) := by
      refine (h1.trans (outside_initSequence t)).trans ?_
      unfold statusAfterInit
      split
      · exact outside_of_eq rfl rfl
      · unfold statusRetry
        cases h3 : command 13 0 .r2 (initSequence t) with
        | ok v u => exact hq.ok h3
        | err k u => exact (hq.err h3).trans (outside_of_eq rfl rfl)
    cases k <;> first | exact h2 | exact h1.trans (outside_of_eq rfl rfl)

theorem outside_wake (s : State) : Outside s (Turn.state (wakeSequence s)) := by
  have hq := outside_card.wakeLoop s.ctype
  unfold wakeSequence
  cases h : wakeLoop s.ctype s with
  | ok p t => cases p <;> exact (hq.ok h).trans (outside_of_eq rfl rfl)
  | err k t => exact (hq.err h).trans (outside_of_eq rfl rfl)

theorem outside_storeBuf : Keeps Outside storeBuf := fun _ => outside_of_eq rfl rfl

theorem outside_read (a b c) (s : State) : Outside s (Turn.state (readTurn (readRun a b c s))) := by
  have hq := outside_card.readRun outside_storeBuf a b c
  cases h : readRun a b c s with
  | ok p t => exact hq.ok h
  | err k t => exact (hq.err h).trans (outside_of_eq rfl rfl)

def Turn.isDone : Turn → Prop
  | .done _ _ => True
  | .held _ => False

theorem write_out (a b c) (s : State) : (∃ t, writeTurn (writeRun a b c s) = .held t ∧ t.cs = true ∧ s.cfg.nBusy = none) ∨
   (Outside s (Turn.state (writeTurn (writeRun a b c s))) ∧ Turn.isDone (writeTurn (writeRun a b c s))) := by
  rcases writeRun_end a b c s with ⟨t, h, hc, hn⟩ | ⟨ho, hn⟩
  · rw [h]; exact .inl ⟨t, rfl, hc, hn⟩
  · cases h : writeRun a b c s with
    | ok v t =>
      rw [h] at ho
      cases v with
      | true => exact .inr ⟨ho, trivial⟩
      | false => exact absurd h (hn t)
    | err k t => rw [h] at ho; exact .inr ⟨ho.trans (outside_of_eq rfl rfl), trivial⟩

theorem typeChecked_outside {body : State → Turn} {r} {s : State}
    (h : Outside s (Turn.state (body s)) ∧ Turn.isDone (body s)) :
    Outside s (Turn.state (typeChecked r body s)) ∧ Turn.isDone (typeChecked r body s) := by
  unfold typeChecked
  split
  · exact ⟨outside_of_eq rfl rfl, trivial⟩
  · exact h

/-! ## The session invariant -/

theorem portsInv_iff {s : State} : s.portsInv = true ↔ (s.lock = true ↔ s.hold = some .run) ∧
    (s.cs = true ↔ s.hold.isSome = true) := by
  unfold State.portsInv
  cases h1 : s.lock <;> cases h2 : s.cs <;> rcases h3 : s.hold with _ | _ | _ <;> decide

theorem inv_iff {s : State} : s.inv = true ↔ s.portsInv = true ∧ s.sessionInv = true ∧ s.buffer.wf = true := by
  unfold State.inv; simp [Bool.and_eq_true, and_assoc]

theorem sessionInv_congr {s t : State} (h1 : t.ctype = s.ctype) (h2 : t.fsm = s.fsm)
    (h3 : t.speed = s.speed) : t.sessionInv = s.sessionInv := by
  unfold State.sessionInv; rw [h1, h2, h3]

theorem idle_ports {s : State} (hs : s.portsInv = true) (hh : s.hold = none) : s.lock = false ∧ s.cs = false := by
  obtain ⟨a, b⟩ := portsInv_iff.1 hs
  rw [hh] at a b
  exact ⟨by simpa using a, by simpa using b⟩

theorem ports_idle {s : State} (h1 : s.lock = false) (h2 : s.cs = false) (h3 : s.hold = none) : s.portsInv = true := by
  unfold State.portsInv; rw [h1, h2, h3]; rfl

theorem initSequence_inv (s : State) : (initSequence s).sessionInv = true := by
  cases initSequence_out s with
  | ok t new c hc hs hm hn he =>
    have h1 : (initSequence s).ctype = c := by rw [he]; rfl
    have h2 : (initSequence s).fsm = .typeResolved := by rw [he]; rfl
    have h3 : (initSequence s).speed = .fast := by rw [he]; rfl
    unfold State.sessionInv; rw [h1, h2, h3]; simp [hc]
  | failed t new k hk hs hm hn he =>
    have h1 : (initSequence s).ctype = .unknown := by rw [he]; exact hs.ctype
    have h2 : (initSequence s).fsm = .failed := by rw [he]; rfl
    unfold State.sessionInv; rw [h1, h2]; simp

theorem initSequence_buffer (s : State) : (initSequence s).buffer = s.buffer := by
  cases initSequence_out s with
  | ok t new c hc hs hm hn he => rw [he]; exact hs.buffer
  | failed t new k hk hs hm hn he => rw [he]; exact hs.buffer

theorem status_inv (s : State) (hi : s.sessionInv = true) : (Turn.state (statusQuery s)).sessionInv = true ∧
    (Turn.state (statusQuery s)).buffer = s.buffer := by
  rcases statusQuery_cases s with ⟨t, v, h, e⟩ | ⟨t, h, e⟩ | ⟨t, h, e⟩ <;> rw [e]
  · exact ⟨(sessionInv_congr (s := s) (t := t) h.ctype h.fsm h.speed).trans hi, h.buffer⟩
  · exact ⟨by rw [← hi]; exact sessionInv_congr h.ctype h.fsm h.speed, h.buffer⟩
  · have hb := (initSequence_buffer t).trans h.buffer
    rcases statusAfterInit_cases (initSequence t) with ⟨hc, e⟩ | ⟨hc, u, v, hu, e⟩ | ⟨hc, u, k, hu, hk, e⟩ <;> rw [e]
    · exact ⟨initSequence_inv t, hb⟩
    · exact ⟨(sessionInv_congr hu.ctype hu.fsm hu.speed).trans (initSequence_inv t), hu.buffer.trans hb⟩
    · exact ⟨(sessionInv_congr (s := initSequence t) (t := u.setErr k) hu.ctype hu.fsm hu.speed).trans (initSequence_inv t),
        hu.buffer.trans hb⟩

theorem done_inv {tn : Turn} {s : State} (hcs : s.cs = false) (ho : Outside s.begin (Turn.state tn))
    (hd : Turn.isDone tn) (hs : (Turn.state tn).sessionInv = true) (hw : (Turn.state tn).buffer.wf = true) :
   tn.finish.inv = true := by
  have hc := (ho hcs).1
  cases tn with
  | held t => exact hd.elim
  | done r t => exact inv_iff.2 ⟨ports_idle rfl hc rfl, hs, hw⟩

theorem frame_done_inv {body : State → Turn} {s : State} (hi : s.inv = true) (hcs : s.cs = false)
    (h : Outside s.begin (Turn.state (body s.begin)) ∧ Turn.isDone (body s.begin)) (hb : ∀ u, HostFrame u (Turn.state (body u))) :
   (body s.begin).finish.inv = true := by
  have hf := (hostFrame_begin s).trans (hb s.begin)
  obtain ⟨-, h2, h3⟩ := inv_iff.1 hi
  exact done_inv hcs h.1 h.2 ((sessionInv_congr hf.ctype hf.fsm hf.speed).trans h2) (hf.wf h3)

theorem inv_of_transaction {α : Type} {p : Proc α} {shown : α → Result}
    {s t : State} (hp : Keeps Quiet p) (ho : Keeps Outside p) (hi : s.inv = true) (hh : s.hold = none)
      (h : runAlone p shown s = .next t) : t.inv = true := by
  obtain ⟨h1, h2, h3⟩ := inv_iff.1 hi
  obtain ⟨hl, hc⟩ := idle_ports h1 hh
  unfold runAlone at h
  cases h
  obtain ⟨x, e⟩ := conclude_eq (p s) shown
  have hq := hp s
  rw [e]
  exact inv_iff.2 ⟨ports_idle (hq.lock.trans hl) (ho s hc).1
    (hq.hold.trans hh), (sessionInv_congr hq.ctype hq.fsm hq.speed).trans h2,
      by show (p s).state.buffer.wf = true; rw [hq.buffer]; exact h3⟩

def SameCs (s t : State) : Prop := t.cs = s.cs

theorem sameCs_wire : WireRel (fun _ => True) SameCs where
  refl := fun _ => rfl
  trans := fun h g => Eq.trans g h
  xchg := fun s m o => by unfold State.takeReply; split <;> rfl
  reg := fun _ _ _ => rfl

theorem inv_of_exchanges {α : Type} {p : Proc α} {shown : α → Result}
    {s t : State} (hp : Keeps Quiet p) (ho : Keeps SameCs p) (hi : s.inv = true) (hh : s.hold = none)
      (h : runAlone p shown s = .next t) : t.inv = true := by
  obtain ⟨h1, h2, h3⟩ := inv_iff.1 hi
  obtain ⟨hl, hc⟩ := idle_ports h1 hh
  unfold runAlone at h
  cases h
  obtain ⟨x, e⟩ := conclude_eq (p s) shown
  have hq := hp s
  rw [e]
  exact inv_iff.2 ⟨ports_idle (hq.lock.trans hl) ((ho s).trans hc)
    (hq.hold.trans hh), (sessionInv_congr hq.ctype hq.fsm hq.speed).trans h2,
      by show (p s).state.buffer.wf = true; rw [hq.buffer]; exact h3⟩

theorem inv_of_received {α : Type} {p : Proc α} {shown : α → Result}
    {s t : State} {b} (hp : Keeps Quiet p) (ho : Keeps SameCs p) (hi : s.inv = true) (hh : s.hold = none)
      (h : runAlone p shown (s.arrive b) = .next t) : t.inv = true :=
  inv_of_exchanges (s := s.arrive b) hp ho hi hh h

theorem held_inv {s t : State} (hq : HostFrame s t) (hi : s.inv = true) (hc : t.cs = true) (hl : t.lock = true)
    (hh : t.hold = some .run) : t.inv = true := by
  obtain ⟨h1, h2, h3⟩ := inv_iff.1 hi
  refine inv_iff.2 ⟨?_, (sessionInv_congr hq.ctype hq.fsm hq.speed).trans h2, hq.wf h3⟩
  unfold State.portsInv; rw [hc, hl, hh]; rfl

end Sys2Proof.Machine
end

