-- ==== Sys2Proof/Laws/HeldRuns.lean ====
section
/-! SUPPORT. The write run whose unbounded busy poll was held: the end of the poll, and the sectors that follow it (R158, R161;
log entry 21). -/

namespace Sys2Proof.Machine

/-! ## The held poll -/

/-- A byte other than 0x00 ends the poll and the transaction. -/
theorem writeResume_ready (s : State) (b f : Byte) (more : List Reply) (hn : s.cfg.nBusy = none) (hb : b ≠ 0x00)
    (hcard : s.card = .ok b :: .ok f :: more) :
    writeResume s = .ok true ((s.setCs false).saw (pollEnd b f) more { s.dp with poll := s.dp.poll + 1 }) := by
  have h1 := gives_busyAttempt_unbounded (c := s.cfg) (d := s.dp) hn b s (.ok f :: more) rfl rfl hcard
  have hi : isBusyByte b = false := by simpa [isBusyByte] using hb
  have h2 := gives_filler (c := s.cfg) (d := { s.dp with poll := s.dp.poll + 1 }) (n := 1) (got := [f]) rfl
    (s.saw [.xchg fillByte (.ok b)] (.ok f :: more) { s.dp with poll := s.dp.poll + 1 }) more rfl rfl rfl
  unfold writeResume
  rw [h1, hi]
  simp only [outcome_ok, writeExit, Bool.not_false, txnExit, h2]
  simp [State.saw, State.csDeassert, State.setCs, State.record, fills, exchanges, pollEnd, fillByte]

/-- The poll's exchange fails in transport: only the deassert follows. -/
theorem writeResume_lost (s : State) (more : List Reply) (hcard : s.card = .fail :: more) :
    writeResume s = .err .ioError ((s.setCs false).saw [.xchg 0xFF .fail, .csDeassert] more
      { s.dp with poll := s.dp.poll + 1 }) := by
  have h := xchg_failing (s := s.mapDp fun d => { d with poll := d.poll + 1 }) fillByte hcard
  have h1 : (busyAttempt.bind fun o => ret o.isSome) s = .err .ioError
      ((s.mapDp fun d => { d with poll := d.poll + 1 }).saw [.xchg fillByte .fail] more
        { s.dp with poll := s.dp.poll + 1 }) := Proc.bind_err (Proc.bind_err h)
  unfold writeResume
  rw [h1]
  simp [writeExit, txnExit, State.saw, State.csDeassert, State.setCs, State.record, State.mapDp, fillByte]

/-- The final filler fails in transport. -/
theorem writeResume_lostFiller (s : State) (b : Byte) (more : List Reply) (hn : s.cfg.nBusy = none) (hb : b ≠ 0x00)
    (hcard : s.card = .ok b :: .fail :: more) :
    writeResume s = .err .ioError ((s.setCs false).saw [.xchg 0xFF (.ok b), .xchg 0xFF .fail, .csDeassert] more
      { s.dp with poll := s.dp.poll + 1 }) := by
  have h1 := gives_busyAttempt_unbounded (c := s.cfg) (d := s.dp) hn b s (.fail :: more) rfl rfl hcard
  have hi : isBusyByte b = false := by simpa [isBusyByte] using hb
  have h2 := txList_failing (fills 1) [] (s.saw [.xchg fillByte (.ok b)] (.fail :: more) { s.dp with poll := s.dp.poll + 1 })
    more (by simp) rfl
  unfold writeResume
  rw [h1, hi]
  simp only [outcome_ok, writeExit, Bool.not_false, txnExit, show filler 1 = txList (fills 1) from rfl, h2]
  simp [State.saw, State.csDeassert, State.setCs, State.record, fills, exchanges, fillByte]

/-! ## The run after it -/

/-- The state in which the run comes to its next sector. -/
def State.polled (s : State) (b f : Byte) (more : List Reply) : State :=
  (s.setCs false).saw (pollEnd b f) more { s.dp with
    poll := s.dp.poll + 1, remain := s.dp.remain - 1, off := s.dp.off + blockLen, sect := s.dp.sect + 1 }

theorem State.polled_sect (s : State) (b f : Byte) (more : List Reply) (h : s.dp.sect.toNat + 1 < 2 ^ 32) :
    (s.polled b f more).dp.sect.toNat = s.dp.sect.toNat + 1 := by
  show (s.dp.sect + 1).toNat = _
  simp [BitVec.toNat_add]
  omega

theorem State.polled_remain (s : State) (b f : Byte) (more : List Reply) (h : 2 ≤ s.dp.remain.toNat) :
    (s.polled b f more).dp.remain.toNat = s.dp.remain.toNat - 1 := by
  have := s.dp.remain.isLt
  show (s.dp.remain - 1).toNat = _
  simp only [BitVec.toNat_sub]
  simp
  omega

/-- With sectors left, and a next sector number, the loop goes on. -/
theorem writeRunResume_next (s : State) (b f : Byte) (more : List Reply) (hn : s.cfg.nBusy = none) (hb : b ≠ 0x00)
    (hcard : s.card = .ok b :: .ok f :: more) (hr : 2 ≤ s.dp.remain.toNat) (hs : s.dp.sect.toNat + 1 < 2 ^ 32) :
    writeRunResume s = writeLoop (s.dp.remain.toNat - 1) (s.polled b f more) := by
  rw [writeRunResume, Proc.bind_ok (writeResume_ready s b f more hn hb hcard), if_pos rfl,
    Proc.andThen_ok (advance_next (s := (s.setCs false).saw (pollEnd b f) more { s.dp with poll := s.dp.poll + 1 }) hr hs)]
  rw [← State.polled_remain s b f more hr]
  rfl

/-- With sectors left, and no next sector number, it ends there (R204). -/
theorem writeRunResume_wraps (s : State) (b f : Byte) (more : List Reply) (hn : s.cfg.nBusy = none) (hb : b ≠ 0x00)
    (hcard : s.card = .ok b :: .ok f :: more) (hr : 2 ≤ s.dp.remain.toNat) (hs : s.dp.sect = 0xFFFFFFFF) :
    ∃ d, writeRunResume s = .err .addressOverflow ((s.setCs false).saw (pollEnd b f) more d) := by
  refine ⟨{ s.dp with poll := s.dp.poll + 1, remain := s.dp.remain - 1, off := s.dp.off + blockLen }, ?_⟩
  rw [writeRunResume, Proc.bind_ok (writeResume_ready s b f more hn hb hcard), if_pos rfl]
  exact Proc.andThen_err (advance_wraps (s := (s.setCs false).saw (pollEnd b f) more { s.dp with poll := s.dp.poll + 1 }) hr hs)

/-- After its last sector it is done. -/
theorem writeRunResume_last (s : State) (b f : Byte) (more : List Reply) (hn : s.cfg.nBusy = none) (hb : b ≠ 0x00)
    (hcard : s.card = .ok b :: .ok f :: more) (hr : s.dp.remain = 1) :
    ∃ d, writeRunResume s = .ok true ((s.setCs false).saw (pollEnd b f) more d) := by
  refine ⟨{ s.dp with poll := s.dp.poll + 1, remain := 0, off := s.dp.off + blockLen }, ?_⟩
  rw [writeRunResume, Proc.bind_ok (writeResume_ready s b f more hn hb hcard), if_pos rfl,
    Proc.andThen_ok (advance_last (s := (s.setCs false).saw (pollEnd b f) more { s.dp with poll := s.dp.poll + 1 }) hr)]
  rfl

/-! ## A sector that is held -/

/-- A WRITE_RUN whose card takes some sectors and then holds one. -/
theorem writeLoop_held (answers : List WriteAnswer) (a : WriteAnswer) (k : Nat) (s : State) (rest : List Reply)
    (hn : s.cfg.nBusy = none) (hok : ∀ x ∈ answers, x.taken s.cfg = true) (ha : a.ok s.cfg = true)
    (hd : classifyDresp a.dresp = .accepted) (hb : a.busy = [0x00])
    (hcard : s.card = replies (writeBytesOf answers) ++ (replies a.bytesToBusy ++ rest))
    (hrem : s.dp.remain.toNat = answers.length + (k + 1)) (hlim : s.dp.sect.toNat + answers.length < sectorLimit s.ctype) :
    ∃ d d', writeLoop (answers.length + (k + 1)) s = .ok false
      ((s.wroteTo answers (replies a.bytesToBusy ++ rest) d).csAssert.saw (exchanges (a.sentToBusy
        (protocolAddress s.ctype (s.dp.sect + BitVec.ofNat 32 answers.length))
        (s.buffer.readBytes (s.dp.off + 512 * answers.length) 512)) a.bytesToBusy) rest d') ∧
      d'.sect = s.dp.sect + BitVec.ofNat 32 answers.length ∧ d'.off = s.dp.off + 512 * answers.length ∧
      d'.remain.toNat = k + 1 := by
  have h32 := sectorLimit_le s.ctype
  obtain ⟨d, h, hs, hr, ho⟩ := writeLoop_some answers k s (replies a.bytesToBusy ++ rest) hok hcard hrem (by omega) (by omega)
  have hsect : d.sect = s.dp.sect + BitVec.ofNat 32 answers.length := by
    apply BitVec.eq_of_toNat_eq
    rw [hs]
    simp [BitVec.toNat_add]
    omega
  have h1 : setAddress (s.wroteTo answers (replies a.bytesToBusy ++ rest) d) = .ok (protocolAddress s.ctype d.sect)
      ((s.wroteTo answers (replies a.bytesToBusy ++ rest) d).mapDp fun e =>
        { e with addr := protocolAddress s.ctype d.sect }) :=
    setAddress_ok (s := s.wroteTo answers (replies a.bytesToBusy ++ rest) d) (by
    show d.sect.toNat < sectorLimit s.ctype
    omega)
  have h2 := writeBlock_held (protocolAddress s.ctype d.sect) a hn ha hd hb
    (((s.wroteTo answers (replies a.bytesToBusy ++ rest) d).mapDp fun e =>
      { e with addr := protocolAddress s.ctype d.sect }).mapDp fun e => { e with buf := s.buffer.readBlock e.off })
    rest rfl rfl rfl
  have h3 := Memory.readBlock_toList s.buffer d.off
  refine ⟨d, { Datapath.framed { d with
    addr := protocolAddress s.ctype d.sect, buf := s.buffer.readBlock d.off } 24 (protocolAddress s.ctype d.sect) with
      r1 := 0x00, dresp := a.dresp, poll := 1 }, ?_, ?_⟩
  · rw [h, writeLoop, Proc.bind_ok h1, Proc.andThen_ok (loadBuf_eq _)]
    have hb' : ((s.wroteTo answers (replies a.bytesToBusy ++ rest) d).mapDp
        fun e => { e with addr := protocolAddress s.ctype d.sect }).buffer = s.buffer := rfl
    rw [hb', ← hsect, ← ho, ← h3, Proc.bind_ok h2]
    simp only [State.saw, State.csAssert, State.record, State.setCs, State.mapDp, State.wroteTo, ret,
      Bool.false_eq_true, if_false]
  · exact ⟨hsect, ho, hr⟩

/-! ## As steps -/

/-- How a held run that ended well leaves the block. -/
theorem finish_resumed (s : State) (ev : List Event) (rest : List Reply) (d : Datapath) (r : Result) :
    (Turn.done r ((s.setCs false).saw ev rest d)).finish = s.resumed ev rest s.err r := by
  simp [Turn.finish, State.forget, State.lockRelease, State.setHold, State.setResult, State.setLock, State.record,
    State.setCs, State.saw, State.resumed]

/-- How a held run that failed leaves the block. -/
theorem finish_resumed_err (s : State) (ev : List Event) (rest : List Reply) (d : Datapath) (r : Result) (k : ErrKind) :
    (Turn.done r (((s.setCs false).saw ev rest d).setErr k)).finish = s.resumed ev rest k r := by
  simp [Turn.finish, State.forget, State.lockRelease, State.setHold, State.setResult, State.setLock, State.record,
    State.setErr, State.setCs, State.saw, State.resumed]

/-- What the run has done after these sectors. -/
theorem State.polled_wroteTo (s : State) (b f : Byte) (more : List Reply) (answers : List WriteAnswer) (rest : List Reply)
    (d : Datapath) : (s.polled b f more).wroteTo answers rest d =
      (s.setCs false).saw (pollEnd b f ++ s.laterEvents answers) rest d := by
  simp [State.polled, State.wroteTo, State.saw, State.setCs, State.laterEvents, blockLen]

theorem State.polled_sector (s : State) (b f : Byte) (more : List Reply) (answers : List WriteAnswer) :
    (s.polled b f more).dp.sect + BitVec.ofNat 32 answers.length = s.laterSector answers := by
  show s.dp.sect + 1 + BitVec.ofNat 32 answers.length = s.dp.sect + BitVec.ofNat 32 (answers.length + 1)
  rw [BitVec.add_assoc, BitVec.add_comm 1, ofNat_succ]

theorem State.polled_offset (s : State) (b f : Byte) (more : List Reply) (answers : List WriteAnswer) :
    (s.polled b f more).dp.off + 512 * answers.length = s.laterOffset answers := by
  show s.dp.off + 512 + 512 * answers.length = s.dp.off + 512 * (answers.length + 1)
  omega

end Sys2Proof.Machine
end

