-- ==== Sys2Proof/Laws/SessionCuts.lean ====
section
/-! SUPPORT. How card commands, the attempts of a polling loop and the polling loops themselves fail (R108, R131 to R134, R180,
R181, R233): from scripts of single exchanges up to loops. -/

namespace Sys2Proof.Machine

section
variable {c : Config} {g : List Byte} {outs : List Reply} {e ev : List Event} {k : ErrKind}

/-- From every state whose card does this, a procedure made of whole transactions fails with this kind after these events;
only the datapath is left open. -/
def FailsAt {α : Type} (c : Config) (p : Proc α) (outs : List Reply) (ev : List Event) (k : ErrKind) : Prop :=
  ∀ s rest, s.cfg = c → s.card = outs ++ rest → ∃ d, p s = .err k ((s.setCs false).saw ev rest d)

theorem FailsAt.cast {α : Type} {p : Proc α} {outs' : List Reply} {ev' : List Event} (h : FailsAt c p outs ev k)
    (ho : outs = outs') (he : ev = ev') : FailsAt c p outs' ev' k := by
  subst ho he
  exact h

theorem GivesTxn.failsAt {α : Type} {p : Proc α} (h : ∀ d, ∃ d', GivesTxn c p d g ev d' (.error k)) :
    FailsAt c p (replies g) ev k := by
  intro s rest hcfg hcard
  obtain ⟨d', h⟩ := h s.dp
  exact ⟨d', h s rest hcfg rfl hcard⟩

theorem FailsAt.bind {α β : Type} {p : Proc α} (h : FailsAt c p outs ev k) (f : α → Proc β) :
    FailsAt c (p.bind f) outs ev k := by
  intro s rest hcfg hcard
  obtain ⟨d, h⟩ := h s rest hcfg hcard
  exact ⟨d, Proc.bind_err h⟩

theorem FailsAt.withCfg {α : Type} {f : Config → Proc α} (h : FailsAt c (f c) outs ev k) :
    FailsAt c (withCfg f) outs ev k := by
  intro s rest hcfg
  subst hcfg
  exact h s rest rfl

/-- A failure after whole transactions that succeed. -/
theorem FailsAt.after {α β : Type} {p : Proc α} {f : α → Proc β} {v : α}
    (hp : ∀ d, ∃ d', GivesTxn c p d g e d' (.ok v)) (hf : FailsAt c (f v) outs ev k) :
    FailsAt c (p.bind f) (replies g ++ outs) (e ++ ev) k := by
  intro s rest hcfg hcard
  rw [List.append_assoc] at hcard
  obtain ⟨d', h1⟩ := hp s.dp
  obtain ⟨d, h2⟩ := hf ((s.setCs false).saw e (outs ++ rest) d') rest hcfg rfl
  refine ⟨d, ?_⟩
  rw [Proc.bind_ok (h1 s _ hcfg rfl hcard), h2]
  simp

/-- A failure after register writes or a delay. -/
theorem FailsAt.afterGives {α β : Type} {p : Proc α} {f : α → Proc β} {v : α}
    (hp : ∀ d, ∃ d', Gives c p d g e d' (.ok v)) (hf : FailsAt c (f v) outs ev k) :
    FailsAt c (p.bind f) (replies g ++ outs) (e ++ ev) k := by
  intro s rest hcfg hcard
  rw [List.append_assoc] at hcard
  obtain ⟨d', h1⟩ := hp s.dp
  obtain ⟨d, h2⟩ := hf (s.saw e (outs ++ rest) d') rest hcfg rfl
  refine ⟨d, ?_⟩
  rw [Proc.bind_ok (h1 s _ hcfg rfl hcard), h2]
  simp

end

/-! ## Commands -/

section
variable {c : Config} {d : Datapath}

theorem goes_waitR1 {b : Byte} {wait : List Byte} (hw : wait.all (fun x => !r1Valid x) = true) (hb : r1Valid b = true)
    (hl : wait.length < c.nR1) :
    Goes c waitR1 d (fills (wait.length + 1)) (wait ++ [b]) { d with poll := wait.length + 1, r1 := b } b :=
  Goes.withCfg (Goes.cast ((goes_poll hw hb hl).bind ((goes_setReg _).andThen (goes_ret _))) (by simp) (by simp) rfl)

theorem goes_waitLongR1 {b : Byte} {wait : List Byte} (hw : wait.all (fun x => !r1Valid x) = true) (hb : r1Valid b = true)
    (hl : wait.length < c.nR1) (hi : b.getLsbD 2 = false) :
    Goes c waitLongR1 d (fills (wait.length + 1)) (wait ++ [b]) { d with poll := wait.length + 1, r1 := b } b := by
  refine Goes.cast ((goes_waitR1 hw hb hl).bind (a' := []) (g' := []) ?_) (by simp) (by simp) rfl
  rw [show r1IllegalCommand b = false from hi]
  exact goes_ret b

theorem goes_readReg32 (b0 b1 b2 b3 : Byte) : ∃ d' v, Goes c readReg32 d (fills 4) [b0, b1, b2, b3] d' v :=
  ⟨_, _, (goes_rx b0).bind ((goes_rx b1).bind ((goes_rx b2).bind ((goes_rx b3).bind
    ((goes_setReg _).andThen (goes_ret _)))))⟩

/-- R131 to R134: a wait that gets its whole response. -/
theorem goes_waitFor (k : RespKind) (a : Answer) (ha : a.full c k = true) :
    ∃ d' v, Goes c (waitFor k) d (fills (a.wait.length + 1 + a.more.length)) (a.wait ++ a.r1 :: a.more) d' v := by
  simp only [Answer.full, Bool.and_eq_true, beq_iff_eq, Bool.or_eq_true, Bool.not_eq_true'] at ha
  obtain ⟨ho, hm, hi⟩ := ha
  obtain ⟨hw, hl, hv⟩ := Answer.ok_iff.1 ho
  have long (hk : k ≠ .r1) := goes_waitLongR1 (c := c) (d := d) hw hv hl (hi.resolve_left hk)
  have reg (b0 b1 b2 b3 : Byte) (hk : k ≠ .r1) (e : a.more = [b0, b1, b2, b3]) :
      ∃ d' v, Goes c waitR3 d (fills (a.wait.length + 1 + a.more.length)) (a.wait ++ a.r1 :: a.more) d' v := by
    obtain ⟨d1, v, h⟩ := goes_readReg32 (c := c) (d := { d with poll := a.wait.length + 1, r1 := a.r1 }) b0 b1 b2 b3
    exact ⟨_, _, Goes.cast ((long hk).bind (h.bind (goes_ret (a.r1, v)))) (by rw [e, List.append_nil, ← fills_add]; rfl)
      (by simp [e]) rfl⟩
  have four (e : a.more.length = 4) : ∃ b0 b1 b2 b3, a.more = [b0, b1, b2, b3] := by
    match h : a.more with
    | [b0, b1, b2, b3] => exact ⟨b0, b1, b2, b3, rfl⟩
    | [] | [_] | [_, _] | [_, _, _] | _ :: _ :: _ :: _ :: _ :: _ => simp [h] at e
  cases k with
  | r1 =>
    obtain e : a.more = [] := by simpa [RespKind.after] using hm
    exact ⟨_, _, Goes.cast (goes_waitR1 hw hv hl) (by simp [e]) (by simp [e]) rfl⟩
  | r2 =>
    obtain ⟨b, e⟩ : ∃ b, a.more = [b] := List.length_eq_one_iff.1 hm
    exact ⟨_, _, Goes.cast ((long (by simp)).bind ((goes_rx b).bind ((goes_setReg _).andThen (goes_ret _))))
      (by rw [e]; show fills _ ++ fills 1 = _; rw [← fills_add]; rfl) (by simp [e]) rfl⟩
  | r3 =>
    obtain ⟨b0, b1, b2, b3, e⟩ := four hm
    exact reg b0 b1 b2 b3 (by simp) e
  | r7 =>
    obtain ⟨b0, b1, b2, b3, e⟩ := four hm
    exact reg b0 b1 b2 b3 (by simp) e

/-- R108, R233: a command that would be answered, with exchange number j failing. -/
theorem command_lost (idx : BitVec 6) (arg : Word) (k : RespKind) (a : Answer) (j : Nat) (ha : a.full c k = true)
    (hj : j < a.bytes.length) : FailsAt c (command idx arg k) (lostReplies a.bytes j)
      (lostEvents (a.sent (buildFrame idx arg).toList) a.bytes j) .ioError := by
  intro s rest hcfg hcard
  obtain ⟨d', v, h⟩ := goes_waitFor (d := s.dp.framed idx arg) k a ha
  have h := (goes_sendFrame (c := c) (d := s.dp) idx arg a.during).andThen h
  have hb : (a.during.toList ++ (a.wait ++ a.r1 :: a.more)) ++ [a.filler] = a.bytes := by simp [Answer.bytes]
  have hs : ((buildFrame idx arg).toList ++ fills (a.wait.length + 1 + a.more.length)) ++ [fillByte] =
      a.sent (buildFrame idx arg).toList := by
    rw [List.append_assoc, show [fillByte] = fills 1 from rfl, ← fills_add]; rfl
  have := h.lost a.filler j (by rw [← hb, List.length_append, List.length_singleton] at hj; exact hj) s rest hcfg rfl
    (by rw [hb]; exact hcard)
  rw [hb, hs] at this
  exact this

/-- How a card command fails. -/
theorem command_cut (idx : BitVec 6) (arg : Word) (k : RespKind) (x : CommandCut) (hx : x.ok c k = true) :
    FailsAt c (command idx arg k) x.outcomes (x.events (buildFrame idx arg).toList) x.kind := by
  cases x with
  | silent y => exact GivesTxn.failsAt fun d => ⟨_, gives_command_silence idx arg k y hx⟩
  | illegal a =>
    simp only [CommandCut.ok, Bool.and_eq_true, bne_iff_ne, ne_eq] at hx
    obtain ⟨ho, hm⟩ := Answer.plain_iff.1 hx.2.1
    exact GivesTxn.failsAt fun d => ⟨_, gives_command_illegal idx arg k hx.1 a ho hx.2.2 hm⟩
  | lost a j =>
    simp only [CommandCut.ok, Bool.and_eq_true, decide_eq_true_eq] at hx
    exact command_lost idx arg k a j hx.1 hx.2

theorem Answer.plain_full {a : Answer} (h : a.plain c = true) : a.full c .r1 = true := by
  obtain ⟨ho, hm⟩ := Answer.plain_iff.1 h
  simp [Answer.full, ho, hm, RespKind.after]

/-! ## Attempts -/

/-- R110: an application command whose CMD55 fails in transport, or whose body does. -/
theorem sendAcmd_lostApp (n : BitVec 6) (arg : Word) (a : Answer) (j : Nat) (ha : a.plain c = true)
    (hj : j < a.bytes.length) :
    FailsAt c (sendAcmd n arg) (lostReplies a.bytes j) (lostEvents (a.sent appFrame) a.bytes j) .ioError := by
  rw [← appFrame_eq]
  exact (command_lost 55 0 .r1 a j (Answer.plain_full ha) hj).bind _

theorem sendAcmd_lostBody (n : BitVec 6) (arg : Word) (app a : Answer) (j : Nat) (happ : app.appOk c = true)
    (ha : a.plain c = true) (hj : j < a.bytes.length) :
    FailsAt c (sendAcmd n arg) (replies app.bytes ++ lostReplies a.bytes j)
      (app.events appFrame ++ lostEvents (a.sent (buildFrame n arg).toList) a.bytes j) .ioError := by
  obtain ⟨ho, hm, hi⟩ := Answer.appOk_iff.1 happ
  rw [← appFrame_eq]
  refine FailsAt.after (fun d => ⟨_, gives_command_r1 55 0 app ho hm⟩) ?_
  rw [hi]
  exact command_lost n arg .r1 a j (Answer.plain_full ha) hj

/-- R180, R233: an attempt whose command fails in transport. -/
theorem attempt_lost (w : LoopCommand) (x : TryCut) (hx : x.ok c w = true) :
    FailsAt c (attempt w) x.outcomes (x.events w) .ioError := by
  have h : FailsAt c (loopCommand w) x.outcomes (x.events w) .ioError := by
    cases x with
    | status a j =>
      simp only [TryCut.ok, Bool.and_eq_true, beq_iff_eq, decide_eq_true_eq] at hx
      obtain ⟨rfl, ha, hj⟩ := hx
      have h := command_lost 1 0 .r1 a j (Answer.plain_full ha) hj
      rw [loopFrame_cmd1] at h
      exact h
    | appCommand a j =>
      simp only [TryCut.ok, Bool.and_eq_true, bne_iff_ne, ne_eq, decide_eq_true_eq] at hx
      cases w with
      | cmd1 => exact absurd rfl hx.1
      | acmd => exact sendAcmd_lostApp _ _ a j hx.2.1 hx.2.2
      | acmdHcs => exact sendAcmd_lostApp _ _ a j hx.2.1 hx.2.2
    | body app a j =>
      simp only [TryCut.ok, Bool.and_eq_true, bne_iff_ne, ne_eq, decide_eq_true_eq] at hx
      cases w with
      | cmd1 => exact absurd rfl hx.1
      | acmd => simp only [TryCut.events, ← loopFrame_acmd]; exact sendAcmd_lostBody _ _ app a j hx.2.1 hx.2.2.1 hx.2.2.2
      | acmdHcs =>
        simp only [TryCut.events, ← loopFrame_acmdHcs]
        exact sendAcmd_lostBody _ _ app a j hx.2.1 hx.2.2.1 hx.2.2.2
  intro s rest hcfg hcard
  obtain ⟨d, h⟩ := h s rest hcfg hcard
  exact ⟨d, by simp only [attempt, h]⟩

/-! ## Polling loops -/

/-- One iteration whose attempt fails in transport. -/
theorem iteration_lost (w : LoopCommand) (x : TryCut) (hx : x.ok c w = true) (n left : Nat) :
    FailsAt c ((setReg fun d => { d with iter := n - left }).andThen (attempt w)) x.outcomes (x.events w) .ioError :=
  FailsAt.afterGives (f := fun _ => attempt w) (fun _ => ⟨_, gives_setReg _⟩) (attempt_lost w x hx)

/-- What the loop's verdict is for an attempt that is neither ready nor, where it matters, illegal. -/
theorem loopVerdict_none {w : LoopCommand} {t : CardTry} {stop : Bool} (ht : t.ok c w = true) (hr : t.ready = false)
    (hi : (t.illegal && stop) = false) : loopVerdict stop t.attempt = none := by
  rw [loopVerdict_attempt w t stop ht, hr, hi]
  rfl

theorem loopVerdict_ready {w : LoopCommand} {t : CardTry} {stop : Bool} (ht : t.ok c w = true) (hr : t.ready = true) :
    loopVerdict stop t.attempt = some .ready := by
  rw [loopVerdict_attempt w t stop ht, hr]
  rfl

theorem CardTry.goesOn_iff {t : CardTry} {w : LoopCommand} {stop : Bool} : t.goesOn c w stop = true ↔
    t.ok c w = true ∧ t.ready = false ∧ (t.illegal && stop) = false := by
  simp only [CardTry.goesOn, Bool.and_eq_true, Bool.not_eq_true', and_assoc, Bool.and_comm t.illegal]

/-- Attempts that do not end their loop. -/
theorem goesOn_all {ts : List CardTry} {w : LoopCommand} {stop : Bool}
    (h : ts.all (fun t => t.goesOn c w stop) = true) : ∀ t ∈ ts, t.ok c w = true ∧ loopVerdict stop t.attempt = none := by
  intro t ht
  obtain ⟨h1, h2, h3⟩ := CardTry.goesOn_iff.1 (List.all_eq_true.1 h t ht)
  exact ⟨h1, loopVerdict_none h1 h2 h3⟩

/-- R180, R233: a loop in which an attempt fails in transport. -/
theorem retryFrom_lost (w : LoopCommand) (n : Nat) (stop : Bool) (first : List CardTry) (last : TryCut)
    (hfirst : ∀ t ∈ first, t.ok c w = true ∧ loopVerdict stop t.attempt = none) (hlast : last.ok c w = true)
    (left : Nat) (hl : first.length < left) :
    FailsAt c (retryFrom w n stop left) (replies (triesBytes first) ++ last.outcomes)
      (first.flatMap (fun t => t.events w ++ [.delayMs 1]) ++ last.events w) .ioError := by
  induction first generalizing left with
  | nil =>
    cases left with
    | zero => simp at hl
    | succ left =>
      rw [retryFrom, Proc.andThen_bind]
      exact (iteration_lost w last hlast n left).bind _
  | cons t rest ih =>
    cases left with
    | zero => simp at hl
    | succ left =>
      have hr : rest.length < left := by simpa using hl
      have ht := hfirst t (List.mem_cons_self ..)
      have h := ih (fun u hu => hfirst u (List.mem_cons_of_mem _ hu)) left hr
      rw [retryFrom, Proc.andThen_bind]
      refine FailsAt.cast (FailsAt.after (fun d => gives_iteration w t ht.1 n left)
        (f := fun x => match loopVerdict stop x with
          | some e => ret e
          | none => if left = 0 then ret LoopEnd.exhausted
            else (delayMs initDelayMs).andThen (retryFrom w n stop left))
        (outs := replies [] ++ (replies (triesBytes rest) ++ last.outcomes))
        (ev := [.delayMs 1] ++ (rest.flatMap (fun t => t.events w ++ [.delayMs 1]) ++ last.events w)) ?_)
        (by simp [triesBytes]) (by simp)
      simp only [ht.2]
      rw [if_neg (by omega)]
      exact FailsAt.afterGives (fun d => ⟨d, gives_delay 1⟩) h

/-- How a polling loop ends without a card that is ready: it says so, or it fails. -/
theorem retryLoop_cut (w : LoopCommand) (n : Nat) (stop : Bool) (x : LoopCut) (hx : x.ok c w n stop = true)
    (f : LoopEnd → Proc CardType) (hf : f .exhausted = fail .timeout) :
    FailsAt c ((retryLoop w n stop).bind f) x.outcomes (x.events w) x.kind := by
  cases x with
  | exhausted tries =>
    simp only [LoopCut.ok, Bool.and_eq_true, bne_iff_ne, ne_eq, beq_iff_eq] at hx
    obtain ⟨h, hne, rfl⟩ := hx
    refine GivesTxn.failsAt fun d => ?_
    obtain ⟨d', h⟩ := gives_retryFrom_exhausted (d := d) w tries.length stop tries hne (goesOn_all h)
    refine ⟨d', GivesTxn.cast (h.bindGives (g' := []) (e' := []) (d'' := d') (o := .error .timeout) ?_) (by simp)
      (by simp [LoopCut.events]) rfl⟩
    rw [hf]
    exact gives_fail .timeout
  | lost tries last =>
    simp only [LoopCut.ok, Bool.and_eq_true, decide_eq_true_eq] at hx
    exact (retryFrom_lost w n stop tries last (goesOn_all hx.1) hx.2.1 n hx.2.2).bind f

end

end Sys2Proof.Machine
end

