-- ==== Sys2Proof/Laws/InitRuns.lean ====
section
/-! SUPPORT. Closed forms of the initialization sequence, the wake-up and the status query over what a card does
(spec/43_card_session.md R170 to R184). -/

namespace Sys2Proof.Machine

/-! ## Paths -/

section
variable {c : Config} {d : Datapath}

theorem cmd0Frame_eq : (buildFrame 0 0).toList = resetFrame := by decide +kernel

theorem cmd8Frame_eq : (buildFrame 8 cmd8Arg).toList = voltageFrame := by decide +kernel

theorem cmd58Frame_eq : (buildFrame 58 0).toList = ocrFrame := by decide +kernel

theorem cmd13Frame_eq : (buildFrame 13 0).toList = statusFrame := by decide +kernel

/-- R180: a loop that ends ready. -/
theorem gives_retryLoop_ready (w : LoopCommand) (n : Nat) (stop : Bool) (tries : List CardTry) (last : CardTry)
    (h : ∀ t ∈ tries, t.ok c w = true ∧ t.ready = false ∧ (t.illegal && stop) = false) (hl : last.ok c w = true)
    (hr : last.ready = true) (hn : tries.length < n) :
    ∃ d', GivesTxn c (retryLoop w n stop) d (triesBytes (tries ++ [last])) (triesEvents w (tries ++ [last])) d'
      (.ok .ready) :=
  gives_retryFrom w n stop tries last .ready
    (fun t ht => ⟨(h t ht).1, loopVerdict_none (h t ht).1 (h t ht).2.1 (h t ht).2.2⟩) hl (loopVerdict_ready hl hr) n hn

/-- R175, R176. -/
theorem gives_v2Path (tries : List CardTry) (last : CardTry) (a58 : Answer) (ocr : Word)
    (h : ∀ t ∈ tries, t.ok c .acmdHcs = true ∧ t.ready = false) (hl : last.ok c .acmdHcs = true) (hr : last.ready = true)
    (hn : tries.length < c.nInitV2) (ha : a58.ok c = true) (hi : r1IllegalCommand a58.r1 = false)
    (hm : a58.more = wordBytes ocr) :
    ∃ d', GivesTxn c v2Path d (triesBytes (tries ++ [last]) ++ a58.bytes)
      (triesEvents .acmdHcs (tries ++ [last]) ++ a58.events ocrFrame) d'
      (.ok (if ocrCcs ocr then CardType.sdV2Block else CardType.sdV2Byte)) := by
  obtain ⟨d1, h1⟩ := gives_retryLoop_ready (c := c) (d := d) .acmdHcs c.nInitV2 false tries last
    (fun t ht => ⟨(h t ht).1, (h t ht).2, by simp⟩) hl hr hn
  have h2 := gives_command_reg (d := d1) 58 0 a58 ocr ha hi hm
  rw [cmd58Frame_eq] at h2
  exact ⟨_, GivesTxn.withCfg (h1.bind (GivesTxn.cast (h2.bindGives (gives_ret _)) (by simp) (by simp) rfl))⟩

/-- R177, ready before any illegal-command. -/
theorem gives_legacyPath_sdV1 (tries : List CardTry) (last : CardTry)
    (h : ∀ t ∈ tries, t.ok c .acmd = true ∧ t.ready = false ∧ t.illegal = false) (hl : last.ok c .acmd = true)
    (hr : last.ready = true) (hn : tries.length < c.nInitLegacy) :
    ∃ d', GivesTxn c legacyPath d (triesBytes (tries ++ [last])) (triesEvents .acmd (tries ++ [last])) d'
      (.ok .sdV1) := by
  obtain ⟨d1, h1⟩ := gives_retryLoop_ready (c := c) (d := d) .acmd c.nInitLegacy true tries last
    (fun t ht => ⟨(h t ht).1, (h t ht).2.1, by simp [(h t ht).2.2]⟩) hl hr hn
  exact ⟨_, GivesTxn.withCfg (GivesTxn.cast (h1.bindGives (gives_ret _)) (by simp) (by simp) rfl)⟩

/-- R177, R178: the CMD1 loop. -/
theorem gives_mmcPath (tries : List CardTry) (last : CardTry)
    (h : ∀ t ∈ tries, t.ok c .cmd1 = true ∧ t.ready = false) (hl : last.ok c .cmd1 = true) (hr : last.ready = true)
    (hn : tries.length < c.nInitMmc) :
    ∃ d', GivesTxn c mmcPath d (triesBytes (tries ++ [last])) (triesEvents .cmd1 (tries ++ [last])) d'
      (.ok .mmcV3) := by
  obtain ⟨d1, h1⟩ := gives_retryLoop_ready (c := c) (d := d) .cmd1 c.nInitMmc false tries last
    (fun t ht => ⟨(h t ht).1, (h t ht).2, by simp⟩) hl hr hn
  exact ⟨_, GivesTxn.withCfg (GivesTxn.cast (h1.bindGives (gives_ret _)) (by simp) (by simp) rfl)⟩

/-- R177: the ACMD41 loop that ends at illegal-command. -/
theorem gives_retryLoop_illegal (tries : List CardTry) (last : CardTry)
    (h : ∀ t ∈ tries, t.ok c .acmd = true ∧ t.ready = false ∧ t.illegal = false) (hl : last.ok c .acmd = true)
    (hr : last.ready = false) (hi : last.illegal = true) (hn : tries.length < c.nInitLegacy) :
    ∃ d', GivesTxn c (retryLoop .acmd c.nInitLegacy true) d (triesBytes (tries ++ [last]))
      (triesEvents .acmd (tries ++ [last])) d' (.ok .illegal) := by
  refine gives_retryFrom .acmd c.nInitLegacy true tries last .illegal
    (fun t ht => ⟨(h t ht).1, loopVerdict_none (h t ht).1 (h t ht).2.1 (by simp [(h t ht).2.2])⟩) hl ?_ _ hn
  rw [loopVerdict_attempt .acmd last true hl, hr, hi]
  rfl

/-! ### Paths that fail -/

/-- R175, R181: the ACMD41 loop of the v2 path. -/
theorem v2Path_cut (x : LoopCut) (hx : x.ok c .acmdHcs c.nInitV2 false = true) :
    FailsAt c v2Path x.outcomes (x.events .acmdHcs) x.kind :=
  FailsAt.withCfg (retryLoop_cut .acmdHcs c.nInitV2 false x hx _ rfl)

/-- R176: CMD58 of the v2 path. -/
theorem v2Path_cmd58_cut (tries : List CardTry) (last : CardTry) (x : CommandCut)
    (h : ∀ t ∈ tries, t.ok c .acmdHcs = true ∧ t.ready = false) (hl : last.ok c .acmdHcs = true) (hr : last.ready = true)
    (hn : tries.length < c.nInitV2) (hx : x.ok c .r3 = true) :
    FailsAt c v2Path (replies (triesBytes (tries ++ [last])) ++ x.outcomes)
      (triesEvents .acmdHcs (tries ++ [last]) ++ x.events ocrFrame) x.kind := by
  rw [← cmd58Frame_eq]
  exact FailsAt.withCfg (FailsAt.after (fun d => gives_retryLoop_ready (c := c) (d := d) .acmdHcs c.nInitV2 false tries last
    (fun t ht => ⟨(h t ht).1, (h t ht).2, by simp⟩) hl hr hn) ((command_cut 58 0 .r3 x hx).bind _))

/-- R177, R181: the ACMD41 loop of the legacy path. -/
theorem legacyPath_cut (x : LoopCut) (hx : x.ok c .acmd c.nInitLegacy true = true) :
    FailsAt c legacyPath x.outcomes (x.events .acmd) x.kind :=
  FailsAt.withCfg (retryLoop_cut .acmd c.nInitLegacy true x hx _ rfl)

/-- R177, R178, R181: the CMD1 loop of the legacy path. -/
theorem mmcPath_cut (x : LoopCut) (hx : x.ok c .cmd1 c.nInitMmc false = true) :
    FailsAt c mmcPath x.outcomes (x.events .cmd1) x.kind :=
  FailsAt.withCfg (retryLoop_cut .cmd1 c.nInitMmc false x hx _ rfl)

/-- R184: CMD13 that fails. -/
theorem command13_cut (x : CommandCut) (hx : x.ok c .r2 = true) :
    FailsAt c (command 13 0 .r2) x.outcomes (x.events statusFrame) x.kind := by
  rw [← cmd13Frame_eq]
  exact command_cut 13 0 .r2 x hx

end

/-! ## States inside the initialization sequence -/

/-- A state inside INITIALIZE called from s: the events so far, what STATE has been, and the rest. -/
def State.inInit (s : State) (events : List Event) (rest : List Reply) (d : Datapath) (warn : Bool) (f : Fsm)
    (visits : List Fsm) : State :=
  { s with
    card := rest
    log := events.reverse ++ .lockAcquire :: s.log
    lock := true
    cs := false
    ctype := .unknown
    speed := .slow
    fsm := f
    err := .none
    warnIdleR1 := warn
    visits := visits ++ s.visits
    dp := d }

section
variable {s : State} {e ev : List Event} {r : List Reply} {d : Datapath} {w : Bool} {f : Fsm} {v : List Fsm}

@[simp] theorem State.inInit_cfg : (s.inInit e r d w f v).cfg = s.cfg := rfl

@[simp] theorem State.inInit_dp : (s.inInit e r d w f v).dp = d := rfl

@[simp] theorem State.inInit_card : (s.inInit e r d w f v).card = r := rfl

theorem State.inInit_saw {r' : List Reply} {d' : Datapath} :
    ((s.inInit e r d w f v).setCs false).saw ev r' d' = s.inInit (e ++ ev) r' d' w f v := by
  simp [State.inInit, State.saw, State.setCs]

theorem State.inInit_enter {g : Fsm} : (s.inInit e r d w f v).enter g = s.inInit e r d w g (g :: v) := rfl

/-- A transaction inside INITIALIZE. -/
theorem GivesTxn.inInit {α : Type} {p : Proc α} {g : List Byte} {d' : Datapath} {o : Except ErrKind α}
    (h : GivesTxn s.cfg p d g ev d' o) {rest : List Reply} :
    p (s.inInit e (replies g ++ rest) d w f v) = outcome o (s.inInit (e ++ ev) rest d' w f v) := by
  rw [h (s.inInit e (replies g ++ rest) d w f v) rest rfl rfl rfl, State.inInit_saw]

/-- A failure inside INITIALIZE. -/
theorem FailsAt.inInit {α : Type} {p : Proc α} {outs : List Reply} {k : ErrKind} (h : FailsAt s.cfg p outs ev k)
    {rest : List Reply} : ∃ d', p (s.inInit e (outs ++ rest) d w f v) = .err k (s.inInit (e ++ ev) rest d' w f v) := by
  obtain ⟨d', h⟩ := h (s.inInit e (outs ++ rest) d w f v) rest rfl rfl
  exact ⟨d', by rw [h, State.inInit_saw]⟩

/-- R171, R182: INITIALIZE whose body resolves a type. -/
theorem exec_init_ok {t : CardType} (hf : s.lockFree = true)
    (h : initBody s.begin.initStart = .ok t (s.inInit e r d w f v)) :
    exec .initializeCard s = .next { s.served (e ++ [.setSpeed .fast]) r (.cardType t) with
      ctype := t, speed := .fast, fsm := .typeResolved, warnIdleR1 := w,
        visits := .typeResolved :: (v ++ s.visits) } := by
  have h1 : exec .initializeCard s = .next (typeTurn (initSequence s.begin)).finish :=
    hostOp_free hf fun t => typeTurn (initSequence t)
  have h2 : initSequence s.begin = (((s.inInit e r d w f v).setCtype t).enter .typeResolved).requestSpeed .fast := by
    unfold initSequence; rw [h]
  rw [h1, h2]
  simp [typeTurn, Turn.finish, State.forget, State.lockRelease, State.setHold, State.setResult, State.setLock,
    State.record, State.requestSpeed, State.setSpeed, State.enter, State.setCtype, State.inInit, State.served]

/-- R171, R182: INITIALIZE whose body fails. -/
theorem exec_init_err {k : ErrKind} {b : Bool} (hf : s.lockFree = true)
    (h : initBody s.begin.initStart = .err k ((s.inInit e r d w f v).setCs b)) :
    exec .initializeCard s = .next { s.served e r (.cardType .unknown) with
      cs := b, ctype := .unknown, speed := .slow, fsm := .failed, err := k, warnIdleR1 := w,
      visits := .failed :: (v ++ s.visits) } := by
  have h1 : exec .initializeCard s = .next (typeTurn (initSequence s.begin)).finish :=
    hostOp_free hf fun t => typeTurn (initSequence t)
  have h2 : initSequence s.begin = (((s.inInit e r d w f v).setCs b).enter .failed).setErr k := by
    unfold initSequence; rw [h]
  rw [h1, h2]
  simp [typeTurn, Turn.finish, State.forget, State.lockRelease, State.setHold, State.setResult, State.setLock,
    State.record, State.setErr, State.enter, State.setCs, State.inInit, State.served]

end

/-! ## The beginning of the sequence (R172, R173) -/

/-- INIT_SEQUENCE starts from u, inside a host operation that was called from s, after these events. -/
def InitFrom (s u : State) (e : List Event) : Prop :=
  u.initStart.setCs false = s.inInit (e ++ [.setSpeed .slow]) u.card u.dp false .unidentified [.unidentified]

/-- As INITIALIZE runs it. -/
theorem initFrom_begin (s : State) : InitFrom s s.begin [] := rfl

/-- As GET_STATUS runs it after these events. -/
theorem initFrom_saw (s : State) (e : List Event) (r : List Reply) (d : Datapath) :
    InitFrom s ((s.begin.setCs false).saw e r d) e := by
  simp [InitFrom, State.saw, State.initStart, State.begin, State.lockAcquire, State.setErr, State.setLock, State.record,
    State.setCtype, State.setWarn, State.requestSpeed, State.setSpeed, State.setCs, State.enter, State.inInit]

/-- What follows CMD0's R1. -/
def afterReset (a : Byte) : Proc CardType :=
  (noteIdleR1 a).andThen ((update fun s => s.enter .idleConfirmed).andThen voltageCheck)

section
variable {s u : State} {e0 : List Event}

theorem InitFrom.cfg (h : InitFrom s u e0) : u.cfg = s.cfg := by
  unfold InitFrom at h
  exact (show u.cfg = (u.initStart.setCs false).cfg from rfl).trans (by rw [h]; rfl)

/-- The ten fillers outside any window and STATE SpiReset, before CMD0. -/
theorem initBody_fillers (hu : InitFrom s u e0) (pre : List Byte) (rest : List Reply) (hp : pre.length = 10)
    (hcard : u.card = replies pre ++ rest) : ∃ t : State, initBody u.initStart = ((command 0 0 .r1).bind afterReset) t ∧
      t.setCs false = s.inInit (e0 ++ [.setSpeed .slow] ++ exchanges (fills 10) pre) rest u.dp false .spiReset [.spiReset,
        .unidentified] := by
  have h1 := gives_filler (c := s.cfg) (d := u.dp) hp u.initStart rest hu.cfg rfl hcard
  refine ⟨(u.initStart.saw (exchanges (fills 10) pre) rest u.dp).enter .spiReset, ?_, ?_⟩
  · unfold initBody
    rw [show nSpiFill = 10 from rfl, Proc.andThen_ok h1,
      Proc.andThen_ok (show update (fun s => s.enter .spiReset) _ = .ok () _ from rfl)]
    rfl
  · show ((u.initStart.setCs false).saw (exchanges (fills 10) pre) rest u.dp).enter .spiReset = _
    rw [hu]
    simp [State.inInit, State.saw, State.enter]

/-- CMD0 answered: the soft warning, STATE IdleConfirmed, and CMD8 next. -/
theorem initBody_answered (hu : InitFrom s u e0) (pre : List Byte) (a0 : Answer) (rest : List Reply) (hp : pre.length = 10)
    (ha : a0.plain s.cfg = true) (hcard : u.card = replies (pre ++ a0.bytes) ++ rest) :
    ∃ d, initBody u.initStart = voltageCheck (s.inInit
      (e0 ++ [.setSpeed .slow] ++ exchanges (fills 10) pre ++ a0.events resetFrame) rest d
      (!r1IdleOrReady a0.r1) .idleConfirmed [.idleConfirmed, .spiReset, .unidentified]) := by
  rw [replies_append, List.append_assoc] at hcard
  obtain ⟨ho, hm⟩ := Answer.plain_iff.1 ha
  obtain ⟨t, h1, h2⟩ := initBody_fillers hu pre _ hp hcard
  have h := gives_command_r1 (c := s.cfg) (d := u.dp) 0 0 a0 ho hm t rest (by simpa using congrArg State.cfg h2)
    (by simpa using congrArg State.dp h2) (by simpa using congrArg State.card h2)
  rw [cmd0Frame_eq, h2] at h
  refine ⟨{ u.dp.framed 0 0 with r1 := a0.r1, poll := a0.wait.length + 1 }, h1.trans ((Proc.bind_ok h).trans ?_)⟩
  unfold afterReset noteIdleR1
  cases h0 : r1IdleOrReady a0.r1 <;> simp only [Proc.andThen, Proc.bind, update] <;>
    simp [State.inInit, State.saw, State.enter, State.setWarn]

/-- CMD0 that fails. -/
theorem initBody_cmd0_cut (hu : InitFrom s u e0) (pre : List Byte) (x : CommandCut) (rest : List Reply)
    (hp : pre.length = 10) (hx : x.ok s.cfg .r1 = true) (hcard : u.card = replies pre ++ (x.outcomes ++ rest)) :
    ∃ d, initBody u.initStart = .err x.kind (s.inInit
      (e0 ++ [.setSpeed .slow] ++ exchanges (fills 10) pre ++ x.events resetFrame) rest d false .spiReset
      [.spiReset, .unidentified]) := by
  obtain ⟨t, h1, h2⟩ := initBody_fillers hu pre _ hp hcard
  obtain ⟨d, h⟩ := command_cut (c := s.cfg) 0 0 .r1 x hx t rest (by simpa using congrArg State.cfg h2)
    (by simpa using congrArg State.card h2)
  rw [cmd0Frame_eq, h2] at h
  refine ⟨d, h1.trans ((Proc.bind_err h).trans ?_)⟩
  simp [State.inInit, State.saw]

/-- A filler that fails: no chip-select event (R172). -/
theorem initBody_filler_cut (hu : InitFrom s u e0) (pre : List Byte) (rest : List Reply) (hp : pre.length < 10)
    (hcard : u.card = replies pre ++ .fail :: rest) :
    initBody u.initStart = .err .ioError ((s.inInit
      (e0 ++ [.setSpeed .slow] ++ exchanges (fills pre.length) pre ++ [.xchg 0xFF .fail]) rest u.dp false .unidentified
      [.unidentified]).setCs u.cs) := by
  have h1 := txList_failing (fills 10) pre u.initStart rest (by simpa using hp) hcard
  have h2 : (s.inInit (e0 ++ [.setSpeed .slow]) u.card u.dp false .unidentified [.unidentified]).setCs u.cs = u.initStart := by
    rw [← hu]; rfl
  unfold initBody
  rw [show filler nSpiFill = txList (fills 10) from rfl, Proc.andThen_err h1, ← h2]
  rw [exchanges_fills 10 _ (by omega)]
  have h3 : (fills 10)[pre.length]'(by simpa using hp) = 0xFF := by
    simp only [fills, List.getElem_replicate, fillByte]
  rw [h3]
  simp [State.inInit, State.saw, State.setCs]

end

/-! ## After CMD8 (R174) -/

section
variable {s : State} {e : List Event} {R : List Reply} {d : Datapath} {w : Bool} {v : List Fsm}

/-- CMD8's R1 has illegal-command. -/
theorem voltageCheck_legacy (a8 : Answer) (h8 : a8.plain s.cfg = true) (hi : a8.r1.getLsbD 2 = true) :
    ∃ d', voltageCheck (s.inInit e (replies a8.bytes ++ R) d w .idleConfirmed v) = legacyPath (s.inInit
      (e ++ a8.events voltageFrame) R d' w .voltageCheckedLegacy
      (.voltageCheckedLegacy :: v)) := by
  obtain ⟨ho, hm⟩ := Answer.plain_iff.1 h8
  have h := gives_command_illegal (d := d) 8 cmd8Arg .r7 (by simp) a8 ho hi hm
  rw [cmd8Frame_eq] at h
  refine ⟨{ d.framed 8 cmd8Arg with r1 := a8.r1, poll := a8.wait.length + 1 }, ?_⟩
  unfold voltageCheck
  rw [GivesTxn.inInit h]
  rfl

/-- CMD8 gets its whole response. -/
theorem voltageCheck_echo (a8 : Answer) (echo : Word) (h8 : a8.ok s.cfg = true) (hi : a8.r1.getLsbD 2 = false)
    (hm : a8.more = wordBytes echo) :
    ∃ d', voltageCheck (s.inInit e (replies a8.bytes ++ R) d w .idleConfirmed v) =
      if r7EchoOk echo then v2Path (s.inInit (e ++ a8.events voltageFrame) R d' w
        .voltageCheckedV2 (.voltageCheckedV2 :: v))
      else .err .voltageMismatch (s.inInit (e ++ a8.events voltageFrame) R d' w
        .idleConfirmed v) := by
  have h : GivesTxn s.cfg (command 8 cmd8Arg .r7) d _ _ _ _ := gives_command_reg (d := d) 8 cmd8Arg a8 echo h8 hi hm
  rw [cmd8Frame_eq] at h
  refine ⟨{ d.framed 8 cmd8Arg with r1 := a8.r1, poll := a8.wait.length + 1, reg32 := echo }, ?_⟩
  unfold voltageCheck
  rw [GivesTxn.inInit h]
  rfl

/-- CMD8 fails, other than with IllegalCommand. -/
theorem voltageCheck_cut (x : CommandCut) (hx : x.ok s.cfg .r7 = true) (hk : x.kind ≠ .illegalCommand) :
    ∃ d', voltageCheck (s.inInit e (x.outcomes ++ R) d w .idleConfirmed v) =
      .err x.kind (s.inInit (e ++ x.events voltageFrame) R d' w .idleConfirmed v) := by
  have h := command_cut (c := s.cfg) 8 cmd8Arg .r7 x hx
  rw [cmd8Frame_eq] at h
  obtain ⟨d', h⟩ := h.inInit (e := e) (rest := R) (d := d) (w := w) (f := .idleConfirmed) (v := v)
  refine ⟨d', ?_⟩
  unfold voltageCheck
  rw [h]
  cases x with
  | silent y => rfl
  | illegal a => exact absurd rfl hk
  | lost a j => rfl

/-- R177: the ACMD41 loop ends at illegal-command, and the CMD1 loop is next. -/
theorem legacyPath_illegal (tries : List CardTry) (stop : CardTry)
    (ht : ∀ t ∈ tries, t.ok s.cfg .acmd = true ∧ t.ready = false ∧ t.illegal = false) (hs : stop.ok s.cfg .acmd = true)
    (hr : stop.ready = false) (hi : stop.illegal = true) (hn : tries.length < s.cfg.nInitLegacy) :
    ∃ d', legacyPath (s.inInit e (replies (triesBytes (tries ++ [stop])) ++ R) d w .voltageCheckedLegacy v) =
      mmcPath (s.inInit (e ++ triesEvents .acmd (tries ++ [stop])) R d' w .legacyMmc (.legacyMmc :: v)) := by
  obtain ⟨d3, e3⟩ := gives_retryLoop_illegal (c := s.cfg) (d := d) tries stop ht hs hr hi hn
  have h3 := GivesTxn.inInit (s := s) (e := e) (w := w) (f := .voltageCheckedLegacy) (v := v) e3 (rest := R)
  refine ⟨d3, ?_⟩
  unfold legacyPath withCfg
  dsimp only [State.inInit_cfg]
  rw [Proc.bind_ok h3]
  rfl

end

/-! ## The whole sequence -/

/-- A card that resolves a type. -/
theorem initBody_resolves {s u : State} {e0 : List Event} (hu : InitFrom s u e0) (x : CardInit) (rest : List Reply)
    (hx : x.ok s.cfg = true) (hcard : u.card = replies x.bytes ++ rest) :
    ∃ d f v, initBody u.initStart = .ok x.type (s.inInit (e0 ++ x.events) rest d x.warn f v) ∧
      .typeResolved :: v = x.visits := by
  cases x with
  | v2 pre a0 a8 echo tries last a58 ocr =>
    simp only [CardInit.ok, Bool.and_eq_true, Bool.not_eq_true', List.all_eq_true, decide_eq_true_eq, beq_iff_eq] at hx
    obtain ⟨⟨⟨h0, ⟨⟨h8, hi8⟩, hm8⟩, he⟩, ⟨⟨ht, hl⟩, hr⟩, hn⟩, ⟨h58, hi58⟩, hm58⟩ := hx
    obtain ⟨d1, e1⟩ := initBody_answered hu pre.toList a0
      (replies a8.bytes ++ (replies (triesBytes (tries ++ [last]) ++ a58.bytes) ++ rest)) (by simp) h0
      (by rw [hcard]; simp [CardInit.bytes])
    obtain ⟨d2, e2⟩ := voltageCheck_echo (s := s) (e := _) (R := replies (triesBytes (tries ++ [last]) ++ a58.bytes) ++ rest)
      (d := d1) (w := !r1IdleOrReady a0.r1) (v := [.idleConfirmed, .spiReset, .unidentified]) a8 echo h8 hi8 hm8
    obtain ⟨d3, e3⟩ := gives_v2Path (c := s.cfg) (d := d2) tries last a58 ocr ht hl hr hn h58 hi58 hm58
    rw [e2, if_pos (by simpa [r7EchoOk, r7Echo] using he), GivesTxn.inInit e3] at e1
    refine ⟨d3, .voltageCheckedV2, _, ?_, rfl⟩
    simpa [CardInit.events, initHead, CardInit.type, CardInit.warn, ocrCcs] using e1
  | sdV1 pre a0 a8 tries last =>
    simp only [CardInit.ok, Bool.and_eq_true, Bool.not_eq_true', List.all_eq_true, decide_eq_true_eq] at hx
    obtain ⟨⟨h0, h8, hi8⟩, ⟨⟨ht, hl⟩, hr⟩, hn⟩ := hx
    obtain ⟨d1, e1⟩ := initBody_answered hu pre.toList a0
      (replies a8.bytes ++ (replies (triesBytes (tries ++ [last])) ++ rest)) (by simp) h0
      (by rw [hcard]; simp [CardInit.bytes])
    obtain ⟨d2, e2⟩ := voltageCheck_legacy (s := s) (e := _) (R := replies (triesBytes (tries ++ [last])) ++ rest)
      (d := d1) (w := !r1IdleOrReady a0.r1) (v := [.idleConfirmed, .spiReset, .unidentified]) a8 h8 hi8
    obtain ⟨d3, e3⟩ := gives_legacyPath_sdV1 (c := s.cfg) (d := d2) tries last
      (fun t h => ⟨(ht t h).1.1, (ht t h).1.2, (ht t h).2⟩) hl hr hn
    rw [e2, GivesTxn.inInit e3] at e1
    refine ⟨d3, .voltageCheckedLegacy, _, ?_, rfl⟩
    simpa [CardInit.events, initHead, CardInit.type, CardInit.warn] using e1
  | mmc pre a0 a8 tries stop tries1 last1 =>
    simp only [CardInit.ok, Bool.and_eq_true, Bool.not_eq_true', List.all_eq_true, decide_eq_true_eq] at hx
    obtain ⟨⟨⟨h0, h8, hi8⟩, ⟨⟨⟨ht, hs⟩, hsr⟩, hsi⟩, hn⟩, ⟨⟨ht1, hl1⟩, hr1⟩, hn1⟩ := hx
    obtain ⟨d1, e1⟩ := initBody_answered hu pre.toList a0
      (replies a8.bytes ++ (replies (triesBytes (tries ++ [stop])) ++ (replies (triesBytes (tries1 ++ [last1])) ++ rest)))
      (by simp) h0 (by rw [hcard]; simp [CardInit.bytes])
    obtain ⟨d2, e2⟩ := voltageCheck_legacy (s := s) (e := _)
      (R := replies (triesBytes (tries ++ [stop])) ++ (replies (triesBytes (tries1 ++ [last1])) ++ rest))
      (d := d1) (w := !r1IdleOrReady a0.r1) (v := [.idleConfirmed, .spiReset, .unidentified]) a8 h8 hi8
    obtain ⟨d3, e3⟩ := legacyPath_illegal (s := s) (e := _) (R := replies (triesBytes (tries1 ++ [last1])) ++ rest) (d := d2)
      (w := !r1IdleOrReady a0.r1) (v := _) tries stop (fun t h => ⟨(ht t h).1.1, (ht t h).1.2, (ht t h).2⟩) hs hsr hsi hn
    obtain ⟨d4, e4⟩ := gives_mmcPath (c := s.cfg) (d := d3) tries1 last1 ht1 hl1 hr1 hn1
    rw [e2, e3, GivesTxn.inInit e4] at e1
    refine ⟨d4, .legacyMmc, _, ?_, rfl⟩
    simpa [CardInit.events, initHead, CardInit.type, CardInit.warn] using e1

/-- R174: CMD8's whole response, with the right echo or not. -/
theorem Answer.echoes_iff {a8 : Answer} {c : Config} {echo : Word} : a8.echoes c echo = true ↔
    a8.ok c = true ∧ a8.r1.getLsbD 2 = false ∧ a8.more = wordBytes echo := by
  simp only [Answer.echoes, Bool.and_eq_true, Bool.not_eq_true', beq_iff_eq, and_assoc]

/-- A card that fails it. -/
theorem initBody_cut {s u : State} {e0 : List Event} (hu : InitFrom s u e0) (x : InitCut) (rest : List Reply)
    (hx : x.ok s.cfg = true) (hcard : u.card = x.outcomes ++ rest) :
    ∃ d f v, initBody u.initStart = .err x.kind ((s.inInit (e0 ++ x.events) rest d x.warn f v).setCs
      (u.cs && x.windowless)) ∧ .failed :: v = x.visits := by
  have inWindow : ∀ {e d w f v}, (s.inInit e rest d w f v).setCs false = s.inInit e rest d w f v := rfl
  cases x with
  | filler pre =>
    simp only [InitCut.ok, decide_eq_true_eq] at hx
    refine ⟨u.dp, .unidentified, _, ?_, rfl⟩
    have h := initBody_filler_cut hu pre rest hx (by rw [hcard]; simp [InitCut.outcomes])
    simpa [InitCut.events, InitCut.kind, InitCut.warn, InitCut.windowless] using h
  | cmd0 pre x =>
    obtain ⟨d, h⟩ := initBody_cmd0_cut hu pre.toList x rest (by simp) hx (by rw [hcard]; simp [InitCut.outcomes])
    refine ⟨d, .spiReset, _, ?_, rfl⟩
    simpa [InitCut.events, InitCut.kind, InitCut.warn, InitCut.windowless, inWindow] using h
  | cmd8 pre a0 x =>
    simp only [InitCut.ok, Bool.and_eq_true, bne_iff_ne, ne_eq] at hx
    obtain ⟨d1, e1⟩ := initBody_answered hu pre.toList a0 (x.outcomes ++ rest) (by simp) hx.1
      (by rw [hcard]; simp [InitCut.outcomes])
    obtain ⟨d2, e2⟩ := voltageCheck_cut (s := s) (e := _) (R := rest) (d := d1) (w := !r1IdleOrReady a0.r1) (v := _) x
      hx.2.1 hx.2.2
    rw [e2] at e1
    refine ⟨d2, .idleConfirmed, _, ?_, rfl⟩
    simpa [InitCut.events, InitCut.kind, InitCut.warn, InitCut.windowless, inWindow] using e1
  | mismatch pre a0 a8 echo =>
    simp only [InitCut.ok, Bool.and_eq_true, bne_iff_ne, ne_eq] at hx
    obtain ⟨h8, hi8, hm8⟩ := Answer.echoes_iff.1 hx.2.1
    obtain ⟨d1, e1⟩ := initBody_answered hu pre.toList a0 (replies a8.bytes ++ rest) (by simp) hx.1
      (by rw [hcard]; simp [InitCut.outcomes])
    obtain ⟨d2, e2⟩ := voltageCheck_echo (s := s) (e := _) (R := rest)
      (d := d1) (w := !r1IdleOrReady a0.r1) (v := [.idleConfirmed, .spiReset, .unidentified]) a8 echo h8 hi8 hm8
    rw [e2, if_neg (by simpa [r7EchoOk, r7Echo] using hx.2.2)] at e1
    refine ⟨d2, .idleConfirmed, _, ?_, rfl⟩
    simpa [InitCut.events, initHead, InitCut.kind, InitCut.warn, InitCut.windowless, inWindow] using e1
  | v2Loop pre a0 a8 echo x =>
    simp only [InitCut.ok, Bool.and_eq_true, beq_iff_eq] at hx
    obtain ⟨h0, h8, he, hl⟩ := hx
    obtain ⟨h8, hi8, hm8⟩ := Answer.echoes_iff.1 h8
    obtain ⟨d1, e1⟩ := initBody_answered hu pre.toList a0 (replies a8.bytes ++ (x.outcomes ++ rest)) (by simp) h0
      (by rw [hcard]; simp [InitCut.outcomes])
    obtain ⟨d2, e2⟩ := voltageCheck_echo (s := s) (e := _) (R := x.outcomes ++ rest)
      (d := d1) (w := !r1IdleOrReady a0.r1) (v := [.idleConfirmed, .spiReset, .unidentified]) a8 echo h8 hi8 hm8
    obtain ⟨d3, e3⟩ := (v2Path_cut x hl).inInit (e := _) (rest := rest) (d := d2) (w := !r1IdleOrReady a0.r1)
      (f := .voltageCheckedV2) (v := _)
    rw [e2, if_pos (by simpa [r7EchoOk, r7Echo] using he), e3] at e1
    refine ⟨d3, .voltageCheckedV2, _, ?_, rfl⟩
    simpa [InitCut.events, initHead, InitCut.kind, InitCut.warn, InitCut.windowless, inWindow] using e1
  | cmd58 pre a0 a8 echo tries last x =>
    simp only [InitCut.ok, Bool.and_eq_true, beq_iff_eq, decide_eq_true_eq] at hx
    obtain ⟨h0, h8, he, ht, hl, hr, hn, h58⟩ := hx
    obtain ⟨h8, hi8, hm8⟩ := Answer.echoes_iff.1 h8
    obtain ⟨d1, e1⟩ := initBody_answered hu pre.toList a0
      (replies a8.bytes ++ ((replies (triesBytes (tries ++ [last])) ++ x.outcomes) ++ rest)) (by simp) h0
      (by rw [hcard]; simp [InitCut.outcomes])
    obtain ⟨d2, e2⟩ := voltageCheck_echo (s := s) (e := _)
      (R := (replies (triesBytes (tries ++ [last])) ++ x.outcomes) ++ rest)
      (d := d1) (w := !r1IdleOrReady a0.r1) (v := [.idleConfirmed, .spiReset, .unidentified]) a8 echo h8 hi8 hm8
    obtain ⟨d3, e3⟩ := (v2Path_cmd58_cut tries last x (fun t h => by
      obtain ⟨h1, h2, -⟩ := CardTry.goesOn_iff.1 (List.all_eq_true.1 ht t h)
      exact ⟨h1, h2⟩) hl hr hn h58).inInit (e := _) (rest := rest) (d := d2) (w := !r1IdleOrReady a0.r1)
      (f := .voltageCheckedV2) (v := _)
    rw [e2, if_pos (by simpa [r7EchoOk, r7Echo] using he), e3] at e1
    refine ⟨d3, .voltageCheckedV2, _, ?_, rfl⟩
    simpa [InitCut.events, initHead, InitCut.kind, InitCut.warn, InitCut.windowless, inWindow] using e1
  | legacyLoop pre a0 a8 x =>
    simp only [InitCut.ok, Answer.preV2, Bool.and_eq_true] at hx
    obtain ⟨h0, ⟨h8, hi8⟩, hl⟩ := hx
    obtain ⟨d1, e1⟩ := initBody_answered hu pre.toList a0 (replies a8.bytes ++ (x.outcomes ++ rest)) (by simp) h0
      (by rw [hcard]; simp [InitCut.outcomes])
    obtain ⟨d2, e2⟩ := voltageCheck_legacy (s := s) (e := _) (R := x.outcomes ++ rest)
      (d := d1) (w := !r1IdleOrReady a0.r1) (v := [.idleConfirmed, .spiReset, .unidentified]) a8 h8 hi8
    obtain ⟨d3, e3⟩ := (legacyPath_cut x hl).inInit (e := _) (rest := rest) (d := d2) (w := !r1IdleOrReady a0.r1)
      (f := .voltageCheckedLegacy) (v := _)
    rw [e2, e3] at e1
    refine ⟨d3, .voltageCheckedLegacy, _, ?_, rfl⟩
    simpa [InitCut.events, initHead, InitCut.kind, InitCut.warn, InitCut.windowless, inWindow] using e1
  | mmcLoop pre a0 a8 tries stop x =>
    simp only [InitCut.ok, Answer.preV2, Bool.and_eq_true, Bool.not_eq_true', decide_eq_true_eq] at hx
    obtain ⟨h0, ⟨h8, hi8⟩, ht, hs, hsr, hsi, hn, hl⟩ := hx
    obtain ⟨d1, e1⟩ := initBody_answered hu pre.toList a0
      (replies a8.bytes ++ (replies (triesBytes (tries ++ [stop])) ++ (x.outcomes ++ rest))) (by simp) h0
      (by rw [hcard]; simp [InitCut.outcomes])
    obtain ⟨d2, e2⟩ := voltageCheck_legacy (s := s) (e := _)
      (R := replies (triesBytes (tries ++ [stop])) ++ (x.outcomes ++ rest))
      (d := d1) (w := !r1IdleOrReady a0.r1) (v := [.idleConfirmed, .spiReset, .unidentified]) a8 h8 hi8
    obtain ⟨d3, e3⟩ := legacyPath_illegal (s := s) (e := _) (R := x.outcomes ++ rest) (d := d2)
      (w := !r1IdleOrReady a0.r1) (v := _) tries stop (fun t h => by
        obtain ⟨h1, h2, h3⟩ := CardTry.goesOn_iff.1 (List.all_eq_true.1 ht t h)
        exact ⟨h1, h2, by simpa using h3⟩) hs hsr hsi hn
    obtain ⟨d4, e4⟩ := (mmcPath_cut x hl).inInit (e := _) (rest := rest) (d := d3) (w := !r1IdleOrReady a0.r1)
      (f := .legacyMmc) (v := _)
    rw [e2, e3, e4] at e1
    refine ⟨d4, .legacyMmc, _, ?_, rfl⟩
    simpa [InitCut.events, initHead, InitCut.kind, InitCut.warn, InitCut.windowless, inWindow] using e1

/-! ## WAKE_UP and GET_STATUS -/

/-- How a host operation that only ran a transaction ends. -/
theorem finish_saw (s : State) (ev rest d r) :
    (Turn.done r ((s.begin.setCs false).saw ev rest d)).finish = s.served ev rest r := by
  simp [Turn.finish, State.forget, State.lockRelease, State.setHold, State.setResult, State.setLock,
    State.record, State.saw, State.begin, State.lockAcquire, State.setErr, State.setCs, State.served]

theorem finish_saw_err (s : State) (ev rest d r k) :
    (Turn.done r (((s.begin.setCs false).saw ev rest d).setErr k)).finish = { s.served ev rest r with err := k } := by
  simp [Turn.finish, State.forget, State.lockRelease, State.setHold, State.setResult, State.setLock,
    State.record, State.saw, State.begin, State.lockAcquire, State.setErr, State.setCs, State.served]

theorem exec_getStatus_failed {s : State} {e0 : List Event} {R : List Reply} {d0 : Datapath} {k0 : ErrKind}
    (hk : k0 ≠ .ioError) (hf : s.lockFree = true)
    (h : command 13 0 .r2 s.begin = .err k0 ((s.begin.setCs false).saw e0 R d0)) {k e r d w f v}
    (hb : initBody ((s.begin.setCs false).saw e0 R d0).initStart = .err k (s.inInit e r d w f v)) :
    exec .getStatus s = .next { s.served e r (.status .noMedium) with
      ctype := .unknown, speed := .slow, fsm := .failed, err := k, warnIdleR1 := w,
      visits := .failed :: (v ++ s.visits) } := by
  have hex : exec .getStatus s = .next (statusQuery s.begin).finish := hostOp_free hf _
  have h2 : initSequence ((s.begin.setCs false).saw e0 R d0) = ((s.inInit e r d w f v).enter .failed).setErr k := by
    unfold initSequence; rw [hb]
  have h3 : statusQuery s.begin = statusAfterInit (initSequence ((s.begin.setCs false).saw e0 R d0)) := by
    unfold statusQuery; rw [h]; cases k0 <;> first | rfl | exact absurd rfl hk
  rw [hex, h3, h2, statusAfterInit,
    if_pos (show (((s.inInit e r d w f v).enter .failed).setErr k).ctype = .unknown from rfl)]
  simp [Turn.finish, State.forget, State.lockRelease, State.setHold, State.setResult, State.setLock,
    State.record, State.setErr, State.enter, State.inInit, State.served]

/-- R184: GET_STATUS that comes to its retry, from how the retry's transaction ends. -/
theorem exec_getStatus_retried {s : State} {m : CommandCut} {x : CardInit} {R rest : List Reply} {ev : List Event}
    {o : Except ErrKind (BitVec 16)} (hf : s.lockFree = true) (hm : m.ok s.cfg .r2 = true) (hk : m.kind ≠ .ioError)
    (hx : x.ok s.cfg = true) (hcard : s.card = m.outcomes ++ (replies x.bytes ++ R))
    (h13 : ∀ u : State, u.cfg = s.cfg → u.card = R →
      ∃ d, command 13 0 .r2 u = outcome o ((u.setCs false).saw ev rest d)) :
    exec .getStatus s = .next { s.served (m.events statusFrame ++ x.events ++ [.setSpeed .fast] ++ ev) rest
        (.status (match o with | .ok v => classifyStatus v | .error _ => .noMedium)) with
      ctype := x.type, speed := .fast, fsm := .typeResolved, warnIdleR1 := x.warn, visits := x.visits ++ s.visits,
      err := match o with | .ok _ => .none | .error k => k } := by
  obtain ⟨d0, h⟩ := command13_cut m hm s.begin (replies x.bytes ++ R) rfl hcard
  obtain ⟨d, f, v, hb, hv⟩ := initBody_resolves (initFrom_saw s (m.events statusFrame) (replies x.bytes ++ R) d0) x R hx rfl
  have hex : exec .getStatus s = .next (statusQuery s.begin).finish := hostOp_free hf _
  have h2 : initSequence ((s.begin.setCs false).saw (m.events statusFrame) (replies x.bytes ++ R) d0) =
      (((s.inInit (m.events statusFrame ++ x.events) R d x.warn f v).setCtype x.type).enter .typeResolved).requestSpeed
        .fast := by
    unfold initSequence; rw [hb]
  have h3 : statusQuery s.begin =
      statusAfterInit (initSequence ((s.begin.setCs false).saw (m.events statusFrame) (replies x.bytes ++ R) d0)) := by
    unfold statusQuery
    rw [h]
    cases m with
    | silent y => rfl
    | illegal a => rfl
    | lost a j => exact absurd rfl hk
  have hc : x.type ≠ .unknown := by
    cases x <;> simp only [CardInit.type, ne_eq, reduceCtorEq, not_false_eq_true]
    split <;> simp
  obtain ⟨d', h4⟩ := h13 ((((s.inInit (m.events statusFrame ++ x.events) R d x.warn f v).setCtype x.type).enter
    .typeResolved).requestSpeed .fast) rfl rfl
  rw [hex, h3, h2, statusAfterInit, if_neg (show ((((s.inInit _ R d x.warn f v).setCtype x.type).enter
    .typeResolved).requestSpeed .fast).ctype ≠ .unknown from hc), statusRetry, h4, ← hv]
  cases o <;> simp [Turn.finish, State.forget, State.lockRelease, State.setHold, State.setResult, State.setLock,
    State.record, State.requestSpeed, State.setSpeed, State.enter, State.setCtype, State.inInit, State.served, State.saw,
    State.setCs, State.setErr]

end Sys2Proof.Machine
end

