-- ==== Sys2Proof/Laws/PerInstr.lean ====
section
/-! SUPPORT. A statement for every instruction: its encoding has the length its row gives it (spec/30_encoding.md R70, R87,
R88; the host port's operand words are log entry 9's). -/

namespace Sys2Proof.Laws

open Sys2Proof.Machine

/-- The number of bytes of each row: its width in the table, and for a host operation one byte and its operand words. -/
def rowBytes : Instr → Nat
  | .cmd0 | .cmd1 | .cmd8 | .cmd13 | .cmd55 | .cmd58 | .acmd41Hcs | .acmd41 => 6
  | .cmd17 _ _ | .cmd24 _ _ | .frame _ _ _ => 6
  | .r1 _ | .notR1 _ | .r1Illegal _ => 1
  | .r2 _ _ => 2
  | .r3 _ _ | .r7 _ _ => 5
  | .dataStart _ => 1
  | .dataBlock _ _ _ => 515
  | .drespAccepted _ | .drespCrcError _ | .drespWriteError _ | .drespBadFormat _ => 1
  | .busy | .fill => 1
  | .initializeCard | .getType | .wakeUp | .getStatus => 1
  | .readSector _ | .writeSector _ => 5
  | .readSectors _ _ _ | .writeSectors _ _ _ => 13

/-- The encoding of an instruction has its row's length. -/
def FixedLength.Statement (i : Instr) : Prop := (encode i).length = rowBytes i

theorem FixedLength.cmd0 : FixedLength.Statement .cmd0 := rfl

theorem FixedLength.cmd1 : FixedLength.Statement .cmd1 := rfl

theorem FixedLength.cmd8 : FixedLength.Statement .cmd8 := rfl

theorem FixedLength.cmd13 : FixedLength.Statement .cmd13 := rfl

theorem FixedLength.cmd55 : FixedLength.Statement .cmd55 := rfl

theorem FixedLength.cmd58 : FixedLength.Statement .cmd58 := rfl

theorem FixedLength.acmd41Hcs : FixedLength.Statement .acmd41Hcs := rfl

theorem FixedLength.acmd41 : FixedLength.Statement .acmd41 := rfl

theorem FixedLength.cmd17 a b : FixedLength.Statement (.cmd17 a b) := rfl

theorem FixedLength.cmd24 a b : FixedLength.Statement (.cmd24 a b) := rfl

theorem FixedLength.frame a b c : FixedLength.Statement (.frame a b c) := rfl

theorem FixedLength.r1 a : FixedLength.Statement (.r1 a) := rfl

theorem FixedLength.notR1 a : FixedLength.Statement (.notR1 a) := rfl

theorem FixedLength.r2 a b : FixedLength.Statement (.r2 a b) := rfl

theorem FixedLength.r3 a b : FixedLength.Statement (.r3 a b) := rfl

theorem FixedLength.r7 a b : FixedLength.Statement (.r7 a b) := rfl

theorem FixedLength.r1Illegal a : FixedLength.Statement (.r1Illegal a) := rfl

theorem FixedLength.dataStart a : FixedLength.Statement (.dataStart a) := rfl

theorem FixedLength.dataBlock (a : Dir) (b : Block) (c : BitVec 16) : FixedLength.Statement (.dataBlock a b c) := by
  simp [FixedLength.Statement, encode, rowBytes]

theorem FixedLength.drespAccepted a : FixedLength.Statement (.drespAccepted a) := rfl

theorem FixedLength.drespCrcError a : FixedLength.Statement (.drespCrcError a) := rfl

theorem FixedLength.drespWriteError a : FixedLength.Statement (.drespWriteError a) := rfl

theorem FixedLength.drespBadFormat a : FixedLength.Statement (.drespBadFormat a) := rfl

theorem FixedLength.busy : FixedLength.Statement .busy := rfl

theorem FixedLength.fill : FixedLength.Statement .fill := rfl

theorem FixedLength.initializeCard : FixedLength.Statement .initializeCard := rfl

theorem FixedLength.getType : FixedLength.Statement .getType := rfl

theorem FixedLength.wakeUp : FixedLength.Statement .wakeUp := rfl

theorem FixedLength.readSector a : FixedLength.Statement (.readSector a) := rfl

theorem FixedLength.writeSector a : FixedLength.Statement (.writeSector a) := rfl

theorem FixedLength.readSectors a b c : FixedLength.Statement (.readSectors a b c) := rfl

theorem FixedLength.writeSectors a b c : FixedLength.Statement (.writeSectors a b c) := rfl

theorem FixedLength.getStatus : FixedLength.Statement .getStatus := rfl

end Sys2Proof.Laws
end

