-- ==== Sys2Proof/Tests/Slice0.lean ====
section
/-! SUPPORT. Tests and witnesses. Expected values are the spec's: words from spec/30_encoding.md and spec/opcode_table.json,
results and traces from spec/95_test_vectors.md (each test names its vector). The witnesses show, for every statement of
Certificates/Slice0/Obligations.lean that has hypotheses, values that meet all of them together, clause by clause. -/

namespace Sys2Proof.Tests

open Sys2Proof.Machine

/-! ## Well-formedness: an ill-formed term for each check -/

theorem test_illformed_cmd17_crc : WellFormed (.cmd17 0x200 0x3D) = false := by decide +kernel

theorem test_illformed_cmd24_crc : WellFormed (.cmd24 1 0) = false := by decide +kernel

theorem test_illformed_frame_crc : WellFormed (.frame 63 0xFFFFFFFF 0x0D) = false := by decide +kernel

theorem test_illformed_frame_own_row_cmd17 : WellFormed (.frame 17 0x200 0x3C) = false := by decide +kernel

theorem test_illformed_frame_own_row_cmd24 : WellFormed (.frame 24 1 0x3E) = false := by decide +kernel

theorem test_illformed_frame_own_row_cmd0 : WellFormed (.frame 0 0 0x4A) = false := by decide +kernel

theorem test_illformed_frame_own_row_cmd1 : WellFormed (.frame 1 0 0x7C) = false := by decide +kernel

theorem test_illformed_frame_own_row_cmd8 : WellFormed (.frame 8 0x1AA 0x43) = false := by decide +kernel

theorem test_illformed_frame_own_row_cmd13 : WellFormed (.frame 13 0 0x06) = false := by decide +kernel

theorem test_illformed_frame_own_row_cmd55 : WellFormed (.frame 55 0 0x32) = false := by decide +kernel

theorem test_illformed_frame_own_row_cmd58 : WellFormed (.frame 58 0 0x7E) = false := by decide +kernel

theorem test_illformed_frame_own_row_acmd41Hcs : WellFormed (.frame 41 0x40000000 0x3B) = false := by decide +kernel

theorem test_illformed_frame_own_row_acmd41 : WellFormed (.frame 41 0 0x72) = false := by decide +kernel

theorem test_illformed_r1_bit7 : WellFormed (.r1 0x80) = false := by decide +kernel

theorem test_illformed_notR1_bit7 : WellFormed (.notR1 0x7F) = false := by decide +kernel

theorem test_illformed_r2_bit7 : WellFormed (.r2 0x80 0) = false := by decide +kernel

theorem test_illformed_r2_bit2 : WellFormed (.r2 0x04 0) = false := by decide +kernel

theorem test_illformed_r3_bit2 : WellFormed (.r3 0x05 0) = false := by decide +kernel

theorem test_illformed_r7_bit7 : WellFormed (.r7 0xFF 0) = false := by decide +kernel

theorem test_illformed_r1Illegal_bit2 : WellFormed (.r1Illegal 0x01) = false := by decide +kernel

theorem test_illformed_r1Illegal_bit7 : WellFormed (.r1Illegal 0x84) = false := by decide +kernel

theorem test_illformed_dataBlock_sent_crc : WellFormed (.dataBlock .toCard (Vector.replicate 512 0) 0) = false :=
  by decide +kernel

theorem test_illformed_drespAccepted : WellFormed (.drespAccepted 0x15) = false := by decide +kernel

theorem test_illformed_drespCrcError : WellFormed (.drespCrcError 0x05) = false := by decide +kernel

theorem test_illformed_drespWriteError : WellFormed (.drespWriteError 0x0B) = false := by decide +kernel

theorem test_illformed_drespBadFormat : WellFormed (.drespBadFormat 0xE5) = false := by decide +kernel

/-! ## Decoding: every constructor from a word of the spec's encoding -/

theorem test_decode_cmd0 : decode .fCmd [0x40, 0x00, 0x00, 0x00, 0x00, 0x95] = .ok (.cmd0, []) := rfl

theorem test_decode_cmd1 : decode .fCmd [0x41, 0x00, 0x00, 0x00, 0x00, 0xF9] = .ok (.cmd1, []) := rfl

theorem test_decode_cmd8 : decode .fCmd [0x48, 0x00, 0x00, 0x01, 0xAA, 0x87] = .ok (.cmd8, []) := rfl

theorem test_decode_cmd13 : decode .fCmd [0x4D, 0x00, 0x00, 0x00, 0x00, 0x0D] = .ok (.cmd13, []) := rfl

theorem test_decode_cmd55 : decode .fCmd [0x77, 0x00, 0x00, 0x00, 0x00, 0x65] = .ok (.cmd55, []) := rfl

theorem test_decode_cmd58 : decode .fCmd [0x7A, 0x00, 0x00, 0x00, 0x00, 0xFD] = .ok (.cmd58, []) := rfl

theorem test_decode_acmd41Hcs : decode .fCmd [0x69, 0x40, 0x00, 0x00, 0x00, 0x77] = .ok (.acmd41Hcs, []) := rfl

theorem test_decode_acmd41 : decode .fCmd [0x69, 0x00, 0x00, 0x00, 0x00, 0xE5] = .ok (.acmd41, []) := rfl

theorem test_decode_cmd17 :
    decode .fCmd [0x51, 0x02, 0x00, 0x02, 0x00, 0x75] =
      .ok (.cmd17 0x02000200 0x3A, []) := rfl

theorem test_decode_cmd24 :
    decode .fCmd [0x58, 0x12, 0x34, 0x56, 0x78, 0x67] =
      .ok (.cmd24 0x12345678 0x33, []) := rfl

theorem test_decode_frame :
    decode .fCmd [0x7F, 0xFF, 0xFF, 0xFF, 0xFF, 0x19] =
      .ok (.frame 63 0xFFFFFFFF 0x0C, []) := rfl

theorem test_decode_r1 : decode .fR1 [0b01111011] = .ok (.r1 0x7B, []) := rfl

theorem test_decode_notR1 : decode .fR1 [0b10000000] = .ok (.notR1 0x80, []) := rfl

theorem test_decode_r2 : decode .fR2 [0b00000001, 0b00000000] = .ok (.r2 0x01 0x00, []) := rfl

theorem test_decode_r3 : decode .fR3 [0x00, 0xC0, 0xFF, 0x80, 0x00] = .ok (.r3 0x00 0xC0FF8000, []) := rfl

theorem test_decode_r7 : decode .fR7 [0x01, 0x00, 0x00, 0x01, 0xAA] = .ok (.r7 0x01 0x000001AA, []) := rfl

theorem test_decode_r1Illegal : decode .fR3 [0b00000100, 0xAA, 0xBB] = .ok (.r1Illegal 0x04, [0xAA, 0xBB]) := rfl

theorem test_decode_dataStart : decode (.fTok .toCard) [0b11111110] = .ok (.dataStart .toCard, []) := rfl

theorem test_decode_drespAccepted : decode .fDresp [0b11100101] = .ok (.drespAccepted 0xE5, []) := rfl

theorem test_decode_drespCrcError : decode .fDresp [0b00001011] = .ok (.drespCrcError 0x0B, []) := rfl

theorem test_decode_drespWriteError : decode .fDresp [0b11101101] = .ok (.drespWriteError 0xED, []) := rfl

theorem test_decode_drespBadFormat : decode .fDresp [0b00010101] = .ok (.drespBadFormat 0x15, []) := rfl

theorem test_decode_drespNoNibble : decode .fDresp [0b00000111] = .ok (.drespBadFormat 0x07, []) := rfl

theorem test_decode_busy : decode .fBusy [0b00000000] = .ok (.busy, []) := rfl

theorem test_decode_fill : decode .fFill [0b11111111] = .ok (.fill, []) := rfl

theorem test_decode_initializeCard : decode .fHost [0b000] = .ok (.initializeCard, []) := rfl

theorem test_decode_getType : decode .fHost [0b001] = .ok (.getType, []) := rfl

theorem test_decode_wakeUp : decode .fHost [0b010] = .ok (.wakeUp, []) := rfl

theorem test_decode_readSector :
    decode .fHost [0b011, 0x00, 0x01, 0x02, 0x03] =
      .ok (.readSector 0x00010203, []) := rfl

theorem test_decode_writeSector : decode .fHost [0b100, 0x00, 0x00, 0x00, 0x02] = .ok (.writeSector 2, []) := rfl

theorem test_decode_readSectors :
    decode .fHost [0b101, 0x00, 0x7F, 0xFF, 0xFF, 0x00, 0x00, 0x00, 0x02, 0x00, 0x00, 0x00, 0x09] =
      .ok (.readSectors 0x007FFFFF 2 9, []) := rfl

theorem test_decode_writeSectors :
    decode .fHost [0b110, 0x00, 0x00, 0x00, 0x05, 0x00, 0x00, 0x00, 0x03, 0x00, 0x00, 0x00, 0x00] =
      .ok (.writeSectors 5 3 0, []) := rfl

theorem test_decode_getStatus : decode .fHost [0b111] = .ok (.getStatus, []) := rfl

/-- Direction, two payload bytes, CRC bytes and what is left, of a data block that was read. -/
def blockOf : Decoded → Option (Dir × Byte × Byte × BitVec 16 × List Byte)
  | .ok (.dataBlock d p c, rest) => some (d, p[0], p[511], c, rest)
  | _ => none

theorem test_decode_dataBlock :
    blockOf (decode (.fBlk .fromCard) (0xFE :: 0x5A :: (List.replicate 510 0xFE ++ [0xA5, 0x12, 0x34, 0x77]))) =
      some (.fromCard, 0x5A, 0xA5, 0x1234, [0x77]) := by decide +kernel

/-! R71, R82, R85, R86, R88: bytes that are no instruction of their format. -/

theorem test_reject_start_marker : decode .fCmd [0x00, 0x00, 0x00, 0x00, 0x00, 0x95] = .error .badStartMarker := rfl

theorem test_reject_stop_bit : decode .fCmd [0x40, 0x00, 0x00, 0x00, 0x00, 0x94] = .error .badStopBit := rfl

theorem test_reject_short : decode .fR3 [0x00, 0xC0] = .error .tooShort := rfl

theorem test_reject_token : decode (.fTok .fromCard) [0xFD] = .error .notStartToken := rfl

theorem test_reject_busy : decode .fBusy [0x01] = .error .notBusyByte := rfl

theorem test_reject_fill : decode .fFill [0x00] = .error .notFiller := rfl

theorem test_reject_code : decode .fHost [0x08] = .error .badOperationCode := rfl

/-! ## CRC7 (95_test_vectors.md section 2.1) -/

theorem test_crc7_digits : crc7Run [0x31, 0x32, 0x33, 0x34, 0x35, 0x36, 0x37, 0x38, 0x39] = 0x75 := by decide +kernel

theorem test_crc7_ff : crc7Run [0xFF] = 0x79 := by decide +kernel

/-! ## One instruction at a time -/

/-- A state whose card returns these bytes next. -/
def withCard (bytes : List Byte) : State := { State.reset with card := replies bytes }

/-- The same in a session of a resolved type. -/
def session (t : CardType) (bytes : List Byte) : State :=
  { withCard bytes with ctype := t, fsm := .typeResolved, speed := .fast }

/-- The state an instruction leaves. -/
def after (i : Instr) (s : State) : Option State :=
  match exec i s with
  | .next t => some t
  | _ => none

/-- What an instruction returns, ERR, and the trace. -/
def shown (i : Instr) (s : State) : Option (Result × ErrKind × List Event) :=
  (after i s).map fun t => (t.result, t.err, t.trace)

/-- The events of one window. -/
def window (tx rx : List Byte) : List Event := .csAssert :: (exchanges tx rx ++ [.csDeassert])

/-- n bytes of value 0xFF. -/
def ff (n : Nat) : List Byte := List.replicate n 0xFF

/-- Vector T1. -/
theorem test_cmd0 : shown .cmd0 (withCard (ff 7 ++ [0x01, 0xFF])) =
    some (.r1 0x01, .none, window ([0x40, 0x00, 0x00, 0x00, 0x00, 0x95] ++ ff 3) (ff 7 ++ [0x01, 0xFF])) := by decide +kernel

/-- Program 6.2, the last CMD1 window. -/
theorem test_cmd1 : shown .cmd1 (withCard (ff 6 ++ [0x00, 0xFF])) =
    some (.r1 0x00, .none, window ([0x41, 0x00, 0x00, 0x00, 0x00, 0xF9] ++ ff 2) (ff 6 ++ [0x00, 0xFF])) := by decide +kernel

/-- Vector T5. -/
theorem test_cmd8_illegal : shown .cmd8 (withCard (ff 6 ++ [0x05, 0xFF])) =
    some (.failed .illegalCommand, .none, window ([0x48, 0x00, 0x00, 0x01, 0xAA, 0x87] ++ ff 2) (ff 6 ++ [0x05, 0xFF])) :=
  by decide +kernel

/-- Program 6.1, the CMD8 window. -/
theorem test_cmd8 : (shown .cmd8 (withCard (ff 6 ++ [0x01, 0x00, 0x00, 0x01, 0xAA, 0xFF]))).map Prod.fst = some (.reg 0x01 0x000001AA) :=
  by decide +kernel

/-- Program 6.6 (b). -/
theorem test_cmd13 : shown .cmd13 (withCard (ff 6 ++ [0x01, 0x00, 0xFF])) =
    some (.r2 0x0100, .none, window ([0x4D, 0x00, 0x00, 0x00, 0x00, 0x0D] ++ ff 3) (ff 6 ++ [0x01, 0x00, 0xFF])) :=
  by decide +kernel

/-- Program 6.2, the CMD55 window. -/
theorem test_cmd55 : shown .cmd55 (withCard (ff 6 ++ [0x05, 0xFF])) =
    some (.r1 0x05, .none, window ([0x77, 0x00, 0x00, 0x00, 0x00, 0x65] ++ ff 2) (ff 6 ++ [0x05, 0xFF])) := by decide +kernel

/-- Program 6.1, the CMD58 window. -/
theorem test_cmd58 : shown .cmd58 (withCard (ff 6 ++ [0x00, 0xC0, 0xFF, 0x80, 0x00, 0xFF])) =
    some (.reg 0x00 0xC0FF8000, .none,
      window ([0x7A, 0x00, 0x00, 0x00, 0x00, 0xFD] ++ ff 6) (ff 6 ++ [0x00, 0xC0, 0xFF, 0x80, 0x00, 0xFF])) :=
  by decide +kernel

/-- Vector T6. -/
theorem test_acmd41Hcs : shown .acmd41Hcs (withCard (ff 6 ++ [0x01, 0xFF] ++ ff 6 ++ [0x00, 0xFF])) =
    some (.r1 0x00, .none, window ([0x77, 0x00, 0x00, 0x00, 0x00, 0x65] ++ ff 2) (ff 6 ++ [0x01, 0xFF]) ++
      window ([0x69, 0x40, 0x00, 0x00, 0x00, 0x77] ++ ff 2) (ff 6 ++ [0x00, 0xFF])) := by decide +kernel

/-- Vector T6: 0x02 to CMD55. -/
theorem test_acmd41_rejected : shown .acmd41 (withCard (ff 6 ++ [0x02, 0xFF])) =
    some (.failed .appCmdRejected, .none, window ([0x77, 0x00, 0x00, 0x00, 0x00, 0x65] ++ ff 2) (ff 6 ++ [0x02, 0xFF])) :=
  by decide +kernel

/-- Vector T6: 0x00 to CMD55 lets the body go; program 6.4: the body gets 0x05. -/
theorem test_acmd41 : (shown .acmd41 (withCard (ff 6 ++ [0x00, 0xFF] ++ ff 6 ++ [0x05, 0xFF]))).map Prod.fst = some (.r1 0x05) :=
  by decide +kernel

/-- The payload i mod 256 (vector 5.1), and 255 - i mod 256 (vector 5.2). -/
def up : List Byte := (List.range 512).map fun i => BitVec.ofNat 8 i

def down : List Byte := (List.range 512).map fun i => BitVec.ofNat 8 (255 - i % 256)

/-- Vector 5.1: 526 exchanges between assert and deassert. -/
theorem test_cmd17 : (after (.cmd17 0x200 0x3C) (withCard (ff 6 ++ [0xFF, 0x00, 0xFF, 0xFF, 0xFE] ++ up ++ [0x12, 0x34, 0xFF]))).map
    (fun t => (t.result, t.dp.buf.toList, t.dp.crc16, t.dp.r1, t.cs, t.log.length)) =
      some (.done, up, 0x1234, 0x00, false, 528) := by decide +kernel

/-- Vector B2. -/
theorem test_cmd17_idle : shown (.cmd17 0 0x2A) (withCard (ff 6 ++ [0x01, 0xFF])) =
    some (.failed .statusNotZero, .none, window ([0x51, 0x00, 0x00, 0x00, 0x00, 0x55] ++ ff 2) (ff 6 ++ [0x01, 0xFF])) :=
  by decide +kernel

/-- Vector 5.2: 529 exchanges; the R1, payload byte 1, the first byte of the CRC slot. -/
theorem test_cmd24 : (after (.cmd24 1 0x3E) { withCard (ff 7 ++ [0x00] ++ ff 516 ++ [0xE5, 0x00, 0x00, 0xFF, 0xFF]) with
      dp := { Datapath.reset with buf := Memory.readBlock (Memory.writeBytes [] 0 down) 0 } }).map
    (fun t => (t.result, t.dp.dresp, t.log.length, [t.trace[8]?, t.trace[12]?, t.trace[523]?])) = some (.done, 0xE5, 531,
      [some (.xchg 0xFF (.ok 0x00)), some (.xchg 0xFE (.ok 0xFF)), some (.xchg 0xFF (.ok 0xFF))]) := by decide +kernel

/-- Vector W1: 541 exchanges. -/
theorem test_cmd24_busy_timeout : (after (.cmd24 0 0x37) (withCard (ff 6 ++ [0x00] ++ ff 516 ++ [0x05] ++ List.replicate 16 0x00 ++ [0xFF]))).map
    (fun t => (t.result, t.log.length)) = some (.failed .timeout, 543) := by decide +kernel

/-- 95_test_vectors.md section 2.2, the last row. -/
theorem test_frame : (after (.frame 63 0xFFFFFFFF 0x0C) State.reset).map (fun t => (t.dp.frame.toList, t.dp.crc7)) =
    some ([0x7F, 0xFF, 0xFF, 0xFF, 0xFF, 0x19], 0x0C) := by decide +kernel

/-- Vector V3. -/
theorem test_r1 : (after (.r1 0x7F) State.reset).map (fun t => (t.result, t.dp.r1)) = some (.r1 0x7F, 0x7F) :=
  by decide +kernel

/-- Vector V8, the first byte. -/
theorem test_notR1 : (after (.notR1 0xC1) State.reset).map (fun t => (t.result, t.dp.r1)) = some (.polling, 0x00) :=
  by decide +kernel

/-- Vector V19. -/
theorem test_r2 : (after (.r2 0x00 0xFF) State.reset).map (fun t => (t.result, t.log.length)) = some (.r2 0x00FF, 2) :=
  by decide +kernel

/-- Vector V13. -/
theorem test_r3 : (after (.r3 0x01 0xFFFFFFFF) State.reset).map (fun t => (t.result, t.log.length)) = some (.reg 0x01 0xFFFFFFFF, 5) :=
  by decide +kernel

/-- Vector V16. -/
theorem test_r7 : (after (.r7 0x01 0x000001AB) State.reset).map (fun t => (t.result, t.dp.reg32)) = some (.reg 0x01 0x1AB, 0x1AB) :=
  by decide +kernel

/-- Vector V11. -/
theorem test_r1Illegal : (after (.r1Illegal 0x04) State.reset).map (fun t => (t.result, t.dp.reg32, t.log.length)) =
    some (.failed .illegalCommand, 0, 1) := by decide +kernel

/-- R148. -/
theorem test_dataStart_received : shown (.dataStart .fromCard) State.reset = some (.done, .none, [.xchg 0xFF (.ok 0xFE)]) :=
  by decide +kernel

/-- R154. -/
theorem test_dataStart_sent : shown (.dataStart .toCard) (withCard [0x77]) = some (.done, .none, [.xchg 0xFE (.ok 0x77)]) :=
  by decide +kernel

/-- Vector B7: no byte is special after the token. -/
theorem test_dataBlock_received : (after (.dataBlock .fromCard (Vector.replicate 512 0xFE) 0xFEFE) State.reset).map
    (fun t => (t.result, t.dp.buf.toList, t.log.length)) = some (.done, List.replicate 512 0xFE, 515) := by decide +kernel

/-- R154, R155. -/
theorem test_dataBlock_sent : (after (.dataBlock .toCard (Vector.replicate 512 0x5A) 0xFFFF) (withCard (ff 515))).map State.trace =
    some (exchanges (0xFE :: List.replicate 512 0x5A ++ [0xFF, 0xFF]) (ff 515)) := by decide +kernel

/-- 95_test_vectors.md section 5.4, DRESP E5. -/
theorem test_drespAccepted : (after (.drespAccepted 0xE5) State.reset).map (fun t => (t.result, t.dp.dresp)) = some (.done, 0xE5) :=
  by decide +kernel

/-- 95_test_vectors.md section 5.4, DRESP EB. -/
theorem test_drespCrcError : (after (.drespCrcError 0xEB) State.reset).map (fun t => (t.result, t.dp.dresp)) = some (.failed .dataCrcError, 0xEB) :=
  by decide +kernel

/-- 95_test_vectors.md section 5.4, DRESP 0D. -/
theorem test_drespWriteError : (after (.drespWriteError 0x0D) State.reset).map (fun t => (t.result, t.dp.dresp)) = some (.failed .dataWriteError, 0x0D) :=
  by decide +kernel

/-- 95_test_vectors.md section 5.4, DRESP 1B: bit 4 is tested first. -/
theorem test_drespBadFormat : (after (.drespBadFormat 0x1B) State.reset).map (fun t => (t.result, t.dp.dresp)) =
    some (.failed .answerFormat, 0x1B) := by decide +kernel

/-- 95_test_vectors.md section 5.4, DRESP 00. -/
theorem test_drespBadFormat_nibble : (after (.drespBadFormat 0x00) State.reset).map State.result = some (.failed .answerFormat) :=
  by decide +kernel

/-- R158. -/
theorem test_busy : (after .busy State.reset).map (fun t => (t.result, t.dp.poll)) = some (.polling, 1) := by decide +kernel

/-- Vector W1: the sixteenth poll. -/
theorem test_busy_last : (after .busy { State.reset with dp := { Datapath.reset with poll := 15 } }).map State.result = some (.failed .timeout) :=
  by decide +kernel

/-- R106. -/
theorem test_fill : shown .fill (withCard [0x12]) = some (.done, .none, [.xchg 0xFF (.ok 0x12)]) := by decide +kernel

/-! ## Host operations -/

/-- Program 6.1, INITIALIZE: 59 exchanges, 5 pairs, 2 speed requests, the lock pair. -/
theorem test_initialize_sdhc : (after .initializeCard (withCard (ff 17 ++ [0x01, 0xFF] ++ ff 6 ++ [0x01, 0x00, 0x00, 0x01, 0xAA, 0xFF] ++
      ff 6 ++ [0x01, 0xFF] ++ ff 6 ++ [0x00, 0xFF] ++ ff 6 ++ [0x00, 0xC0, 0xFF, 0x80, 0x00, 0xFF]))).map
    (fun t => (t.result, t.fsmTrail, t.speed, t.err, t.log.length)) = some (.cardType .sdV2Block,
      [.unidentified, .spiReset, .idleConfirmed, .voltageCheckedV2, .typeResolved], .fast, .none, 73) := by decide +kernel

/-- Program 6.2, INITIALIZE: 50 exchanges, 5 pairs, 1 delay, 2 speed requests, the lock pair. -/
theorem test_initialize_mmc : (after .initializeCard (withCard (ff 16 ++ [0x01, 0xFF] ++ ff 6 ++ [0x05, 0xFF] ++ ff 6 ++ [0x05, 0xFF] ++
      ff 6 ++ [0x01, 0xFF] ++ ff 6 ++ [0x00, 0xFF]))).map
    (fun t => (t.result, t.fsmTrail, t.err, t.log.count (.delayMs 1), t.log.length)) = some (.cardType .mmcV3,
      [.unidentified, .spiReset, .idleConfirmed, .voltageCheckedLegacy, .legacyMmc, .typeResolved], .none, 1, 65) :=
  by decide +kernel

/-- Program 6.1, GET_TYPE. -/
theorem test_getType : (after .getType (session .sdV2Block [])).map (fun t => (t.result, t.trace)) = some (.cardType .sdV2Block, []) :=
  by decide +kernel

/-- Program 6.7 (c): 17 exchanges, 2 pairs, 1 delay, the lock pair. -/
theorem test_wakeUp : (after .wakeUp (session .sdV1 (ff 6 ++ [0x01, 0xFF] ++ ff 7 ++ [0x00, 0xFF]))).map
    (fun t => (t.result, t.err, t.log.count (.delayMs 1), t.log.length)) = some (.wake .ready, .none, 1, 24) :=
  by decide +kernel

/-- Program 6.7 (d). -/
theorem test_wakeUp_transport : shown .wakeUp { session .sdV2Block [] with card := [.ok 0xFF, .fail] } = some (.wake .error, .ioError,
    [.lockAcquire, .csAssert, .xchg 0x77 (.ok 0xFF), .xchg 0x00 .fail, .csDeassert, .lockRelease]) := by decide +kernel

/-- Program 6.1, READ_SECTOR: 525 exchanges; the last frame byte. -/
theorem test_readSector : (after (.readSector 1) { session .sdV2Block (ff 7 ++ [0x00, 0xFF, 0xFE] ++ up ++ [0xAB, 0xCD, 0xFF]) with
      buffer := [(0, 0xEE), (600, 0xEE)] }).map (fun t => (t.result, t.err, t.log.length, t.trace[7]?,
        [t.buffer.read 0, t.buffer.read 1, t.buffer.read 300, t.buffer.read 511, t.buffer.read 600])) =
    some (.io .ok, .none, 529, some (.xchg 0x47 (.ok 0xFF)), [0, 1, 44, 255, 0xEE]) := by decide +kernel

/-- Program 6.7 (a). -/
theorem test_readSector_refused : shown (.readSector 0) State.reset = some (.io .notRdy, .notReady, [.lockAcquire, .lockRelease]) :=
  by decide +kernel

/-- Program 6.2, WRITE_SECTOR: 527 exchanges; frame byte 3, payload byte 1. -/
theorem test_writeSector : (after (.writeSector 2) { session .mmcV3 (ff 6 ++ [0x00] ++ ff 516 ++ [0xE5, 0x00, 0xFF, 0xFF]) with
      buffer := [(0, 0xFF), (1, 0xFE)] }).map (fun t => (t.result, t.err, t.log.length, t.trace[5]?, t.trace[12]?)) =
    some (.io .ok, .none, 531, some (.xchg 0x04 (.ok 0xFF)), some (.xchg 0xFE (.ok 0xFF))) := by decide +kernel

/-- Program 6.5: 526 exchanges, one window, the lock pair. -/
theorem test_writeSector_crc_error : (after (.writeSector 3) (session .sdV2Byte (ff 7 ++ [0x00] ++ ff 516 ++ [0x0B, 0xFF]))).map
    (fun t => (t.result, t.err, t.ctype, t.log.length)) = some (.io .error, .dataCrcError, .sdV2Byte, 530) :=
  by decide +kernel

/-- Program 6.7 (f): 523 exchanges. -/
theorem test_readSectors_overflow : (after (.readSectors 0x007FFFFF 2 0) { session .sdV1 (ff 6 ++ [0x00, 0xFE] ++ up ++ [0x00, 0x00, 0xFF]) with
      buffer := [(7, 0xEE), (519, 0xEE)] }).map (fun t => (t.result, t.err, t.buffer.read 7, t.buffer.read 519, t.log.length)) =
    some (.io .error, .addressOverflow, 7, 0xEE, 527) := by decide +kernel

/-- Program 6.7 (g): 540 exchanges, 2 pairs, the lock pair. -/
theorem test_readSectors_silent : (after (.readSectors 0x00010000 2 0)
      (session .sdV2Byte (ff 6 ++ [0x00, 0xFE] ++ up ++ [0x00, 0x00, 0xFF] ++ ff 17))).map
    (fun t => (t.result, t.err, t.buffer.read 9, t.log.length)) = some (.io .error, .timeout, 9, 546) := by decide +kernel

/-- R208; program 6.7 (b) for the read. -/
theorem test_writeSectors_zero : shown (.writeSectors 5 0 7) (session .sdV1 []) = some (.io .ok, .none, [.lockAcquire, .lockRelease]) :=
  by decide +kernel

/-- R161: two windows of 526 exchanges; payload byte 0 of each sector. -/
theorem test_writeSectors : (after (.writeSectors 1 2 0) { session .sdV2Block (ff 6 ++ [0x00] ++ ff 516 ++ [0x05, 0xFF, 0xFF] ++
      ff 6 ++ [0x00] ++ ff 516 ++ [0x05, 0xFF, 0xFF]) with buffer := [(0, 0x11), (512, 0x22)] }).map
    (fun t => (t.result, t.log.length, t.trace[11]?, t.trace[539]?)) =
    some (.io .ok, 1058, some (.xchg 0x11 (.ok 0xFF)), some (.xchg 0x22 (.ok 0xFF))) := by decide +kernel

/-- Program 6.6 (c): 84 exchanges, 7 pairs, 2 speed requests, one lock pair. -/
theorem test_getStatus_reinit : (after .getStatus (session .sdV2Block (ff 17 ++ ff 16 ++ [0x01, 0xFF] ++ ff 6 ++ [0x01, 0x00, 0x00, 0x01, 0xAA, 0xFF] ++
      ff 6 ++ [0x01, 0xFF] ++ ff 6 ++ [0x00, 0xFF] ++ ff 6 ++ [0x00, 0x80, 0xFF, 0x80, 0x00, 0xFF] ++
      ff 6 ++ [0x00, 0x00, 0xFF]))).map (fun t => (t.result, t.ctype, t.speed, t.err, t.log.length)) =
    some (.status .ready, .sdV2Byte, .fast, .none, 102) := by decide +kernel

/-- Program 6.6 (f): 35 exchanges, 2 pairs, 1 speed request, the lock pair. -/
theorem test_getStatus_illegal : (after .getStatus (session .sdV1 (ff 6 ++ [0x04, 0xFF] ++ ff 27))).map
    (fun t => (t.result, t.ctype, t.fsm, t.speed, t.err, t.log.length)) =
    some (.status .noMedium, .unknown, .failed, .slow, .timeout, 42) := by decide +kernel

/-- Vector W5: an unbounded write-busy poll; each further step is one more poll. -/
theorem test_unbounded_busy :
    (after (.writeSector 0) { session .sdV2Block (ff 6 ++ [0x00] ++ ff 516 ++ [0x05, 0x00, 0x00]) with
      cfg := { Config.vectors with nBusy := none } }).map
      (fun t => (t.result, t.lock, t.cs, t.hold, t.card)) = some (.pending, true, true, some .run, [.ok 0x00]) := by
  decide +kernel

/-- R43, U20: while the lock is not granted the block has no step. -/
theorem test_lock_held : exec .wakeUp { State.reset with grant := false } = .fault .lockHeld := rfl

/-- The word of GET_TYPE at the port runs as the first instruction after reset. -/
theorem test_step_fetches : step (State.reset.withFetchWord 8 0x01) = exec .getType State.reset := rfl

/-- CMD0's frame on the bench runs as the first instruction after reset. -/
theorem test_step_bench : step (State.reset.withFetchWord 48 0x400000000095) = exec .cmd0 State.reset := rfl

/-- R3, R200: CMD0's frame at the host port is no request. -/
theorem test_port_takes_host_operations : step { State.reset with port := [[0x40, 0x00, 0x00, 0x00, 0x00, 0x95]] } =
    .refused (.badRequest .badOperationCode) := rfl

/-! ## Witnesses: values that meet the hypotheses of each statement -/

def answer (wait : List Byte) (r1 : Byte) (more : List Byte) : Answer :=
  { during := Vector.replicate 6 0xFF, wait := wait, r1 := r1, more := more, filler := 0xFF }

def silence (n : Nat) : Silence := { during := Vector.replicate 6 0xFF, wait := ff n, filler := 0xFF }

def served (wait gap : List Byte) : ReadAnswer :=
  { during := Vector.replicate 6 0xFF, wait := wait, gap := gap, payload := Vector.replicate 512 0x5A, crcHi := 0xAB,
    crcLo := 0xCD, filler := 0xFF }

def taken (wait : List Byte) (dresp : Byte) (busy : List Byte) : WriteAnswer :=
  { during := Vector.replicate 6 0xFF, wait := wait, filler1 := 0xFF, token := 0xFF, payload := Vector.replicate 512 0xFF,
    crcHi := 0xFF, crcLo := 0xFF, dresp := dresp, busy := busy, filler2 := 0xFF }

/-- A state with these outcomes next, in a block whose loops have these budgets. -/
def withBudgets (s : State) (v2 legacy mmc : Nat) (busy : Option Nat) : State :=
  { s with cfg := { s.cfg with nInitV2 := v2, nInitLegacy := legacy, nInitMmc := mmc, nBusy := busy } }

theorem witness_DecodeOfEncodeIsIdentity :
    [Instr.cmd17 0xFFFFFFFF 0x3F, .frame 63 0xFFFFFFFF 0x0C, .r2 0x7B 0xFF, .drespBadFormat 0x00,
    .dataBlock .toCard (Vector.replicate 512 0xFE) 0xFFFF, .writeSectors 1 2 3].all WellFormed = true :=
  by decide +kernel

theorem witness_EncodeOfDecodeIsIdentity : decode .fR2 [0x01, 0x00, 0x77] = .ok (.r2 0x01 0x00, [0x77]) := rfl

theorem witness_WaitR1Contract_accepts :
    (ff 9).all (fun b => !r1Valid b) = true ∧ (0x7F : Byte).getLsbD 7 = false ∧
    (ff 9).length < State.reset.cfg.nR1 ∧ (withCard (ff 9 ++ [0x7F])).card = replies (ff 9 ++ [0x7F]) ++ [] :=
  by decide +kernel

theorem witness_WaitR1Contract_timeout : (ff 10).all (fun b => !r1Valid b) = true ∧ (ff 10).length = State.reset.cfg.nR1 ∧
    (withCard (ff 10 ++ [0x00])).card = replies (ff 10) ++ [.ok 0x00] := by decide +kernel

theorem witness_WaitR1Contract_fails :
    (ff 9).all (fun b => !r1Valid b) = true ∧ (ff 9).length < State.reset.cfg.nR1 ∧
    ({ State.reset with card := replies (ff 9) ++ .fail :: [] } : State).card = replies (ff 9) ++ .fail :: [] :=
  by decide +kernel

theorem witness_R1RowsPollOnce : (0x7F : Byte).getLsbD 7 = false ∧ (0x80 : Byte).getLsbD 7 = true := by decide +kernel

theorem witness_LongResponseRowsRead :
    1 ≤ State.reset.cfg.nR1 ∧ (0x7B : Byte).getLsbD 7 = false ∧ (0x7B : Byte).getLsbD 2 = false :=
  by decide +kernel

theorem witness_IllegalCommandCutsResponse : (0x7F : Byte).getLsbD 7 = false ∧ (0x7F : Byte).getLsbD 2 = true ∧
    (ff 9).all (fun b => !r1Valid b) = true ∧ (ff 9).length < State.reset.cfg.nR1 ∧ 1 ≤ State.reset.cfg.nR1 ∧
    (withCard (ff 9 ++ [0x7F, 0xAA])).card = replies (ff 9 ++ [0x7F]) ++ [.ok 0xAA] := by decide +kernel

theorem witness_PlainCommandsReturnR1 :
    (answer (ff 9) 0x7F []).ok State.reset.cfg = true ∧ (answer (ff 9) 0x7F []).more = [] ∧
    (withCard (answer (ff 9) 0x7F []).bytes).card = replies (answer (ff 9) 0x7F []).bytes ++ [] :=
  by decide +kernel

theorem witness_LongCommandsReturnRegister_word :
    (answer (ff 9) 0x7B (wordBytes 0x1AA)).ok State.reset.cfg = true ∧ (0x7B : Byte).getLsbD 2 = false ∧
    (answer (ff 9) 0x7B (wordBytes 0x1AA)).more = wordBytes 0x1AA ∧
    (withCard (answer (ff 9) 0x7B (wordBytes 0x1AA)).bytes).card = replies (answer (ff 9) 0x7B (wordBytes 0x1AA)).bytes ++ [] :=
  by decide +kernel

theorem witness_LongCommandsReturnRegister_byte :
    (answer [] 0x01 [0x00]).ok State.reset.cfg = true ∧ (0x01 : Byte).getLsbD 2 = false ∧
    (answer [] 0x01 [0x00]).more = [0x00] ∧
    (withCard (answer [] 0x01 [0x00]).bytes).card = replies (answer [] 0x01 [0x00]).bytes ++ [] :=
  by decide +kernel

theorem witness_Acmd41SendsAppCommandThenBody :
    ∀ r ∈ [(0x00 : Byte), 0x01], (answer [] r []).ok State.reset.cfg = true ∧ (answer [] r []).more = [] ∧
    ((answer [] r []).r1 = 0x00 ∨ (answer [] r []).r1 = 0x01) ∧ (answer (ff 9) 0x05 []).ok State.reset.cfg = true ∧
    (answer (ff 9) 0x05 []).more = [] ∧ (withCard ((answer [] r []).bytes ++ (answer (ff 9) 0x05 []).bytes)).card =
      replies ((answer [] r []).bytes ++ (answer (ff 9) 0x05 []).bytes) ++ [] :=
  by decide +kernel

theorem witness_Acmd41BodyNotSentWhenRejected :
    (answer [] 0x02 []).ok State.reset.cfg = true ∧ (answer [] 0x02 []).more = [] ∧
    (answer [] 0x02 []).r1 ≠ 0x00 ∧ (answer [] 0x02 []).r1 ≠ 0x01 ∧
    (withCard (answer [] 0x02 []).bytes).card = replies (answer [] 0x02 []).bytes ++ [] :=
  by decide +kernel

theorem witness_LongCommandsFailIllegal :
    (answer (ff 9) 0x04 []).ok State.reset.cfg = true ∧ (answer (ff 9) 0x04 []).more = [] ∧
    (answer (ff 9) 0x04 []).r1.getLsbD 2 = true ∧
    (withCard (answer (ff 9) 0x04 []).bytes).card = replies (answer (ff 9) 0x04 []).bytes ++ [] :=
  by decide +kernel

theorem witness_CommandsTimeOutWithoutR1 : (silence 10).ok State.reset.cfg = true ∧
    (withCard (silence 10).bytes).card = replies (silence 10).bytes ++ [] := by decide +kernel

theorem witness_FrameStopsAtTransportFailure :
    ∀ n ∈ [0, 5], (ff n).length < 6 ∧
    ({ State.reset with card := replies (ff n) ++ .fail :: [] } : State).card = replies (ff n) ++ .fail :: [] :=
  by decide +kernel

theorem witness_Cmd17ReadsBlock : (served (ff 9) (ff 31)).ok State.reset.cfg = true ∧
    (withCard (served (ff 9) (ff 31)).bytes).card = replies (served (ff 9) (ff 31)).bytes ++ [] := by decide +kernel

theorem witness_Cmd24WritesBlock : (taken (ff 9) 0xE5 (List.replicate 15 0x00 ++ [0x01])).taken State.reset.cfg = true ∧
    (taken [] 0x05 [0xFF]).taken (withBudgets State.reset 1 1 1 none).cfg = true ∧
    (withCard (taken [] 0x05 [0xFF]).bytes).card = replies (taken [] 0x05 [0xFF]).bytes ++ [] := by decide +kernel

theorem witness_BlockCommandsNeedZeroR1 :
    ∀ r ∈ [(0x01 : Byte), 0x04], (answer (ff 9) r []).ok State.reset.cfg = true ∧ (answer (ff 9) r []).more = [] ∧
    (answer (ff 9) r []).r1 ≠ 0x00 ∧ (withCard (answer (ff 9) r []).bytes).card = replies (answer (ff 9) r []).bytes ++ [] :=
  by decide +kernel

theorem witness_WaitTokenContract_accepts :
    (ff 31).all (fun b => b != 0xFE) = true ∧ (ff 31).length < State.reset.cfg.nToken ∧
    (withCard (ff 31 ++ [0xFE])).card = replies (ff 31 ++ [0xFE]) ++ [] :=
  by decide +kernel

theorem witness_WaitTokenContract_timeout : (List.replicate 32 0xFD).all (fun b : Byte => b != 0xFE) = true ∧
    (List.replicate 32 (0xFD : Byte)).length = State.reset.cfg.nToken ∧
    (withCard (List.replicate 32 0xFD)).card = replies (List.replicate 32 0xFD) ++ [] := by decide +kernel

theorem witness_WaitTokenContract_fails :
    ([] : List Byte).all (fun b => b != 0xFE) = true ∧ ([] : List Byte).length < State.reset.cfg.nToken ∧
    ({ State.reset with card := replies [] ++ .fail :: [] } : State).card = replies [] ++ .fail :: [] :=
  by decide +kernel

theorem witness_DataResponseRowsDecode :
    (0xE5 : Byte).toNat / 16 % 2 = 0 ∧ (0xE5 : Byte).toNat % 16 = 0b0101 ∧
    (0x0B : Byte).toNat / 16 % 2 = 0 ∧ (0x0B : Byte).toNat % 16 = 0b1011 ∧
    (0xED : Byte).toNat / 16 % 2 = 0 ∧ (0xED : Byte).toNat % 16 = 0b1101 ∧ (0x15 : Byte).toNat / 16 % 2 = 1 ∧
    (0x07 : Byte).toNat % 16 ≠ 0b0101 ∧ (0x07 : Byte).toNat % 16 ≠ 0b1011 ∧ (0x07 : Byte).toNat % 16 ≠ 0b1101 :=
  by decide +kernel

theorem witness_Cmd24RejectedSkipsBusyPoll :
    ∀ c ∈ [((0x0B : Byte), DataResponse.crcError), (0xED, .writeError), (0x15, .badFormat), (0x00, .badFormat)],
    (taken (ff 9) c.1 []).ok State.reset.cfg = true ∧ (taken (ff 9) c.1 []).busy = [] ∧
    classifyDresp (taken (ff 9) c.1 []).dresp = c.2 ∧
    (withCard (taken (ff 9) c.1 []).bytes).card = replies (taken (ff 9) c.1 []).bytes ++ [] :=
  by decide +kernel

theorem witness_Cmd24BusyPollTimesOut :
    State.reset.cfg.nBusy = some 16 ∧ (taken (ff 9) 0x05 (List.replicate 16 0x00)).ok State.reset.cfg = true ∧
    classifyDresp (taken (ff 9) 0x05 (List.replicate 16 0x00)).dresp = .accepted ∧
    (withCard (taken (ff 9) 0x05 (List.replicate 16 0x00)).bytes).card =
      replies (taken (ff 9) 0x05 (List.replicate 16 0x00)).bytes ++ [] :=
  by decide +kernel

theorem witness_DataRowsMoveBlocks :
    (withCard [0x12]).card = .ok 0x12 :: [] ∧ 1 ≤ State.reset.cfg.nToken ∧ (ff 515).length = 515 ∧
    (withCard (ff 515)).card = replies (ff 515) ++ [] :=
  by decide +kernel

theorem witness_BusyAndFillRows : (withCard [0x12]).card = .ok 0x12 :: [] := by decide +kernel

theorem witness_UnboundedBusyPollHangs_begins :
    (withBudgets (session .sdV1 (taken (ff 9) 0x05 [0x00]).bytesToBusy) 1 1 1 none).cfg.nBusy = none ∧
    (session .sdV1 []).lockFree = true ∧ (session .sdV1 []).ctype ≠ .unknown ∧ (0x007FFFFF : Word).toNat < sectorLimit .sdV1 ∧
    (taken (ff 9) 0x05 [0x00]).ok State.reset.cfg = true ∧ classifyDresp (taken (ff 9) 0x05 [0x00]).dresp = .accepted ∧
    (taken (ff 9) 0x05 [0x00]).busy = [0x00] ∧ (session .sdV1 (taken (ff 9) 0x05 [0x00]).bytesToBusy).card =
      replies (taken (ff 9) 0x05 [0x00]).bytesToBusy ++ [] :=
  by decide +kernel

theorem witness_UnboundedBusyPollHangs_goes_on :
    ∀ h ∈ [Hold.block, .run], ∀ k ∈ [0, 3],
    ({ withBudgets (withCard (List.replicate k 0x00)) 1 1 1 none with hold := some h, result := .pending } : State).hold = some h ∧
    (withBudgets (withCard (List.replicate k 0x00)) 1 1 1 none).cfg.nBusy = none ∧
    (withCard (List.replicate k 0x00)).card = replies (List.replicate k 0x00) ++ [] :=
  by decide +kernel

/-- A write that is held, in a block with N_BUSY unbounded, at this sector, with so many sectors left. -/
def heldAt (h : Hold) (t : CardType) (sect remain : Word) (card : List Reply) : State :=
  { withBudgets (session t []) 1 1 1 none with
    card := card, hold := some h, lock := true, cs := true, result := .pending
    dp := { Datapath.reset with sect := sect, remain := remain } }

theorem witness_HeldWriteEndsWhenReady (h : Hold) (more : List Reply) :
    (heldAt h .mmcV3 0 1 (.ok 0x01 :: .ok 0xFF :: more)).cfg.nBusy = none ∧ (0x01 : Byte) ≠ 0x00 ∧
    (heldAt h .mmcV3 0 1 (.ok 0x01 :: .ok 0xFF :: more)).card = .ok 0x01 :: .ok 0xFF :: more ∧
    (heldAt h .mmcV3 0 1 (.ok 0x01 :: .ok 0xFF :: more)).hold = some h ∧
    (heldAt h .mmcV3 0 1 (.ok 0x01 :: .ok 0xFF :: more)).dp.remain = 1 := ⟨rfl, by decide, rfl, rfl, rfl⟩

/-- The sectors after it, at the last sectors with an address. -/
theorem witness_HeldWriteEndsWhenReady_later :
    (∀ a ∈ [taken (ff 9) 0xE5 [0x01]], a.taken (heldAt .run .mmcV3 0x007FFFFE 2 []).cfg = true) ∧
    (heldAt .run .mmcV3 0x007FFFFE 2 []).dp.remain.toNat = [taken (ff 9) 0xE5 [0x01]].length + 1 ∧
    (heldAt .run .mmcV3 0x007FFFFE 2 []).dp.sect.toNat + [taken (ff 9) 0xE5 [0x01]].length < sectorLimit .mmcV3 ∧
    [taken (ff 9) 0xE5 [0x01]].length + 1 < (heldAt .run .sdV2Block 0xFFFFFFFD 3 []).dp.remain.toNat ∧
    (heldAt .run .sdV2Block 0xFFFFFFFD 3 []).dp.sect.toNat + ([taken (ff 9) 0xE5 [0x01]].length + 1) <
      sectorLimit .sdV2Block ∧
    (taken (ff 9) 0xE5 [0x00]).ok (heldAt .run .sdV2Block 0xFFFFFFFD 3 []).cfg = true ∧
    classifyDresp (taken (ff 9) 0xE5 [0x00]).dresp = .accepted ∧ (taken (ff 9) 0xE5 [0x00]).busy = [0x00] ∧
    (WriteCut.silent (silence 10)).ok (heldAt .run .sdV2Block 0xFFFFFFFD 3 []).cfg = true ∧
    (WriteCut.lost (taken [] 0x05 [0xFF]) 525).ok (heldAt .run .sdV2Block 0xFFFFFFFD 3 []).cfg = true :=
  by decide +kernel

/-- And where the addresses end, after no further sector and after one. -/
theorem witness_HeldWriteEndsWhenReady_overflow :
    ([] : List WriteAnswer).length + 1 < (heldAt .run .sdV2Block 0xFFFFFFFF 2 []).dp.remain.toNat ∧
    (heldAt .run .sdV2Block 0xFFFFFFFF 2 []).dp.sect.toNat + (([] : List WriteAnswer).length + 1) = sectorLimit .sdV2Block ∧
    [taken [] 0x05 [0xFF]].length + 1 < (heldAt .run .sdV1 0x007FFFFE 3 []).dp.remain.toNat ∧
    (heldAt .run .sdV1 0x007FFFFE 3 []).dp.sect.toNat + ([taken [] 0x05 [0xFF]].length + 1) = sectorLimit .sdV1 :=
  by decide +kernel

/-- The cards of the clauses; a card that fails the poll, and one that fails the final filler. -/
theorem witness_HeldWriteEndsWhenReady_cards (answers : List WriteAnswer) (a : WriteAnswer) (x : WriteCut) (h : Hold) :
    (∃ more, more = replies (answers.flatMap WriteAnswer.bytes) ++ []) ∧
    (∃ more, more = replies (answers.flatMap WriteAnswer.bytes) ++ (replies a.bytesToBusy ++ [])) ∧
    (∃ more, more = replies (answers.flatMap WriteAnswer.bytes) ++ (x.outcomes ++ [])) ∧
    (heldAt h .sdV1 0 2 (.fail :: [])).card = .fail :: [] ∧
    (heldAt h .sdV1 0 2 (.ok 0x01 :: .fail :: [])).card = .ok 0x01 :: .fail :: [] :=
  ⟨⟨_, rfl⟩, ⟨_, rfl⟩, ⟨_, rfl⟩, rfl, rfl⟩

theorem witness_ReadIgnoresCrcBytes : (session .sdV1 []).lockFree = true ∧ (session .sdV1 []).ctype ≠ .unknown ∧
    (0x007FFFFF : Word).toNat < sectorLimit (session .sdV1 []).ctype ∧
    (served (ff 9) (ff 31)).ok (session .sdV1 []).cfg = true := by decide +kernel

theorem witness_ArgAddressRule :
    CardType.mmcV3 ≠ .sdV2Block ∧ (0x007FFFFF : Word).toNat < 0x00800000 ∧ 0x00800000 ≤ (0x00800000 : Word).toNat :=
  by decide +kernel

theorem witness_TypeCheckRefuses : State.reset.lockFree = true ∧ State.reset.ctype = .unknown := by decide +kernel

theorem witness_NoStepWithoutLock :
    ({ State.reset with grant := false } : State).grant = false ∧ ({ State.reset with lock := true } : State).lock = true ∧
    Instr.getStatus.format = .fHost ∧ Instr.getStatus ≠ .getType :=
  by decide +kernel

theorem witness_ReadRunStoresSectors :
    (session .sdV1 []).lockFree = true ∧ (session .sdV1 []).ctype ≠ .unknown ∧ [served [] [], served (ff 9) (ff 31)] ≠ [] ∧
    (0x007FFFFE : Word).toNat + [served [] [], served (ff 9) (ff 31)].length ≤ sectorLimit .sdV1 ∧
    (∀ a ∈ [served [] [], served (ff 9) (ff 31)], a.ok (session .sdV1 []).cfg = true) ∧
    (session .sdV1 ([served [] [], served (ff 9) (ff 31)].flatMap ReadAnswer.bytes)).card =
      replies ([served [] [], served (ff 9) (ff 31)].flatMap ReadAnswer.bytes) ++ [] :=
  by decide +kernel

theorem witness_WriteRunSendsSectors :
    (session .sdV2Block []).lockFree = true ∧ (session .sdV2Block []).ctype ≠ .unknown ∧ [taken [] 0x05 [0xFF]] ≠ [] ∧
    (0xFFFFFFFF : Word).toNat + [taken [] 0x05 [0xFF]].length ≤ sectorLimit .sdV2Block ∧
    (∀ a ∈ [taken [] 0x05 [0xFF]], a.taken (session .sdV2Block []).cfg = true) ∧
    (session .sdV2Block ([taken [] 0x05 [0xFF]].flatMap WriteAnswer.bytes)).card =
      replies ([taken [] 0x05 [0xFF]].flatMap WriteAnswer.bytes) ++ [] :=
  by decide +kernel

theorem witness_CountZeroTransfersNothing :
    (session .sdV1 []).lockFree = true ∧ (session .sdV1 []).ctype ≠ .unknown :=
  by decide +kernel

theorem witness_RunStopsWhereAddressesEnd_read :
    (session .sdV1 []).lockFree = true ∧ (session .sdV1 []).ctype ≠ .unknown ∧
    [served [] []].length < (2 : Word).toNat ∧ (0x007FFFFF : Word).toNat + [served [] []].length = sectorLimit .sdV1 ∧
    (∀ a ∈ [served [] []], a.ok (session .sdV1 []).cfg = true) ∧
    (session .sdV1 ([served [] []].flatMap ReadAnswer.bytes)).card = replies ([served [] []].flatMap ReadAnswer.bytes) ++ [] :=
  by decide +kernel

theorem witness_RunStopsWhereAddressesEnd_write : [taken [] 0x05 [0xFF]].length < (2 : Word).toNat ∧
    (0xFFFFFFFF : Word).toNat + [taken [] 0x05 [0xFF]].length = sectorLimit .sdV2Block ∧
    (∀ a ∈ [taken [] 0x05 [0xFF]], a.taken (session .sdV2Block []).cfg = true) ∧
    (session .sdV2Block ([taken [] 0x05 [0xFF]].flatMap WriteAnswer.bytes)).card =
      replies ([taken [] 0x05 [0xFF]].flatMap WriteAnswer.bytes) ++ [] := by decide +kernel

/-- At the first bad sector and strictly above it. -/
theorem witness_RunStopsWhereAddressesEnd_first : (session .mmcV3 []).lockFree = true ∧ (session .mmcV3 []).ctype ≠ .unknown ∧
    sectorLimit (session .mmcV3 []).ctype ≤ (0x00800000 : Word).toNat ∧
    sectorLimit (session .mmcV3 []).ctype ≤ (0x00800001 : Word).toNat ∧ (1 : Word) ≠ 0 := by decide +kernel

/-- How a sector is cut short in a read, each way at the end of its range. -/
def readCuts : List ReadCut :=
  [.silent (silence 10), .status (answer (ff 9) 0x04 []), .noToken (answer [] 0x00 (ff 32)), .lost (served [] []) 0,
    .lost (served [] []) 522]

theorem witness_ReadRunAbortsAtFirstFailure :
    (session .sdV2Byte []).lockFree = true ∧ (session .sdV2Byte []).ctype ≠ .unknown ∧
    [served [] []].length < (2 : Word).toNat ∧ (0x007FFFFE : Word).toNat + [served [] []].length < sectorLimit .sdV2Byte ∧
    (∀ a ∈ [served [] []], a.ok (session .sdV2Byte []).cfg = true) ∧
    ∀ x ∈ readCuts, x.ok (session .sdV2Byte []).cfg = true :=
  by decide +kernel

/-- How a sector is cut short in a write, each way at the end of its range. -/
def writeCuts : List WriteCut :=
  [.silent (silence 10), .status (answer (ff 9) 0x01 []), .rejected (taken [] 0x0B []), .rejected (taken [] 0x0D []),
    .rejected (taken [] 0x00 []), .busy (taken [] 0x05 (List.replicate 16 0x00)), .lost (taken [] 0x05 [0xFF]) 0,
    .lost (taken [] 0x05 [0xFF]) 525]

theorem witness_WriteRunAbortsAtFirstFailure :
    (session .sdV2Block []).lockFree = true ∧ (session .sdV2Block []).ctype ≠ .unknown ∧
    [taken [] 0x05 [0xFF]].length < (2 : Word).toNat ∧
    (0xFFFFFFFE : Word).toNat + [taken [] 0x05 [0xFF]].length < sectorLimit .sdV2Block ∧
    (∀ a ∈ [taken [] 0x05 [0xFF]], a.taken (session .sdV2Block []).cfg = true) ∧
    ∀ x ∈ writeCuts, x.ok (session .sdV2Block []).cfg = true :=
  by decide +kernel

/-- The card of a run that is cut short, in a read and in a write; the other fields are those of the witnesses above. -/
theorem witness_run_cards (x : ReadCut) (y : WriteCut) :
    ({ session .sdV2Byte [] with
      card := replies ([served [] []].flatMap ReadAnswer.bytes) ++ (x.outcomes ++ []) } : State).card =
        replies ([served [] []].flatMap ReadAnswer.bytes) ++ (x.outcomes ++ []) ∧
    ({ session .sdV2Block [] with
      card := replies ([taken [] 0x05 [0xFF]].flatMap WriteAnswer.bytes) ++ (y.outcomes ++ []) } : State).card =
        replies ([taken [] 0x05 [0xFF]].flatMap WriteAnswer.bytes) ++ (y.outcomes ++ []) := ⟨rfl, rfl⟩

theorem witness_FailedReadLeavesHostBuffer :
    (after (.readSector 0) State.reset).isSome = true ∧ (after (.writeSector 0) State.reset).isSome = true ∧
    (after (.writeSectors 0 2 0) State.reset).isSome = true ∧ (after (.readSector 0) State.reset).map State.result ≠ some (.io .ok) :=
  by decide +kernel

/-- ACMD41 attempts: not ready, rejected at CMD55, no answer, and ready. -/
def idleTry : CardTry := .body (answer [] 0x01 []) (answer (ff 9) 0x01 [])

def readyTry : CardTry := .body (answer [] 0x00 []) (answer [] 0x00 [])

theorem witness_InitializeResolvesV2Card :
    State.reset.lockFree = true ∧ (ff 10).length = 10 ∧ (answer (ff 9) 0x05 []).plain State.reset.cfg = true ∧
    (answer [] 0x01 (wordBytes 0x1AA)).ok State.reset.cfg = true ∧ (answer [] 0x01 (wordBytes 0x1AA)).r1.getLsbD 2 = false ∧
    (answer [] 0x01 (wordBytes 0x1AA)).more = wordBytes 0x1AA ∧ (0x1AA : Word).extractLsb' 0 8 = 0xAA ∧
    (∀ t ∈ [idleTry, .rejected (answer [] 0x05 []), .noApp (silence 10)],
      t.ok State.reset.cfg .acmdHcs = true ∧ t.ready = false) ∧
    readyTry.ok State.reset.cfg .acmdHcs = true ∧ readyTry.ready = true ∧ 3 < State.reset.cfg.nInitV2 ∧
    (answer [] 0x00 (wordBytes 0xC0FF8000)).ok State.reset.cfg = true ∧
    (answer [] 0x00 (wordBytes 0xC0FF8000)).r1.getLsbD 2 = false ∧
    (answer [] 0x00 (wordBytes 0xC0FF8000)).more = wordBytes 0xC0FF8000 ∧ (0xC0FF8000 : Word).getLsbD 30 = true ∧
    (withCard (ff 10 ++ (answer (ff 9) 0x05 []).bytes ++ (answer [] 0x01 (wordBytes 0x1AA)).bytes ++
      triesBytes ([idleTry, .rejected (answer [] 0x05 []), .noApp (silence 10)] ++ [readyTry]) ++
      (answer [] 0x00 (wordBytes 0xC0FF8000)).bytes)).card = replies (ff 10 ++ (answer (ff 9) 0x05 []).bytes ++
      (answer [] 0x01 (wordBytes 0x1AA)).bytes ++ triesBytes ([idleTry, .rejected (answer [] 0x05 []), .noApp (silence 10)] ++
      [readyTry]) ++ (answer [] 0x00 (wordBytes 0xC0FF8000)).bytes) ++ [] :=
  by decide +kernel

theorem witness_InitializeResolvesSdV1Card :
    State.reset.lockFree = true ∧ (ff 10).length = 10 ∧ (answer [] 0x01 []).plain State.reset.cfg = true ∧
    (answer [] 0x05 []).plain State.reset.cfg = true ∧ (answer [] 0x05 []).r1.getLsbD 2 = true ∧
    (∀ t ∈ [idleTry], t.ok State.reset.cfg .acmd = true ∧ t.ready = false ∧ t.illegal = false) ∧
    readyTry.ok State.reset.cfg .acmd = true ∧ readyTry.ready = true ∧ 1 < State.reset.cfg.nInitLegacy ∧
    (withCard (ff 10 ++ (answer [] 0x01 []).bytes ++ (answer [] 0x05 []).bytes ++ triesBytes ([idleTry] ++ [readyTry]))).card =
      replies (ff 10 ++ (answer [] 0x01 []).bytes ++ (answer [] 0x05 []).bytes ++ triesBytes ([idleTry] ++ [readyTry])) ++ [] :=
  by decide +kernel

theorem witness_InitializeResolvesMmcCard :
    State.reset.lockFree = true ∧ (ff 10).length = 10 ∧ (answer [] 0x01 []).plain State.reset.cfg = true ∧
    (answer [] 0x05 []).plain State.reset.cfg = true ∧ (answer [] 0x05 []).r1.getLsbD 2 = true ∧
    (∀ t ∈ [idleTry], t.ok State.reset.cfg .acmd = true ∧ t.ready = false ∧ t.illegal = false) ∧
    (∀ stop ∈ [CardTry.rejected (answer [] 0x05 []), .body (answer [] 0x01 []) (answer [] 0x05 [])],
      stop.ok State.reset.cfg .acmd = true ∧ stop.ready = false ∧ stop.illegal = true) ∧
    1 < State.reset.cfg.nInitLegacy ∧
    (∀ t ∈ [CardTry.status (answer [] 0x01 []), .quiet (silence 10)], t.ok State.reset.cfg .cmd1 = true ∧ t.ready = false) ∧
    (CardTry.status (answer [] 0x00 [])).ok State.reset.cfg .cmd1 = true ∧
    (CardTry.status (answer [] 0x00 [])).ready = true ∧ 2 < State.reset.cfg.nInitMmc ∧
    (withCard (ff 10 ++ (answer [] 0x01 []).bytes ++ (answer [] 0x05 []).bytes ++
      triesBytes ([idleTry] ++ [.rejected (answer [] 0x05 [])]) ++
      triesBytes ([.status (answer [] 0x01 []), .quiet (silence 10)] ++ [.status (answer [] 0x00 [])]))).card =
      replies (ff 10 ++ (answer [] 0x01 []).bytes ++ (answer [] 0x05 []).bytes ++
      triesBytes ([idleTry] ++ [.rejected (answer [] 0x05 [])]) ++
      triesBytes ([.status (answer [] 0x01 []), .quiet (silence 10)] ++ [.status (answer [] 0x00 [])])) ++ [] :=
  by decide +kernel

/-- The block of the failing initializations: budgets of 3, 2 and 2 attempts. -/
def smallBlock : State := withBudgets State.reset 3 2 2 none

/-- Ten fillers, CMD0 answered, and CMD8 answered by a v2 card and by an older one. -/
def tenFill : Vector Byte 10 := Vector.replicate 10 0xFF

def idle : Answer := answer (ff 9) 0x01 []

def echo : Answer := answer [] 0x01 (wordBytes 0x1AA)

def older : Answer := answer [] 0x05 []

/-- Attempts of the ACMD41 loops that fail in transport, at the first and the last exchange of each transaction. -/
def acmdCuts : List TryCut :=
  [.appCommand idle 0, .appCommand idle 16, .body (answer [] 0x01 []) idle 0, .body (answer [] 0x00 []) idle 16]

/-- Every way an initialization fails, each at the ends of its range. -/
def initCuts : List InitCut :=
  [.filler [], .filler (ff 9), .cmd0 tenFill (.silent (silence 10)), .cmd0 tenFill (.lost idle 0), .cmd0 tenFill (.lost idle 16),
    .cmd8 tenFill idle (.silent (silence 10)), .cmd8 tenFill idle (.lost echo 0), .cmd8 tenFill idle (.lost echo 11),
    .mismatch tenFill idle (answer [] 0x01 (wordBytes 0x1AB)) 0x1AB] ++
  [.v2Loop tenFill idle echo 0x1AA (.exhausted [idleTry, .noApp (silence 10), .rejected (answer [] 0x04 [])]),
    .v2Loop tenFill idle echo 0x1AA (.lost [] (.appCommand idle 0)),
    .v2Loop tenFill idle echo 0x1AA (.lost [idleTry, .noBody (answer [] 0x01 []) (silence 10)] (.body idle idle 16)),
    .cmd58 tenFill idle echo 0x1AA [idleTry, idleTry] readyTry (.silent (silence 10)),
    .cmd58 tenFill idle echo 0x1AA [] readyTry (.illegal (answer (ff 9) 0x04 [])),
    .cmd58 tenFill idle echo 0x1AA [] readyTry (.lost (answer [] 0x00 (wordBytes 0x40FF8000)) 11)] ++
  [.legacyLoop tenFill idle older (.exhausted [idleTry, .noApp (silence 10)]),
    .legacyLoop tenFill idle older (.lost [idleTry] (.appCommand idle 16)),
    .mmcLoop tenFill idle older [idleTry] (.rejected older) (.exhausted [.quiet (silence 10), .status idle]),
    .mmcLoop tenFill idle older [] (.body (answer [] 0x01 []) older) (.lost [] (.status idle 0)),
    .mmcLoop tenFill idle older [] (.rejected older) (.lost [.status (answer [] 0x04 [])] (.status idle 16))]

theorem witness_InitializeFailsEarly : smallBlock.lockFree = true ∧ (∀ x ∈ initCuts, x.ok smallBlock.cfg = true) ∧
    ∀ x ∈ acmdCuts, x.ok smallBlock.cfg .acmdHcs = true ∧ x.ok smallBlock.cfg .acmd = true :=
  by decide +kernel

/-- Its card. -/
theorem witness_InitializeFailsEarly_card (x : InitCut) :
    ({ smallBlock with card := x.outcomes ++ [] } : State).card = x.outcomes ++ [] := rfl

/-- R181: an older card that stays idle: two attempts, one delay, and no byte after them. -/
def idleCard : List Byte := ff 16 ++ [0x01, 0xFF] ++ ff 6 ++ [0x05, 0xFF] ++ ff 6 ++ [0x01, 0xFF] ++ ff 6 ++ [0x01, 0xFF] ++
  ff 6 ++ [0x01, 0xFF] ++ ff 6 ++ [0x01, 0xFF]

theorem test_initialize_exhausted : (after .initializeCard { smallBlock with card := replies (idleCard ++ [0x77]) }).map
    (fun t => ((t.err, t.fsm, t.speed), t.card, t.log.length, t.log.count (.delayMs 1))) =
      some ((.timeout, .failed, .slow), [.ok 0x77], 74, 1) := by decide +kernel

theorem witness_IllegalCmd8NeverReachesV2Path :
    State.reset.lockFree = true ∧ (ff 10).length = 10 ∧ (answer [] 0x01 []).plain State.reset.cfg = true ∧
    (answer [] 0x04 []).plain State.reset.cfg = true ∧ (answer [] 0x04 []).r1.getLsbD 2 = true ∧
    (withCard (ff 10 ++ (answer [] 0x01 []).bytes ++ (answer [] 0x04 []).bytes)).card =
      replies (ff 10 ++ (answer [] 0x01 []).bytes ++ (answer [] 0x04 []).bytes) ++ [] :=
  by decide +kernel

theorem witness_SessionStateFollowsTable : ∃ t, step (State.reset.withFetchWord 8 0x01) = .next t := ⟨_, rfl⟩

theorem witness_ResultsAndErrorKinds : State.reset.lockFree = true ∧
    (withBudgets State.reset 1 1 1 none).lockFree = true := by decide +kernel

theorem witness_WakeUpRunsLoopOfType_cmd1 :
    (session .sdV1 []).lockFree = true ∧ ((session .sdV1 []).ctype = .mmcV3 ∨ (session .sdV1 []).ctype = .sdV1) ∧
    (∀ t ∈ [CardTry.status (answer [] 0x01 [])], t.ok State.reset.cfg .cmd1 = true ∧ t.ready = false) ∧
    (CardTry.status (answer [0xFF] 0x00 [])).ok State.reset.cfg .cmd1 = true ∧
    (CardTry.status (answer [0xFF] 0x00 [])).ready = true ∧ 1 < State.reset.cfg.nInitMmc ∧
    (session .sdV1 (triesBytes ([.status (answer [] 0x01 [])] ++ [.status (answer [0xFF] 0x00 [])]))).card =
      replies (triesBytes ([.status (answer [] 0x01 [])] ++ [.status (answer [0xFF] 0x00 [])])) ++ [] :=
  by decide +kernel

theorem witness_WakeUpRunsLoopOfType_exhausted :
    (session .sdV2Byte []).lockFree = true ∧
    ((session .sdV2Byte []).ctype = .sdV2Byte ∨ (session .sdV2Byte []).ctype = .sdV2Block) ∧
    (withBudgets (session .sdV2Byte (triesBytes [idleTry, idleTry])) 2 1 1 none).cfg.nInitV2 = [idleTry, idleTry].length ∧
    (∀ t ∈ [idleTry, idleTry], t.ok State.reset.cfg .acmdHcs = true ∧ t.ready = false) ∧
    (session .sdV2Byte (triesBytes [idleTry, idleTry])).card = replies (triesBytes [idleTry, idleTry]) ++ [] :=
  by decide +kernel

/-- A transport failure in each kind of attempt. -/
theorem witness_WakeUpRunsLoopOfType_lost :
    (∀ last ∈ acmdCuts, last.ok (session .sdV2Block []).cfg .acmdHcs = true) ∧
    (TryCut.status idle 0).ok (session .mmcV3 []).cfg .cmd1 = true ∧
    (TryCut.status idle 16).ok (session .mmcV3 []).cfg .cmd1 = true ∧
    1 < (withBudgets (session .sdV2Block []) 2 1 1 none).cfg.nInitV2 := by decide +kernel

/-- Its card. -/
theorem witness_WakeUpRunsLoopOfType_card (tries : List CardTry) (last : TryCut) :
    ({ session .sdV2Block [] with card := replies (triesBytes tries) ++ (last.outcomes ++ []) } : State).card =
      replies (triesBytes tries) ++ (last.outcomes ++ []) := rfl

theorem witness_GetStatusClassifiesAnswer :
    State.reset.lockFree = true ∧ (answer [0xFF] 0x01 [0x00]).ok State.reset.cfg = true ∧
    (answer [0xFF] 0x01 [0x00]).r1.getLsbD 2 = false ∧ (answer [0xFF] 0x01 [0x00]).more = [0x00] ∧
    (withCard (answer [0xFF] 0x01 [0x00]).bytes).card = replies (answer [0xFF] 0x01 [0x00]).bytes ++ [] :=
  by decide +kernel

/-- CMD13s without a usable answer, each way at the ends of its range, and whether the kind is IoError. -/
def misses : List CommandCut := [.silent (silence 10), .illegal (answer (ff 9) 0x05 [])]

def lostStatuses : List CommandCut :=
  [.lost (answer (ff 9) 0x00 [0x00]) 0, .lost (answer (ff 9) 0x00 [0x00]) 6, .lost (answer (ff 9) 0x00 [0x00]) 17]

theorem witness_GetStatusWithoutAnswer : smallBlock.lockFree = true ∧
    (∀ miss ∈ misses, miss.ok smallBlock.cfg .r2 = true ∧ miss.kind ≠ .ioError) ∧
    (∀ miss ∈ lostStatuses, miss.ok smallBlock.cfg .r2 = true ∧ miss.kind = .ioError) :=
  by decide +kernel

/-- The cards of its clauses; the failing initializations are those of witness_InitializeFailsEarly. -/
theorem witness_GetStatusWithoutAnswer_cards (miss : CommandCut) (x : InitCut) :
    ({ smallBlock with card := miss.outcomes ++ (x.outcomes ++ []) } : State).card = miss.outcomes ++ (x.outcomes ++ []) ∧
    ({ smallBlock with card := miss.outcomes ++ [] } : State).card = miss.outcomes ++ [] := ⟨rfl, rfl⟩

/-- Cards that a re-initialization resolves, one per path, each loop with its last attempt at the end of its budget. -/
def resolvingCards : List CardInit :=
  [.v2 (Vector.replicate 10 0xFF) (answer (ff 9) 0x05 []) (answer [] 0x01 (wordBytes 0x1AA)) 0x1AA
      [idleTry, .noApp (silence 10)] readyTry (answer [] 0x00 (wordBytes 0xC0FF8000)) 0xC0FF8000,
    .sdV1 (Vector.replicate 10 0xFF) (answer [] 0x01 []) (answer [] 0x05 []) [idleTry] readyTry,
    .mmc (Vector.replicate 10 0xFF) (answer [] 0x01 []) (answer [] 0x05 []) [idleTry] (.rejected (answer [] 0x05 []))
      [.status (answer [] 0x01 [])] (.status (answer [] 0x00 []))]

theorem witness_GetStatusRetriesOnce :
    smallBlock.lockFree = true ∧ (∀ miss ∈ misses, miss.ok smallBlock.cfg .r2 = true ∧ miss.kind ≠ .ioError) ∧
    (∀ again ∈ misses ++ lostStatuses, again.ok smallBlock.cfg .r2 = true) ∧
    (∀ x ∈ resolvingCards, x.ok smallBlock.cfg = true) ∧ (answer (ff 9) 0x01 [0x00]).ok smallBlock.cfg = true ∧
    (answer (ff 9) 0x01 [0x00]).r1.getLsbD 2 = false ∧ (answer (ff 9) 0x01 [0x00]).more = [0x00] :=
  by decide +kernel

/-- The cards of its two clauses, and a function that meets its hypothesis on done. -/
theorem witness_GetStatusRetriesOnce_cards (miss again : CommandCut) (x : CardInit) (a : Answer) :
    ({ smallBlock with card := miss.outcomes ++ (replies (x.bytes ++ a.bytes) ++ []) } : State).card =
      miss.outcomes ++ (replies (x.bytes ++ a.bytes) ++ []) ∧
    ({ smallBlock with card := miss.outcomes ++ (replies x.bytes ++ (again.outcomes ++ [])) } : State).card =
      miss.outcomes ++ (replies x.bytes ++ (again.outcomes ++ [])) ∧
    ∃ done : List Event → Result → State, ∀ ev r, done ev r =
      { smallBlock.served (miss.events statusFrame ++ x.events ++ [.setSpeed .fast] ++ ev) [] r with
        ctype := x.type, speed := .fast, fsm := .typeResolved, warnIdleR1 := x.warn
        visits := x.visits ++ smallBlock.visits } :=
  ⟨rfl, rfl, _, fun _ _ => rfl⟩

theorem witness_OnlyInitializationChangesSession :
    (after .getType State.reset).isSome = true ∧ (after .cmd0 (withCard (silence 10).bytes)).isSome = true ∧
    Instr.cmd0.format ≠ .fHost ∧ Instr.cmd0 ≠ .initializeCard ∧ Instr.cmd0 ≠ .getStatus :=
  by decide +kernel

theorem witness_LockEnvelopeAndWindows_bounded : (Instr.writeSector 0).format = .fHost ∧ Instr.writeSector 0 ≠ .getType ∧
    State.reset.lockFree = true ∧ State.reset.cfg.nBusy ≠ none ∧ State.reset.cs = false := by decide +kernel

/-- With N_BUSY unbounded, an operation that is no write. -/
theorem witness_LockEnvelopeAndWindows_unbounded : Instr.initializeCard.format = .fHost ∧ Instr.initializeCard ≠ .getType ∧
    (withBudgets State.reset 1 1 1 none).lockFree = true ∧ (withBudgets State.reset 1 1 1 none).cs = false ∧
    (∀ sector, Instr.initializeCard ≠ .writeSector sector) ∧
    ∀ sector count timeout, Instr.initializeCard ≠ .writeSectors sector count timeout :=
  ⟨rfl, nofun, rfl, rfl, nofun, nofun⟩

theorem witness_EveryStepKeepsInvariant :
    ((session .sdV2Block []).withFetchWord 8 0x01).inv = true ∧ ∃ t, step ((session .sdV2Block []).withFetchWord 8 0x01) = .next t :=
  ⟨by decide +kernel, _, rfl⟩

theorem witness_EveryStepKeepsInvariant_held :
    ({ withBudgets (session .sdV1 [0x00]) 1 1 1 none with hold := some .run, lock := true, cs := true } : State).inv = true :=
  by decide +kernel

theorem witness_StepRunsDecodedInstruction : State.reset.hold = none ∧ State.reset.bench = none ∧ State.reset.port = [] ∧
    ({ State.reset with port := [[0x01]] } : State).port = [[0x01]] ∧
    decode .fHost [0x03, 0x00, 0x00, 0x00, 0x05] = .ok (.readSector 5, []) ∧
    decode .fHost [0x08] = .error .badOperationCode ∧ decode .fHost [0x01, 0x01] = .ok (.getType, [0x01]) ∧
    ({ State.reset with hold := some .block } : State).hold = some .block :=
  ⟨rfl, rfl, rfl, rfl, rfl, rfl, rfl, rfl⟩

theorem witness_StepRunsDecodedInstruction_bench :
    ({ State.reset with bench := some ⟨.fR1, [0x01]⟩ } : State).bench = some ⟨.fR1, [0x01]⟩ ∧
    decode .fR1 [0x01] = .ok (.r1 0x01, []) ∧ decode .fBusy [0x01] = .error .notBusyByte ∧
    decode .fR1 [0x01, 0xFF] = .ok (.r1 0x01, [0xFF]) := ⟨rfl, rfl, rfl, rfl⟩

theorem witness_StepOnlyAppendsToTrace : ∃ t, step (State.reset.withFetchWord 8 0x01) = .next t ∧
    (State.reset.withFetchWord 8 0x01).bench = none ∧ (State.reset.withFetchWord 8 0x01).hold = none :=
  ⟨_, rfl, rfl, rfl⟩

theorem witness_HostBufferLaws : Memory.wf [(0, 0xEE), (511, 0x01)] = true ∧ Memory.wf [] = true := by decide +kernel

end Sys2Proof.Tests
end

section
/-! The state after reset (spec/10_state.md R48). -/

namespace Sys2Proof.Machine

/-- Settles O57: R48's table row by row, the values first, then the codes that R21, R24, R22 and R232 give the four enumerations.
Each row is a literal of `State.reset`; the trace alone is computed, as the reverse of the empty log. -/
theorem resetValues : Obligations.ResetValues := by
  have htrace : State.reset.trace = [] := List.reverse_nil
  exact ⟨rfl, rfl, rfl, rfl, rfl, rfl, rfl, htrace, rfl, rfl, rfl, rfl⟩

end Sys2Proof.Machine
end

section
/-! The two fixed CRC bytes of the command codec (spec/40_command_codec.md R103). -/

namespace Sys2Proof.Machine

/-- Settles O5: the two frames are those of the initialization sequence, which the path lemmas for CMD0 and CMD8 have computed;
0x1AA is CMD8's argument there. -/
theorem fixedCrcBytesAgree : Obligations.FixedCrcBytesAgree := by
  have hcmd0 : (buildFrame 0 0).toList = [0x40, 0x00, 0x00, 0x00, 0x00, 0x95] := cmd0Frame_eq
  have hcmd8 : (buildFrame 8 0x1AA).toList = [0x48, 0x00, 0x00, 0x01, 0xAA, 0x87] := cmd8Frame_eq
  exact ⟨hcmd0, hcmd8⟩

end Sys2Proof.Machine
end

section
/-! The waits and the rows of the response reader (spec/41_response_reader.md R130 to R134), from their closed forms. -/

namespace Sys2Proof.Machine

/-! ## What the obligations' proofs share -/

/-- A row whose bytes arrive (log entry 14) takes exactly those: what the card has left is what it had before. -/
theorem runAlone_arrive_gives {α : Type} {p : Proc α} {shown : α → Result} {s : State} {got : List Byte}
    {events : List Event} {d : Datapath} {o : Except ErrKind α} (h : Gives s.cfg p s.dp got events d o) :
    runAlone p shown (s.arrive got) = .next ((outcome o (s.saw events s.card d)).conclude shown) :=
  congrArg (fun r : Res α => Host.Outcome.next (r.conclude shown)) (h (s.arrive got) s.card rfl rfl rfl)

/-- R34: R2's value has the R1 in bits 15:8 and the second byte below. -/
theorem append_eq_ofNat (hi lo : Byte) : hi ++ lo = BitVec.ofNat 16 (hi.toNat * 256 + lo.toNat) := by
  apply BitVec.eq_of_toNat_eq
  have hhi := hi.isLt
  have hlo := lo.isLt
  rw [BitVec.toNat_append, ← Nat.shiftLeft_add_eq_or_of_lt hlo, Nat.shiftLeft_eq, BitVec.toNat_ofNat]
  omega

/-- A transport failure among the polls of WAIT_R1 ends it there (R130, R240). -/
theorem waitR1_failing {s : State} {wait : List Byte} {rest : List Reply} (hw : wait.all (fun b => !r1Valid b) = true)
    (hl : wait.length < s.cfg.nR1) (hc : s.card = replies wait ++ .fail :: rest) :
    waitR1 s = .err .ioError (s.saw (exchanges (fills wait.length) wait ++ [.xchg fillByte .fail]) rest
      { s.dp with poll := wait.length + 1 }) :=
  Proc.bind_err (poll_failing wait s.cfg.nR1 s rest hw hl hc)

section
variable {c : Config} {d : Datapath} {b : Byte}

/-! ### One attempt of WAIT_R1 (log entry 15) -/

theorem gives_r1Attempt_accept (hb : r1Valid b = true) :
    Gives c r1Attempt d [b] [.xchg fillByte (.ok b)] { d with poll := d.poll + 1, r1 := b } (.ok (some b)) :=
  Gives.withCfg ((gives_pollOnce_accept (some c.nR1) hb).bind ((gives_setReg _).andThen (gives_ret (some b))))

theorem gives_r1Attempt_reject (hb : r1Valid b = false) (hn : d.poll + 1 < c.nR1) :
    Gives c r1Attempt d [b] [.xchg fillByte (.ok b)] { d with poll := d.poll + 1 } (.ok none) :=
  Gives.withCfg ((gives_pollOnce_reject (some c.nR1) hb (by simpa using hn)).bind (gives_ret none))

theorem gives_r1Attempt_timeout (hb : r1Valid b = false) (hn : c.nR1 ≤ d.poll + 1) :
    Gives c r1Attempt d [b] [.xchg fillByte (.ok b)] { d with poll := d.poll + 1 } (.error .timeout) :=
  Gives.withCfg (gives_pollOnce_timeout (some c.nR1) hb (by simpa using hn)).bind_err

end

/-! ## The obligations -/

/-- Settles O7: the first byte with bit 7 clear and the exhausted budget are the two closed forms of WAIT_R1; the transport
failure is that of its poll loop. -/
theorem waitR1Contract : Obligations.WaitR1Contract := by
  intro s wait rest hw
  refine ⟨fun b hb hl hc => ?accepts, fun hl hc => ?timesOut, fun hl hc => ?fails⟩
  case accepts => exact gives_waitR1 hw (r1Valid_true hb) hl s rest rfl rfl hc
  case timesOut =>
    rw [hl]
    exact gives_waitR1_timeout hw hl s rest rfl rfl hc
  case fails =>
    rw [waitR1_failing hw hl hc]
    simp [State.saw, fillByte]

/-- Settles O9: each row is its wait with the R1 at the first poll, over exactly the row's bytes. -/
theorem longResponseRowsRead : Obligations.LongResponseRowsRead := by
  intro s r hn hv hi
  have hreg (v : Word) : Gives s.cfg waitR3 s.dp (r :: wordBytes v) (exchanges (fills 5) (r :: wordBytes v))
      { s.dp with poll := 1, r1 := r, reg32 := v } (.ok (r, v)) :=
    gives_waitR3 (wait := []) rfl (r1Valid_true hv) hn hi
  refine ⟨fun status => ?r2, fun v => ?r3, fun v => ?r7⟩
  case r2 =>
    rw [← append_eq_ofNat]
    exact runAlone_arrive_gives (gives_waitR2 (wait := []) rfl (r1Valid_true hv) hn hi)
  case r3 => exact runAlone_arrive_gives (hreg v)
  case r7 => exact runAlone_arrive_gives (hreg v)

/-- Settles O10: the three waits begin with the same wait for an R1, which fails there, so that what follows it is not run. -/
theorem illegalCommandCutsResponse : Obligations.IllegalCommandCutsResponse := by
  intro s wait r rest hv hi
  refine ⟨fun hw hl hc => ⟨_, rfl, ?waits⟩, fun hn => ?row⟩
  case waits =>
    have hlong := gives_waitLongR1_illegal hw (r1Valid_true hv) hl hi s rest rfl rfl hc
    exact ⟨Proc.bind_err hlong, Proc.bind_err hlong, Proc.bind_err hlong⟩
  case row =>
    have hlong := gives_waitLongR1_illegal (d := s.dp) (wait := []) rfl (r1Valid_true hv) hn hi
    exact runAlone_arrive_gives (p := waitR3) hlong.bind_err

/-- Settles O8: one attempt either accepts, or counts against N_R1, or uses N_R1 up. -/
theorem r1RowsPollOnce : Obligations.R1RowsPollOnce := by
  intro s b
  refine ⟨fun hb => ?accepted, fun hb => ?counted⟩
  case accepted => exact runAlone_arrive_gives (gives_r1Attempt_accept (r1Valid_true hb))
  case counted =>
    split
    · next hn => exact runAlone_arrive_gives (gives_r1Attempt_reject (r1Valid_false hb) hn)
    · next hn => exact runAlone_arrive_gives (gives_r1Attempt_timeout (r1Valid_false hb) (Nat.le_of_not_lt hn))

end Sys2Proof.Machine
end

section
/-! The wait for the data start token (spec/42_block_transfer.md R148), from the closed forms of its poll loop. -/

namespace Sys2Proof.Machine

/-- A transport failure among the polls of WAIT_TOKEN ends it there (R148, R240). -/
theorem waitToken_failing {s : State} {gap : List Byte} {rest : List Reply}
    (hg : gap.all (fun b => !isStartToken b) = true) (hl : gap.length < s.cfg.nToken)
    (hc : s.card = replies gap ++ .fail :: rest) :
    waitToken s = .err .ioError (s.saw (exchanges (fills gap.length) gap ++ [.xchg fillByte .fail]) rest
      { s.dp with poll := gap.length + 1 }) :=
  Proc.bind_err (poll_failing gap s.cfg.nToken s rest hg hl hc)

/-- Settles O22: the token within the budget and the exhausted budget are the two closed forms of WAIT_TOKEN; the transport
failure is that of its poll loop. -/
theorem waitTokenContract : Obligations.WaitTokenContract := by
  intro s gap rest hgap
  have hg : gap.all (fun b => !isStartToken b) = true := hgap
  refine ⟨fun hl hc => ?accepts, fun hl hc => ?timesOut, fun hl hc => ?fails⟩
  case accepts => exact gives_waitToken hg hl s rest rfl rfl hc
  case timesOut =>
    rw [hl]
    exact gives_waitToken_timeout hg hl s rest rfl rfl hc
  case fails =>
    rw [waitToken_failing hg hl hc]
    simp [State.saw, fillByte]

end Sys2Proof.Machine
end

section
/-! Addresses, and the host operations that reach no card (spec/44_host_operations.md R202, R204, R211). -/

namespace Sys2Proof.Machine

/-! ## The type check (R211) -/

theorem typeChecked_unknown {s : State} (h : s.ctype = .unknown) (r : Result) (body : State → Turn) :
    typeChecked r body s = .done r (s.setErr .notReady) := by
  rw [typeChecked, if_pos h]

/-- R211, R212: a type-checked host operation with no resolved type does not run its body. -/
theorem hostOp_typeChecked_unknown {s : State} (hf : s.lockFree = true) (ht : s.ctype = .unknown) (r : Result)
    (body : State → Turn) :
    hostOp (typeChecked r body) s = .next (Turn.done r (s.begin.setErr .notReady)).finish := by
  rw [hostOp_free hf, typeChecked_unknown (s := s.begin) ht]

/-- R212: a body that only sets ERR leaves nothing but the lock pair in the trace. -/
theorem finish_begin_setErr (s : State) (k : ErrKind) (r : Result) :
    (Turn.done r (s.begin.setErr k)).finish = { s with
      log := .lockRelease :: .lockAcquire :: s.log, lock := false, err := k, dp := Config.freeDatapath s.draws,
      draws := s.draws + 1, hold := none, result := r } := by
  simp only [Turn.finish, State.begin, State.lockAcquire, State.lockRelease, State.forget, State.setErr, State.setHold,
    State.setResult, State.setLock, State.record]

/-- Settles O33: each of the five operations is a type-checked host operation, so all end in the same state but for the result,
whatever the sector, the count and the timeout. -/
theorem typeCheckRefuses : Obligations.TypeCheckRefuses := by
  intro s sector count timeout hf ht
  have refuses := hostOp_typeChecked_unknown hf ht
  exact ⟨fun r => (Turn.done r (s.begin.setErr .notReady)).finish, finish_begin_setErr s .notReady,
    refuses _ _, refuses _ _, refuses _ _, refuses _ _, refuses _ _⟩

/-! ## Addresses (R204) -/

/-- R51: below 2^23 the shift by nine bits loses nothing. -/
theorem protocolAddress_toNat {t : CardType} (ht : t ≠ .sdV2Block) {sector : Word} (h : sector.toNat < 2 ^ 23) :
    (protocolAddress t sector).toNat = sector.toNat * 512 := by
  rw [protocolAddress, if_neg ht, BitVec.toNat_shiftLeft, Nat.shiftLeft_eq]
  omega

/-- Settles O31: a block-addressed card has an address for every 32-bit sector number, every other type for those below 2^23. -/
theorem argAddressRule : Obligations.ArgAddressRule := by
  refine fun sector => ⟨argAddress_ok sector.isLt, fun t ht => ?byteAddressed⟩
  have hlimit : sectorLimit t = 2 ^ 23 := if_neg ht
  refine ⟨fun h => ⟨protocolAddress t sector, argAddress_ok ?below, protocolAddress_toNat ht h⟩,
    fun h => argAddress_overflow ?beyond⟩
  case below => rwa [hlimit]
  case beyond => rwa [hlimit]

/-! ## GET_TYPE (R202) -/

/-- Settles O32: GET_TYPE is no `hostOp`, so it has no lock envelope; the state it gives differs from the old one in the returned
result only, which is CTYPE. -/
theorem getTypeReadsOnly : Obligations.GetTypeReadsOnly := by
  intro s
  calc exec .getType s
    _ = execGetType s := rfl
    _ = .next (s.setResult (.cardType s.ctype)) := rfl

end Sys2Proof.Machine
end

section
/-! The two halves of the round trip between instructions and words (spec/30_encoding.md). -/

namespace Sys2Proof

open Sys2Proof.Machine

/-! ## What the decoder reads from the parts of an encoding -/

/-- R76 to R78: an R1 that neither has bit 7 set nor illegal-command lets the rest of its format follow. -/
theorem decodeLong_fullLength {r : Byte} (h : fullLengthR1 r = true) (full : Byte → List Byte → Decoded)
    (rest : List Byte) : decodeLong full r rest = full r rest := by
  obtain ⟨hv, hi⟩ : r1Valid r = true ∧ r1IllegalCommand r = false := by simpa [fullLengthR1] using h
  simp [decodeLong, hv, hi]

/-- R54: four operand bytes compose to the word they were taken from. -/
theorem decodeOneWord_wordBytes (f : Word → Instr) (w : Word) (rest : List Byte) :
    decodeOneWord f (wordBytes w ++ rest) = .ok (f w, rest) := by
  simp [decodeOneWord, wordBytes, beWord_wordBytes]

theorem decodeThreeWords_wordBytes (f : Word → Word → Word → Instr) (a b c : Word) (rest : List Byte) :
    decodeThreeWords f (wordBytes a ++ wordBytes b ++ wordBytes c ++ rest) = .ok (f a b c, rest) := by
  simp [decodeThreeWords, wordBytes, beWord_wordBytes]

theorem decodeR3Rest_wordBytes (r : Byte) (v : Word) (rest : List Byte) :
    decodeR3Rest r (wordBytes v ++ rest) = .ok (.r3 r v, rest) := by
  simp [decodeR3Rest, wordBytes, beWord_wordBytes]

theorem decodeR7Rest_wordBytes (r : Byte) (v : Word) (rest : List Byte) :
    decodeR7Rest r (wordBytes v ++ rest) = .ok (.r7 r v, rest) := by
  simp [decodeR7Rest, wordBytes, beWord_wordBytes]

/-- R71, R87: an encoded frame is read as the row of its fields. -/
theorem decode_frame_of_row {idx : BitVec 6} {arg : Word} {crc : BitVec 7} {i : Instr} (h : frameRow idx arg crc = i)
    (rest : List Byte) : decode .fCmd (encodeFrame idx arg crc ++ rest) = .ok (i, rest) := by
  rw [decode_encodeFrame, h]

/-- Settles O1, by the rows of the table: a row with fixed bytes is computed; a frame is read back as the row of its fields; a
received format by its first byte, which the row's pattern classifies; operand words by their four bytes. -/
theorem decodeOfEncodeIsIdentity : Obligations.DecodeOfEncodeIsIdentity := by
  intro i rest h
  cases i with
  | cmd0 | cmd1 | cmd8 | cmd13 | cmd55 | cmd58 | acmd41Hcs | acmd41 => rfl
  | cmd17 addr crc => exact decode_frame_of_row (frameRow_cmd17 addr crc) rest
  | cmd24 addr crc => exact decode_frame_of_row (frameRow_cmd24 addr crc) rest
  | frame idx arg crc =>
    have hrow : hasOwnRow idx arg = false := by simp_all [WellFormed]
    exact decode_frame_of_row (frameRow_frame idx arg crc hrow) rest
  | r1 b =>
    have hv : r1Valid b = true := h
    simp [Instr.format, encode, decode, decodeR1, hv]
  | notR1 b =>
    have hv : r1Valid b = false := by simpa [WellFormed] using h
    simp [Instr.format, encode, decode, decodeR1, hv]
  | r2 r status => exact decodeLong_fullLength h _ _
  | r3 r ocr => exact (decodeLong_fullLength h _ _).trans (decodeR3Rest_wordBytes r ocr rest)
  | r7 r reg => exact (decodeLong_fullLength h _ _).trans (decodeR7Rest_wordBytes r reg rest)
  | r1Illegal b =>
    obtain ⟨hv, hi⟩ : r1Valid b = true ∧ r1IllegalCommand b = true := by simpa [WellFormed] using h
    simp [Instr.format, encode, decode, decodeLong, hv, hi]
  | dataStart d => rfl
  | dataBlock d payload crc => exact decode_block d payload crc rest
  | drespAccepted b | drespCrcError b | drespWriteError b | drespBadFormat b =>
    have hclass := eq_of_beq h
    simp [Instr.format, encode, decode, decodeDresp, hclass]
  | busy | fill | initializeCard | getType | wakeUp | getStatus => rfl
  | readSector sector => exact decodeOneWord_wordBytes .readSector sector rest
  | writeSector sector => exact decodeOneWord_wordBytes .writeSector sector rest
  | readSectors sector count timeout => exact decodeThreeWords_wordBytes .readSectors sector count timeout rest
  | writeSectors sector count timeout => exact decodeThreeWords_wordBytes .writeSectors sector count timeout rest

/-! ## What the encoder gives back -/

/-- R71: bytes that pass as a frame are the encoding of the row they are read as. -/
theorem encode_decodeFrame {b0 b1 b2 b3 b4 b5 : Byte} {i : Instr} (h : decodeFrame b0 b1 b2 b3 b4 b5 = .ok i) :
    encode i = [b0, b1, b2, b3, b4, b5] := by
  unfold decodeFrame at h
  split at h
  · cases h
  split at h
  · cases h
  next hmark hstop =>
    cases h
    have hb0 := byte_marker b0 (by simpa using hmark)
    have hb5 := byte_stop b5 (by simpa using hstop)
    rw [encode_frameRow, encodeFrame, wordBytes_beWord, hb0, hb5]
    rfl

theorem encode_decodeR2Rest (r : Byte) (bs : List Byte) (i : Instr) (rest : List Byte)
    (h : decodeR2Rest r bs = .ok (i, rest)) : encode i ++ rest = r :: bs := by
  unfold decodeR2Rest at h
  split at h <;> cases h
  rfl

theorem encode_decodeR3Rest (r : Byte) (bs : List Byte) (i : Instr) (rest : List Byte)
    (h : decodeR3Rest r bs = .ok (i, rest)) : encode i ++ rest = r :: bs := by
  unfold decodeR3Rest at h
  split at h <;> cases h
  simp [encode, wordBytes_beWord]

theorem encode_decodeR7Rest (r : Byte) (bs : List Byte) (i : Instr) (rest : List Byte)
    (h : decodeR7Rest r bs = .ok (i, rest)) : encode i ++ rest = r :: bs := by
  unfold decodeR7Rest at h
  split at h <;> cases h
  simp [encode, wordBytes_beWord]

/-- R71, R87: what is read in the format F-CMD takes six bytes, which pass as a frame. -/
theorem encode_decode_fCmd {bytes : List Byte} {i : Instr} {rest : List Byte} (h : decode .fCmd bytes = .ok (i, rest)) :
    encode i ++ rest = bytes := by
  match bytes with
  | b0 :: b1 :: b2 :: b3 :: b4 :: b5 :: tail =>
    change (decodeFrame b0 b1 b2 b3 b4 b5).map (fun i => (i, tail)) = .ok (i, rest) at h
    cases hf : decodeFrame b0 b1 b2 b3 b4 b5 with
    | error e => rw [hf] at h; cases h
    | ok j =>
      rw [hf] at h
      cases h
      rw [encode_decodeFrame hf]
      rfl
  | [] | [_] | [_, _] | [_, _, _] | [_, _, _, _] | [_, _, _, _, _] => cases h

/-- A word that passes the test of its format's fixed byte has passed it. -/
theorem decoded_of_guard {p : Prop} [Decidable p] {r : Decoded} {e : DecodeError} {x : Instr × List Byte}
    (h : (if p then r else .error e) = .ok x) : p ∧ r = .ok x := by
  split at h
  · next hp => exact ⟨hp, h⟩
  · cases h

/-- Settles O2, format by format: a format of one fixed byte takes that byte; a received byte is the encoding of the row it is
classified as; a frame, a longer response, a block and a host request are put together again from the fields read. -/
theorem encodeOfDecodeIsIdentity : Obligations.EncodeOfDecodeIsIdentity := by
  intro f bytes i rest h
  cases bytes with
  | nil => cases f <;> cases h
  | cons b tail =>
    cases f with
    | fCmd => exact encode_decode_fCmd h
    | fR1 => cases h; rw [encode_decodeR1]; rfl
    | fR2 => exact encode_decodeLong _ encode_decodeR2Rest b tail i rest h
    | fR3 => exact encode_decodeLong _ encode_decodeR3Rest b tail i rest h
    | fR7 => exact encode_decodeLong _ encode_decodeR7Rest b tail i rest h
    | fTok d =>
      obtain ⟨hb, hread⟩ := decoded_of_guard h
      cases hread; rw [eq_of_beq hb]; rfl
    | fBlk d =>
      obtain ⟨hb, hread⟩ := decoded_of_guard h
      rw [eq_of_beq hb]
      exact encode_decodeBlockRest d tail i rest hread
    | fDresp => cases h; rw [encode_decodeDresp]; rfl
    | fBusy =>
      obtain ⟨hb, hread⟩ := decoded_of_guard h
      cases hread; rw [eq_of_beq hb]; rfl
    | fFill =>
      obtain ⟨hb, hread⟩ := decoded_of_guard h
      cases hread; rw [hb]; rfl
    | fHost => exact encode_decodeHost b tail i rest h

/-- Settles O3: the decoder evaluated at the eleven words. -/
theorem specWordsDecode : Obligations.SpecWordsDecode :=
  ⟨rfl, rfl, rfl, rfl, rfl, rfl, rfl, rfl, rfl, rfl, rfl⟩

end Sys2Proof
end

section
/-! What every step keeps, whatever the card does: the transition table of STATE (spec/43_card_session.md R185) and the session
invariants (spec/10_state.md R28). -/

namespace Sys2Proof.Machine

/-! ## The transition table of STATE (R185) -/

/-- The values that STATE took from s to t follow the transition table, and t rests in the last of them. -/
def FollowsTable (s t : State) : Prop := ∃ new, Moved new s t ∧ fsmPath s.fsm new.reverse = true

theorem Still.followsTable {s t : State} (h : Still s t) : FollowsTable s t := ⟨[], h.moved, rfl⟩

theorem HostFrame.followsTable {s t : State} (h : HostFrame s t) : FollowsTable s t :=
  Still.followsTable ⟨h.fsm, h.visits⟩

/-- STATE and its record may stay as they are before and after. -/
theorem FollowsTable.between {s t u v : State} (h : FollowsTable t u) (hs : Still s t) (hv : Still u v) :
    FollowsTable s v := by
  obtain ⟨new, hm, hp⟩ := h
  refine ⟨new, ?moved, hs.1 ▸ hp⟩
  simpa using hs.moved.trans (hm.trans hv.moved)

theorem fsmNext_unidentified (f : Fsm) : fsmNext f .unidentified = true := by cases f <;> rfl

/-- R171: every initialization begins with STATE Unidentified, which is a transition from every value. -/
theorem initStart_path {s t u : State} {new : List Fsm} {last : Fsm} (hm : Moved new s.initStart t)
    (hu : Moved [last] t u) (hp : fsmPath .unidentified (new.reverse ++ [last]) = true) : FollowsTable s u := by
  have h0 : Moved [.unidentified] s s.initStart := ⟨rfl, rfl⟩
  refine ⟨_, h0.trans (hm.trans hu), ?path⟩
  simpa [fsmPath, fsmNext_unidentified] using hp

/-- R185: the trails of INIT_SEQUENCE, each a path of the table. -/
theorem initSequence_followsTable (s : State) : FollowsTable s (initSequence s) := by
  cases initSequence_out s with
  | ok t new c hc hs hm hn he =>
    refine initStart_path hm (last := .typeResolved) ?entered ?path
    case entered => rw [he]; exact ⟨rfl, rfl⟩
    case path => obtain ⟨rfl, -⟩ | ⟨rfl, -⟩ | ⟨rfl, -⟩ := hn <;> rfl
  | failed t new k hk hs hm hn he =>
    refine initStart_path hm (last := .failed) ?entered ?path
    case entered => rw [he]; exact ⟨rfl, rfl⟩
    case path => clear hm; revert new; decide

theorem still_refl (s : State) : Still s s := ⟨rfl, rfl⟩

theorem still_setErr (s : State) (k : ErrKind) : Still s (s.setErr k) := ⟨rfl, rfl⟩

/-- GET_STATUS moves STATE by its re-initialization only. -/
theorem statusQuery_followsTable (s : State) : FollowsTable s (Turn.state (statusQuery s)) := by
  obtain ⟨t, v, hq, e⟩ | ⟨t, hq, e⟩ | ⟨t, hq, e⟩ := statusQuery_cases s <;> rw [e]
  · exact hq.still.followsTable
  · exact (hq.still.trans (still_setErr t _)).followsTable
  · refine (initSequence_followsTable t).between hq.still ?retry
    obtain ⟨-, e⟩ | ⟨-, u, v, hu, e⟩ | ⟨-, u, k, hu, -, e⟩ := statusAfterInit_cases (initSequence t) <;> rw [e]
    · exact still_refl _
    · exact hu.still
    · exact hu.still.trans (still_setErr u k)

/-- R212: the lock envelope leaves STATE alone. -/
theorem hostOp_followsTable {body : State → Turn} {s t : State} (hb : ∀ u, FollowsTable u (Turn.state (body u)))
    (h : hostOp body s = .next t) : FollowsTable s t := by
  obtain ⟨-, rfl⟩ := hostOp_next h
  have hf := hostFrame_finish (body s.begin)
  exact (hb s.begin).between ⟨rfl, rfl⟩ ⟨hf.fsm, hf.visits⟩

theorem exec_followsTable {i : Instr} {s t : State} (h : exec i s = .next t) : FollowsTable s t := by
  by_cases hi : i.format = .fHost
  · by_cases hinit : i = .initializeCard
    · subst hinit
      exact hostOp_followsTable (body := fun u => typeTurn (initSequence u)) initSequence_followsTable h
    · by_cases hstatus : i = .getStatus
      · subst hstatus
        exact hostOp_followsTable statusQuery_followsTable h
      · exact (exec_host hi hinit hstatus h).followsTable
  · obtain ⟨u, y, x, hu, rfl⟩ := exec_row hi h
    exact (hu.still.trans (u := (u.setHold y).setResult x) ⟨rfl, rfl⟩).followsTable

theorem step_followsTable {s t : State} (h : step s = .next t) : FollowsTable s t := by
  obtain ⟨x, -, rfl⟩ | ⟨-, -, -, rfl⟩ | ⟨-, q, i, -, -, h⟩ | ⟨-, -, bytes, rest, i, -, -, -, h⟩ := step_cases h
  · exact (resume_frame x s).followsTable
  · exact (still_refl t).followsTable
  · exact (exec_followsTable h).between (s := s) ⟨rfl, rfl⟩ (still_refl t)
  · exact (exec_followsTable h).between (s := s) ⟨rfl, rfl⟩ (still_refl t)

/-- Settles O47: a step resumes a held write, waits, or runs an instruction, and only the initialization sequence, run by
INITIALIZE and GET_STATUS, moves STATE. -/
theorem sessionStateFollowsTable : Obligations.SessionStateFollowsTable := by
  intro s t h
  obtain ⟨new, ⟨hvisits, hfsm⟩, hpath⟩ := step_followsTable h
  refine ⟨new, hvisits, hpath, ?rests⟩
  cases new <;> exact hfsm

/-! ## The session invariants (R28) -/

/-- How a write leaves chip-select: asserted if it is held in its busy poll, deasserted if it is over. -/
def HeldOrClosed (r : Res Bool) : Prop :=
  (∃ t, r = .ok false t ∧ t.cs = true) ∨ (r.state.cs = false ∧ ∀ t, r ≠ .ok false t)

theorem WriteEnd.heldOrClosed {s : State} {r : Res Bool} (h : WriteEnd s r) (hs : s.cs = false) : HeldOrClosed r := by
  obtain ⟨t, hr, hc, -⟩ | ⟨ho, hn⟩ := h
  · exact .inl ⟨t, hr, hc⟩
  · exact .inr ⟨(ho hs).1, hn⟩

/-- A WRITE_BLOCK by itself, which takes no lock. -/
theorem concludeBlock_inv {s : State} {r : Res Bool} (hq : Quiet s r.state) (hi : s.inv = true) (hl : s.lock = false)
    (h : HeldOrClosed r) : (concludeBlock r).inv = true := by
  obtain ⟨-, hsession, hwf⟩ := inv_iff.1 hi
  have hsession' : r.state.sessionInv = true := (sessionInv_congr hq.ctype hq.fsm hq.speed).trans hsession
  have hwf' : r.state.buffer.wf = true := hq.buffer ▸ hwf
  have hl' : r.state.lock = false := hq.lock.trans hl
  obtain ⟨t, rfl, hc⟩ | ⟨hc, hn⟩ := h
  · exact inv_iff.2 ⟨portsInv_iff.2 ⟨by simp [concludeBlock, show t.lock = false from hl'],
      by simp [concludeBlock, hc]⟩, hsession', hwf'⟩
  · match r with
    | .ok true t => exact inv_iff.2 ⟨ports_idle hl' hc rfl, hsession', hwf'⟩
    | .ok false t => exact absurd rfl (hn t)
    | .err k t => exact inv_iff.2 ⟨ports_idle hl' hc rfl, hsession', hwf'⟩

/-- R212: a host operation that is over leaves neither lock nor hold. -/
theorem finish_done_inv {r : Result} {t : State} (hc : t.cs = false) (hi : t.sessionInv = true)
    (hw : t.buffer.wf = true) : (Turn.done r t).finish.inv = true :=
  inv_iff.2 ⟨ports_idle rfl hc rfl, hi, hw⟩

/-- R158: one that is held keeps the lock, with its window open. -/
theorem finish_held_inv {t : State} (hl : t.lock = true) (hc : t.cs = true) (hi : t.sessionInv = true)
    (hw : t.buffer.wf = true) : (Turn.held t).finish.inv = true :=
  inv_iff.2 ⟨portsInv_iff.2 ⟨iff_of_true hl rfl, iff_of_true hc rfl⟩, hi, hw⟩

/-- A WRITE_RUN inside its host operation, which holds the lock. -/
theorem writeTurn_inv {s : State} {r : Res Bool} (hr : InRun s r.state) (hi : s.sessionInv = true)
    (hw : s.buffer.wf = true) (hl : s.lock = true) (h : HeldOrClosed r) : (writeTurn r).finish.inv = true := by
  have hsession : r.state.sessionInv = true := (sessionInv_congr hr.ctype hr.fsm hr.speed).trans hi
  have hwf : r.state.buffer.wf = true := hr.wf hw
  obtain ⟨t, rfl, hc⟩ | ⟨hc, hn⟩ := h
  · exact finish_held_inv (hr.lock.trans hl) hc hsession hwf
  · cases r with
    | ok ended t =>
      cases ended with
      | true => exact finish_done_inv hc hsession hwf
      | false => exact absurd rfl (hn t)
    | err k t => exact finish_done_inv (t := t.setErr k) hc hsession hwf

/-- A write operation of the host, type check included. -/
theorem write_inv {s t : State} {sector count : Word} (hi : s.inv = true) (hc : s.cs = false)
    (h : hostOp (typeChecked (.io .notRdy) fun t => writeTurn (writeRun sector count 0 t)) s = .next t) :
    t.inv = true := by
  obtain ⟨-, hsession, hwf⟩ := inv_iff.1 hi
  obtain ⟨-, rfl⟩ := hostOp_next h
  by_cases ht : s.begin.ctype = .unknown
  · rw [typeChecked_unknown ht]
    exact finish_done_inv (t := s.begin.setErr .notReady) hc hsession hwf
  · rw [typeChecked_known ht]
    have hr := inRun_card.writeRun inRun_writeBlock sector count 0 s.begin
    exact writeTurn_inv hr hsession hwf rfl ((writeRun_end sector count 0 s.begin).heldOrClosed hc)

/-- The rows that are no host operation, run by themselves in an idle block: whole transactions, or exchanges that leave
chip-select as it is. -/
theorem exec_row_inv {i : Instr} {s t : State} (hrow : i.format ≠ .fHost) (hi : s.inv = true) (hh : s.hold = none)
    (h : exec i s = .next t) : t.inv = true := by
  have hcommand : CommandSafe fun _ => True := fun _ _ => trivial
  have hblock : BlockSafe fun _ => True := fun _ _ => trivial
  cases i with
  | cmd0 | cmd1 | cmd8 | cmd13 | cmd55 | cmd58 =>
    exact inv_of_transaction (quiet_card.command _ _ _) (outside_card.command _ _ _) hi hh h
  | acmd41Hcs | acmd41 => exact inv_of_transaction (quiet_card.sendAcmd _ _) (outside_card.sendAcmd _ _) hi hh h
  | cmd17 addr crc => exact inv_of_transaction (quiet_card.readBlock addr) (outside_card.readBlock addr) hi hh h
  | cmd24 addr crc =>
    obtain ⟨hl, hc⟩ := idle_ports (inv_iff.1 hi).1 hh
    cases h
    exact concludeBlock_inv (quiet_writeBlock addr s) hi hl ((writeBlock_end addr s).heldOrClosed hc)
  | frame idx arg crc =>
    exact inv_of_exchanges (keeps_andThen quiet_wire (keeps_setReg quiet_wire trivial) (keeps_ret quiet_wire _))
      (keeps_andThen sameCs_wire (keeps_setReg sameCs_wire trivial) (keeps_ret sameCs_wire _)) hi hh h
  | r1 b | notR1 b =>
    exact inv_of_received (keeps_r1Attempt quiet_wire hcommand) (keeps_r1Attempt sameCs_wire hcommand) hi hh h
  | r2 r status => exact inv_of_received (keeps_waitR2 quiet_wire hcommand) (keeps_waitR2 sameCs_wire hcommand) hi hh h
  | r3 r ocr | r7 r reg | r1Illegal b =>
    exact inv_of_received (keeps_waitR3 quiet_wire hcommand) (keeps_waitR3 sameCs_wire hcommand) hi hh h
  | dataStart d =>
    cases d with
    | fromCard =>
      exact inv_of_received (keeps_withCfg fun _ => keeps_pollOnce quiet_wire hcommand.poll _ _)
        (keeps_withCfg fun _ => keeps_pollOnce sameCs_wire hcommand.poll _ _) hi hh h
    | toCard => exact inv_of_exchanges (keeps_tx quiet_wire _) (keeps_tx sameCs_wire _) hi hh h
  | dataBlock d payload crc =>
    cases d with
    | fromCard => exact inv_of_received (keeps_recvData quiet_wire hblock) (keeps_recvData sameCs_wire hblock) hi hh h
    | toCard =>
      exact inv_of_exchanges (keeps_andThen quiet_wire (keeps_setReg quiet_wire trivial) (keeps_sendData quiet_wire))
        (keeps_andThen sameCs_wire (keeps_setReg sameCs_wire trivial) (keeps_sendData sameCs_wire)) hi hh h
  | drespAccepted b | drespCrcError b | drespWriteError b | drespBadFormat b =>
    exact inv_of_received (keeps_recvDresp quiet_wire hblock) (keeps_recvDresp sameCs_wire hblock) hi hh h
  | busy =>
    exact inv_of_received (keeps_busyAttempt quiet_wire hcommand.poll) (keeps_busyAttempt sameCs_wire hcommand.poll) hi hh h
  | fill => exact inv_of_exchanges (keeps_filler quiet_wire 1) (keeps_filler sameCs_wire 1) hi hh h
  | initializeCard | getType | wakeUp | readSector | writeSector | readSectors | writeSectors | getStatus =>
    exact absurd rfl hrow

theorem readTurn_isDone (r : Res Unit) : Turn.isDone (readTurn r) := by cases r <;> trivial

/-- A read operation of the host, type check included. -/
theorem read_inv {s t : State} {sector count : Word} (hi : s.inv = true) (hc : s.cs = false)
    (h : hostOp (typeChecked (.io .notRdy) fun t => readTurn (readRun sector count 0 t)) s = .next t) :
    t.inv = true := by
  obtain ⟨-, rfl⟩ := hostOp_next h
  exact frame_done_inv hi hc (typeChecked_outside ⟨outside_read sector count 0 s.begin, readTurn_isDone _⟩)
    (typeChecked_frame (readRun_frame sector count 0))

theorem wakeSequence_isDone (s : State) : Turn.isDone (wakeSequence s) := by
  unfold wakeSequence
  split <;> trivial

theorem statusQuery_isDone (s : State) : Turn.isDone (statusQuery s) := by
  obtain ⟨t, v, -, e⟩ | ⟨t, -, e⟩ | ⟨t, -, e⟩ := statusQuery_cases s <;> rw [e]
  · trivial
  · trivial
  · obtain ⟨-, e⟩ | ⟨-, u, v, -, e⟩ | ⟨-, u, k, -, -, e⟩ := statusAfterInit_cases (initSequence t) <;>
      rw [e] <;> trivial

theorem exec_host_inv {i : Instr} {s t : State} (hhost : i.format = .fHost) (hi : s.inv = true) (hh : s.hold = none)
    (h : exec i s = .next t) : t.inv = true := by
  obtain ⟨hports, hsession, hwf⟩ := inv_iff.1 hi
  obtain ⟨-, hc⟩ := idle_ports hports hh
  cases i with
  | initializeCard =>
    obtain ⟨-, rfl⟩ := hostOp_next (body := fun u => typeTurn (initSequence u)) h
    exact done_inv (tn := typeTurn (initSequence s.begin)) hc (outside_initSequence s.begin) trivial
      (initSequence_inv s.begin) ((initSequence_buffer s.begin).symm ▸ hwf)
  | getType => cases h; exact hi
  | wakeUp =>
    obtain ⟨-, rfl⟩ := hostOp_next h
    exact frame_done_inv hi hc (typeChecked_outside ⟨outside_wake s.begin, wakeSequence_isDone _⟩)
      (typeChecked_frame wake_frame)
  | readSector sector => exact read_inv hi hc h
  | readSectors sector count timeout => exact read_inv hi hc h
  | writeSector sector => exact write_inv hi hc h
  | writeSectors sector count timeout => exact write_inv hi hc h
  | getStatus =>
    obtain ⟨-, rfl⟩ := hostOp_next h
    obtain ⟨hsession', hbuffer⟩ := status_inv s.begin hsession
    exact done_inv hc (outside_status s.begin) (statusQuery_isDone _) hsession' (hbuffer.symm ▸ hwf)
  | _ => cases hhost

theorem exec_inv {i : Instr} {s t : State} (hi : s.inv = true) (hh : s.hold = none) (h : exec i s = .next t) :
    t.inv = true := by
  by_cases hhost : i.format = .fHost
  · exact exec_host_inv hhost hi hh h
  · exact exec_row_inv hhost hi hh h

/-- R158: the step of a held write, which begins with chip-select asserted. -/
theorem resumeHeld_inv {x : Hold} {s : State} (hi : s.inv = true) (hh : s.hold = some x) :
    (resumeHeld x s).inv = true := by
  obtain ⟨hports, hsession, hwf⟩ := inv_iff.1 hi
  obtain ⟨hlock, hcs⟩ := portsInv_iff.1 hports
  rw [hh] at hlock hcs
  have hc : s.cs = true := hcs.2 rfl
  cases x with
  | block =>
    have hl : s.lock = false := by simpa using hlock
    exact concludeBlock_inv (quiet_writeResume s) hi hl (writeResume_end s hc)
  | run =>
    exact writeTurn_inv (inRun_card.writeRunResume (fun u => (quiet_writeResume u).inRun) inRun_writeBlock s) hsession hwf
      (hlock.2 rfl) (writeRunResume_end s hc)

/-- Settles O55: a step resumes a held write, waits, or runs an instruction in an idle block; taking a request or a row off the
bench touches nothing that the invariants speak of. -/
theorem everyStepKeepsInvariant : Obligations.EveryStepKeepsInvariant := by
  intro s t hi h
  obtain ⟨x, hh, rfl⟩ | ⟨-, -, -, rfl⟩ | ⟨hh, q, i, -, -, h⟩ | ⟨hh, -, bytes, rest, i, -, -, -, h⟩ := step_cases h
  · exact resumeHeld_inv hi hh
  · exact hi
  · exact exec_inv (s := s.setBench none) hi hh h
  · exact exec_inv (s := s.setPort rest) hi hh h

/-- Settles O56: after reset nothing is in progress, no type is resolved and the host buffer is empty. -/
theorem resetMeetsInvariant : Obligations.ResetMeetsInvariant :=
  inv_iff.2 ⟨ports_idle rfl rfl rfl, rfl, rfl⟩

end Sys2Proof.Machine
end

section
/-! The command codec: CRC7, the frame builder, and the card commands that have no data phase
(spec/40_command_codec.md R100 to R119). -/

namespace Sys2Proof.Machine

/-! ## CRC7 (R100 to R102) -/

/-- Settles O4: the register starts at 0, so the division that its steps carry out is of the run's polynomial times x^7. -/
theorem crcIsRemainderByGenerator : Obligations.CrcIsRemainderByGenerator := by
  intro bytes
  obtain ⟨q, hq⟩ := crc_bits (bytes.flatMap bitsMsbFirst) 0
  have hstart : crcPolynomial (registerBits 0) = 0 := by simp [crcPolynomial, registerBits]
  refine ⟨q, ?_⟩
  rwa [hstart, zero_mul, zero_add, ← crc7Run_bits] at hq

/-! ## The frame builder (R104) -/

/-- R71: the index of a frame stands in its first byte. -/
theorem frameByte0_injective {idx idx' : BitVec 6} (h : frameByte0 idx = frameByte0 idx') : idx = idx' := by
  apply BitVec.eq_of_toNat_eq
  have := congrArg BitVec.toNat h
  rw [frameByte0_toNat, frameByte0_toNat] at this
  omega

/-- R54: a word is determined by its four bytes. -/
theorem wordBytes_injective {w w' : Word} (h : wordBytes w = wordBytes w') : w = w' := by
  have hbytes : ∀ v : Word, beWord (v.extractLsb' 24 8) (v.extractLsb' 16 8) (v.extractLsb' 8 8) (v.extractLsb' 0 8) = v :=
    beWord_wordBytes
  simp only [wordBytes, List.cons.injEq] at h
  obtain ⟨h3, h2, h1, h0, -⟩ := h
  rw [← hbytes w, h3, h2, h1, h0, hbytes]

theorem buildFrame_toList (idx : BitVec 6) (arg : Word) :
    (buildFrame idx arg).toList = frameHead idx arg ++ [crcByte (frameHead idx arg)] := rfl

theorem frameHead_injective {idx idx' : BitVec 6} {arg arg' : Word} (h : frameHead idx arg = frameHead idx' arg') :
    idx = idx' ∧ arg = arg' := by
  obtain ⟨hidx, harg⟩ := List.cons.inj h
  exact ⟨frameByte0_injective hidx, wordBytes_injective harg⟩

/-- Settles O6: byte by byte; index and argument are determined by the five bytes that the CRC is computed over. -/
theorem frameRowBuildsFrame : Obligations.FrameRowBuildsFrame := by
  refine ⟨fun idx arg crc s => ⟨rfl, frameByte0_toNat idx, wordBytes_toNat arg, crcSlot_toNat _⟩,
    fun idx idx' arg arg' h => ?injective⟩
  have hlist := congrArg Vector.toList h
  rw [buildFrame_toList, buildFrame_toList] at hlist
  exact frameHead_injective (List.append_inj_left hlist rfl)

/-! ## Card commands as instructions -/

/-- A transaction run by itself over what the card answers. -/
theorem runAlone_txn {α : Type} {p : Proc α} {shown : α → Result} {s : State} {got : List Byte} {events : List Event}
    {d : Datapath} {o : Except ErrKind α} {rest : List Reply} (h : GivesTxn s.cfg p s.dp got events d o)
    (hc : s.card = replies got ++ rest) :
    runAlone p shown s = .next ((outcome o ((s.setCs false).saw events rest d)).conclude shown) :=
  congrArg (fun r : Res α => Host.Outcome.next (r.conclude shown)) (h s rest rfl rfl hc)

/-- Settles O11: the three commands are the same transaction with different indices. -/
theorem plainCommandsReturnR1 : Obligations.PlainCommandsReturnR1 := by
  intro s a rest ha hm hc
  have hcmd (idx : BitVec 6) := runAlone_txn (shown := .r1) (gives_command_r1 idx 0 a ha hm) hc
  exact ⟨hcmd 0, hcmd 1, hcmd 55⟩

/-- Settles O12: CMD8 and CMD58 wait for a register in the same way, CMD13 for a second byte. -/
theorem longCommandsReturnRegister : Obligations.LongCommandsReturnRegister := by
  intro s a rest ha hi hc
  refine ⟨fun v hm => ?register, fun b hm => ?status⟩
  case register =>
    have hcmd (idx : BitVec 6) (arg : Word) : runAlone (command idx arg .r3) (fun p => .reg p.1 p.2) s =
        .next ((s.answered idx arg a rest fun d => { d with reg32 := v }).setResult (.reg a.r1 v)) :=
      runAlone_txn (gives_command_reg idx arg a v ha hi hm) hc
    exact ⟨hcmd 8 0x1AA, hcmd 58 0⟩
  case status =>
    have hcmd (idx : BitVec 6) (arg : Word) : runAlone (command idx arg .r2) .r2 s =
        .next ((s.answered idx arg a rest fun d => { d with r2b := b }).setResult (.r2 (a.r1 ++ b))) :=
      runAlone_txn (gives_command_r2 idx arg a b ha hi hm) hc
    exact hcmd 13 0

theorem r1IdleOrReady_iff {b : Byte} : r1IdleOrReady b = true ↔ b = 0x00 ∨ b = 0x01 := by
  simp [r1IdleOrReady]

/-- R110: the two windows of an application command, one after the other. -/
theorem answered_answered (s : State) (app a : Answer) (n : BitVec 6) (arg : Word) (mid rest : List Reply) :
    (s.answered 55 0 app mid id).answered n arg a rest id = (s.setCs false).saw
      (app.events (buildFrame 55 0).toList ++ a.events (buildFrame n arg).toList) rest
      { (s.dp.framed 55 0).framed n arg with r1 := a.r1, poll := a.wait.length + 1 } := by
  simp [State.answered, State.saw, State.setCs, Datapath.framed]

/-- Settles O13: HCS only enters the argument of the body. -/
theorem acmd41SendsAppCommandThenBody : Obligations.Acmd41SendsAppCommandThenBody := by
  intro s app a rest happ hmapp happR1 ha hma hc
  have hbody : app.appOk s.cfg = true := Answer.appOk_iff.2 ⟨happ, hmapp, r1IdleOrReady_iff.2 happR1⟩
  have hcmd (arg : Word) : runAlone (sendAcmd 41 arg) .r1 s = .next
      (((s.answered 55 0 app (replies a.bytes ++ rest) id).answered 41 arg a rest id).setResult (.r1 a.r1)) := by
    rw [answered_answered]
    exact runAlone_txn (gives_sendAcmd 41 arg app a hbody (Answer.plain_iff.2 ⟨ha, hma⟩)) hc
  exact ⟨hcmd _, hcmd _⟩

/-- Settles O14: both rows end with the transaction of CMD55. -/
theorem acmd41BodyNotSentWhenRejected : Obligations.Acmd41BodyNotSentWhenRejected := by
  intro s app rest happ hm h0 h1 hc
  have hrejected : r1IdleOrReady app.r1 = false :=
    Bool.eq_false_iff.2 fun h => (r1IdleOrReady_iff.1 h).elim h0 h1
  have hcmd (arg : Word) := runAlone_txn (shown := .r1)
    (gives_sendAcmd_rejected 41 arg app (Answer.plain_iff.2 ⟨happ, hm⟩) hrejected) hc
  exact ⟨hcmd _, hcmd _⟩

/-- Settles O15: a longer response whose R1 has illegal-command is cut at its R1, whichever response is due. -/
theorem longCommandsFailIllegal : Obligations.LongCommandsFailIllegal := by
  intro s a rest ha hm hi hc
  have hreg (idx : BitVec 6) (arg : Word) (shown : Byte × Word → Result) :=
    runAlone_txn (shown := shown) (gives_command_illegal idx arg .r3 (by decide) a ha hi hm) hc
  exact ⟨hreg 8 cmd8Arg _, runAlone_txn (shown := .r2) (gives_command_illegal 13 0 .r2 (by decide) a ha hi hm) hc,
    hreg 58 0 _⟩

/-- Settles O16: a wait that gets no R1 is the same for all ten commands: what would follow its R1 is not run. -/
theorem commandsTimeOutWithoutR1 : Obligations.CommandsTimeOutWithoutR1 := by
  intro s x rest hx hc
  have hcmd (idx : BitVec 6) (arg : Word) (k : RespKind) (shown : k.Value → Result) :=
    runAlone_txn (shown := shown) (gives_command_silence idx arg k x hx) hc
  have happ (arg : Word) := runAlone_txn (shown := .r1) (gives_sendAcmd_noApp 41 arg x hx) hc
  refine ⟨hcmd 0 0 .r1 _, hcmd 1 0 .r1 _, hcmd 8 cmd8Arg .r7 _, hcmd 13 0 .r2 _, hcmd 55 0 .r1 _, hcmd 58 0 .r3 _, happ _,
    happ _, fun addr crc => ?read, fun addr crc => ?write⟩
  case read => exact runAlone_txn (shown := fun _ => .done) (gives_block_silence (q := recvData) 17 addr x hx) hc
  case write =>
    exact congrArg (fun r => Host.Outcome.next (concludeBlock r)) (gives_writeBlock_silence addr x hx s rest rfl rfl hc)

/-! ## The window of a transaction and the way out of it (R105, R108, R109) -/

/-- R152, R158: WRITE_BLOCK leaves its window open, which takes an unbounded busy poll, or it ends like every transaction. -/
theorem writeBlock_heldOrExits (addr : Word) (s : State) :
    (∃ u, s.cfg.nBusy = none ∧ writeBody addr s.csAssert = .ok false u ∧ writeBlock addr s = .ok false u) ∨
      (∀ u, writeBody addr s.csAssert ≠ .ok false u) ∧ ExitsFrom (writeBody addr s.csAssert) (writeBlock addr s) := by
  have hblock : writeBlock addr s = writeExit (writeBody addr s.csAssert) := rfl
  rw [hblock]
  match hbody : writeBody addr s.csAssert with
  | .ok false u => exact .inl ⟨u, writeBody_held (s := s.csAssert) hbody, rfl, rfl⟩
  | .ok true u => exact .inr ⟨fun _ => by simp, txnExit_exitsFrom _⟩
  | .err k u => exact .inr ⟨fun _ => by simp, txnExit_exitsFrom _⟩

/-- R158: a further attempt of an unbounded busy poll leaves the window open or ends like every transaction. -/
theorem writeResume_polledOrExits (s : State) :
    (∃ o u, busyAttempt s = .ok o u ∧
      (o = none ∧ writeResume s = .ok false u ∨ o.isSome = true ∧ ExitsFrom (.ok true u) (writeResume s))) ∨
      ∃ k u, busyAttempt s = .err k u ∧ ExitsFrom (.err k u) (writeResume s) := by
  match hpoll : busyAttempt s with
  | .ok none u =>
    have hresume : writeResume s = .ok false u := congrArg writeExit (Proc.bind_ok hpoll)
    exact .inl ⟨none, u, rfl, .inl ⟨rfl, hresume⟩⟩
  | .ok (some b) u =>
    have hresume : writeResume s = txnExit (.ok true u) := congrArg writeExit (Proc.bind_ok hpoll)
    exact .inl ⟨some b, u, rfl, .inr ⟨rfl, hresume ▸ txnExit_exitsFrom _⟩⟩
  | .err k u =>
    have hresume : writeResume s = txnExit (.err k u) := congrArg writeExit (Proc.bind_err hpoll)
    exact .inr ⟨k, u, rfl, hresume ▸ txnExit_exitsFrom _⟩

/-- Settles O17: the window from the shape of the events of what goes on inside it, the exit from `txnExit`, through which every
transaction leaves. -/
theorem transactionsExitOneWay : Obligations.TransactionsExitOneWay := fun s =>
  ⟨fun idx arg k => ⟨(failsIn_commandBody idx arg k s.csAssert).window, txnExit_exitsFrom _⟩,
    fun addr => ⟨(failsIn_readBody addr s.csAssert).window, txnExit_exitsFrom _⟩,
    fun addr => ⟨(failsIn_writeBody addr s.csAssert).window, writeBlock_heldOrExits addr s⟩,
    writeResume_polledOrExits s⟩

/-- R105: the frame is sent byte by byte, so that the exchange that fails is the last one. -/
theorem sendFrame_failing {s : State} (idx : BitVec 6) (arg : Word) {got : List Byte} {rest : List Reply}
    (h : got.length < 6) (hc : s.card = replies got ++ .fail :: rest) :
    sendFrame idx arg s = .err .ioError (s.saw (exchanges (buildFrame idx arg).toList got ++
      [.xchg (buildFrame idx arg)[got.length] .fail]) rest (s.dp.framed idx arg)) := by
  have hlen : got.length < (buildFrame idx arg).toList.length := by simpa using h
  have hsend := txList_failing (buildFrame idx arg).toList got (s.mapDp fun d => d.framed idx arg) rest hlen hc
  rw [Vector.getElem_toList] at hsend
  exact hsend

/-- Settles O18: the command fails inside its frame, so that nothing of its response is waited for, and leaves its window by the
deassert alone. -/
theorem frameStopsAtTransportFailure : Obligations.FrameStopsAtTransportFailure := by
  intro s idx arg k got rest h hc
  have hbody : (sendFrame idx arg).andThen (waitFor k) s.csAssert = _ :=
    Proc.andThen_err (sendFrame_failing idx arg h hc)
  calc command idx arg k s
    _ = txnExit ((sendFrame idx arg).andThen (waitFor k) s.csAssert) := rfl
    _ = _ := by rw [hbody]; simp [txnExit, State.saw, State.csDeassert, State.csAssert, State.setCs, State.record]

end Sys2Proof.Machine
end

section
/-! The block-transfer rows and the two block commands run by themselves (spec/42_block_transfer.md R145 to R159). -/

namespace Sys2Proof.Machine

/-! ## CMD17 and CMD24 (R146, R147, R152, R156, R158) -/

/-- A CMD24 whose WRITE_BLOCK ends over what the card answers. -/
theorem cmd24_txn {s : State} {addr : Word} {crc : BitVec 7} {got : List Byte} {events : List Event} {d : Datapath}
    {o : Except ErrKind Bool} {rest : List Reply} (h : GivesTxn s.cfg (writeBlock addr) s.dp got events d o)
    (hc : s.card = replies got ++ rest) :
    exec (.cmd24 addr crc) s = .next (concludeBlock (outcome o ((s.setCs false).saw events rest d))) :=
  congrArg (fun r => Host.Outcome.next (concludeBlock r)) (h s rest rfl rfl hc)

/-- Settles O19: the closed form of READ_BLOCK over an answer that serves the block. -/
theorem cmd17ReadsBlock : Obligations.Cmd17ReadsBlock := by
  intro s addr crc a rest ha hc
  exact runAlone_txn (shown := fun _ => .done) (gives_readBlock addr a ha) hc

/-- Settles O20: the closed form of WRITE_BLOCK over an answer that takes the block. -/
theorem cmd24WritesBlock : Obligations.Cmd24WritesBlock := by
  intro s addr crc a rest ha hc
  obtain ⟨hok, hd, hb⟩ := WriteAnswer.taken_iff.1 ha
  exact cmd24_txn (gives_writeBlock_ok addr a hok hd hb) hc

/-- Settles O21: both commands wait for the R1 0x00 in the same way, and nothing after that wait is run. -/
theorem blockCommandsNeedZeroR1 : Obligations.BlockCommandsNeedZeroR1 := by
  intro s addr crc a rest ha hm hz hc
  have hplain : a.plain s.cfg = true := Answer.plain_iff.2 ⟨ha, hm⟩
  exact ⟨runAlone_txn (shown := fun _ => .done) (gives_block_nonzero (q := recvData) 17 addr a hplain hz) hc,
    cmd24_txn (gives_writeBlock_nonzero addr a hplain hz) hc⟩

/-- Settles O24: every class but the accepted one ends the write at its data response, with the class's kind. -/
theorem cmd24RejectedSkipsBusyPoll : Obligations.Cmd24RejectedSkipsBusyPoll := by
  intro s addr crc a rest ha hb hc
  have hrejected (cls : DataResponse) (h : classifyDresp a.dresp = cls) (hne : cls ≠ .accepted) :
      exec (.cmd24 addr crc) s =
        .next (((s.blockSent addr a rest (a.wait.length + 1)).setHold none).setResult (.failed (drespKind cls))) := by
    subst h
    exact cmd24_txn (gives_writeBlock_rejected addr a ha hne hb) hc
  exact ⟨fun h => hrejected _ h (by decide), fun h => hrejected _ h (by decide), fun h => hrejected _ h (by decide)⟩

/-- Settles O25: the closed form of WRITE_BLOCK over an answer whose busy poll uses up N_BUSY. -/
theorem cmd24BusyPollTimesOut : Obligations.Cmd24BusyPollTimesOut := by
  intro s addr crc a rest n hn ha hd hb hc
  have hbusy : a.busy.all isBusyByte = true := by simp [hb, isBusyByte]
  exact cmd24_txn (gives_writeBlock_busy addr a ha hd hn hbusy (by simp [hb])) hc

/-! ## The data rows (R83, R148 to R150, R154, R155) -/

/-- A row that exchanges bytes outside a transaction, over what the card answers. -/
theorem runAlone_gives {α : Type} {p : Proc α} {shown : α → Result} {s : State} {got : List Byte} {events : List Event}
    {d : Datapath} {o : Except ErrKind α} {rest : List Reply} (h : Gives s.cfg p s.dp got events d o)
    (hc : s.card = replies got ++ rest) :
    runAlone p shown s = .next ((outcome o (s.saw events rest d)).conclude shown) :=
  congrArg (fun r : Res α => Host.Outcome.next (r.conclude shown)) (h s rest rfl rfl hc)

/-- The token ends an attempt of WAIT_TOKEN, whatever POLL is. -/
theorem gives_tokenAttempt {c : Config} {d : Datapath} : Gives c tokenAttempt d [0xFE] [.xchg fillByte (.ok 0xFE)]
    { d with poll := d.poll + 1 } (.ok (some 0xFE)) :=
  Gives.withCfg (gives_pollOnce_accept (some c.nToken) rfl)

/-- A block from the card whose token comes at the first poll. -/
theorem gives_recvBlock {c : Config} {d : Datapath} (payload : Block) (crc : BitVec 16) (hn : 1 ≤ c.nToken) :
    Gives c recvData d (0xFE :: payload.toList ++ [crc.extractLsb' 8 8, crc.extractLsb' 0 8])
      (exchanges (fills 515) (0xFE :: payload.toList ++ [crc.extractLsb' 8 8, crc.extractLsb' 0 8]))
      { d with poll := 1, buf := payload, crc16 := crc } (.ok ()) := by
  have h := gives_recvData (c := c) (d := d) (gap := []) payload (crc.extractLsb' 8 8) (crc.extractLsb' 0 8) rfl hn
  rw [extract_append] at h
  exact h

/-- What the card returns while a block goes out: one byte during the token, 512 during the payload, two during the CRC. -/
theorem exists_block_bytes {got : List Byte} (h : got.length = 515) :
    ∃ (token hi lo : Byte) (payload : Vector Byte 512), got = token :: (payload.toList ++ [hi, lo]) := by
  match got with
  | token :: tail =>
    have htail : tail.length = 514 := by simpa using h
    obtain ⟨hi, lo, hcrc⟩ : ∃ hi lo, tail.drop 512 = [hi, lo] := List.length_eq_two.1 (by simp [htail])
    exact ⟨token, hi, lo, ⟨(tail.take 512).toArray, by simp [htail]⟩, by simp [← hcrc]⟩

/-- A block to the card, loaded into BUF first; what the card returns meanwhile is discarded. -/
theorem gives_sendBlock {c : Config} {d : Datapath} (payload : Block) {got : List Byte} (hl : got.length = 515) :
    Gives c ((setReg fun p => { p with buf := payload }).andThen sendData) d got
      (exchanges (0xFE :: payload.toList ++ [0xFF, 0xFF]) got) { d with buf := payload } (.ok ()) := by
  obtain ⟨token, hi, lo, returned, rfl⟩ := exists_block_bytes hl
  exact (gives_setReg _).andThen (gives_sendData token hi lo returned)

/-- Settles O26: each row is one procedure over exactly the bytes it moves. -/
theorem dataRowsMoveBlocks : Obligations.DataRowsMoveBlocks := by
  refine ⟨fun s => ?startFromCard, fun s b rest hc => ?startToCard, fun s payload crc hn => ?blockFromCard,
    fun s payload crc got rest hl hc => ?blockToCard⟩
  case startFromCard => exact runAlone_arrive_gives gives_tokenAttempt
  case startToCard => exact runAlone_gives (shown := fun _ => .done) (gives_tx tokenStart b) hc
  case blockFromCard => exact runAlone_arrive_gives (gives_recvBlock payload crc hn)
  case blockToCard => exact runAlone_gives (shown := fun _ => .done) (gives_sendBlock payload hl) hc

/-! ## The rows of the data response, of busy and of the filler (R84, R156, R158, R106) -/

/-- R156: bit 4 is tested first, then the nibble. -/
theorem classifyDresp_eq (b : Byte) : classifyDresp b =
    if b.toNat / 16 % 2 = 1 then .badFormat
    else if b.toNat % 16 = 0b0101 then .accepted
    else if b.toNat % 16 = 0b1011 then .crcError
    else if b.toNat % 16 = 0b1101 then .writeError
    else .badFormat := by
  revert b; decide

/-- Settles O23: all four rows are the one read of a data response, which fails with the kind of every class but the accepted
one. -/
theorem dataResponseRowsDecode : Obligations.DataResponseRowsDecode := by
  intro s b
  have hread (cls : DataResponse) (h : classifyDresp b = cls) (hne : cls ≠ .accepted) :
      runAlone recvDresp (fun _ => .done) (s.arrive [b]) = .next { s with
        log := .xchg 0xFF (.ok b) :: s.log, dp := { s.dp with dresp := b }, result := .failed (drespKind cls) } := by
    subst h
    exact runAlone_arrive_gives (gives_recvDresp_err b hne)
  refine ⟨fun h4 hn => ?accepted, fun h4 hn => ?crcError, fun h4 hn => ?writeError, fun h => ?badFormat⟩
  case accepted => exact runAlone_arrive_gives (gives_recvDresp_ok b (by simp [classifyDresp_eq, h4, hn]))
  case crcError => exact hread .crcError (by simp [classifyDresp_eq, h4, hn]) (by decide)
  case writeError => exact hread .writeError (by simp [classifyDresp_eq, h4, hn]) (by decide)
  case badFormat =>
    refine hread .badFormat ?_ (by decide)
    obtain h4 | ⟨h5, hB, hD⟩ := h
    · simp [classifyDresp_eq, h4]
    · simp [classifyDresp_eq, h5, hB, hD]

/-- R158: the byte 0x00 does not end the busy poll; with budget left the attempt only counts. -/
theorem gives_busyAttempt_reject {c : Config} {d : Datapath}
    (hn : c.nBusy.any (fun n => decide (n ≤ d.poll + 1)) = false) :
    Gives c busyAttempt d [0x00] [.xchg fillByte (.ok 0x00)] { d with poll := d.poll + 1 } (.ok none) :=
  Gives.withCfg (gives_pollOnce_reject c.nBusy rfl hn)

theorem gives_busyAttempt_timeout {c : Config} {d : Datapath}
    (hn : c.nBusy.any (fun n => decide (n ≤ d.poll + 1)) = true) :
    Gives c busyAttempt d [0x00] [.xchg fillByte (.ok 0x00)] { d with poll := d.poll + 1 } (.error .timeout) :=
  Gives.withCfg (gives_pollOnce_timeout c.nBusy rfl hn)

/-- Settles O27: an attempt of the busy poll that receives 0x00 counts or, with N_BUSY used up, fails; the filler is one
exchange. -/
theorem busyAndFillRows : Obligations.BusyAndFillRows := by
  refine ⟨fun s => ?busy, fun s b rest hc => ?fill⟩
  case busy =>
    split
    · next hn => exact runAlone_arrive_gives (gives_busyAttempt_timeout hn)
    · next hn => exact runAlone_arrive_gives (gives_busyAttempt_reject (Bool.eq_false_iff.2 hn))
  case fill => exact runAlone_gives (p := filler 1) (shown := fun _ => .done) (gives_filler (n := 1) (got := [b]) rfl) hc

end Sys2Proof.Machine
end

section
/-! The host data buffer (spec/20_memory.md R50, R52, R58). -/

namespace Sys2Proof.Machine

/-- Settles O60: the laws of MemRead and MemWrite, offset by offset. -/
theorem hostBufferLaws : Obligations.HostBufferLaws := by
  intro m off v
  refine ⟨?readBack, fun a ha => Memory.read_writeBytes_outside m off v ha, Memory.wf_writeBytes off v,
    fun n hm hn h => Memory.wf_ext hm hn h⟩
  apply List.ext_getElem (Memory.readBytes_length _ _ _)
  intro i hi hv
  simp [Memory.readBytes, Memory.read_writeBytes_inside m off v hv]

end Sys2Proof.Machine
end

section
/-! Runs of sectors as host operations (spec/42_block_transfer.md R160 to R162; spec/44_host_operations.md R204 to R208). -/

namespace Sys2Proof.Machine

/-! ## READ_SECTOR and WRITE_SECTOR are the runs of one sector (R205, R206) -/

theorem exec_readSector_eq (sector timeout : Word) (s : State) :
    exec (.readSector sector) s = exec (.readSectors sector 1 timeout) s := rfl

theorem exec_writeSector_eq (sector timeout : Word) (s : State) :
    exec (.writeSector sector) s = exec (.writeSectors sector 1 timeout) s := rfl

/-! ## Runs whose sectors are all served or taken -/

theorem toNat_ofNat_length {α : Type} {l : List α} (h : l.length < 2 ^ 32) : (BitVec.ofNat 32 l.length).toNat = l.length := by
  rw [BitVec.toNat_ofNat, Nat.mod_eq_of_lt h]

/-- R160: READ_SECTORS over a card that serves every sector. -/
theorem exec_readSectors_served {s : State} {sector timeout : Word} {answers : List ReadAnswer} {rest : List Reply}
    (hf : s.lockFree = true) (ht : s.ctype ≠ .unknown) (hne : answers ≠ [])
    (hlim : sector.toNat + answers.length ≤ sectorLimit s.ctype) (hlen : answers.length < 2 ^ 32)
    (hok : ∀ a ∈ answers, a.ok s.cfg = true) (hc : s.card = replies (answers.flatMap ReadAnswer.bytes) ++ rest) :
    exec (.readSectors sector (BitVec.ofNat 32 answers.length) timeout) s =
      .next { s.served (readEvents s.ctype sector answers) rest (.io .ok) with buffer := putBlocks s.buffer 0 answers } := by
  have hcount := toNat_ofNat_length hlen
  obtain ⟨d, hrun⟩ := readLoop_served answers (s.runStart sector (BitVec.ofNat 32 answers.length)) rest hok hc hcount hlim
  rw [exec_readSectors hf ht, hcount, hrun, readTurn, finish_readTo, isEmpty_false hne, Bool.and_false]
  rfl

/-- R161: WRITE_SECTORS over a card that takes every sector. -/
theorem exec_writeSectors_taken {s : State} {sector timeout : Word} {answers : List WriteAnswer} {rest : List Reply}
    (hf : s.lockFree = true) (ht : s.ctype ≠ .unknown) (hne : answers ≠ [])
    (hlim : sector.toNat + answers.length ≤ sectorLimit s.ctype) (hlen : answers.length < 2 ^ 32)
    (hok : ∀ a ∈ answers, a.taken s.cfg = true) (hc : s.card = replies (answers.flatMap WriteAnswer.bytes) ++ rest) :
    exec (.writeSectors sector (BitVec.ofNat 32 answers.length) timeout) s =
      .next (s.served (writeEvents s.ctype s.buffer sector 0 answers) rest (.io .ok)) := by
  have hcount := toNat_ofNat_length hlen
  obtain ⟨d, hrun⟩ := writeLoop_taken answers (s.runStart sector (BitVec.ofNat 32 answers.length)) rest hok hc hcount hlim
  rw [exec_writeSectors hf ht, hcount, hrun, writeTurn, finish_wroteTo, isEmpty_false hne, Bool.and_false]
  rfl

/-- Settles O35: the state is that of the run; where the payloads are in its buffer is what the blocks stored one after another
read as. -/
theorem readRunStoresSectors : Obligations.ReadRunStoresSectors := by
  intro s sector timeout answers rest hf ht hne hlim hlen hok hc
  have hrun := exec_readSectors_served (timeout := timeout) hf ht hne hlim hlen hok hc
  refine ⟨_, rfl, hrun, fun hone => ?single, fun i a hi j hj => ?inside, fun off hoff => ?outside⟩
  case single => rwa [hone] at hrun
  case inside => simpa using putBlocks_inside s.buffer 0 answers i a hi j hj
  case outside => exact putBlocks_outside s.buffer 0 answers off (.inr (by simpa using hoff))

/-- Settles O36: the state is that of the run, which writes nothing of the buffer. -/
theorem writeRunSendsSectors : Obligations.WriteRunSendsSectors := by
  intro s sector timeout answers rest hf ht hne hlim hlen hok hc
  have hrun := exec_writeSectors_taken (timeout := timeout) hf ht hne hlim hlen hok hc
  refine ⟨_, rfl, hrun, fun hone => ?single⟩
  rwa [hone] at hrun

/-- R205: READ_SECTOR over a card that serves the sector. -/
theorem exec_readSector_served {s : State} {sector : Word} {a : ReadAnswer} {rest : List Reply} (hf : s.lockFree = true)
    (ht : s.ctype ≠ .unknown) (hlim : sector.toNat < sectorLimit s.ctype) (ha : a.ok s.cfg = true)
    (hc : s.card = replies a.bytes ++ rest) : exec (.readSector sector) s =
      .next { s.served (readEvents s.ctype sector [a]) rest (.io .ok) with buffer := putBlocks s.buffer 0 [a] } :=
  exec_readSectors_served (answers := [a]) (timeout := 0) hf ht (by simp) hlim (by simp) (by simpa using ha)
    (by simpa using hc)

/-- Settles O30: the trace apart, the state after a served READ_SECTOR is made of the payload only. -/
theorem readIgnoresCrcBytes : Obligations.ReadIgnoresCrcBytes := by
  intro s sector a hi lo rest hf ht hlim ha
  have hread (b : ReadAnswer) (hb : b.ok s.cfg = true) :=
    exec_readSector_served (s := { s with card := replies b.bytes ++ rest }) (rest := rest) hf ht hlim hb rfl
  refine ⟨_, _, hread a ha, hread { a with crcHi := hi, crcLo := lo } ha, rfl, ?states⟩
  rfl

/-! ## Runs that transfer nothing -/

/-- R212: a run that did nothing leaves nothing but the lock pair in the trace. -/
theorem finish_start (s : State) (sector count : Word) (r : Result) :
    (Turn.done r (s.runStart sector count)).finish = { s.served [] s.card r with cs := s.cs } := by
  simp [Turn.finish, State.runStart, State.served, State.begin, State.lockAcquire, State.lockRelease, State.forget,
    State.setErr, State.setHold, State.setResult, State.setLock, State.record, State.mapDp]

/-- Settles O37: the loop of a run with no sectors is empty, and ends well inside the lock. -/
theorem countZeroTransfersNothing : Obligations.CountZeroTransfersNothing := by
  intro s sector timeout hf ht
  have hread : readLoop (0 : Word).toNat (s.runStart sector 0) = .ok () (s.runStart sector 0) := rfl
  have hwrite : writeLoop (0 : Word).toNat (s.runStart sector 0) = .ok true (s.runStart sector 0) := rfl
  rw [exec_readSectors hf ht, exec_writeSectors hf ht, hread, hwrite, readTurn, writeTurn, finish_start]
  exact ⟨rfl, rfl⟩

/-- R204: a run whose first sector has no address ends at once. -/
theorem readLoop_noAddress {n : Nat} {s : State} (h : sectorLimit s.ctype ≤ s.dp.sect.toNat) :
    readLoop (n + 1) s = .err .addressOverflow s := Proc.bind_err (setAddress_overflow h)

theorem writeLoop_noAddress {n : Nat} {s : State} (h : sectorLimit s.ctype ≤ s.dp.sect.toNat) :
    writeLoop (n + 1) s = .err .addressOverflow s := Proc.bind_err (setAddress_overflow h)

theorem exec_readSectors_noAddress {s : State} {sector count timeout : Word} (hf : s.lockFree = true)
    (ht : s.ctype ≠ .unknown) (hn : count ≠ 0) (h : sectorLimit s.ctype ≤ sector.toNat) :
    exec (.readSectors sector count timeout) s =
      .next { s.served [] s.card (.io .error) with cs := s.cs, err := .addressOverflow } := by
  obtain ⟨n, hcount⟩ : ∃ n, count.toNat = n + 1 := Nat.exists_eq_succ_of_ne_zero fun h0 => hn (BitVec.eq_of_toNat_eq h0)
  rw [exec_readSectors hf ht, hcount, readLoop_noAddress (s := s.runStart sector count) h, readTurn, finish_start_err]

theorem exec_writeSectors_noAddress {s : State} {sector count timeout : Word} (hf : s.lockFree = true)
    (ht : s.ctype ≠ .unknown) (hn : count ≠ 0) (h : sectorLimit s.ctype ≤ sector.toNat) :
    exec (.writeSectors sector count timeout) s =
      .next { s.served [] s.card (.io .error) with cs := s.cs, err := .addressOverflow } := by
  obtain ⟨n, hcount⟩ : ∃ n, count.toNat = n + 1 := Nat.exists_eq_succ_of_ne_zero fun h0 => hn (BitVec.eq_of_toNat_eq h0)
  rw [exec_writeSectors hf ht, hcount, writeLoop_noAddress (s := s.runStart sector count) h, writeTurn, finish_start_err]

/-! ## Runs that come to the end of the addresses (R204) -/

/-- Settles O38: the sectors before the end of the addresses are done, and the next one fails before any event; with none before
it, nothing is done at all. -/
theorem runStopsWhereAddressesEnd : Obligations.RunStopsWhereAddressesEnd := by
  intro s sector count timeout rest hf ht
  refine ⟨fun answers hlen hlim hok hc => ?read, fun answers hlen hlim hok hc => ?write, fun hlim => ⟨_, rfl, ?none⟩⟩
  case read =>
    obtain ⟨k, hk⟩ := Nat.exists_eq_add_of_lt hlen
    obtain ⟨d, hrun⟩ := readLoop_overflow answers k (s.runStart sector count) rest hok hc hk hlim
    rw [exec_readSectors hf ht, hk, Nat.add_assoc, hrun, readTurn, finish_readTo_err]
  case write =>
    obtain ⟨k, hk⟩ := Nat.exists_eq_add_of_lt hlen
    obtain ⟨d, hrun⟩ := writeLoop_overflow answers k (s.runStart sector count) rest hok hc hk hlim
    rw [exec_writeSectors hf ht, hk, Nat.add_assoc, hrun, writeTurn, finish_wroteTo_err]
  case none =>
    exact ⟨exec_readSectors_noAddress (timeout := timeout) hf ht (by decide) hlim,
      exec_writeSectors_noAddress (timeout := timeout) hf ht (by decide) hlim,
      fun hn => ⟨exec_readSectors_noAddress hf ht hn hlim, exec_writeSectors_noAddress hf ht hn hlim⟩⟩

/-! ## Runs that abort (R160, R161, R240) -/

/-- READ_SECTORS over a card that serves some sectors and then cuts one short. -/
theorem exec_readSectors_cut {s : State} {sector count timeout : Word} {answers : List ReadAnswer} {x : ReadCut}
    {rest : List Reply} (hf : s.lockFree = true) (ht : s.ctype ≠ .unknown) (hlen : answers.length < count.toNat)
    (hlim : sector.toNat + answers.length < sectorLimit s.ctype) (hok : ∀ a ∈ answers, a.ok s.cfg = true)
    (hx : x.ok s.cfg = true) (hc : s.card = replies (answers.flatMap ReadAnswer.bytes) ++ (x.outcomes ++ rest)) :
    exec (.readSectors sector count timeout) s = .next { s.served (readEvents s.ctype sector answers ++
        x.events (protocolAddress s.ctype (sector + BitVec.ofNat 32 answers.length))) rest (.io .error) with
      err := x.kind, buffer := putBlocks s.buffer 0 answers } := by
  obtain ⟨k, hk⟩ := Nat.exists_eq_add_of_lt hlen
  obtain ⟨d, d', hrun⟩ := readLoop_cut answers x k (s.runStart sector count) rest hok hx hc hk hlim
  rw [exec_readSectors hf ht, hk, Nat.add_assoc, hrun, readTurn, finish_readCut]
  rfl

/-- WRITE_SECTORS over a card that takes some sectors and then cuts one short. -/
theorem exec_writeSectors_cut {s : State} {sector count timeout : Word} {answers : List WriteAnswer} {x : WriteCut}
    {rest : List Reply} (hf : s.lockFree = true) (ht : s.ctype ≠ .unknown) (hlen : answers.length < count.toNat)
    (hlim : sector.toNat + answers.length < sectorLimit s.ctype) (hok : ∀ a ∈ answers, a.taken s.cfg = true)
    (hx : x.ok s.cfg = true) (hc : s.card = replies (answers.flatMap WriteAnswer.bytes) ++ (x.outcomes ++ rest)) :
    exec (.writeSectors sector count timeout) s =
      .next { s.served (writeEvents s.ctype s.buffer sector 0 answers ++
          x.events (protocolAddress s.ctype (sector + BitVec.ofNat 32 answers.length))
            (s.buffer.readBytes (512 * answers.length) 512)) rest (.io .error) with
        err := x.kind } := by
  obtain ⟨k, hk⟩ := Nat.exists_eq_add_of_lt hlen
  obtain ⟨d, d', hrun⟩ := writeLoop_cut answers x k (s.runStart sector count) rest hok hx hc hk hlim
  rw [exec_writeSectors hf ht, hk, Nat.add_assoc, hrun, writeTurn, finish_writeCut]
  simp [State.runStart, State.begin, State.lockAcquire, State.setErr, State.mapDp]

/-- Settles O39: the run's state, in which the failing sector and those after it have stored nothing. -/
theorem readRunAbortsAtFirstFailure : Obligations.ReadRunAbortsAtFirstFailure := by
  intro s sector count timeout answers x rest hf ht hlen hlim hok hx hc
  refine ⟨_, rfl, exec_readSectors_cut hf ht hlen hlim hok hx hc, fun hnone => ?single, fun off hoff => ?outside⟩
  case single =>
    subst hnone
    exact exec_readSectors_cut (timeout := timeout) hf ht (by decide) hlim hok hx hc
  case outside => exact putBlocks_outside s.buffer 0 answers off (.inr (by simpa using hoff))

/-- Settles O40: the run's state, in which the buffer is as it was. -/
theorem writeRunAbortsAtFirstFailure : Obligations.WriteRunAbortsAtFirstFailure := by
  intro s sector count timeout answers x rest hf ht hlen hlim hok hx hc
  refine ⟨_, rfl, exec_writeSectors_cut hf ht hlen hlim hok hx hc, fun hnone => ?single⟩
  subst hnone
  exact exec_writeSectors_cut (timeout := timeout) hf ht (by decide) hlim hok hx hc

end Sys2Proof.Machine
end

section
/-! Host operations and steps in every state and whatever the card does (spec/44_host_operations.md R200 to R212,
spec/60_exceptions.md R231 to R243, spec/20_memory.md R60 to R64). -/

namespace Sys2Proof.Machine

/-! ## The lock (R43, R212) -/

theorem hostOp_notFree {s : State} (h : s.lockFree = false) (body : State → Turn) :
    hostOp body s = .fault .lockHeld := by
  simp [hostOp, h]

/-- Settles O34: every host operation but GET_TYPE is a `hostOp`, which has no step while the lock is not free. -/
theorem noStepWithoutLock : Obligations.NoStepWithoutLock := by
  intro s i h hi hne
  have hlock : s.lockFree = false := by
    obtain h | h := h <;> simp [State.lockFree, h]
  cases i with
  | getType => exact absurd rfl hne
  | initializeCard => exact hostOp_notFree hlock fun u => typeTurn (initSequence u)
  | wakeUp | readSector | writeSector | readSectors | writeSectors | getStatus => exact hostOp_notFree hlock _
  | _ => cases hi

/-- R212, R64: a body that is done, and outside chip-select windows whenever it begins there, is bracketed by the lock. -/
theorem hostOp_envelope {body : State → Turn} {s : State} (hf : s.lockFree = true) (hc : s.cs = false)
    (h : Outside s.begin (Turn.state (body s.begin)) ∧ Turn.isDone (body s.begin)) :
    ∃ t mid, hostOp body s = .next t ∧ t.log = .lockRelease :: mid ++ .lockAcquire :: s.log ∧
      windowRun false mid.reverse = some false ∧ .lockAcquire ∉ mid ∧ .lockRelease ∉ mid ∧
      t.lock = false ∧ t.cs = false ∧ t.hold = none := by
  obtain ⟨hout, hdone⟩ := h
  obtain ⟨hcs, mid, hlog, hwindow, hacquire, hrelease⟩ := hout hc
  refine ⟨_, mid, hostOp_free hf body, ?_⟩
  cases hbody : body s.begin with
  | held u => rw [hbody] at hdone; exact hdone.elim
  | done r u =>
    rw [hbody] at hcs hlog
    exact ⟨congrArg (Event.lockRelease :: ·) hlog, hwindow, hacquire, hrelease, rfl, hcs, rfl⟩

/-- R158: with N_BUSY bounded no write run is held. -/
theorem writeRun_outside {s : State} (hn : s.cfg.nBusy ≠ none) (sector count : Word) :
    Outside s (Turn.state (writeTurn (writeRun sector count 0 s))) ∧ Turn.isDone (writeTurn (writeRun sector count 0 s)) :=
  (write_out sector count 0 s).resolve_left fun ⟨_, _, _, hnone⟩ => hn hnone

/-- Settles O54: the bodies of the host operations stay outside windows, and only a write can be left unfinished, which takes an
unbounded busy poll. -/
theorem lockEnvelopeAndWindows : Obligations.LockEnvelopeAndWindows := by
  intro i s hi hne hf hn hc
  cases i with
  | getType => exact absurd rfl hne
  | initializeCard =>
    exact hostOp_envelope (body := fun u => typeTurn (initSequence u)) hf hc ⟨outside_initSequence s.begin, trivial⟩
  | wakeUp => exact hostOp_envelope hf hc (typeChecked_outside ⟨outside_wake s.begin, wakeSequence_isDone _⟩)
  | readSector sector =>
    exact hostOp_envelope hf hc (typeChecked_outside ⟨outside_read sector 1 0 s.begin, readTurn_isDone _⟩)
  | readSectors sector count timeout =>
    exact hostOp_envelope hf hc (typeChecked_outside ⟨outside_read sector count 0 s.begin, readTurn_isDone _⟩)
  | writeSector sector =>
    have hbounded : s.cfg.nBusy ≠ none := hn.resolve_right fun h => h.1 sector rfl
    exact hostOp_envelope hf hc (typeChecked_outside (writeRun_outside (s := s.begin) hbounded sector 1))
  | writeSectors sector count timeout =>
    have hbounded : s.cfg.nBusy ≠ none := hn.resolve_right fun h => h.2 sector count timeout rfl
    exact hostOp_envelope hf hc (typeChecked_outside (writeRun_outside (s := s.begin) hbounded sector count))
  | getStatus => exact hostOp_envelope hf hc ⟨outside_status s.begin, statusQuery_isDone _⟩
  | _ => cases hi

/-! ## What instructions and steps leave unchanged -/

/-- Settles O53: the frames of the host operations that run no initialization, and of the rows that are none. -/
theorem onlyInitializationChangesSession : Obligations.OnlyInitializationChangesSession := by
  intro i s t h
  by_cases hi : i.format = .fHost
  · refine ⟨fun hinit hstatus => ?session, fun hrow => ?err⟩
    case session =>
      have hf := exec_host hi hinit hstatus h
      exact ⟨hf.ctype, hf.speed, hf.fsm, hf.warn, hf.visits⟩
    case err =>
      obtain rfl := hrow.resolve_left fun hne => hne hi
      cases h
      exact ⟨rfl, rfl, rfl⟩
  · obtain ⟨u, y, x, hq, rfl⟩ := exec_row hi h
    exact ⟨fun _ _ => ⟨hq.ctype, hq.speed, hq.fsm, hq.warn, hq.visits⟩, fun _ => ⟨hq.err, hq.lock, hq.buffer⟩⟩

/-- The parameters, the grant and the ports stay, and the trace only grows. -/
structure Appends (s t : State) : Prop where
  cfg : t.cfg = s.cfg
  grant : t.grant = s.grant
  port : t.port = s.port
  bench : t.bench = s.bench
  log : ∃ new, t.log = new ++ s.log

theorem Appends.trans {s t u : State} (h : Appends s t) (g : Appends t u) : Appends s u := by
  obtain ⟨a, ha⟩ := h.log
  obtain ⟨b, hb⟩ := g.log
  exact ⟨g.cfg.trans h.cfg, g.grant.trans h.grant, g.port.trans h.port, g.bench.trans h.bench, b ++ a,
    by rw [hb, ha, List.append_assoc]⟩

theorem Quiet.appends {s t : State} (h : Quiet s t) : Appends s t := ⟨h.cfg, h.grant, h.port, h.bench, h.log⟩

theorem InSession.appends {s t : State} (h : InSession s t) : Appends s t := ⟨h.cfg, h.grant, h.port, h.bench, h.log⟩

theorem HostFrame.appends {s t : State} (h : HostFrame s t) : Appends s t := ⟨h.cfg, h.grant, h.port, h.bench, h.log⟩

theorem initSequence_appends (s : State) : Appends s (initSequence s) := by
  have hstart : Appends s s.initStart := ⟨rfl, rfl, rfl, rfl, [.setSpeed .slow], rfl⟩
  cases initSequence_out s with
  | ok t new c hc hs hm hn he =>
    rw [he]
    exact (hstart.trans hs.appends).trans ⟨rfl, rfl, rfl, rfl, [.setSpeed .fast], rfl⟩
  | failed t new k hk hs hm hn he =>
    rw [he]
    exact (hstart.trans hs.appends).trans ⟨rfl, rfl, rfl, rfl, [], rfl⟩

theorem statusQuery_appends (s : State) : Appends s (Turn.state (statusQuery s)) := by
  have herr (u : State) (k : ErrKind) : Appends u (u.setErr k) := ⟨rfl, rfl, rfl, rfl, [], rfl⟩
  obtain ⟨t, v, hq, e⟩ | ⟨t, hq, e⟩ | ⟨t, hq, e⟩ := statusQuery_cases s <;> rw [e]
  · exact hq.appends
  · exact hq.appends.trans (herr t _)
  · refine (hq.appends.trans (initSequence_appends t)).trans ?retry
    obtain ⟨-, e⟩ | ⟨-, u, v, hu, e⟩ | ⟨-, u, k, hu, -, e⟩ := statusAfterInit_cases (initSequence t) <;> rw [e]
    · exact (Quiet.refl _).appends
    · exact hu.appends
    · exact hu.appends.trans (herr u k)

theorem hostOp_appends {body : State → Turn} {s t : State} (hb : ∀ u, Appends u (Turn.state (body u)))
    (h : hostOp body s = .next t) : Appends s t := by
  obtain ⟨-, rfl⟩ := hostOp_next h
  exact ((hostFrame_begin s).appends.trans (hb s.begin)).trans (hostFrame_finish _).appends

theorem exec_appends {i : Instr} {s t : State} (h : exec i s = .next t) : Appends s t := by
  by_cases hi : i.format = .fHost
  · by_cases hinit : i = .initializeCard
    · subst hinit
      exact hostOp_appends (body := fun u => typeTurn (initSequence u)) initSequence_appends h
    · by_cases hstatus : i = .getStatus
      · subst hstatus
        exact hostOp_appends statusQuery_appends h
      · exact (exec_host hi hinit hstatus h).appends
  · obtain ⟨u, y, x, hu, rfl⟩ := exec_row hi h
    exact hu.appends.trans ⟨rfl, rfl, rfl, rfl, [], rfl⟩

theorem Appends.trace {s t : State} (h : Appends s t) : ∃ new, t.trace = s.trace ++ new := by
  obtain ⟨new, hlog⟩ := h.log
  exact ⟨new.reverse, by rw [State.trace, hlog, List.reverse_append]; rfl⟩

/-- Settles O59: by what the step did; only taking a request or a row off the bench touches a port. -/
theorem stepOnlyAppendsToTrace : Obligations.StepOnlyAppendsToTrace := by
  intro s t h
  obtain ⟨x, hh, rfl⟩ | ⟨-, -, -, rfl⟩ | ⟨-, q, i, hq, -, h⟩ | ⟨-, hb, bytes, rest, i, hp, hd, hi, h⟩ := step_cases h
  · have ha := (resume_frame x s).appends
    exact ⟨ha.cfg, ha.grant, ha.trace, .inl ha.port, .inl ha.bench, fun _ hnone => by rw [hh] at hnone; cases hnone⟩
  · exact ⟨rfl, rfl, (Quiet.refl _).appends.trace, .inl rfl, .inl rfl, fun _ _ => .inl rfl⟩
  · have ha := exec_appends h
    exact ⟨ha.cfg, ha.grant, ha.trace, .inl ha.port, .inr ha.bench, fun hnone => by rw [hq] at hnone; cases hnone⟩
  · have ha := exec_appends h
    have hport : t.port = rest := ha.port
    subst hport
    exact ⟨ha.cfg, ha.grant, ha.trace, .inr ⟨bytes, hp⟩, .inl (ha.bench.trans rfl),
      fun _ _ => .inr ⟨bytes, i, hp, hd, hi, h⟩⟩

/-! ## One step (R3, R45, R200, U19) -/

/-- What running a request comes to, by what its bytes are read as. -/
theorem runRequest_reads (q : Request) (s : State) :
    (∀ i, decode q.format q.bytes = .ok (i, []) → runRequest q s = exec i s) ∧
    (∀ e, decode q.format q.bytes = .error e → runRequest q s = .refused (.badRequest e)) ∧
    (∀ i b bs, decode q.format q.bytes = .ok (i, b :: bs) → runRequest q s = .refused .trailingBytes) := by
  refine ⟨fun i h => ?_, fun e h => ?_, fun i b bs h => ?_⟩ <;> simp [runRequest, decodeRequest, h]

theorem step_held {s : State} {x : Hold} (hh : s.hold = some x) : step s = .next (resumeHeld x s) := by
  simp [step, hh]

theorem step_bench {s : State} {q : Request} (hh : s.hold = none) (hb : s.bench = some q) :
    step s = runRequest q (s.setBench none) := by
  simp [step, hh, hb]

theorem step_port {s : State} {bytes : List Byte} {rest : List (List Byte)} (hh : s.hold = none) (hb : s.bench = none)
    (hp : s.port = bytes :: rest) : step s = runRequest (hostRequest bytes) (s.setPort rest) := by
  simp [step, hh, hb, hp]

theorem step_idle {s : State} (hh : s.hold = none) (hb : s.bench = none) (hp : s.port = []) : step s = .next s := by
  simp [step, hh, hb, hp]

/-- Settles O58: a step is, in this order, the resumption of a held write, the run of the row on the bench, the run of the first
request, or nothing. -/
theorem stepRunsDecodedInstruction : Obligations.StepRunsDecodedInstruction := by
  intro s
  refine ⟨fun hh hb bytes rest hp => ?port, step_idle, fun hh q hb => ?bench, fun _ => step_held⟩
  case port =>
    rw [step_port hh hb hp]
    obtain ⟨hexec, hbad, htrailing⟩ := runRequest_reads (hostRequest bytes) (s.setPort rest)
    exact ⟨fun i hd => ⟨decode_fHost_format hd, hexec i hd⟩, hbad, htrailing⟩
  case bench =>
    rw [step_bench hh hb]
    exact runRequest_reads q (s.setBench none)

end Sys2Proof.Machine
end

section
/-! READ_SECTOR as an all-or-nothing transfer (spec/20_memory.md R58; spec/44_host_operations.md R205, R206). -/

namespace Sys2Proof.Machine

/-- The host buffer and the registers of a run that count its sectors stay. -/
structure KeepsRun (s t : State) : Prop where
  buffer : t.buffer = s.buffer
  remain : t.dp.remain = s.dp.remain
  off : t.dp.off = s.dp.off

theorem KeepsRun.trans {s t u : State} (h : KeepsRun s t) (g : KeepsRun t u) : KeepsRun s u :=
  ⟨g.buffer.trans h.buffer, g.remain.trans h.remain, g.off.trans h.off⟩

theorem keepsRun_wire : WireRel (fun f => ∀ d, BlockRegs d (f d)) KeepsRun where
  refl := fun _ => ⟨rfl, rfl, rfl⟩
  trans := KeepsRun.trans
  xchg := fun s m o => by unfold State.takeReply; split <;> exact ⟨rfl, rfl, rfl⟩
  reg := fun s f hf => ⟨rfl, (hf s.dp).remain, (hf s.dp).off⟩

theorem keepsRun_window : WindowRel KeepsRun where
  open_ := fun _ => ⟨rfl, rfl, rfl⟩
  close := fun _ => ⟨rfl, rfl, rfl⟩

/-- R146: a block transfer touches neither the buffer nor the run's counters. -/
theorem keepsRun_readBlock (addr : Word) : Keeps KeepsRun (readBlock addr) :=
  keeps_readBlock keepsRun_wire keepsRun_window (fun _ hf => hf) addr

theorem keepsRun_setAddress : Keeps KeepsRun setAddress := by
  intro s
  unfold setAddress
  split <;> exact ⟨rfl, rfl, rfl⟩

/-- R160: a run of one sector fails with the buffer as it was, or ends well with one block stored. -/
theorem readLoop_one {s : State} (hr : s.dp.remain = 1) :
    (∃ k t, readLoop 1 s = .err k t ∧ t.buffer = s.buffer) ∨
      ∃ t, ∃ b : Block, readLoop 1 s = .ok () t ∧ t.buffer = s.buffer.writeBytes s.dp.off b.toList := by
  have hloop : readLoop 1 s =
      setAddress.bind (fun a => (readBlock a).andThen (storeBuf.andThen (advance.andThen (readLoop 0)))) s := rfl
  rw [hloop]
  cases haddr : setAddress s with
  | err k t => exact .inl ⟨k, t, Proc.bind_err haddr, (keepsRun_setAddress.err haddr).buffer⟩
  | ok a t =>
    have h1 := keepsRun_setAddress.ok haddr
    rw [Proc.bind_ok haddr]
    cases hblock : readBlock a t with
    | err k u => exact .inl ⟨k, u, Proc.andThen_err hblock, (h1.trans ((keepsRun_readBlock a).err hblock)).buffer⟩
    | ok _ u =>
      have h2 := h1.trans ((keepsRun_readBlock a).ok hblock)
      have hlast := advance_last (s := u.setBuffer (u.buffer.writeBytes u.dp.off u.dp.buf.toList)) (h2.remain.trans hr)
      have hstored := (Proc.andThen_ok (storeBuf_eq u)).trans (Proc.andThen_ok (q := readLoop 0) hlast)
      have hbuffer : u.buffer.writeBytes u.dp.off u.dp.buf.toList = s.buffer.writeBytes s.dp.off u.dp.buf.toList := by
        rw [h2.buffer, h2.off]
      exact .inr ⟨_, u.dp.buf, (Proc.andThen_ok hblock).trans hstored, hbuffer⟩

/-- R158, R212: the end of a host operation leaves the buffer alone. -/
theorem Turn.finish_buffer (tn : Turn) : tn.finish.buffer = (Turn.state tn).buffer := by cases tn <;> rfl

theorem exec_writeSectors_buffer {s t : State} {sector count timeout : Word}
    (h : exec (.writeSectors sector count timeout) s = .next t) : t.buffer = s.buffer := by
  have hrun := (quiet_card.writeRun quiet_writeBlock sector count 0 s.begin).buffer
  obtain ⟨-, rfl⟩ := hostOp_next h
  rw [Turn.finish_buffer]
  by_cases ht : s.begin.ctype = .unknown
  · rw [typeChecked_unknown ht]
    rfl
  · rw [typeChecked_known ht]
    cases hw : writeRun sector count 0 s.begin with
    | ok ended u => rw [hw] at hrun; cases ended <;> exact hrun
    | err k u => rw [hw] at hrun; exact hrun

/-- Settles O41: a read of one sector stores its block only when nothing can fail any more; a write run stores nothing. -/
theorem failedReadLeavesHostBuffer : Obligations.FailedReadLeavesHostBuffer := by
  intro s t sector
  refine ⟨fun h => ?read, exec_writeSectors_buffer (count := 1) (timeout := 0), fun _ _ => exec_writeSectors_buffer⟩
  obtain ⟨hf, -⟩ := hostOp_next h
  by_cases ht : s.ctype = .unknown
  · have hrefused : exec (.readSector sector) s = .next (Turn.done (.io .notRdy) (s.begin.setErr .notReady)).finish :=
      hostOp_typeChecked_unknown hf ht _ _
    rw [hrefused, finish_begin_setErr] at h
    cases h
    exact ⟨fun _ => rfl, fun _ _ => rfl⟩
  · rw [exec_readSector hf ht] at h
    obtain ⟨k, u, hrun, hbuffer⟩ | ⟨u, b, hrun, hbuffer⟩ := readLoop_one (s := s.runStart sector 1) rfl <;>
      rw [hrun] at h <;> cases h
    · have hsame : (readTurn (.err k u)).finish.buffer = s.buffer := hbuffer
      exact ⟨fun _ => hsame, fun off _ => by rw [hsame]⟩
    · have hstored : (readTurn (.ok () u)).finish.buffer = s.buffer.writeBytes 0 b.toList := hbuffer
      refine ⟨fun hr => absurd rfl hr, fun off hoff => ?_⟩
      rw [hstored, Memory.read_writeBytes_outside _ _ _ (.inr (by simpa using hoff))]

end Sys2Proof.Machine
end

section
/-! How every host operation ends: its result and the error kinds that go with it (spec/44_host_operations.md R210,
spec/60_exceptions.md R243). -/

namespace Sys2Proof.Machine

/-- R171 to R182: INIT_SEQUENCE, begun without an error, resolves a type or fails with one of its kinds. -/
theorem initSequence_result {s : State} (he : s.err = .none) :
    ((initSequence s).ctype ≠ .unknown ∧ (initSequence s).err = .none ∧ (initSequence s).fsm = .typeResolved ∧
      (initSequence s).speed = .fast) ∨
    ((initSequence s).ctype = .unknown ∧ (initSequence s).err ∈ initKinds ∧ (initSequence s).fsm = .failed ∧
      (initSequence s).speed = .slow) := by
  cases initSequence_out s with
  | ok t new c hc hs hm hn h =>
    rw [h]
    exact .inl ⟨hc, hs.err.trans he, rfl, rfl⟩
  | failed t new k hk hs hm hn h =>
    rw [h]
    exact .inr ⟨hs.ctype, hk, rfl, hs.speed⟩

/-- R201: how INITIALIZE ends. -/
theorem initialize_results {s : State} (hf : s.lockFree = true) :
    ∃ t, exec .initializeCard s = .next t ∧ t.result = .cardType t.ctype ∧ (t.err = .none ↔ t.ctype ≠ .unknown) ∧
      t.err ∈ [.none, .ioError, .timeout, .illegalCommand, .voltageMismatch] ∧
      (t.ctype = .unknown → t.fsm = .failed ∧ t.speed = .slow) ∧
      (t.ctype ≠ .unknown → t.fsm = .typeResolved ∧ t.speed = .fast) := by
  refine ⟨_, hostOp_free hf fun u => typeTurn (initSequence u), rfl, ?_⟩
  show ((initSequence s.begin).err = .none ↔ (initSequence s.begin).ctype ≠ .unknown) ∧ (initSequence s.begin).err ∈ _ ∧
    ((initSequence s.begin).ctype = .unknown → (initSequence s.begin).fsm = .failed ∧ (initSequence s.begin).speed = .slow) ∧
    ((initSequence s.begin).ctype ≠ .unknown →
      (initSequence s.begin).fsm = .typeResolved ∧ (initSequence s.begin).speed = .fast)
  obtain ⟨hc, he, hfsm, hspeed⟩ | ⟨hc, he, hfsm, hspeed⟩ := initSequence_result (s := s.begin) rfl
  · exact ⟨iff_of_true he hc, by simp [he], fun h => absurd h hc, fun _ => ⟨hfsm, hspeed⟩⟩
  · have hne : (initSequence s.begin).err ≠ .none := fun h => by rw [h] at he; revert he; decide
    exact ⟨iff_of_false hne (not_not.2 hc), List.mem_cons_of_mem _ he, fun _ => ⟨hfsm, hspeed⟩, fun h => absurd hc h⟩

/-- R183: how WAKE_SEQUENCE of a resolved type ends. -/
theorem wakeSequence_result {s : State} (ht : s.ctype ≠ .unknown) (he : s.err = .none) :
    ∃ c t, wakeSequence s = .done (.wake c) t ∧
      (c = .ready ∧ t.err = .none ∨ c = .notReady ∧ t.err = .timeout ∨ c = .error ∧ t.err = .ioError) := by
  unfold wakeSequence
  cases h : wakeLoop s.ctype s with
  | ok e t =>
    cases e with
    | ready => exact ⟨_, _, rfl, .inl ⟨rfl, ((quiet_card.wakeLoop s.ctype).ok h).err.trans he⟩⟩
    | exhausted => exact ⟨_, _, rfl, .inr (.inl ⟨rfl, rfl⟩)⟩
    | illegal => exact ⟨_, _, rfl, .inr (.inl ⟨rfl, rfl⟩)⟩
  | err k t =>
    obtain rfl := List.mem_singleton.1 (kinds_wakeLoop s.ctype ht s k t h)
    exact ⟨_, _, rfl, .inr (.inr ⟨rfl, rfl⟩)⟩

/-- R203: how WAKE_UP ends. -/
theorem wakeUp_results {s : State} (hf : s.lockFree = true) :
    ∃ t, exec .wakeUp s = .next t ∧ (t.result = .wake .ready ∧ t.err = .none ∨
      t.result = .wake .notReady ∧ t.err = .timeout ∨ t.result = .wake .error ∧ t.err = .ioError ∨
      s.ctype = .unknown ∧ t.result = .wake .error ∧ t.err = .notReady) := by
  by_cases ht : s.ctype = .unknown
  · exact ⟨_, hostOp_typeChecked_unknown hf ht _ _, .inr (.inr (.inr ⟨ht, rfl, rfl⟩))⟩
  · obtain ⟨c, t, hbody, hend⟩ := wakeSequence_result (s := s.begin) ht rfl
    have hexec : exec .wakeUp s = .next (Turn.done (.wake c) t).finish := by
      rw [← hbody, ← typeChecked_known (s := s.begin) ht (.wake .error) wakeSequence]
      exact hostOp_free hf _
    refine ⟨_, hexec, ?_⟩
    obtain ⟨rfl, he⟩ | ⟨rfl, he⟩ | ⟨rfl, he⟩ := hend
    · exact .inl ⟨rfl, he⟩
    · exact .inr (.inl ⟨rfl, he⟩)
    · exact .inr (.inr (.inl ⟨rfl, he⟩))

/-- R184: how STATUS_QUERY ends. -/
theorem statusQuery_result {s : State} (he : s.err = .none) : ∃ c t, statusQuery s = .done (.status c) t ∧
    (c ≠ .noMedium ∧ t.err = .none ∨
      c = .noMedium ∧ t.err ∈ [.ioError, .timeout, .illegalCommand, .voltageMismatch]) := by
  have hclass (v : BitVec 16) : classifyStatus v ≠ .noMedium := by unfold classifyStatus; split <;> decide
  obtain ⟨t, v, hq, e⟩ | ⟨t, hq, e⟩ | ⟨t, hq, e⟩ := statusQuery_cases s
  · exact ⟨_, _, e, .inl ⟨hclass v, hq.err.trans he⟩⟩
  · exact ⟨_, _, e, .inr ⟨rfl, by simp [State.setErr]⟩⟩
  · rw [e]
    have hinit := initSequence_result (hq.err.trans he)
    obtain ⟨hc, e⟩ | ⟨hc, u, v, hu, e⟩ | ⟨hc, u, k, hu, hk, e⟩ := statusAfterInit_cases (initSequence t)
    · obtain ⟨hne, -⟩ | ⟨-, hk, -⟩ := hinit
      · exact absurd hc hne
      · exact ⟨_, _, e, .inr ⟨rfl, hk⟩⟩
    · obtain ⟨-, hnone, -⟩ | ⟨hunknown, -⟩ := hinit
      · exact ⟨_, _, e, .inl ⟨hclass v, hu.err.trans hnone⟩⟩
      · exact absurd hunknown hc
    · refine ⟨_, _, e, .inr ⟨rfl, ?_⟩⟩
      show k ∈ _
      revert hk
      cases k <;> decide

/-- R209: how GET_STATUS ends. -/
theorem getStatus_results {s : State} (hf : s.lockFree = true) :
    ∃ t, exec .getStatus s = .next t ∧
      ((t.result = .status .ready ∨ t.result = .status .notInitialized) ∧ t.err = .none ∨
        t.result = .status .noMedium ∧ t.err ∈ [.ioError, .timeout, .illegalCommand, .voltageMismatch]) := by
  obtain ⟨c, t, hbody, hend⟩ := statusQuery_result (s := s.begin) rfl
  have hexec : exec .getStatus s = .next (Turn.done (.status c) t).finish := by
    rw [← hbody]
    exact hostOp_free hf statusQuery
  refine ⟨_, hexec, ?_⟩
  obtain ⟨hc, he⟩ | ⟨rfl, he⟩ := hend
  · refine .inl ⟨?_, he⟩
    cases c with
    | ready => exact .inl rfl
    | notInitialized => exact .inr rfl
    | noMedium => exact absurd rfl hc
  · exact .inr ⟨rfl, he⟩

/-- R205, R207: how a read operation ends. -/
theorem readSectors_results {s : State} (hf : s.lockFree = true) (sector count timeout : Word) :
    ∃ t, exec (.readSectors sector count timeout) s = .next t ∧ (t.result = .io .ok ∧ t.err = .none ∨
      s.ctype = .unknown ∧ t.result = .io .notRdy ∧ t.err = .notReady ∨
      t.result = .io .error ∧ t.err ∈ [.ioError, .timeout, .statusNotZero, .addressOverflow]) := by
  by_cases ht : s.ctype = .unknown
  · exact ⟨_, hostOp_typeChecked_unknown hf ht _ _, .inr (.inl ⟨ht, rfl, rfl⟩)⟩
  · refine ⟨_, exec_readSectors hf ht sector count timeout, ?_⟩
    have hframe := inRun_card.readLoop inRun_storeBuf count.toNat
    cases hrun : readLoop count.toNat (s.runStart sector count) with
    | ok _ u => exact .inl ⟨rfl, (hframe.ok hrun).err⟩
    | err k u => exact .inr (.inr ⟨rfl, kinds_readLoop _ _ k u hrun⟩)

/-- R206, R208, R158: how a write operation ends, or is held. -/
theorem writeSectors_results {s : State} (hf : s.lockFree = true) (sector count timeout : Word) :
    ∃ t, exec (.writeSectors sector count timeout) s = .next t ∧ (t.result = .io .ok ∧ t.err = .none ∨
      s.ctype = .unknown ∧ t.result = .io .notRdy ∧ t.err = .notReady ∨
      t.result = .io .error ∧ t.err ∈ [.ioError, .timeout, .statusNotZero, .dataCrcError, .dataWriteError, .answerFormat,
        .addressOverflow] ∨
      s.cfg.nBusy = none ∧ t.hold = some .run ∧ t.result = .pending ∧ t.lock = true ∧ t.cs = true) := by
  by_cases ht : s.ctype = .unknown
  · exact ⟨_, hostOp_typeChecked_unknown hf ht _ _, .inr (.inl ⟨ht, rfl, rfl⟩)⟩
  · refine ⟨_, exec_writeSectors hf ht sector count timeout, ?_⟩
    have hframe := inRun_card.writeLoop inRun_writeBlock count.toNat
    cases hrun : writeLoop count.toNat (s.runStart sector count) with
    | ok ended u =>
      have hu := hframe.ok hrun
      cases ended with
      | true => exact .inl ⟨rfl, hu.err⟩
      | false =>
        obtain ⟨v, hv, hcs, hn⟩ | ⟨-, hover⟩ := writeLoop_end count.toNat (s.runStart sector count)
        · cases hrun.symm.trans hv
          exact .inr (.inr (.inr ⟨hn, rfl, rfl, hu.lock, hcs⟩))
        · exact absurd hrun (hover u)
    | err k u => exact .inr (.inr (.inl ⟨rfl, kinds_writeLoop _ _ k u hrun⟩))

/-- Settles O48: operation by operation; the single-sector operations are the runs of one sector. -/
theorem resultsAndErrorKinds : Obligations.ResultsAndErrorKinds := by
  intro s hf
  refine ⟨initialize_results hf, wakeUp_results hf, getStatus_results hf, fun sector count timeout i hi => ?read,
    fun sector count timeout i hi => ?write⟩
  case read =>
    obtain rfl | rfl := List.mem_pair.1 hi
    · exact readSectors_results hf sector 1 timeout
    · exact readSectors_results hf sector count timeout
  case write =>
    obtain rfl | rfl := List.mem_pair.1 hi
    · exact writeSectors_results hf sector 1 timeout
    · exact writeSectors_results hf sector count timeout

end Sys2Proof.Machine
end

section
/-! The write whose unbounded busy poll is held (spec/42_block_transfer.md R158, R161; log entry 21). -/

namespace Sys2Proof.Machine

/-! ## A card that stays busy (R158) -/

/-- The byte 0x00 leaves a held write held: its step is one more exchange. -/
theorem step_stillBusy {s : State} {x : Hold} {rest : List Reply} (hn : s.cfg.nBusy = none) (hh : s.hold = some x)
    (hr : s.result = .pending) (hc : s.card = .ok 0x00 :: rest) : step s = .next { s with
      card := rest, log := .xchg 0xFF (.ok 0x00) :: s.log, dp := { s.dp with poll := s.dp.poll + 1 } } := by
  have hpoll := gives_busyAttempt_unbounded (d := s.dp) hn 0x00 s rest rfl rfl hc
  have hresume : writeResume s = .ok false (s.saw [.xchg 0xFF (.ok 0x00)] rest { s.dp with poll := s.dp.poll + 1 }) :=
    congrArg writeExit hpoll
  have hrun : writeRunResume s = .ok false (s.saw [.xchg 0xFF (.ok 0x00)] rest { s.dp with poll := s.dp.poll + 1 }) :=
    Proc.bind_ok hresume
  rw [step_held hh]
  cases x with
  | block =>
    rw [resumeHeld, hresume]
    simp [concludeBlock, State.saw, State.setHold, State.setResult, hh, hr]
  | run =>
    rw [resumeHeld, hrun]
    simp [writeTurn, Turn.finish, State.saw, State.setHold, State.setResult, hh, hr]

/-- Any number of such steps. -/
theorem stepsTo_stillBusy (k : Nat) {s : State} {x : Hold} {rest : List Reply} (hn : s.cfg.nBusy = none)
    (hh : s.hold = some x) (hr : s.result = .pending) (hc : s.card = replies (List.replicate k 0x00) ++ rest) :
    stepsTo k s = some { s with
      card := rest
      log := List.replicate k (.xchg 0xFF (.ok 0x00)) ++ s.log
      dp := { s.dp with poll := s.dp.poll + k } } := by
  induction k generalizing s with
  | zero =>
    have hcard : s.card = rest := hc
    subst hcard
    rfl
  | succ k ih =>
    rw [stepsTo, step_stillBusy (rest := replies (List.replicate k 0x00) ++ rest) hn hh hr hc]
    refine (ih ?bound ?hold ?result ?card).trans ?total
    case bound => exact hn
    case hold => exact hh
    case result => exact hr
    case card => rfl
    case total => simp [List.replicate_succ', Nat.add_assoc, Nat.add_comm 1 k]

/-- How a write run that is held at its first sector leaves the block. -/
theorem finish_startHeld (s : State) (sector count : Word) (r rest : List Reply) (d d' : Datapath) (ev : List Event) :
    (Turn.held (((s.runStart sector count).wroteTo [] r d).csAssert.saw ev rest d')).finish = { s with
      card := rest
      log := ev.reverse ++ .csAssert :: .lockAcquire :: s.log
      lock := true
      cs := true
      err := .none
      dp := d'
      hold := some .run
      result := .pending } := by
  simp [Turn.finish, State.setHold, State.setResult, State.saw, State.csAssert, State.setCs, State.record, State.wroteTo,
    State.runStart, State.mapDp, State.begin, State.setErr, State.lockAcquire, State.setLock, writeEvents]

/-- Settles O28: the hold begins with the first poll of the busy wait, which gets 0x00; every further 0x00 is one step. -/
theorem unboundedBusyPollHangs : Obligations.UnboundedBusyPollHangs := by
  refine ⟨fun s sector a rest hn hf ht hlim ha hd hb hc => ?held, fun s x k rest => stepsTo_stillBusy k⟩
  obtain ⟨d, d', hrun, -⟩ := writeLoop_held [] a 0 (s.runStart sector 1) rest hn (by simp) ha hd hb hc rfl hlim
  have hone : writeLoop 1 (s.runStart sector 1) = _ := hrun
  refine ⟨_, exec_writeSector hf ht sector, ?_⟩
  rw [hone, writeTurn, finish_startHeld]
  exact ⟨rfl, rfl, rfl, rfl, rfl, rfl, rfl, rfl⟩

/-! ## A card that leaves busy (R158, R159, R161) -/

theorem step_runHeld {s : State} (hh : s.hold = some .run) : step s = .next (writeTurn (writeRunResume s)).finish :=
  step_held hh

theorem step_blockHeld {s : State} (hh : s.hold = some .block) : step s = .next (concludeBlock (writeResume s)) :=
  step_held hh

section
variable {s : State} {b f : Byte} {more rest : List Reply} {answers : List WriteAnswer}

/-- With sectors left the run goes on from the next one. -/
theorem step_runHeld_next (hh : s.hold = some .run) (hn : s.cfg.nBusy = none) (hb : b ≠ 0x00)
    (hc : s.card = .ok b :: .ok f :: more) (hr : 2 ≤ s.dp.remain.toNat) (hs : s.dp.sect.toNat + 1 < 2 ^ 32) :
    step s = .next (writeTurn (writeLoop (s.dp.remain.toNat - 1) (s.polled b f more))).finish := by
  rw [step_runHeld hh, writeRunResume_next s b f more hn hb hc hr hs]

/-- To the end: the card takes every sector that is left. -/
theorem step_runHeld_taken (hh : s.hold = some .run) (hn : s.cfg.nBusy = none) (hb : b ≠ 0x00)
    (hc : s.card = .ok b :: .ok f :: more) (hok : ∀ a ∈ answers, a.taken s.cfg = true) (hne : answers ≠ [])
    (hr : s.dp.remain.toNat = answers.length + 1) (hlim : s.dp.sect.toNat + answers.length < sectorLimit s.ctype)
    (hm : more = replies (answers.flatMap WriteAnswer.bytes) ++ rest) :
    step s = .next (s.resumed (pollEnd b f ++ s.laterEvents answers) rest s.err (.io .ok)) := by
  have hpos := List.length_pos_iff.2 hne
  have hmax := sectorLimit_le s.ctype
  have hsect := s.polled_sect b f more (by omega)
  have hremain := s.polled_remain b f more (by omega)
  obtain ⟨d, hrun⟩ := writeLoop_taken answers (s.polled b f more) rest hok hm (by omega)
    (show _ ≤ sectorLimit s.ctype by omega)
  rw [step_runHeld_next hh hn hb hc (by omega) (by omega), hr, Nat.add_sub_cancel, hrun, State.polled_wroteTo, writeTurn,
    finish_resumed]

/-- Into a further hold. -/
theorem step_runHeld_again (hh : s.hold = some .run) (hn : s.cfg.nBusy = none) (hb : b ≠ 0x00)
    (hc : s.card = .ok b :: .ok f :: more) (hok : ∀ a ∈ answers, a.taken s.cfg = true) {a : WriteAnswer}
    (hr : answers.length + 1 < s.dp.remain.toNat)
    (hlim : s.dp.sect.toNat + (answers.length + 1) < sectorLimit s.ctype) (ha : a.ok s.cfg = true)
    (hd : classifyDresp a.dresp = .accepted) (hbusy : a.busy = [0x00])
    (hm : more = replies (answers.flatMap WriteAnswer.bytes) ++ (replies a.bytesToBusy ++ rest)) :
    ∃ d : Datapath, d.sect = s.laterSector answers ∧ d.off = s.laterOffset answers ∧
      d.remain.toNat + (answers.length + 1) = s.dp.remain.toNat ∧ step s = .next { s with
        card := rest
        log := (pollEnd b f ++ s.laterEvents answers ++ .csAssert :: exchanges (a.sentToBusy (protocolAddress s.ctype
          (s.laterSector answers)) (s.buffer.readBytes (s.laterOffset answers) 512)) a.bytesToBusy).reverse ++ s.log
        cs := true
        dp := d
        result := .pending } := by
  have hmax := sectorLimit_le s.ctype
  have hsect := s.polled_sect b f more (by omega)
  have hremain := s.polled_remain b f more (by omega)
  obtain ⟨k, hk⟩ : ∃ k, s.dp.remain.toNat - 1 = answers.length + (k + 1) :=
    ⟨s.dp.remain.toNat - answers.length - 2, by omega⟩
  obtain ⟨d, d', hrun, hds, hdo, hdr⟩ := writeLoop_held answers a k (s.polled b f more) rest hn hok ha hd hbusy hm (by omega)
    (show _ < sectorLimit s.ctype by omega)
  rw [State.polled_sector] at hrun hds
  rw [State.polled_offset] at hrun hdo
  refine ⟨d', hds, hdo, by omega, ?_⟩
  rw [step_runHeld_next hh hn hb hc (by omega) (by omega), hk, hrun, State.polled_wroteTo, writeTurn]
  simp [Turn.finish, State.setHold, State.setResult, State.saw, State.csAssert, State.setCs, State.record, hh, State.polled]

/-- To the failure of a sector that is cut short. -/
theorem step_runHeld_cut (hh : s.hold = some .run) (hn : s.cfg.nBusy = none) (hb : b ≠ 0x00)
    (hc : s.card = .ok b :: .ok f :: more) (hok : ∀ a ∈ answers, a.taken s.cfg = true) {x : WriteCut}
    (hr : answers.length + 1 < s.dp.remain.toNat)
    (hlim : s.dp.sect.toNat + (answers.length + 1) < sectorLimit s.ctype) (hx : x.ok s.cfg = true)
    (hm : more = replies (answers.flatMap WriteAnswer.bytes) ++ (x.outcomes ++ rest)) :
    step s = .next (s.resumed (pollEnd b f ++ s.laterEvents answers ++ x.events (protocolAddress s.ctype
      (s.laterSector answers)) (s.buffer.readBytes (s.laterOffset answers) 512)) rest x.kind (.io .error)) := by
  have hmax := sectorLimit_le s.ctype
  have hsect := s.polled_sect b f more (by omega)
  have hremain := s.polled_remain b f more (by omega)
  obtain ⟨k, hk⟩ : ∃ k, s.dp.remain.toNat - 1 = answers.length + (k + 1) :=
    ⟨s.dp.remain.toNat - answers.length - 2, by omega⟩
  obtain ⟨d, d', hrun⟩ := writeLoop_cut answers x k (s.polled b f more) rest hok hx hm (by omega)
    (show _ < sectorLimit s.ctype by omega)
  rw [State.polled_sector, State.polled_offset] at hrun
  rw [step_runHeld_next hh hn hb hc (by omega) (by omega), hk, hrun, State.polled_wroteTo, State.saw_setCs,
    State.setCs_setCs, State.saw_saw, writeTurn, finish_resumed_err]
  rfl

/-- To AddressOverflow, at a sector beyond the last address: with a number of its own, or past the last 32-bit number. -/
theorem step_runHeld_overflow (hh : s.hold = some .run) (hn : s.cfg.nBusy = none) (hb : b ≠ 0x00)
    (hc : s.card = .ok b :: .ok f :: more) (hok : ∀ a ∈ answers, a.taken s.cfg = true)
    (hr : answers.length + 1 < s.dp.remain.toNat)
    (hlim : s.dp.sect.toNat + (answers.length + 1) = sectorLimit s.ctype)
    (hm : more = replies (answers.flatMap WriteAnswer.bytes) ++ rest) :
    step s = .next (s.resumed (pollEnd b f ++ s.laterEvents answers) rest .addressOverflow (.io .error)) := by
  have hmax := sectorLimit_le s.ctype
  by_cases hs : s.dp.sect.toNat + 1 < 2 ^ 32
  · have hsect := s.polled_sect b f more hs
    have hremain := s.polled_remain b f more (by omega)
    obtain ⟨k, hk⟩ : ∃ k, s.dp.remain.toNat - 1 = answers.length + (k + 1) :=
      ⟨s.dp.remain.toNat - answers.length - 2, by omega⟩
    obtain ⟨d, hrun⟩ := writeLoop_overflow answers k (s.polled b f more) rest hok hm (by omega)
      (show _ = sectorLimit s.ctype by omega)
    rw [step_runHeld_next hh hn hb hc (by omega) hs, hk, hrun, State.polled_wroteTo, writeTurn, finish_resumed_err]
  · have hlast : s.dp.sect = 0xFFFFFFFF := BitVec.eq_of_toNat_eq (show s.dp.sect.toNat = 2 ^ 32 - 1 by omega)
    obtain rfl : answers = [] := List.length_eq_zero_iff.1 (by omega)
    obtain ⟨d, hrun⟩ := writeRunResume_wraps s b f more hn hb hc (by omega) hlast
    rw [step_runHeld hh, hrun, writeTurn, finish_resumed_err, hm]
    simp [State.laterEvents, writeEvents]

end

/-- R109, R233: the poll or the final filler fails in transport. -/
theorem writeResume_fails {s : State} {ev : List Event} {more : List Reply} (hn : s.cfg.nBusy = none)
    (h : s.card = .fail :: more ∧ ev = [.xchg 0xFF .fail, .csDeassert] ∨
      (∃ b, b ≠ 0x00 ∧ s.card = .ok b :: .fail :: more ∧ ev = [.xchg 0xFF (.ok b), .xchg 0xFF .fail, .csDeassert])) :
    writeResume s = .err .ioError ((s.setCs false).saw ev more { s.dp with poll := s.dp.poll + 1 }) := by
  obtain ⟨hc, rfl⟩ | ⟨b, hb, hc, rfl⟩ := h
  · exact writeResume_lost s more hc
  · exact writeResume_lostFiller s b more hn hb hc

/-- Settles O29: the end of the poll, then each way the rest of the run can go. -/
theorem heldWriteEndsWhenReady : Obligations.HeldWriteEndsWhenReady := by
  refine ⟨fun s b f more rest hn hb hc => ⟨fun hh => ?block, fun hh hr => ?last, fun answers hh hok =>
    ⟨fun hne hr hlim hm => ?taken, fun a hr hlim ha hd hbusy hm => ?again, fun x hr hlim hx hm => ?cut,
      fun hr hlim hm => ?overflow⟩⟩, fun s ev more hn h => ⟨fun hh => ?runFails, fun hh => ?blockFails⟩⟩
  case block =>
    rw [step_blockHeld hh, writeResume_ready s b f more hn hb hc]
    rfl
  case last =>
    obtain ⟨d, hrun⟩ := writeRunResume_last s b f more hn hb hc hr
    rw [step_runHeld hh, hrun, writeTurn, finish_resumed]
  case taken => exact step_runHeld_taken hh hn hb hc hok hne hr hlim hm
  case again => exact step_runHeld_again hh hn hb hc hok hr hlim ha hd hbusy hm
  case cut => exact step_runHeld_cut hh hn hb hc hok hr hlim hx hm
  case overflow => exact step_runHeld_overflow hh hn hb hc hok hr hlim hm
  case runFails =>
    have hrun : writeRunResume s = _ := Proc.bind_err (writeResume_fails hn h)
    rw [step_runHeld hh, hrun, writeTurn, finish_resumed_err]
  case blockFails =>
    rw [step_blockHeld hh, writeResume_fails hn h]
    rfl

end Sys2Proof.Machine
end

section
/-! The card session over what a card does (spec/43_card_session.md R170 to R186): INITIALIZE, WAKE_UP and GET_STATUS. -/

namespace Sys2Proof.Machine

/-! ## INITIALIZE (R171 to R182) -/

/-- A card that resolves a type. -/
theorem exec_initialize_resolves {s : State} (hf : s.lockFree = true) (x : CardInit) {rest : List Reply}
    (hx : x.ok s.cfg = true) (hc : s.card = replies x.bytes ++ rest) : exec .initializeCard s =
      .next { s.served (x.events ++ [.setSpeed .fast]) rest (.cardType x.type) with
        ctype := x.type, speed := .fast, fsm := .typeResolved, warnIdleR1 := x.warn, visits := x.visits ++ s.visits } := by
  obtain ⟨d, f, v, hbody, hvisits⟩ := initBody_resolves (initFrom_begin s) x rest hx hc
  rw [exec_init_ok hf hbody, ← hvisits]
  rfl

/-- R170: ten filler bytes as the script of a card has them. -/
theorem exists_fillers {pre : List Byte} (h : pre.length = 10) : ∃ v : Vector Byte 10, v.toList = pre :=
  ⟨⟨pre.toArray, by simpa using h⟩, by simp⟩

/-- Settles O42: the script of a v2 card. -/
theorem initializeResolvesV2Card : Obligations.InitializeResolvesV2Card := by
  intro s pre a0 a8 a58 echo ocr tries last rest type hf hpre h0 h8 hi8 hm8 hecho htries hlast hready hn h58 hi58 hm58
    htype hc
  obtain ⟨v, rfl⟩ := exists_fillers hpre
  subst htype
  refine exec_initialize_resolves hf (.v2 v a0 a8 echo tries last a58 ocr) ?ok hc
  have hloop : tries.all (fun t => t.ok s.cfg .acmdHcs && !t.ready) = true := by simpa using htries
  simpa [CardInit.ok, h0, h8, hm8, hecho, hloop, hlast, hready, hn, h58, hm58] using And.intro hi8 hi58

/-- Settles O43: the script of an SD v1 card. -/
theorem initializeResolvesSdV1Card : Obligations.InitializeResolvesSdV1Card := by
  intro s pre a0 a8 tries last rest hf hpre h0 h8 hi8 htries hlast hready hn hc
  obtain ⟨v, rfl⟩ := exists_fillers hpre
  refine exec_initialize_resolves hf (.sdV1 v a0 a8 tries last) ?ok hc
  have hloop : tries.all (fun t => t.ok s.cfg .acmd && !t.ready && !t.illegal) = true := by simpa [and_assoc] using htries
  simp [CardInit.ok, h0, h8, hi8, hloop, hlast, hready, hn]

/-- Settles O44: the script of an MMC card. -/
theorem initializeResolvesMmcCard : Obligations.InitializeResolvesMmcCard := by
  intro s pre a0 a8 tries tries1 stop last1 rest hf hpre h0 h8 hi8 htries hstop hnot hillegal hn htries1 hlast hready hn1 hc
  obtain ⟨v, rfl⟩ := exists_fillers hpre
  refine exec_initialize_resolves hf (.mmc v a0 a8 tries stop tries1 last1) ?ok hc
  have hloop : tries.all (fun t => t.ok s.cfg .acmd && !t.ready && !t.illegal) = true := by simpa [and_assoc] using htries
  have hloop1 : tries1.all (fun t => t.ok s.cfg .cmd1 && !t.ready) = true := by simpa using htries1
  simp [CardInit.ok, h0, h8, hi8, hloop, hstop, hnot, hillegal, hn, hloop1, hlast, hready, hn1]

/-- Settles O45: the body of the sequence over a script that fails it. -/
theorem initializeFailsEarly : Obligations.InitializeFailsEarly := by
  intro s x rest hf hx hc
  obtain ⟨d, f, v, hbody, hvisits⟩ := initBody_cut (initFrom_begin s) x rest hx hc
  rw [exec_init_err hf hbody, ← hvisits]
  rfl

/-! ### The legacy path (R174, R177, R186) -/

theorem initSequence_resolved {s t : State} {c : CardType} (h : initBody s.initStart = .ok c t) :
    initSequence s = ((t.setCtype c).enter .typeResolved).requestSpeed .fast := by
  rw [initSequence, h]

theorem initSequence_failed {s t : State} {k : ErrKind} (h : initBody s.initStart = .err k t) :
    initSequence s = (t.enter .failed).setErr k := by
  rw [initSequence, h]

/-- R177: from LEGACY_PATH on, the sequence ends in SDv1, in MMCv3 or in failure, and STATE takes no value but these. -/
theorem initSequence_legacy {s u : State} (h : initBody s.initStart = legacyPath u) (hu : u.ctype = .unknown) :
    ∃ new, (initSequence s).visits = new ++ u.visits ∧ .voltageCheckedV2 ∉ new ∧
      ((initSequence s).ctype = .sdV1 ∨ (initSequence s).ctype = .mmcV3 ∨ (initSequence s).ctype = .unknown) := by
  obtain ⟨t, hpath, hm, -⟩ | ⟨t, hpath, hm, -⟩ | ⟨k, t, hpath, hm⟩ := legacyPath_moved u
  · rw [initSequence_resolved (h.trans hpath)]
    exact ⟨[.typeResolved], congrArg _ hm, by decide, .inl rfl⟩
  · rw [initSequence_resolved (h.trans hpath)]
    exact ⟨[.typeResolved, .legacyMmc], congrArg _ hm, by decide, .inr (.inl rfl)⟩
  · have hctype : t.ctype = .unknown := ((inSession_card.legacyPath inSession_session).err hpath).ctype.trans hu
    rw [initSequence_failed (h.trans hpath)]
    obtain ⟨hm, -⟩ | ⟨hm, -⟩ := hm
    · exact ⟨[.failed], congrArg _ hm, by decide, .inr (.inr hctype)⟩
    · exact ⟨[.failed, .legacyMmc], congrArg _ hm, by decide, .inr (.inr hctype)⟩

/-- Settles O46: after CMD8's illegal-command the sequence is on the legacy path, which does not lead to the v2 path. -/
theorem illegalCmd8NeverReachesV2Path : Obligations.IllegalCmd8NeverReachesV2Path := by
  intro s pre a0 a8 rest hf hpre h0 h8 hi hc
  have hcard : s.begin.card = replies (pre ++ a0.bytes) ++ (replies a8.bytes ++ rest) := by
    rw [← List.append_assoc, ← replies_append]
    exact hc
  obtain ⟨d, hbody⟩ := initBody_answered (initFrom_begin s) pre a0 _ hpre h0 hcard
  obtain ⟨d', hlegacy⟩ := voltageCheck_legacy (s := s) a8 h8 hi
  obtain ⟨new, hvisits, hv2, htype⟩ := initSequence_legacy (hbody.trans hlegacy) rfl
  refine ⟨_, new ++ [.voltageCheckedLegacy, .idleConfirmed, .spiReset, .unidentified],
    hostOp_free hf fun u => typeTurn (initSequence u), ?visits, by simp, by simp [hv2], htype⟩
  rw [List.append_assoc]
  exact hvisits

/-! ## WAKE_UP (R183) -/

/-- The loop that wakes a card of this type, with its budget. -/
def WakesBy (s : State) (w : LoopCommand) (n : Nat) : Prop :=
  (s.ctype = .mmcV3 ∨ s.ctype = .sdV1) ∧ w = .cmd1 ∧ n = s.cfg.nInitMmc ∨
    (s.ctype = .sdV2Byte ∨ s.ctype = .sdV2Block) ∧ w = .acmdHcs ∧ n = s.cfg.nInitV2

theorem WakesBy.resolved {s : State} {w : LoopCommand} {n : Nat} (h : WakesBy s w n) : s.ctype ≠ .unknown := by
  obtain ⟨ht | ht, -⟩ | ⟨ht | ht, -⟩ := h <;> simp [ht]

theorem WakesBy.wakeLoop_eq {s : State} {w : LoopCommand} {n : Nat} (h : WakesBy s w n) :
    wakeLoop s.ctype s.begin = retryLoop w n false s.begin := by
  obtain ⟨ht | ht, rfl, rfl⟩ | ⟨ht | ht, rfl, rfl⟩ := h <;> rw [ht] <;> rfl

/-- R183: how WAKE_UP ends by how its loop ends. -/
def wakeTurn : Res LoopEnd → Turn
  | .ok .ready t => .done (.wake .ready) t
  | .ok .exhausted t | .ok .illegal t => .done (.wake .notReady) (t.setErr .timeout)
  | .err k t => .done (.wake .error) (t.setErr k)

theorem wakeSequence_eq (s : State) : wakeSequence s = wakeTurn (wakeLoop s.ctype s) := by
  unfold wakeSequence wakeTurn
  rcases wakeLoop s.ctype s with ⟨_ | _ | _, t⟩ | ⟨k, t⟩ <;> rfl

/-- R203, R212: WAKE_UP of a resolved type is the loop of the type, in the lock. -/
theorem WakesBy.exec_wakeUp {s : State} {w : LoopCommand} {n : Nat} (h : WakesBy s w n) (hf : s.lockFree = true) :
    exec .wakeUp s = .next (wakeTurn (retryLoop w n false s.begin)).finish := by
  rw [← h.wakeLoop_eq, ← show s.begin.ctype = s.ctype from rfl, ← wakeSequence_eq,
    ← typeChecked_known (s := s.begin) h.resolved (.wake .error) wakeSequence]
  exact hostOp_free hf _

/-- Settles O49: how WAKE_UP ends follows how the loop of its type ends. -/
theorem wakeUpRunsLoopOfType : Obligations.WakeUpRunsLoopOfType := by
  intro s w n tries rest hf hw htries
  have hwake : WakesBy s w n := hw
  have hgoOn : ∀ t ∈ tries, t.ok s.cfg w = true ∧ loopVerdict false t.attempt = none := fun t ht =>
    ⟨(htries t ht).1, loopVerdict_none (htries t ht).1 (htries t ht).2 (Bool.and_false _)⟩
  refine ⟨fun last hl hr hn hc => ?ready, fun hn h1 hc => ?exhausted, fun last hl hn hc => ?lost⟩
  case ready =>
    obtain ⟨d, hloop⟩ := gives_retryLoop_ready (d := s.dp) w n false tries last
      (fun t ht => ⟨(htries t ht).1, (htries t ht).2, Bool.and_false _⟩) hl hr hn
    have hend : retryLoop w n false s.begin = _ := hloop s.begin rest rfl rfl hc
    rw [hwake.exec_wakeUp hf, hend, outcome_ok, wakeTurn, finish_saw]
  case exhausted =>
    have hne : tries ≠ [] := List.length_pos_iff.1 (hn ▸ h1)
    obtain ⟨d, hloop⟩ := gives_retryFrom_exhausted (d := s.dp) w n false tries hne hgoOn
    rw [hn] at hloop
    have hend : retryLoop w n false s.begin = _ := hloop s.begin rest rfl rfl hc
    rw [hwake.exec_wakeUp hf, hend, outcome_ok, wakeTurn, finish_saw_err]
  case lost =>
    obtain ⟨d, hloop⟩ := retryFrom_lost w n false tries last hgoOn hl n hn s.begin rest rfl (by simpa using hc)
    have hend : retryLoop w n false s.begin = _ := hloop
    rw [hwake.exec_wakeUp hf, hend, wakeTurn, finish_saw_err]

/-! ## GET_STATUS (R184) -/

theorem exec_getStatus {s : State} (hf : s.lockFree = true) : exec .getStatus s = .next (statusQuery s.begin).finish :=
  hostOp_free hf _

/-- R76: bit 8 of a composed R2 is the idle bit of its R1. -/
theorem classifyStatus_append (r b : Byte) :
    classifyStatus (r ++ b) = if r.getLsbD 0 then .notInitialized else .ready := by
  have hbit : (r ++ b).getLsbD 8 = r.getLsbD 0 := by rw [BitVec.getLsbD_append]; rfl
  rw [classifyStatus, r2Idle, hbit]

/-- R114: CMD13 that is answered, in any state. -/
theorem command13_answered {c : Config} {d : Datapath} {a : Answer} {b : Byte} (ha : a.ok c = true)
    (hi : a.r1.getLsbD 2 = false) (hm : a.more = [b]) :
    ∃ d', GivesTxn c (command 13 0 .r2) d a.bytes (a.events statusFrame) d' (.ok (a.r1 ++ b)) :=
  ⟨_, cmd13Frame_eq ▸ gives_command_r2 13 0 a b ha hi hm⟩

/-- Settles O50: an answered CMD13 is classified and nothing else is done. -/
theorem getStatusClassifiesAnswer : Obligations.GetStatusClassifiesAnswer := by
  intro s a b rest hf ha hi hm hc
  obtain ⟨d, hcommand⟩ := command13_answered (d := s.dp) ha hi hm
  have hanswer := hcommand s.begin rest rfl rfl hc
  rw [exec_getStatus hf, statusQuery, hanswer]
  exact congrArg Host.Outcome.next ((finish_saw s _ rest d _).trans (by rw [classifyStatus_append]; rfl))

/-- Settles O51: a failure other than IoError leads to the initialization sequence, whose failure is the answer. -/
theorem getStatusWithoutAnswer : Obligations.GetStatusWithoutAnswer := by
  intro s miss rest hf hmiss
  refine ⟨fun hk x hx hc => ?reinitialized, fun hk hc => ?ioError⟩
  case reinitialized =>
    obtain ⟨d0, hcommand⟩ := command13_cut miss hmiss s.begin (x.outcomes ++ rest) rfl hc
    obtain ⟨d, f, v, hbody, hvisits⟩ :=
      initBody_cut (initFrom_saw s (miss.events statusFrame) (x.outcomes ++ rest) d0) x rest hx rfl
    rw [exec_getStatus_failed hk hf hcommand hbody, ← hvisits]
    rfl
  case ioError =>
    obtain ⟨d, hcommand⟩ := command13_cut miss hmiss s.begin rest rfl hc
    rw [hk] at hcommand
    rw [exec_getStatus hf, statusQuery, hcommand]
    exact congrArg Host.Outcome.next (finish_saw_err s _ rest d _ _)

/-- Settles O52: the retry is one CMD13, answered or failing. -/
theorem getStatusRetriesOnce : Obligations.GetStatusRetriesOnce := by
  intro s miss x rest done hf hmiss hk hx hdone
  refine ⟨fun a b ha hi hm hc => ?answered, fun again hagain hc => ?failed⟩
  case answered =>
    have hcard : s.card = miss.outcomes ++ (replies x.bytes ++ (replies a.bytes ++ rest)) := by
      rw [hc, replies_append, List.append_assoc]
    rw [hdone, exec_getStatus_retried (o := .ok (a.r1 ++ b)) hf hmiss hk hx hcard fun u hcfg hu => ?retry]
    case retry =>
      obtain ⟨d, hcommand⟩ := command13_answered (d := u.dp) (hcfg ▸ ha) hi hm
      exact ⟨d, hcommand u rest rfl rfl hu⟩
    simp only [classifyStatus_append]
    rfl
  case failed =>
    rw [hdone, exec_getStatus_retried (o := .error again.kind) hf hmiss hk hx hc fun u hcfg hu => ?retry]
    case retry => exact command13_cut again (hcfg ▸ hagain) u rest rfl hu

end Sys2Proof.Machine
end
